-- ==== Sys2Proof/Word.lean ====
section
/-! DEFINITION. The words of this block: bytes, 16-bit DDR words and 32-bit registers (spec/00_scope.md R11, R12). -/

namespace Sys2Proof

/-- An SDR data byte, or one byte of TXB or RXB (R11). -/
abbrev Byte := BitVec 8

/-- An HDR-DDR word (R11). -/
abbrev DdrWord := BitVec 16

/-- A host register, or a coprocessor command or response word (R11). -/
abbrev Word32 := BitVec 32

/-- A 7-bit bus address (R11). -/
abbrev BusAddr := BitVec 7

end Sys2Proof
end

