-- ==== Sys2Proof/Syntax.lean ====
section
/-! DEFINITION. The host operations of the block, one constructor per row of spec/opcode_table.json
(spec/30_encoding.md R102, R105). A field an opcode ignores (R102, "-") is no argument of its constructor. -/

namespace Sys2Proof

/-- A host operation with its operands. Lengths are counts and therefore `Nat`; `Instr.wf` bounds them by the
16-bit fields of `DESC1` (R101). -/
inductive Instr where
  /-- 0x01, R240: write `nbytes` bytes of TXB to `addr`. -/
  | privateWrite (addr : BusAddr) (nbytes : Nat)
  /-- 0x02, R241: read up to `maxLen` bytes from `addr`. -/
  | privateRead (addr : BusAddr) (maxLen : Nat)
  /-- 0x03, R242: write `nbytes` bytes, then read up to `maxReadLen`. -/
  | privateWriteRead (addr : BusAddr) (nbytes maxReadLen : Nat)
  /-- 0x10, R245: broadcast CCC, code and data in `TXB[0..nbytes-1]`. -/
  | cccBcastWrite (nbytes : Nat)
  /-- 0x11, R246: direct CCC write, `bcLen` broadcast bytes and `dirLen` direct bytes. -/
  | cccDirectWrite (addr : BusAddr) (bcLen dirLen : Nat)
  /-- 0x12, R247: direct CCC read, `bcLen` broadcast bytes, up to `maxLen` bytes back. -/
  | cccDirectRead (addr : BusAddr) (bcLen maxLen : Nat)
  /-- 0x13, R250: assign the dynamic address `addr`. -/
  | entdaa (addr : BusAddr)
  /-- 0x14, R251: reset all dynamic addresses. -/
  | rstdaa
  /-- 0x20, R255: probe `addr`. -/
  | checkAck (addr : BusAddr)
  /-- 0x21, R256: the arbitration header alone. -/
  | arbHeaderOnly
  /-- 0x22, R262: service an interrupt, at most `maxLen` payload bytes. -/
  | poll (maxLen : Nat)
  /-- 0x30, R310: HDR-DDR write of `nwords` words. -/
  | ddrWrite (addr : BusAddr) (cmd : Byte) (fwr : Bool) (nwords : Nat)
  /-- 0x31, R320: HDR-DDR read of up to `maxWords` words. -/
  | ddrRead (addr : BusAddr) (cmd : Byte) (fwr : Bool) (maxWords : Nat)
  /-- 0x40, R350: set the DDR capability flags. -/
  | setDdrConfig (ackEn etEn crcEt : Bool)
  /-- 0x41, R351: set the bus clock rate in kHz. -/
  | setClock (khz : Nat)
  /-- 0x42, R352: set the pad drive strength in mA. -/
  | setDrive (ma : Nat)
  /-- 0x43, R353: target reset. -/
  | targetReset
  deriving DecidableEq, Repr

end Sys2Proof
end

