-- ==== Sys2Proof/WellFormed.lean ====
section
/-! DEFINITION. Which operations a descriptor can carry: every length or configuration value fits its 16-bit field
of `DESC1` (spec/30_encoding.md R101, R102). Addresses, command codes and flags fit by their types. -/

namespace Sys2Proof

/-- `LEN_A` and `LEN_B` are 16-bit unsigned fields (R101). -/
abbrev fitsLen (n : Nat) : Bool := decide (n < 65536)

/-- The operation has an encoding: one check per length field it uses (R102). -/
def Instr.wf (i : Instr) : Bool :=
  match i with
  | .privateWrite _ la => fitsLen la
  | .privateRead _ lb => fitsLen lb
  | .privateWriteRead _ la lb => fitsLen la && fitsLen lb
  | .cccBcastWrite la => fitsLen la
  | .cccDirectWrite _ la lb => fitsLen la && fitsLen lb
  | .cccDirectRead _ la lb => fitsLen la && fitsLen lb
  | .entdaa _ => true
  | .rstdaa => true
  | .checkAck _ => true
  | .arbHeaderOnly => true
  | .poll lb => fitsLen lb
  | .ddrWrite _ _ _ la => fitsLen la
  | .ddrRead _ _ _ lb => fitsLen lb
  | .setDdrConfig _ _ _ => true
  | .setClock la => fitsLen la
  | .setDrive la => fitsLen la
  | .targetReset => true

end Sys2Proof
end

