-- ==== Sys2Proof/Decode.lean ====
section
/-! DEFINITION. The descriptor format (spec/30_encoding.md R100 to R103, R105, R108): the decoder, total on any two
words and rejecting by name, then the encoder written from the same table. -/

namespace Sys2Proof

/-- Why a descriptor is no operation (R108). The engine answers each with `ParamOutOfRange`. -/
inductive Reject where
  /-- `DESC0[15]`, RSV0, is not 0. -/
  | reservedBit15
  /-- `DESC0[31:27]`, RSV1, is not 0. -/
  | reservedBits31to27
  /-- The OP field is not in the table of R105. -/
  | undefinedOpcode
  deriving DecidableEq, Repr

/-- OP, `DESC0[7:0]` (R100). -/
def opField (d0 : Word32) : Byte := d0.extractLsb' 0 8

/-- ADDR, `DESC0[14:8]` (R100). -/
def addrField (d0 : Word32) : BusAddr := d0.extractLsb' 8 7

/-- CMD, `DESC0[23:16]` (R100). -/
def cmdField (d0 : Word32) : Byte := d0.extractLsb' 16 8

/-- RSV1, `DESC0[31:27]` (R100). -/
def rsv1Field (d0 : Word32) : BitVec 5 := d0.extractLsb' 27 5

/-- LEN_A, `DESC1[15:0]`, unsigned (R101). -/
def lenA (d1 : Word32) : Nat := (d1.extractLsb' 0 16).toNat

/-- LEN_B, `DESC1[31:16]`, unsigned (R101). -/
def lenB (d1 : Word32) : Nat := (d1.extractLsb' 16 16).toNat

/-- The operation of a defined opcode, its operands read as R102 gives them; none where OP is not in R105. -/
def decodeOp (d0 d1 : Word32) : Option Instr :=
  match (opField d0).toNat with
  | 0x01 => some (.privateWrite (addrField d0) (lenA d1))
  | 0x02 => some (.privateRead (addrField d0) (lenB d1))
  | 0x03 => some (.privateWriteRead (addrField d0) (lenA d1) (lenB d1))
  | 0x10 => some (.cccBcastWrite (lenA d1))
  | 0x11 => some (.cccDirectWrite (addrField d0) (lenA d1) (lenB d1))
  | 0x12 => some (.cccDirectRead (addrField d0) (lenA d1) (lenB d1))
  | 0x13 => some (.entdaa (addrField d0))
  | 0x14 => some .rstdaa
  | 0x20 => some (.checkAck (addrField d0))
  | 0x21 => some .arbHeaderOnly
  | 0x22 => some (.poll (lenB d1))
  | 0x30 => some (.ddrWrite (addrField d0) (cmdField d0) (d0.getLsbD 24) (lenA d1))
  | 0x31 => some (.ddrRead (addrField d0) (cmdField d0) (d0.getLsbD 24) (lenB d1))
  | 0x40 => some (.setDdrConfig (d0.getLsbD 24) (d0.getLsbD 25) (d0.getLsbD 26))
  | 0x41 => some (.setClock (lenA d1))
  | 0x42 => some (.setDrive (lenA d1))
  | 0x43 => some .targetReset
  | _ => none

/-- The decoder of a submitted descriptor: reserved bits first, then the opcode (R108; the answer is the same
whichever of them is wrong). -/
def decode (d0 d1 : Word32) : Except Reject Instr :=
  if d0.getLsbD 15 then .error .reservedBit15
  else if rsv1Field d0 ≠ 0 then .error .reservedBits31to27
  else match decodeOp d0 d1 with
    | some i => .ok i
    | none => .error .undefinedOpcode

/-- `DESC0` from its fields: `{RSV1 = 0, F2, F1, F0, CMD, RSV0 = 0, ADDR, OP}` (R100). -/
def desc0Of (op : Byte) (addr : BusAddr) (cmd : Byte) (f0 f1 f2 : Bool) : Word32 :=
  0#5 ++ BitVec.ofBool f2 ++ BitVec.ofBool f1 ++ BitVec.ofBool f0 ++ cmd ++ 0#1 ++ addr ++ op

/-- `DESC1` from its fields: `{LEN_B, LEN_A}` (R101). -/
def desc1Of (la lb : Nat) : Word32 :=
  BitVec.ofNat 16 lb ++ BitVec.ofNat 16 la

/-- The opcode of each operation (R105). -/
def Instr.opcode (i : Instr) : Byte :=
  match i with
  | .privateWrite _ _ => 0x01
  | .privateRead _ _ => 0x02
  | .privateWriteRead _ _ _ => 0x03
  | .cccBcastWrite _ => 0x10
  | .cccDirectWrite _ _ _ => 0x11
  | .cccDirectRead _ _ _ => 0x12
  | .entdaa _ => 0x13
  | .rstdaa => 0x14
  | .checkAck _ => 0x20
  | .arbHeaderOnly => 0x21
  | .poll _ => 0x22
  | .ddrWrite _ _ _ _ => 0x30
  | .ddrRead _ _ _ _ => 0x31
  | .setDdrConfig _ _ _ => 0x40
  | .setClock _ => 0x41
  | .setDrive _ => 0x42
  | .targetReset => 0x43

/-- The descriptor `(DESC0, DESC1)` of an operation; fields it does not use are 0 (R102). -/
def encode (i : Instr) : Word32 × Word32 :=
  match i with
  | .privateWrite a la => (desc0Of 0x01 a 0 false false false, desc1Of la 0)
  | .privateRead a lb => (desc0Of 0x02 a 0 false false false, desc1Of 0 lb)
  | .privateWriteRead a la lb => (desc0Of 0x03 a 0 false false false, desc1Of la lb)
  | .cccBcastWrite la => (desc0Of 0x10 0 0 false false false, desc1Of la 0)
  | .cccDirectWrite a la lb => (desc0Of 0x11 a 0 false false false, desc1Of la lb)
  | .cccDirectRead a la lb => (desc0Of 0x12 a 0 false false false, desc1Of la lb)
  | .entdaa a => (desc0Of 0x13 a 0 false false false, desc1Of 0 0)
  | .rstdaa => (desc0Of 0x14 0 0 false false false, desc1Of 0 0)
  | .checkAck a => (desc0Of 0x20 a 0 false false false, desc1Of 0 0)
  | .arbHeaderOnly => (desc0Of 0x21 0 0 false false false, desc1Of 0 0)
  | .poll lb => (desc0Of 0x22 0 0 false false false, desc1Of 0 lb)
  | .ddrWrite a c f la => (desc0Of 0x30 a c f false false, desc1Of la 0)
  | .ddrRead a c f lb => (desc0Of 0x31 a c f false false, desc1Of 0 lb)
  | .setDdrConfig ack et crcet => (desc0Of 0x40 0 0 ack et crcet, desc1Of 0 0)
  | .setClock la => (desc0Of 0x41 0 0 false false false, desc1Of la 0)
  | .setDrive la => (desc0Of 0x42 0 0 false false false, desc1Of la 0)
  | .targetReset => (desc0Of 0x43 0 0 false false false, desc1Of 0 0)

/-- How many TXB bytes the operation sends (R103). -/
def Instr.payloadLen (i : Instr) : Nat :=
  match i with
  | .privateWrite _ la => la
  | .privateRead _ _ => 0
  | .privateWriteRead _ la _ => la
  | .cccBcastWrite la => la
  | .cccDirectWrite _ la lb => la + lb
  | .cccDirectRead _ la _ => la
  | .entdaa _ => 0
  | .rstdaa => 0
  | .checkAck _ => 0
  | .arbHeaderOnly => 0
  | .poll _ => 0
  | .ddrWrite _ _ _ la => 2 * la
  | .ddrRead _ _ _ _ => 0
  | .setDdrConfig _ _ _ => 0
  | .setClock _ => 0
  | .setDrive _ => 0
  | .targetReset => 0

/-- The two descriptor words of a table word: `DESC0` is its low 32 bits, `DESC1` the next 32 (opcode_table.json
numbers bit 0 as the least significant bit of the first word). Bits at `nbits` and above are 0. -/
def tableWords (nbits w : Nat) : Word32 × Word32 :=
  (BitVec.ofNat 32 (w % 2 ^ nbits), BitVec.ofNat 32 (w % 2 ^ nbits / 2 ^ 32))

/-- What the decoder reads from a table word. -/
def decodeTableWord (nbits w : Nat) : Option Instr :=
  match decode (tableWords nbits w).1 (tableWords nbits w).2 with
  | .ok i => some i
  | .error _ => none

end Sys2Proof
end

