-- ==== Sys2Proof/Machine/Command.lean ====
section
/-! DEFINITION. The coprocessor's programs and the alphabet of commands the engine sends it
(spec/30_encoding.md R119 to R133). -/

namespace Sys2Proof.Machine

/-- The coprocessor program, and so the engine mode (spec/10_state.md R31, R48). -/
inductive Mode where
  | sdr
  | ddr
  deriving DecidableEq, Repr

/-- An abstract coprocessor command (R120). A payload of `n` slots is an `n`-bit value, sent bit `n-1` first. -/
inductive CpCmd where
  /-- START condition (R121). -/
  | start
  /-- Repeated START (R122). -/
  | restart
  /-- STOP condition (R123). -/
  | stop
  /-- `n` open-drain slots driven from `v`, every slot sampled (R124). -/
  | od (n : Nat) (v : BitVec n)
  /-- `n` push-pull slots driven from `v` (R125). -/
  | pp (n : Nat) (v : BitVec n)
  /-- One SDR byte read; `c` lets the target drive the T slot (R126). -/
  | rdb (c : Bool)
  /-- The target reset waveform (R127). -/
  | trst
  /-- `n` HDR-DDR slots driven from `v` (R128). -/
  | dw (n : Nat) (v : BitVec n)
  /-- A DDR write preamble whose second slot is sampled (R129). -/
  | dpre
  /-- `n` HDR-DDR slots released and sampled (R130). -/
  | dr (n : Nat)
  /-- The HDR-Restart waveform (R131). -/
  | hrestart
  /-- The HDR-Exit waveform, then STOP (R132). -/
  | hexit
  deriving DecidableEq, Repr

/-- The program that runs the command (R120, R133). -/
def CpCmd.program (c : CpCmd) : Mode :=
  match c with
  | .start => .sdr
  | .restart => .sdr
  | .stop => .sdr
  | .od _ _ => .sdr
  | .pp _ _ => .sdr
  | .rdb _ => .sdr
  | .trst => .sdr
  | .dw _ _ => .ddr
  | .dpre => .ddr
  | .dr _ => .ddr
  | .hrestart => .ddr
  | .hexit => .ddr

/-- The response width W of a sampling command; none for a command that produces no response (R119, R120). -/
def CpCmd.width (c : CpCmd) : Option Nat :=
  match c with
  | .start => none
  | .restart => none
  | .stop => none
  | .od n _ => some n
  | .pp _ _ => none
  | .rdb _ => some 9
  | .trst => none
  | .dw _ _ => none
  | .dpre => some 1
  | .dr n => some n
  | .hrestart => none
  | .hexit => none

/-- The slot counts R120 gives the alphabet. -/
def CpCmd.legal (c : CpCmd) : Bool :=
  match c with
  | .start => true
  | .restart => true
  | .stop => true
  | .od n _ => decide (1 ≤ n ∧ n ≤ 9)
  | .pp n _ => decide (1 ≤ n ∧ n ≤ 9)
  | .rdb _ => true
  | .trst => true
  | .dw n _ => decide (1 ≤ n ∧ n ≤ 20)
  | .dpre => true
  | .dr n => decide (1 ≤ n ∧ n ≤ 20)
  | .hrestart => true
  | .hexit => true

/-- Where the bus stands between and inside operations (spec/60_exceptions.md R426). -/
inductive BusPhase where
  /-- No claim: after reset (spec/70_reset_and_hazards.md R453). -/
  | unknown
  /-- Idle, after STOP (R123), HDR Exit (R132), or the target reset waveform. -/
  | idle
  /-- Inside an SDR frame: a START was made and no STOP yet. -/
  | sdrFrame
  /-- In HDR-DDR mode (R131). -/
  | hdrDdr
  deriving DecidableEq, Repr

/-- The bus after the coprocessor has driven a command (R121 to R132). DEDUCED (notes/assumptions/14.md): `TRST` leaves
it idle, since R426 lists no other place for it. -/
def CpCmd.busAfter (c : CpCmd) : BusPhase :=
  match c with
  | .start => .sdrFrame
  | .restart => .sdrFrame
  | .stop => .idle
  | .od _ _ => .sdrFrame
  | .pp _ _ => .sdrFrame
  | .rdb _ => .sdrFrame
  | .trst => .idle
  | .dw _ _ => .hdrDdr
  | .dpre => .hdrDdr
  | .dr _ => .hdrDdr
  | .hrestart => .hdrDdr
  | .hexit => .idle

/-- One entry of the trace: a command and the response the engine read for it (spec/00_scope.md R6). Responses are
right-aligned in 32 bits, the last slot in bit 0 (R119). -/
structure TraceEntry where
  cmd  : CpCmd
  resp : Option Word32
  deriving DecidableEq, Repr

end Sys2Proof.Machine
end

