-- ==== Sys2Proof/Machine/Codec.lean ====
section
/-! DEFINITION. The coprocessor's contract on 32-bit words, as an argument of the model (spec/00_scope.md R10,
spec/93_implementation_defined.md U1): `CP_ENCODE` and `CP_RESP_DECODE`, each a total function given by a finite table of
the places where it is not the plain one. Every function on the finite alphabet of R120, and every function on 32-bit
words and the widths of R119, is such a table. -/

namespace Sys2Proof.Machine

/-- The low `w` bits of a value, right-aligned (R119). -/
def sample (w : Nat) (a : Word32) : Word32 :=
  (a.setWidth w).setWidth 32

/-- One entry of the table of `CP_ENCODE`: a command and its non-empty list of words (R10). -/
structure EncodeRow where
  cmd  : CpCmd
  head : Word32
  tail : List Word32
  deriving DecidableEq, Repr

/-- `CP_ENCODE c`: the words of the table, and where it has none the one word `plain c`. -/
def cpEncode (plain : CpCmd → Word32) (rows : List EncodeRow) (c : CpCmd) : List Word32 :=
  match rows.find? (fun r => decide (r.cmd = c)) with
  | some r => r.head :: r.tail
  | none => [plain c]

/-- One word in CMDQ: the command it belongs to, and whether it is the last word of that command (spec/10_state.md
R46, spec/40_queue.md R153). -/
structure CmdWord where
  cmd  : CpCmd
  word : Word32
  last : Bool
  deriving DecidableEq, Repr

/-- The words of a command as they enter CMDQ, in order (R153). -/
def tagWords (c : CpCmd) (ws : List Word32) : List CmdWord :=
  match ws with
  | [] => []
  | [w] => [⟨c, w, true⟩]
  | w :: w' :: rest => ⟨c, w, false⟩ :: tagWords c (w' :: rest)

/-- One entry of the table of `CP_RESP_DECODE`: the sample a response word stands for at a width (R10). -/
structure RespRow where
  word   : Word32
  width  : Nat
  sample : Word32
  deriving DecidableEq, Repr

/-- `CP_RESP_DECODE(r, n)`: the sample of the table, and where it has none the word itself; always `n` bits. -/
def respDecode (rows : List RespRow) (r : Word32) (n : Nat) : Word32 :=
  sample n (match rows.find? (fun x => decide (x.word = r ∧ x.width = n)) with
    | some x => x.sample
    | none => r)

/-- The response word by which the coprocessor reports the `n`-bit sample `b`: one that decodes to `b`. -/
def respWord (rows : List RespRow) (n : Nat) (b : Word32) : Word32 :=
  ((b :: rows.map (·.word)).find? (fun r => decide (respDecode rows r n = b))).getD b

/-- Every sample has a response word: what the table hides at a word is reported by another
(spec/93_implementation_defined.md U14; notes/assumptions/8.md). -/
def respLawful (rows : List RespRow) : Bool :=
  rows.all fun x =>
    decide (respDecode rows (respWord rows x.width (sample x.width x.word)) x.width = sample x.width x.word)

end Sys2Proof.Machine
end

