-- ==== Sys2Proof/Machine/Constants.lean ====
section
/-! DEFINITION. The parameters of spec/00_scope.md R10 whose value the spec gives, and the limits of
spec/44_config.md. -/

namespace Sys2Proof.Machine

/-- `UNCHECKED_BATCH` (R10). -/
def uncheckedBatch : Nat := 4

/-- `DDR_CRC_TAG` = 0b10110 (R10, D31; unaudited in the source). -/
def ddrCrcTag : BitVec 5 := 0b10110#5

/-- `DDR_CRC_RX_LSB` = 0 (R10, D32). -/
def ddrCrcRxLsb : Nat := 0

/-- `HJ_ADDR` = 0x02 (R10, D24). -/
def hjAddr : BusAddr := 0x02#7

/-- `BCAST_ADDR` = 0x7E (R10). -/
def bcastAddr : BusAddr := 0x7E#7

/-- `CCC_RSTDAA` (R10). -/
def cccRstdaa : Byte := 0x06#8

/-- `CCC_ENTDAA` (R10). -/
def cccEntdaa : Byte := 0x07#8

/-- `CCC_ENTHDR0`, Enter HDR-DDR (R10). -/
def cccEnthdr0 : Byte := 0x20#8

/-- `CRC5_POLY` (R10). -/
def crc5Poly : BitVec 5 := 0x05#5

/-- `CRC5_INIT` (R10). -/
def crc5Init : BitVec 5 := 0x1F#5

/-- `CLK_MIN_KHZ` (R10, R351). -/
def clkMinKhz : Nat := 49

/-- `CLK_MAX_KHZ` (R10, R351). -/
def clkMaxKhz : Nat := 12500

/-- Membership in `DRIVE_SET_MA` = {2, 4, 8, 12} (R10, R352). -/
def driveLegal (ma : Nat) : Bool :=
  decide (ma = 2) || decide (ma = 4) || decide (ma = 8) || decide (ma = 12)

end Sys2Proof.Machine
end

