-- ==== Sys2Proof/Config.lean ====
section
/-! DEFINITION. What one implementation fixes (the OPEN parameters of spec/00_scope.md R10), and the free values: the
answers of the bus and the draws of the data line, which nothing constrains (R5, R17). None has a value here. -/

namespace Sys2Proof

/-- The OPEN parameters of R10. A machine holds one such record (`State.par`) and no step
changes it, so a statement about every state is a statement about every implementation. -/
structure Params where
  /-- `CQ_DEPTH`, law `>= 4`. -/
  cqDepth : Nat
  /-- `RQ_DEPTH`, law `>= 1`. -/
  rqDepth : Nat
  /-- `TXBUF_BYTES`, law 1..65535. -/
  txbufBytes : Nat
  /-- `RXBUF_BYTES`, law 8..65535. -/
  rxbufBytes : Nat
  /-- `CLK_RESET_KHZ`, law 49..12500. -/
  clkResetKhz : BitVec 14
  /-- `DRIVE_RESET_MA`, law {2, 4, 8, 12}. -/
  driveResetMa : BitVec 4
  /-- `ENTDAA_ID_ACK_BIT`, either value. -/
  entdaaIdAckBit : Bool
  /-- `CP_ENCODE`, where it is not one word given by `Config.cpEncodePlain`. -/
  encodeRows : List Machine.EncodeRow
  /-- `CP_RESP_DECODE`, where it is not the low bits of the response word; law: every sample has a response word. -/
  respRows : List Machine.RespRow
  deriving DecidableEq, Repr

/-- The laws of R10. -/
def Params.lawful (p : Params) : Bool :=
  decide (4 ≤ p.cqDepth) && decide (1 ≤ p.rqDepth)
    && decide (1 ≤ p.txbufBytes ∧ p.txbufBytes ≤ 65535)
    && decide (8 ≤ p.rxbufBytes ∧ p.rxbufBytes ≤ 65535)
    && decide (Machine.clkMinKhz ≤ p.clkResetKhz.toNat ∧ p.clkResetKhz.toNat ≤ Machine.clkMaxKhz)
    && Machine.driveLegal p.driveResetMa.toNat
    && Machine.respLawful p.respRows

/-- `CQ_DEPTH - 4`. -/
opaque Config.cqDepthExtra : Nat

/-- `RQ_DEPTH - 1`. -/
opaque Config.rqDepthExtra : Nat

/-- `TXBUF_BYTES - 1`. -/
opaque Config.txbufExtra : Fin 65535

/-- `RXBUF_BYTES - 8`. -/
opaque Config.rxbufExtra : Fin 65528

/-- `CLK_RESET_KHZ - 49`. -/
opaque Config.clkResetExtra : Fin 12452

/-- Which of 2, 4, 8, 12 is `DRIVE_RESET_MA`. -/
opaque Config.driveResetIndex : Fin 4

/-- `ENTDAA_ID_ACK_BIT`. -/
opaque Config.entdaaIdAckBit : Bool

/-- The table of `CP_ENCODE`. -/
opaque Config.encodeRows : List Machine.EncodeRow

/-- A table for `CP_RESP_DECODE`, lawful or not. -/
opaque Config.respTable : List Machine.RespRow

/-- The table of `CP_RESP_DECODE`: `Config.respTable` where that keeps the law. -/
def Config.respRows : List Machine.RespRow :=
  if Machine.respLawful Config.respTable then Config.respTable else []

/-- `DRIVE_RESET_MA` (R10). -/
def Config.driveResetMa : BitVec 4 :=
  match Config.driveResetIndex with
  | 0 => 2#4
  | 1 => 4#4
  | 2 => 8#4
  | 3 => 12#4

/-- The parameters of the machine whose reset state is `State.reset`: open, but within the laws. -/
def Config.params : Params where
  cqDepth := Config.cqDepthExtra + 4
  rqDepth := Config.rqDepthExtra + 1
  txbufBytes := Config.txbufExtra.val + 1
  rxbufBytes := Config.rxbufExtra.val + 8
  clkResetKhz := BitVec.ofNat 14 (Config.clkResetExtra.val + 49)
  driveResetMa := Config.driveResetMa
  entdaaIdAckBit := Config.entdaaIdAckBit
  encodeRows := Config.encodeRows
  respRows := Config.respRows

/-- The word of a command that the table of `CP_ENCODE` does not list (R10). -/
opaque Config.cpEncodePlain : Machine.CpCmd → Word32

/-- `CP_START_SDR` and `CP_START_DDR`: the start address of each coprocessor program (R10). -/
opaque Config.cpStart : Machine.Mode → Nat

/-- The bus oracle (R5): what the bus answers in its `k`-th answer that no input list fixes. The answer to a command
of width W is its low W bits, the levels sampled on SDA (R119). -/
opaque Config.busAnswer : Nat → Word32

/-- The draws of `sense_sda()` (R17) that no input list fixes; `true` is high. -/
opaque Config.sdaLevel : Nat → Bool

end Sys2Proof
end

