-- ==== Sys2Proof/Machine/Flags.lean ====
section
/-! DEFINITION. The CRC5 and parity calculator and the SDR encoding table (spec/41_crc_parity.md). The block has no
flag register (spec/10_state.md R51); these are its only flag-like computations, all pure. -/

namespace Sys2Proof.Machine

/-- `xorbits`: the XOR of all bits (spec/00_scope.md R13). -/
def xorBits (n : Nat) (v : BitVec n) : Bool :=
  (List.range n).foldl (fun acc k => acc ^^ v.getLsbD k) false

/-- One bit of the CRC5 division, MSB first (R200). -/
def crc5Bit (c : BitVec 5) (b : Bool) : BitVec 5 :=
  if c.getLsbD 4 ^^ b then (c <<< 1) ^^^ crc5Poly else c <<< 1

/-- Fold bits `k-1` down to 0 of a word (R200). -/
def crc5Bits (k : Nat) (c : BitVec 5) (w : DdrWord) : BitVec 5 :=
  match k with
  | 0 => c
  | j + 1 => crc5Bits j (crc5Bit c (w.getLsbD j)) w

/-- `crc5_word(c, w)` (R200). -/
def crc5Word (c : BitVec 5) (w : DdrWord) : BitVec 5 :=
  crc5Bits 16 c w

/-- One shift of the 8-bit container, generator 0x28 (R203). -/
def crc5TabShift (y : Byte) : Byte :=
  if y.getLsbD 7 then (y <<< 1) ^^^ 0x28#8 else y <<< 1

/-- Repeat `crc5TabShift`. -/
def crc5TabShifts (k : Nat) (y : Byte) : Byte :=
  match k with
  | 0 => y
  | j + 1 => crc5TabShifts j (crc5TabShift y)

/-- `CRC5TAB[x]` (R203). -/
def crc5Tab (x : Byte) : Byte :=
  crc5TabShifts 8 x

/-- The container `c8 = c << 3` of the CRC register (spec/10_state.md R39). -/
def crc5Container (c : BitVec 5) : Byte :=
  c ++ 0#3

/-- The table-driven form of `crc5_word` (R203). -/
def crc5WordTab (c : BitVec 5) (w : DdrWord) : BitVec 5 :=
  let c8 := crc5Tab (crc5Container c ^^^ w.extractLsb' 8 8)
  let c8 := crc5Tab (c8 ^^^ w.extractLsb' 0 8)
  c8.extractLsb' 3 5

/-- `PA1(w)`: XOR of the odd-position bits (R210). -/
def pa1 (w : DdrWord) : Bool :=
  w.getLsbD 15 ^^ w.getLsbD 13 ^^ w.getLsbD 11 ^^ w.getLsbD 9
    ^^ w.getLsbD 7 ^^ w.getLsbD 5 ^^ w.getLsbD 3 ^^ w.getLsbD 1

/-- `PA0(w)`: XOR of the even-position bits, complemented (R210). -/
def pa0 (w : DdrWord) : Bool :=
  !(w.getLsbD 14 ^^ w.getLsbD 12 ^^ w.getLsbD 10 ^^ w.getLsbD 8
    ^^ w.getLsbD 6 ^^ w.getLsbD 4 ^^ w.getLsbD 2 ^^ w.getLsbD 0)

/-- `{PA1(w), PA0(w)}`, PA1 first on the bus (R210). -/
def parityPair (w : DdrWord) : BitVec 2 :=
  BitVec.ofBool (pa1 w) ++ BitVec.ofBool (pa0 w)

/-- `adjust(w)` (R211). -/
def adjust (w : DdrWord) : DdrWord :=
  if pa0 w = false then w ^^^ 0x0001#16 else w

/-- The SDR write T-bit: odd parity over byte and T (R214). -/
def tBit (b : Byte) : Bool :=
  !xorBits 8 b

/-- `P(a)`: the parity bit of a dynamic address (R215). -/
def addrParity (a : BusAddr) : Bool :=
  !xorBits 7 a

/-- `dab(a) = {a, P(a)}` (R215). -/
def dab (a : BusAddr) : Byte :=
  a ++ BitVec.ofBool (addrParity a)

/-- The first command of an SDR write byte, `PP 6 b[7:2]` (R220, spec/30_encoding.md R142). -/
def sdrByteHi (b : Byte) : CpCmd :=
  .pp 6 (b.extractLsb' 2 6)

/-- The second command of an SDR write byte, `PP 3 {b[1:0], T(b)}` (R220, R142). -/
def sdrByteLo (b : Byte) : CpCmd :=
  .pp 3 (b.extractLsb' 0 2 ++ BitVec.ofBool (tBit b))

/-- Entry `k` of the SDR table: byte `k / 2`, its first command at even `k` and its second at odd `k` (R220). -/
def sdrTabEntry (k : Nat) : CpCmd :=
  if k % 2 = 0 then sdrByteHi (BitVec.ofNat 8 (k / 2)) else sdrByteLo (BitVec.ofNat 8 (k / 2))

/-- The 512 entries of `ctx.SDRTAB` (R220), as built once at initialisation. -/
def sdrTableList : List CpCmd :=
  (List.range 512).map sdrTabEntry

/-- `ctx.SDRTAB` as initialisation builds it (spec/70_reset_and_hazards.md R451 step 2). -/
def sdrTable : Vector CpCmd 512 :=
  ⟨sdrTableList.toArray, by simp [sdrTableList]⟩

end Sys2Proof.Machine
end

