-- ==== Sys2Proof/Machine/Memory.lean ====
section
/-! DEFINITION. A byte buffer (spec/20_memory.md R70): a list of cells in one canonical form, addresses strictly
rising and no cell equal to what an unlisted address reads as, so that equal buffers are equal data. -/

namespace Sys2Proof.Machine

/-- A byte-indexed buffer from index 0 (R77). -/
abbrev Memory := List Host.Cell

/-- What an index nothing has written reads as. DESIGN CHOICE (notes/assumptions/2.md): the spec gives no contents. -/
def Memory.fill : Byte := 0#8

/-- The byte at an index. -/
def Memory.read (m : Memory) (a : Nat) : Byte :=
  match m with
  | [] => Memory.fill
  | (k, b) :: rest => if a = k then b else Memory.read rest a

/-- Put a byte in front of a buffer whose indices all lie above `a`. -/
def Memory.consCell (a : Nat) (b : Byte) (m : Memory) : Memory :=
  if b = Memory.fill then m else (a, b) :: m

/-- Write one byte, keeping the canonical form. -/
def Memory.write (m : Memory) (a : Nat) (b : Byte) : Memory :=
  match m with
  | [] => Memory.consCell a b []
  | (k, c) :: rest =>
    if a < k then Memory.consCell a b ((k, c) :: rest)
    else if a = k then Memory.consCell a b rest
    else (k, c) :: Memory.write rest a b

/-- The canonical form. -/
abbrev Memory.wf (m : Memory) : Prop :=
  m.Pairwise (fun x y => x.1 < y.1) ∧ ∀ c ∈ m, c.2 ≠ Memory.fill

/-- Write bytes at rising indices. -/
def Memory.writeList (m : Memory) (a : Nat) (bs : List Byte) : Memory :=
  match bs with
  | [] => m
  | b :: rest => Memory.writeList (Memory.write m a b) (a + 1) rest

end Sys2Proof.Machine
end

