-- ==== Sys2Proof/Machine/State.lean ====
section
/-! DEFINITION. The state of the block (spec/10_state.md), the reasons a step can stop, and the state after reset
(spec/70_reset_and_hazards.md R452). -/

namespace Sys2Proof.Machine

/-- The status codes of the result word, in the order of spec/30_encoding.md R107. -/
inductive Status where
  | ok
  | ibi
  | nakDuringArbHdr
  | nakDuringSdrAddr
  | paramOutOfRange
  | noIbi
  | nakDdr
  | ddrEarlyTermination
  | ddrInvalidPreamble
  | ddrParityWrong
  | ddrCrcWrong
  deriving DecidableEq, Repr

/-- What the host can do to the block: the accesses of spec/10_state.md R41 to R45 and the reset of
spec/70_reset_and_hazards.md R450. -/
inductive HostAct where
  /-- Write `DESC0` (R42). -/
  | writeDesc0 (w : Word32)
  /-- Write `DESC1`, which submits the operation (R42, R232). -/
  | writeDesc1 (w : Word32)
  /-- Write one byte of TXB (R44). -/
  | writeTxb (i : Nat) (b : Byte)
  /-- Read `RES0` (R43). -/
  | readRes0
  /-- Read one byte of RXB (R45). -/
  | readRxb (i : Nat)
  /-- Read `BUSY` (R41, R454). -/
  | readBusy
  /-- Controller restart (R450). -/
  | restart
  deriving DecidableEq, Repr

/-- `ctx.DDRCFG` (R34). -/
structure DdrCfg where
  ackEn : Bool
  etEn  : Bool
  crcEt : Bool
  deriving DecidableEq, Repr

/-- Why the machine stops. Each is safe: the model stops where the spec says a model faults or has no step. -/
inductive Fault where
  /-- The coprocessor never frees a slot, never answers or never returns to its start address; raised by an operation
  that waits for it, and by the step of a block that is stuck and has no access of the host to come
  (spec/60_exceptions.md R408, spec/93_implementation_defined.md U27: no step). Safe. -/
  | stuck
  /-- A command the loaded program does not run was emitted; raised by `put` (spec/30_encoding.md R133, U21). Safe;
  the engine never does it. -/
  | wrongProgram
  /-- `load_program` with commands or responses in flight; raised by `loadProgram` (spec/40_queue.md R156, U22).
  Safe; the engine never does it. -/
  | loadInFlight
  /-- An unchecked put beyond the four words directly after a wait, or into a full CMDQ; raised by `putWordUnchecked`
  (R161, R460, U23). Safe; no operation uses it. -/
  | uncheckedPut
  /-- A sampling command ran at the wrong sample width; raised by the coprocessor (R461, U24). Safe; the engine never
  does it. -/
  | wrongWidth
  /-- A response arrived with the response FIFO full; raised by the coprocessor (spec/10_state.md R47, R467). Safe;
  the engine never lets it happen. -/
  | rspqOverflow
  /-- A buffer index at or beyond the buffer's size; raised by buffer accesses (spec/20_memory.md R70, R75). Safe; the
  engine never does it. -/
  | bufferBound
  /-- The host read `RES0` or RXB while `BUSY = 1`; raised by the host port (R87, U26). Safe. -/
  | hostReadWhileBusy
  /-- The host read `RES0` before the first `finish`; raised by the host port (R43, U8). Safe. -/
  | res0Unwritten
  /-- The host read an RXB byte the last result does not define; raised by the host port (R45, U7). Safe. -/
  | rxbUnspecified
  deriving DecidableEq, Repr

/-- Why a step is not taken. -/
inductive Refusal where
  /-- An instruction without a meaning yet; raised by `exec`. Safe. -/
  | notModelled (mnemonic : String)
  /-- A host write of DESC0, DESC1 or TXB while `BUSY = 1`; raised by the host port (spec/20_memory.md R87, U25).
  Safe. -/
  | hostWriteWhileBusy
  deriving DecidableEq, Repr

/-- How a coprocessor will fail (spec/60_exceptions.md R408): after how many more words, never for `none`; and whether,
stopped there, it still returns to its start address. -/
structure CpFate where
  budget  : Option Nat
  returns : Bool
  deriving DecidableEq, Repr

/-- A coprocessor that never fails (R7). -/
def CpFate.live : CpFate := ⟨none, true⟩

/-- The machine. The first group is the spec's own state; the second is the model's: the implementation's parameters,
the inputs from outside, and what the spec lets an observer see (INVENTORY.md, State). -/
structure State where
  /-- CTX0 (R31). -/
  mode : Mode
  /-- CTX1, V (R32). -/
  arbpV : Bool
  /-- CTX1, B (R33). -/
  arbpB : Byte
  /-- CTX2 (R34). -/
  ddrCfg : DdrCfg
  /-- CTX3 (R35). -/
  clkKhz : BitVec 14
  /-- CTX4 (R36). -/
  driveMa : BitVec 4
  /-- CTX5 (R37), each entry the abstract command whose `CP_ENCODE` word the table holds. -/
  sdrTab : Vector CpCmd 512
  /-- CTX6 (R38); `none` is the spec's "unknown". -/
  sampleW : Option Nat
  /-- CTX7 (R39). -/
  crc : BitVec 5
  /-- `BUSY` (R41). -/
  busy : Bool
  /-- `DESC0` (R42). -/
  desc0 : Word32
  /-- `DESC1` (R42). -/
  desc1 : Word32
  /-- `RES0` (R43). -/
  res0 : Word32
  /-- TXB (R44). -/
  txb : Memory
  /-- RXB (R45). -/
  rxb : Memory
  /-- `CMDQ`, oldest first, word by word (R46, R153). -/
  cmdq : List CmdWord
  /-- `RSPQ`, oldest first, each a response word as the coprocessor gives it, before `CP_RESP_DECODE` (R47, R154). -/
  rspq : List Word32
  /-- The program in the coprocessor's program memory (R48). -/
  cpProg : Mode
  /-- The input `CP_PC_AT_START` (R40, R49). -/
  cpAtStart : Bool
  /-- The bus (R426, R453). -/
  bus : BusPhase
  /-- Model's own: the implementation's parameters (R10). -/
  par : Params
  /-- Model's own: whether `RES0` has been written since reset (R43). -/
  res0Valid : Bool
  /-- Model's own: how many RXB bytes the current or last operation has placed (R45). -/
  rxbValid : Nat
  /-- Model's own: unchecked puts still allowed, in words (R161). -/
  uncheckedLeft : Nat
  /-- Model's own: the trace of the current or last operation (R6). -/
  trace : List TraceEntry
  /-- Model's own: the commands the coprocessor has driven for the current or last operation, in order (R82). -/
  wire : List CpCmd
  /-- Input: the host's accesses still to come, next first. -/
  host : List HostAct
  /-- Output: the value of the host's last read. -/
  hostData : Option Word32
  /-- Input: the levels of SDA at the next senses (R17, R49); beyond them `Config.sdaLevel` answers. -/
  sdaIn : List Bool
  /-- Model's own: how many senses `Config.sdaLevel` has answered. -/
  sdaDraws : Nat
  /-- Input: the bus's next answers (R5); beyond them `Config.busAnswer` answers. -/
  busIn : List Word32
  /-- Model's own: how many answers `Config.busAnswer` has given. -/
  busDraws : Nat
  /-- Input: how many more words the coprocessor will take before it stops; `none` is a coprocessor that never stops
  (R7, R408). -/
  cpBudget : Option Nat
  /-- Input: whether the coprocessor still returns to its start address after the last word of its budget (R408). -/
  cpReturns : Bool
  /-- Input: how the coprocessor will fail after each controller restart to come (R450); live beyond the list. -/
  cpFates : List CpFate
  /-- Input: how many queued words the coprocessor takes on its own before each of the engine's next puts (R150); 0
  beyond the list. -/
  cpPace : List Nat
  deriving DecidableEq, Repr

/-- The machine after initialisation (R451, R452). Where the spec gives no value the value is named in
notes/assumptions/3.md. -/
def State.reset : State where
  mode := .sdr
  arbpV := false
  arbpB := 0#8
  ddrCfg := { ackEn := false, etEn := false, crcEt := false }
  clkKhz := Config.params.clkResetKhz
  driveMa := Config.params.driveResetMa
  sdrTab := sdrTable
  sampleW := none
  crc := 0#5
  busy := false
  desc0 := 0#32
  desc1 := 0#32
  res0 := 0#32
  txb := []
  rxb := []
  cmdq := []
  rspq := []
  cpProg := .sdr
  cpAtStart := true
  bus := .unknown
  par := Config.params
  res0Valid := false
  rxbValid := 0
  uncheckedLeft := 0
  trace := []
  wire := []
  host := []
  hostData := none
  sdaIn := []
  sdaDraws := 0
  busIn := []
  busDraws := 0
  cpBudget := none
  cpReturns := true
  cpFates := []
  cpPace := []

/-- How a piece of an operation ends: it goes on with a value, `finish` has ended the operation (spec/00_scope.md
R18), the engine waits for ever in a state (R7, R408), or the model stops. -/
inductive Run (α : Type) where
  | ok (a : α) (s : State)
  | done (s : State)
  | stuck (s : State)
  | fault (f : Fault)
  deriving DecidableEq, Repr

/-- Sequencing: nothing after a `finish`, an endless wait or a fault runs (R18). -/
def Run.bind {α β : Type} (r : Run α) (k : α → State → Run β) : Run β :=
  match r with
  | .ok a s => k a s
  | .done s => .done s
  | .stuck s => .stuck s
  | .fault f => .fault f

/-- The outcome of a whole operation. One that waits for ever takes no step (R408). -/
def Run.outcome (r : Run Unit) : Host.Outcome State Fault Refusal :=
  match r with
  | .ok _ s => .next s
  | .done s => .next s
  | .stuck _ => .fault .stuck
  | .fault f => .fault f

end Sys2Proof.Machine
end

