-- ==== Sys2Proof/Machine/Operands.lean ====
section
/-! DEFINITION. Operand forms: the length checks (spec/42_sdr.md R231, spec/43_ddr.md R301), the DDR command word
(spec/41_crc_parity.md R212) and the wire frames (spec/30_encoding.md R140 to R148). -/

namespace Sys2Proof.Machine

/-- A write length that fits TXB; 0 allowed (R231). -/
def txFits (p : Params) (la : Nat) : Bool :=
  decide (la ≤ p.txbufBytes)

/-- A broadcast length: at least the CCC code (R231). -/
def bcFits (p : Params) (la : Nat) : Bool :=
  decide (1 ≤ la ∧ la ≤ p.txbufBytes)

/-- Broadcast and direct bytes together, summed without wrap-around (R231). -/
def bcDirFits (p : Params) (la lb : Nat) : Bool :=
  decide (1 ≤ la ∧ la + lb ≤ p.txbufBytes)

/-- A read length (R231). -/
def rxFits (p : Params) (lb : Nat) : Bool :=
  decide (1 ≤ lb ∧ lb ≤ p.rxbufBytes)

/-- POLL's payload length, beside the arbitration byte (R231, R262). -/
def pollFits (p : Params) (lb : Nat) : Bool :=
  decide (1 ≤ lb ∧ lb + 1 ≤ p.rxbufBytes)

/-- DDR_WRITE's length in words; 0 allowed (R301). -/
def ddrTxFits (p : Params) (la : Nat) : Bool :=
  decide (2 * la ≤ p.txbufBytes)

/-- DDR_READ's length in words (R301). -/
def ddrRxFits (p : Params) (lb : Nat) : Bool :=
  decide (1 ≤ lb ∧ 2 * lb ≤ p.rxbufBytes)

/-- The DDR command word of an address, a command code and a direction (R212). -/
def cmdWord (addr : BusAddr) (cmd : Byte) (rnw : Bool) : DdrWord :=
  let cmd' := if rnw then cmd ||| 0x80#8 else cmd &&& 0x7F#8
  adjust (cmd' ++ addr ++ 0#1)

/-- `ddr_frame(w)`: the 18 bits after a preamble (R213). -/
def ddrFrame (w : DdrWord) : BitVec 18 :=
  w ++ parityPair w

/-- The command word frame `DW 20 {01, cw, PA1, PA0}` (R144). -/
def cmdFrame (cw : DdrWord) : CpCmd :=
  .dw 20 (0b01#2 ++ ddrFrame cw)

/-- The data word frame `DW 18` (R145). -/
def dataFrame (w : DdrWord) : CpCmd :=
  .dw 18 (ddrFrame w)

/-- The write CRC word frame `DW 11 {tag, crc, 1}` (R146). -/
def crcFrame (crc : BitVec 5) : CpCmd :=
  .dw 11 (ddrCrcTag ++ crc ++ 1#1)

/-- The undriven-by-target write preamble `DW 2 0b11` (R145). -/
def preambleFrame : CpCmd :=
  .dw 2 0b11#2

/-- The controller's early-termination pattern `DW 2 0b10` (R148). -/
def terminateFrame : CpCmd :=
  .dw 2 0b10#2

/-- The first six slots of the arbitration header (R140). -/
def arbFrame6 : CpCmd :=
  .od 6 0b111111#6

/-- The rest of 0x7E/W and the released ACK slot, when arbitration is won (R140). -/
def arbFrame3 : CpCmd :=
  .od 3 0b001#3

/-- The two further slots of the winner's header, when arbitration is lost (R140). -/
def arbFrame2 : CpCmd :=
  .od 2 0b11#2

/-- The SDR address frame `OD 9 {addr, rnw, 1}` (R141). -/
def addrFrame (addr : BusAddr) (rnw : Bool) : CpCmd :=
  .od 9 (addr ++ BitVec.ofBool rnw ++ 1#1)

/-- ENTDAA's final frame `OD 9 {dab(addr), 1}` (spec/42_sdr.md R250). -/
def dabFrame (addr : BusAddr) : CpCmd :=
  .od 9 (dab addr ++ 1#1)

/-- ENTDAA's ID byte frame; with `ENTDAA_ID_ACK_BIT`, a ninth slot driven low (R250, D19). -/
def idFrame (ackBit : Bool) : CpCmd :=
  if ackBit then .od 9 0b111111110#9 else .od 8 0b11111111#8

/-- The ID byte in the response to `idFrame` (R250). -/
def idByte (ackBit : Bool) (r : Word32) : Byte :=
  if ackBit then r.extractLsb' 1 8 else r.extractLsb' 0 8

/-- The controller's ACK slot, `OD 1 0b0` (R262). -/
def ackFrame : CpCmd :=
  .od 1 0#1

/-- The controller's NACK slot, `OD 1 0b1` (R262). -/
def nackFrame : CpCmd :=
  .od 1 1#1

/-- An ACK slot in bit 0 reads ACK when low (R140, R141). -/
def isAck (r : Word32) : Bool :=
  !r.getLsbD 0

/-- The arbitration byte `{s6, s2}` of the two samples of a lost header (R140, R172). -/
def arbByte (s6 s2 : Word32) : Byte :=
  s6.extractLsb' 0 6 ++ s2.extractLsb' 0 2

/-- The arbitration samples show no contention (R140). -/
def arbWon (s6 : Word32) : Bool :=
  decide (s6.extractLsb' 0 6 = 0b111111#6)

/-- The received CRC field of a 10-bit CRC word body (R147). -/
def rxCrc (body : Word32) : BitVec 5 :=
  body.extractLsb' ddrCrcRxLsb 5

end Sys2Proof.Machine
end

