-- ==== Sys2Proof/Machine/Ops.lean ====
section
/-! DEFINITION. The shared operations: the coprocessor and the two FIFOs (spec/40_queue.md R150 to R162), the buffers
(spec/00_scope.md R15), the draws (R17), and `finish`, which is this block's one exception entry
(spec/60_exceptions.md R400, R405). There is no return from it (R406). -/

namespace Sys2Proof.Machine

/-! ## Inputs -/

/-- The `k`-th answer of the bus to come: from the input list, and beyond it free (R5). -/
def State.answer (s : State) (k : Nat) : Word32 :=
  match s.busIn[k]? with
  | some a => a
  | none => Config.busAnswer (s.busDraws + (k - s.busIn.length))

/-- Take the next answer of the bus. -/
def dropAnswer (s : State) : State :=
  { s with busIn := s.busIn.tail, busDraws := s.busDraws + if s.busIn = [] then 1 else 0 }

/-- The next level of SDA, `true` for high: from the input list, and beyond it free (R17). -/
def State.sda (s : State) : Bool :=
  match s.sdaIn with
  | a :: _ => a
  | [] => Config.sdaLevel s.sdaDraws

/-- Take the next draw of `sense_sda()`. -/
def dropSda (s : State) : State :=
  { s with sdaIn := s.sdaIn.tail, sdaDraws := s.sdaDraws + if s.sdaIn = [] then 1 else 0 }

/-! ## The coprocessor -/

/-- The words of a command, `CP_ENCODE` (R10, R153). -/
def cmdWords (p : Params) (c : CpCmd) : List CmdWord :=
  tagWords c (cpEncode Config.cpEncodePlain p.encodeRows c)

/-- The coprocessor drives the command it has taken; a sampling command appends one response, the word that stands for
the levels it sampled (R150, R151). -/
def cpDrive (c : CpCmd) (s : State) : Run Unit :=
  match c.width with
  | none => .ok () { s with bus := c.busAfter, wire := s.wire ++ [c] }
  | some w =>
    if s.sampleW ≠ some w then .fault .wrongWidth
    else if s.par.rqDepth ≤ s.rspq.length then .fault .rspqOverflow
    else .ok () { dropAnswer s with
      bus := c.busAfter, wire := s.wire ++ [c],
      rspq := s.rspq ++ [respWord s.par.respRows w (sample w (s.answer 0))] }

/-- The coprocessor has taken one word; with the last word of a command it drives it (R150, R153). -/
def cpTake (e : CmdWord) (s : State) : Run Unit :=
  if e.last then cpDrive e.cmd s else .ok () s

/-- One coprocessor step: take the word at the head of CMDQ (R150). A coprocessor whose budget is spent takes nothing,
and the engine that waits for it is stuck (R408). -/
def cpStep (s : State) : Run Unit :=
  match s.cmdq with
  | [] => .ok () s
  | e :: q =>
    match s.cpBudget with
    | some 0 => .stuck s
    | some (k + 1) => cpTake e { s with cmdq := q, cpBudget := some k, cpAtStart := false }
    | none => cpTake e { s with cmdq := q, cpAtStart := false }

/-- `n` coprocessor steps the engine waits for. -/
def cpRun (n : Nat) (s : State) : Run Unit :=
  match n with
  | 0 => .ok () s
  | k + 1 => (cpStep s).bind fun _ s => cpRun k s

/-- Up to `n` coprocessor steps that nothing waits for: a hung coprocessor takes none (R150). -/
def cpFree (n : Nat) (s : State) : Run Unit :=
  match n with
  | 0 => .ok () s
  | k + 1 => if s.cpBudget = some 0 then .ok () s else (cpStep s).bind fun _ s => cpFree k s

/-- The coprocessor's own progress before the engine's next put, as the input `cpPace` has it (R82, R150). -/
def cpAlong (s : State) : Run Unit :=
  match s.cpPace with
  | [] => .ok () s
  | n :: q => cpFree n { s with cpPace := q }

/-! ## The queue -/

/-- Wait while `CMDQ_FULL = 1` (R153). -/
def waitNotFull (s : State) : Run Unit :=
  if s.cmdq.length < s.par.cqDepth then .ok () s else cpRun (s.cmdq.length + 1 - s.par.cqDepth) s

/-- The doc's `put`: append one word to CMDQ, waiting while it is full (R153). It ends the allowance of unchecked puts
(R161). -/
def putWord (e : CmdWord) (s : State) : Run Unit :=
  (cpAlong s).bind fun _ s =>
  (waitNotFull s).bind fun _ s =>
  .ok () { s with cmdq := s.cmdq ++ [e], uncheckedLeft := 0 }

/-- Put words one after another (R153). -/
def putWords (es : List CmdWord) (s : State) : Run Unit :=
  match es with
  | [] => .ok () s
  | e :: rest => (putWord e s).bind fun _ s => putWords rest s

/-- Put the words of a command (R153). A command the loaded program does not run is a fault (R133). -/
def put (c : CpCmd) (s : State) : Run Unit :=
  if c.program = s.cpProg then putWords (cmdWords s.par c) s else .fault .wrongProgram

/-- Add a command without a response to the trace (R6). -/
def traced (c : CpCmd) (s : State) : State :=
  { s with trace := s.trace ++ [⟨c, none⟩] }

/-- `emit(c)` of a non-sampling command (R153). -/
def emit (c : CpCmd) (s : State) : Run Unit :=
  (put c s).bind fun _ s => .ok () (traced c s)

/-- `set_sample_width(n)` (R155). -/
def setSampleWidth (n : Nat) (s : State) : State :=
  { s with sampleW := some n, uncheckedLeft := 0 }

/-- Set the sample width of a sampling command where it is not the one in force (R154, D48). -/
def needWidth (c : CpCmd) (s : State) : State :=
  match c.width with
  | none => s
  | some w => if s.sampleW = some w then s else setSampleWidth w s

/-- Wait while `RSPQ_EMPTY = 1`, at most until the coprocessor has taken `n` words (R154). -/
def awaitResponse (n : Nat) (s : State) : Run Unit :=
  match n with
  | 0 => .ok () s
  | k + 1 => if s.rspq = [] then (cpStep s).bind fun _ s => awaitResponse k s else .ok () s

/-- `CP_RESP_DECODE(pop(RSPQ), W)` (R154). An engine that has waited for every queued word and has no response is stuck
(R408). -/
def popResponse (c : CpCmd) (w : Nat) (s : State) : Run Word32 :=
  match s.rspq with
  | [] => .stuck s
  | r :: q =>
    .ok (respDecode s.par.respRows r w)
      { s with rspq := q, trace := s.trace ++ [⟨c, some (respDecode s.par.respRows r w)⟩], uncheckedLeft := 0 }

/-- Wait for the response of the sampling command `c` that was put last, and take it (R154). -/
def collect (c : CpCmd) (s : State) : Run Word32 :=
  (awaitResponse s.cmdq.length s).bind fun _ s =>
  popResponse c (c.width.getD 32) s

/-- `r <- xfer(c)` (R154). -/
def xfer (c : CpCmd) (s : State) : Run Word32 :=
  (put c (needWidth c s)).bind fun _ s => collect c s

/-- `wait_until_queue_empty()` (R159); directly after it four unchecked puts are allowed (R161). -/
def waitUntilQueueEmpty (s : State) : Run Unit :=
  (cpRun s.cmdq.length s).bind fun _ s => .ok () { s with uncheckedLeft := uncheckedBatch }

/-- `wait_pc_start()`: the coprocessor has finished the command it took last (R157). One that has spent its budget and
does not return leaves the engine stuck (R408). -/
def waitPcStart (s : State) : Run Unit :=
  if s.cpAtStart = false ∧ s.cpBudget = some 0 ∧ s.cpReturns = false then .stuck s
  else .ok () { s with cpAtStart := true, uncheckedLeft := 0 }

/-- `drain()` (R158). -/
def drain (s : State) : Run Unit :=
  (waitUntilQueueEmpty s).bind fun _ s => waitPcStart s

/-! ### Unchecked puts (R161, R460)

Four words may be appended without a test of `CMDQ_FULL` directly after `wait_until_queue_empty()`. Every other
operation on the queue, `set_sample_width`, `wait_pc_start`, `load_program` and the next submit end the allowance. -/

/-- `put_unchecked` of one word: a fault at any other point, or where it would overflow CMDQ (U23). -/
def putWordUnchecked (e : CmdWord) (s : State) : Run Unit :=
  match s.uncheckedLeft with
  | 0 => .fault .uncheckedPut
  | k + 1 =>
    if s.par.cqDepth ≤ s.cmdq.length then .fault .uncheckedPut
    else .ok () { s with cmdq := s.cmdq ++ [e], uncheckedLeft := k }

/-- Unchecked puts one after another. -/
def putWordsUnchecked (es : List CmdWord) (s : State) : Run Unit :=
  match es with
  | [] => .ok () s
  | e :: rest => (putWordUnchecked e s).bind fun _ s => putWordsUnchecked rest s

/-- `put` of a command by unchecked puts of its words. -/
def putUnchecked (c : CpCmd) (s : State) : Run Unit :=
  if c.program = s.cpProg then putWordsUnchecked (cmdWords s.par c) s else .fault .wrongProgram

/-- `emit(c)` with its puts replaced by unchecked ones. -/
def emitUnchecked (c : CpCmd) (s : State) : Run Unit :=
  (putUnchecked c s).bind fun _ s => .ok () (traced c s)

/-- `xfer(c)` with its puts replaced by unchecked ones, the sample width being set already. -/
def xferUnchecked (c : CpCmd) (s : State) : Run Word32 :=
  (putUnchecked c s).bind fun _ s => collect c s

/-- `load_program(p)` (R156). A load with anything in flight is a fault (R462). -/
def loadProgram (p : Mode) (s : State) : Run Unit :=
  if s.cmdq = [] ∧ s.rspq = [] ∧ s.cpAtStart = true then
    .ok () { s with cpProg := p, cpAtStart := true, sampleW := none, uncheckedLeft := 0 }
  else .fault .loadInFlight

/-- `switch_program(p)` (R170), the only writer of `ctx.MODE` outside initialisation. -/
def switchProgram (p : Mode) (s : State) : Run Unit :=
  (drain s).bind fun _ s =>
  (loadProgram p s).bind fun _ s =>
  .ok () { s with mode := p, sampleW := none }

/-! ## Finishing -/

/-- The number of a status code (spec/30_encoding.md R107). -/
def Status.code (st : Status) : BitVec 4 :=
  match st with
  | .ok => 0#4
  | .ibi => 1#4
  | .nakDuringArbHdr => 2#4
  | .nakDuringSdrAddr => 3#4
  | .paramOutOfRange => 4#4
  | .noIbi => 5#4
  | .nakDdr => 6#4
  | .ddrEarlyTermination => 7#4
  | .ddrInvalidPreamble => 8#4
  | .ddrParityWrong => 9#4
  | .ddrCrcWrong => 10#4

/-- `{zext_16(n), 0x000, S[3:0]}` (R104). -/
def resWord (st : Status) (n : Nat) : Word32 :=
  BitVec.ofNat 16 n ++ 0#12 ++ st.code

/-- `finish(S, n)`, the end of every operation: it writes RES0 and clears BUSY, and nothing else (spec/00_scope.md
R18, spec/60_exceptions.md R405). -/
def finish {α : Type} (st : Status) (n : Nat) (s : State) : Run α :=
  .done { s with res0 := resWord st n, res0Valid := true, busy := false }

/-- The state of an operation after submit: BUSY set, nothing traced, no RXB byte placed and no unchecked put allowed
yet (R232, R41, R161). -/
def beginOp (s : State) : State :=
  { s with busy := true, trace := [], wire := [], rxbValid := 0, uncheckedLeft := 0 }

/-! ## Buffers -/

/-- `MemRead(TXB, i, 1)` (R15). -/
def txbByte (i : Nat) (s : State) : Run Byte :=
  if i < s.par.txbufBytes then .ok (s.txb.read i) s else .fault .bufferBound

/-- `TXW[i]`: bytes `2i` and `2i+1`, big-endian (R15, spec/20_memory.md R72). -/
def txbWord (i : Nat) (s : State) : Run DdrWord :=
  (txbByte (2 * i) s).bind fun hi s =>
  (txbByte (2 * i + 1) s).bind fun lo s =>
  .ok (hi ++ lo) s

/-- `MemWrite(RXB, i, 1, v)` (R15). -/
def rxbByte (i : Nat) (v : Byte) (s : State) : Run Unit :=
  if i < s.par.rxbufBytes then .ok () { s with rxb := s.rxb.write i v, rxbValid := i + 1 } else .fault .bufferBound

/-- `RXW[i] <- w`: the high byte at `2i` (R15, R72). -/
def rxbWord (i : Nat) (w : DdrWord) (s : State) : Run Unit :=
  (rxbByte (2 * i) (w.extractLsb' 8 8) s).bind fun _ s =>
  rxbByte (2 * i + 1) (w.extractLsb' 0 8) s

/-! ## Container layouts of the context registers (spec/10_state.md R31, R32, R34 to R36) -/

/-- CTX0: bit 0 = MODE (R31). -/
def State.ctx0 (s : State) : Word32 :=
  match s.mode with
  | .sdr => 0#32
  | .ddr => 1#32

/-- CTX1: bits 7:0 = B, bit 8 = V (R32). -/
def State.ctx1 (s : State) : Word32 :=
  0#23 ++ BitVec.ofBool s.arbpV ++ s.arbpB

/-- CTX2: bit 0 = ACK_EN, bit 1 = ET_EN, bit 2 = CRC_ET (R34). -/
def State.ctx2 (s : State) : Word32 :=
  0#29 ++ BitVec.ofBool s.ddrCfg.crcEt ++ BitVec.ofBool s.ddrCfg.etEn ++ BitVec.ofBool s.ddrCfg.ackEn

/-- CTX3: bits 13:0 (R35). -/
def State.ctx3 (s : State) : Word32 :=
  0#18 ++ s.clkKhz

/-- CTX4: bits 3:0 (R36). -/
def State.ctx4 (s : State) : Word32 :=
  0#28 ++ s.driveMa

/-- The 32-bit words of SDRTAB entry `k`, as `CP_ENCODE` gives them (R37, R220). -/
def State.sdrTabWords (s : State) (k : Fin 512) : List Word32 :=
  cpEncode Config.cpEncodePlain s.par.encodeRows s.sdrTab[k]

/-- The coprocessor's program counter, as far as the engine sees it: `CP_PC_AT_START` says whether it is at the start
address of the loaded program, and elsewhere it has no value for this block (spec/10_state.md R40). -/
def State.cpPc (s : State) : Option Nat :=
  if s.cpAtStart then some (Config.cpStart s.cpProg) else none

/-- The 32-bit words in CMDQ, in order (R46, R153). -/
def State.cmdqWords (s : State) : List Word32 :=
  s.cmdq.map (·.word)

/-- The 32-bit words of a trace's commands, in order (R153). -/
def traceWords (p : Params) (t : List TraceEntry) : List Word32 :=
  t.flatMap fun e => cpEncode Config.cpEncodePlain p.encodeRows e.cmd

/-! ## Reset -/

/-- How the coprocessor will fail after the next restart. -/
def State.nextFate (s : State) : CpFate :=
  s.cpFates.headD CpFate.live

/-- Initialisation after a controller restart (spec/70_reset_and_hazards.md R450 to R452): the block's own state as
`State.reset` has it, with this implementation's parameters. The restarted coprocessor's fate is the next input; the
other inputs from outside stay as they are. -/
def initialise (s : State) : State :=
  { State.reset with
    par := s.par
    clkKhz := s.par.clkResetKhz
    driveMa := s.par.driveResetMa
    host := s.host
    hostData := s.hostData
    sdaIn := s.sdaIn
    sdaDraws := s.sdaDraws
    busIn := s.busIn
    busDraws := s.busDraws
    cpBudget := s.nextFate.budget
    cpReturns := s.nextFate.returns
    cpFates := s.cpFates.tail
    cpPace := s.cpPace }

end Sys2Proof.Machine
end

