-- ==== Sys2Proof/Machine/Phases.lean ====
section
/-! DEFINITION. The bus-phase procedures and entry checks that every operation is built from (spec/40_queue.md R171
to R178, spec/42_sdr.md R230, spec/43_ddr.md R300, R303, R304, R330). -/

namespace Sys2Proof.Machine

/-- `sdr_stop_finish(S, n)` (R171). -/
def sdrStopFinish {α : Type} (st : Status) (n : Nat) (s : State) : Run α :=
  (emit .stop s).bind fun _ s =>
  (drain s).bind fun _ s =>
  finish st n s

/-- The local outcome of an arbitration header (R172). -/
inductive Header where
  | lost
  | ack
  | nack
  deriving DecidableEq, Repr

/-- `arb_header()` (R172). On LOST the arbitration byte becomes pending. -/
def arbHeader (s : State) : Run Header :=
  (xfer arbFrame6 s).bind fun s6 s =>
  if arbWon s6 then
    (xfer arbFrame3 s).bind fun r s => .ok (if isAck r then .ack else .nack) s
  else
    (xfer arbFrame2 s).bind fun s2 s =>
    .ok .lost { s with arbpB := arbByte s6 s2, arbpV := true }

/-- `sdr_prologue()` (R173): goes on only when the header was ACKed; a lost header ends without STOP. -/
def sdrPrologue (s : State) : Run Unit :=
  (emit .start s).bind fun _ s =>
  (arbHeader s).bind fun h s =>
  match h with
  | .lost => (drain s).bind fun _ s => finish .ibi 0 s
  | .nack => sdrStopFinish .nakDuringArbHdr 0 s
  | .ack => .ok () s

/-- `addr_phase(a, rnw)` (R174); the value is `true` for ACK. -/
def addrPhase (addr : BusAddr) (rnw : Bool) (s : State) : Run Bool :=
  (xfer (addrFrame addr rnw) s).bind fun r s => .ok (isAck r) s

/-- An address phase that ends the operation when it is NACKed, as R240 to R255 use it. -/
def addrOrStop (addr : BusAddr) (rnw : Bool) (s : State) : Run Unit :=
  (addrPhase addr rnw s).bind fun ack s =>
  if ack then .ok () s else sdrStopFinish .nakDuringSdrAddr 0 s

/-- RESTART and an address phase (R240 to R255). -/
def restartAddr (addr : BusAddr) (rnw : Bool) (s : State) : Run Unit :=
  (emit .restart s).bind fun _ s => addrOrStop addr rnw s

/-- `sdr_write_byte(b)` from the precomputed table (R175). -/
def sdrWriteByte (b : Byte) (s : State) : Run Unit :=
  (emit (s.sdrTab[2 * b.toNat]'(by have := b.isLt; omega)) s).bind fun _ s =>
  emit (s.sdrTab[2 * b.toNat + 1]'(by have := b.isLt; omega)) s

/-- `sdr_write_bytes(i, n)`: TXB bytes `i .. i+n-1` (R176). -/
def sdrWriteBytes (n i : Nat) (s : State) : Run Unit :=
  match n with
  | 0 => .ok () s
  | k + 1 =>
    (txbByte i s).bind fun b s =>
    (sdrWriteByte b s).bind fun _ s =>
    sdrWriteBytes k (i + 1) s

/-- `sdr_read_bytes(base, max)` with `left` bytes still wanted and `n` already stored; the value is how many bytes
are stored in all (R177). The last wanted byte is ended by the controller and its T sample ignored. -/
def sdrReadBytes (left base n : Nat) (s : State) : Run Nat :=
  match left with
  | 0 => .ok n s
  | k + 1 =>
    (xfer (.rdb (decide (0 < k))) s).bind fun r s =>
    (rxbByte (base + n) (r.extractLsb' 1 8) s).bind fun _ s =>
    if 0 < k ∧ r.getLsbD 0 = false then .ok (n + 1) s else sdrReadBytes k base (n + 1) s

/-- `entry_pending()` (R178): a pending arbitration byte, or SDA low. SDA is sensed only when no byte is pending. -/
def entryPending (s : State) : Bool :=
  s.arbpV || !s.sda

/-- The state after `entry_pending()`: one draw used where SDA was sensed (R178, D50). -/
def afterEntryPending (s : State) : State :=
  if s.arbpV then s else dropSda s

/-- The entry check of an SDR-class operation other than POLL, its length check given (R230). -/
def sdrEntry (lengthsOk : Bool) (body : State → Run Unit) (s : State) : Run Unit :=
  if s.mode = .ddr then finish .paramOutOfRange 0 s
  else if entryPending s then finish .ibi 0 (afterEntryPending s)
  else if lengthsOk = false then finish .paramOutOfRange 0 (afterEntryPending s)
  else body (afterEntryPending s)

/-- The entry check of a DDR-class operation (R300): the pending test only in SDR mode. -/
def ddrEntry (lengthsOk : Bool) (body : State → Run Unit) (s : State) : Run Unit :=
  if s.mode = .sdr then
    if entryPending s then finish .ibi 0 (afterEntryPending s)
    else if lengthsOk = false then finish .paramOutOfRange 0 (afterEntryPending s)
    else body (afterEntryPending s)
  else if lengthsOk = false then finish .paramOutOfRange 0 s
  else body s

/-- `enter_ddr()` (R303). -/
def enterDdr (s : State) : Run Unit :=
  if s.mode = .sdr then
    (sdrPrologue s).bind fun _ s =>
    (sdrWriteByte cccEnthdr0 s).bind fun _ s =>
    switchProgram .ddr s
  else .ok () s

/-- `ddr_command(rnw)`: the command word and the start of the message CRC (R304). -/
def ddrCommand (addr : BusAddr) (cmd : Byte) (rnw : Bool) (s : State) : Run Unit :=
  emit (cmdFrame (cmdWord addr cmd rnw))
    { s with crc := crc5Word crc5Init (cmdWord addr cmd rnw) }

/-- `ddr_finalize(st, n)` (R330). -/
def ddrFinalize (fwr : Bool) (st : Status) (n : Nat) (s : State) : Run Unit :=
  if fwr = true ∧ st = .ok then
    (emit .hrestart s).bind fun _ s =>
    (drain s).bind fun _ s =>
    finish .ok n s
  else
    (emit .hexit s).bind fun _ s =>
    (switchProgram .sdr s).bind fun _ s =>
    finish st n s

end Sys2Proof.Machine
end

