-- ==== Sys2Proof/Machine/Ccc.lean ====
section
/-! DEFINITION. The CCC transfers and address assignment (spec/42_sdr.md R245 to R251). -/

namespace Sys2Proof.Machine

/-- CCC_BCAST_WRITE after its entry check (R245). -/
def cccBcastWriteBody (la : Nat) (s : State) : Run Unit :=
  (sdrPrologue s).bind fun _ s =>
  (sdrWriteBytes la 0 s).bind fun _ s =>
  sdrStopFinish .ok la s

/-- CCC_BCAST_WRITE as a run (R245). -/
def runCccBcastWrite (la : Nat) (s : State) : Run Unit :=
  sdrEntry (bcFits s.par la) (cccBcastWriteBody la) s

/-- CCC_BCAST_WRITE (R245). -/
def execCccBcastWrite (la : Nat) (s : State) : Host.Outcome State Fault Refusal :=
  (runCccBcastWrite la s).outcome

/-- CCC_DIRECT_WRITE after its entry check (R246). -/
def cccDirectWriteBody (addr : BusAddr) (la lb : Nat) (s : State) : Run Unit :=
  (sdrPrologue s).bind fun _ s =>
  (sdrWriteBytes la 0 s).bind fun _ s =>
  (restartAddr addr false s).bind fun _ s =>
  (sdrWriteBytes lb la s).bind fun _ s =>
  sdrStopFinish .ok lb s

/-- CCC_DIRECT_WRITE as a run (R246). -/
def runCccDirectWrite (addr : BusAddr) (la lb : Nat) (s : State) : Run Unit :=
  sdrEntry (bcDirFits s.par la lb) (cccDirectWriteBody addr la lb) s

/-- CCC_DIRECT_WRITE (R246). -/
def execCccDirectWrite (addr : BusAddr) (la lb : Nat) (s : State) : Host.Outcome State Fault Refusal :=
  (runCccDirectWrite addr la lb s).outcome

/-- CCC_DIRECT_READ after its entry check (R247). -/
def cccDirectReadBody (addr : BusAddr) (la lb : Nat) (s : State) : Run Unit :=
  (sdrPrologue s).bind fun _ s =>
  (sdrWriteBytes la 0 s).bind fun _ s =>
  (restartAddr addr true s).bind fun _ s =>
  (sdrReadBytes lb 0 0 s).bind fun n s =>
  sdrStopFinish .ok n s

/-- CCC_DIRECT_READ as a run (R247). -/
def runCccDirectRead (addr : BusAddr) (la lb : Nat) (s : State) : Run Unit :=
  sdrEntry (bcFits s.par la && rxFits s.par lb) (cccDirectReadBody addr la lb) s

/-- CCC_DIRECT_READ (R247). -/
def execCccDirectRead (addr : BusAddr) (la lb : Nat) (s : State) : Host.Outcome State Fault Refusal :=
  (runCccDirectRead addr la lb s).outcome

/-- ENTDAA's ID bytes `i .. i+n-1` (R250). -/
def entdaaIdBytes (n i : Nat) (s : State) : Run Unit :=
  match n with
  | 0 => .ok () s
  | k + 1 =>
    (xfer (idFrame s.par.entdaaIdAckBit) s).bind fun r s =>
    (rxbByte i (idByte s.par.entdaaIdAckBit r) s).bind fun _ s =>
    entdaaIdBytes k (i + 1) s

/-- ENTDAA after its entry check (R250). -/
def entdaaBody (addr : BusAddr) (s : State) : Run Unit :=
  (sdrPrologue s).bind fun _ s =>
  (sdrWriteByte cccEntdaa s).bind fun _ s =>
  (restartAddr bcastAddr true s).bind fun _ s =>
  (entdaaIdBytes 8 0 s).bind fun _ s =>
  (xfer (dabFrame addr) s).bind fun r s =>
  if isAck r then sdrStopFinish .ok 8 s else sdrStopFinish .nakDuringSdrAddr 8 s

/-- ENTDAA as a run (R250). -/
def runEntdaa (addr : BusAddr) (s : State) : Run Unit :=
  sdrEntry true (entdaaBody addr) s

/-- ENTDAA (R250). -/
def execEntdaa (addr : BusAddr) (s : State) : Host.Outcome State Fault Refusal :=
  (runEntdaa addr s).outcome

/-- RSTDAA after its entry check (R251). -/
def rstdaaBody (s : State) : Run Unit :=
  (sdrPrologue s).bind fun _ s =>
  (sdrWriteByte cccRstdaa s).bind fun _ s =>
  sdrStopFinish .ok 0 s

/-- RSTDAA as a run (R251). -/
def runRstdaa (s : State) : Run Unit :=
  sdrEntry true rstdaaBody s

/-- RSTDAA (R251). -/
def execRstdaa (s : State) : Host.Outcome State Fault Refusal :=
  (runRstdaa s).outcome

end Sys2Proof.Machine
end

