-- ==== Sys2Proof/Machine/ConfigOps.lean ====
section
/-! DEFINITION. Configuration and target reset (spec/44_config.md R349 to R353). None checks the mode or a pending
interrupt. -/

namespace Sys2Proof.Machine

/-- SET_DDR_CONFIG as a run (R350). -/
def runSetDdrConfig (ack et crcet : Bool) (s : State) : Run Unit :=
  finish .ok 0 { s with ddrCfg := { ackEn := ack, etEn := et, crcEt := crcet } }

/-- SET_DDR_CONFIG (R350). -/
def execSetDdrConfig (ack et crcet : Bool) (s : State) : Host.Outcome State Fault Refusal :=
  (runSetDdrConfig ack et crcet s).outcome

/-- SET_CLOCK as a run (R351). -/
def runSetClock (la : Nat) (s : State) : Run Unit :=
  if la < clkMinKhz ∨ clkMaxKhz < la then finish .paramOutOfRange 0 s
    else finish .ok 0 { s with clkKhz := BitVec.ofNat 14 la }

/-- SET_CLOCK (R351). -/
def execSetClock (la : Nat) (s : State) : Host.Outcome State Fault Refusal :=
  (runSetClock la s).outcome

/-- SET_DRIVE as a run (R352). -/
def runSetDrive (la : Nat) (s : State) : Run Unit :=
  if driveLegal la then finish .ok 0 { s with driveMa := BitVec.ofNat 4 la }
    else finish .paramOutOfRange 0 s

/-- SET_DRIVE (R352). -/
def execSetDrive (la : Nat) (s : State) : Host.Outcome State Fault Refusal :=
  (runSetDrive la s).outcome

/-- TARGET_RESET without its outcome (R353): in DDR mode the SDR program is loaded first, with no HEXIT. -/
def targetResetBody (s : State) : Run Unit :=
  (if s.mode = .ddr then switchProgram .sdr s else .ok () s).bind fun _ s =>
  (emit .trst s).bind fun _ s =>
  (drain s).bind fun _ s =>
  finish .ok 0 { s with arbpV := false }

/-- TARGET_RESET as a run (R353). -/
def runTargetReset (s : State) : Run Unit :=
  targetResetBody s

/-- TARGET_RESET (R353). -/
def execTargetReset (s : State) : Host.Outcome State Fault Refusal :=
  (runTargetReset s).outcome

end Sys2Proof.Machine
end

