-- ==== Sys2Proof/Machine/Ddr.lean ====
section
/-! DEFINITION. The HDR-DDR operations (spec/43_ddr.md R310 to R323). -/

namespace Sys2Proof.Machine

/-- The write loop with `left` words to go, the next being word `i`; the value is the status and the words sent
(R311). The CRC is folded before the preamble and put back where the word is not sent. -/
def ddrWriteLoop (ack et : Bool) (left i : Nat) (s : State) : Run (Status × Nat) :=
  match left with
  | 0 => .ok (.ok, i) s
  | k + 1 =>
    (txbWord i s).bind fun w s =>
    if (i = 0 ∧ ack = true) ∨ (0 < i ∧ et = true) then
      (xfer .dpre { s with crc := crc5Word s.crc w }).bind fun b s' =>
      if i = 0 ∧ b.getLsbD 0 = true then .ok (.nakDdr, i) { s' with crc := s.crc }
      else if 0 < i ∧ b.getLsbD 0 = false then .ok (.ddrEarlyTermination, i) { s' with crc := s.crc }
      else (emit (dataFrame w) s').bind fun _ s => ddrWriteLoop ack et k (i + 1) s
    else
      (emit preambleFrame { s with crc := crc5Word s.crc w }).bind fun _ s =>
      (emit (dataFrame w) s).bind fun _ s =>
      ddrWriteLoop ack et k (i + 1) s

/-- When the write CRC word is sent (R312). -/
def ddrSendsCrc (crcet : Bool) (st : Status) : Bool :=
  decide (st = .ok) || (decide (st = .ddrEarlyTermination) && crcet)

/-- DDR_WRITE after its entry check, the flags read at its start (R302, R310). -/
def ddrWriteBody (addr : BusAddr) (cmd : Byte) (fwr : Bool) (la : Nat) (s : State) : Run Unit :=
  (enterDdr s).bind fun _ s =>
  (ddrCommand addr cmd false s).bind fun _ s =>
  (ddrWriteLoop s.ddrCfg.ackEn s.ddrCfg.etEn la 0 s).bind fun r s =>
  (if ddrSendsCrc s.ddrCfg.crcEt r.1 then emit (crcFrame s.crc) s else .ok () s).bind fun _ s =>
  ddrFinalize fwr r.1 r.2 s

/-- DDR_WRITE as a run (R310). -/
def runDdrWrite (addr : BusAddr) (cmd : Byte) (fwr : Bool) (la : Nat) (s : State) : Run Unit :=
  ddrEntry (ddrTxFits s.par la) (ddrWriteBody addr cmd fwr la) s

/-- DDR_WRITE (R310). -/
def execDdrWrite (addr : BusAddr) (cmd : Byte) (fwr : Bool) (la : Nat) (s : State) : Host.Outcome State Fault Refusal :=
  (runDdrWrite addr cmd fwr la s).outcome

/-- How the read loop ended: status, words stored, and whether a CRC word was consumed (R321). -/
structure ReadEnd where
  st      : Status
  n       : Nat
  crcSeen : Bool
  deriving DecidableEq, Repr

/-- A received word with its pair: 16 data bits then PA1, PA0 (R147). -/
def rxWord (d : BitVec 18) : DdrWord :=
  d.extractLsb' 2 16

/-- The parity check of a received word (R213). -/
def rxParityOk (d : BitVec 18) : Bool :=
  decide (d.extractLsb' 0 2 = parityPair (rxWord d))

/-- The 18 bits of a later word: ten in the lookahead, eight after it (R147). -/
def laterWord (c e : Word32) : BitVec 18 :=
  c.extractLsb' 0 10 ++ e.extractLsb' 0 8

/-- The read loop after the first word: `left` further words fit, `n` are stored (R321). -/
def ddrReadMore (left n : Nat) (s : State) : Run ReadEnd :=
  match left with
  | 0 => .ok ⟨.ok, n, false⟩ s
  | k + 1 =>
    (xfer (.dr 12) s).bind fun c s =>
    if c.extractLsb' 10 2 = 0b11#2 then
      (xfer (.dr 8) s).bind fun e s =>
      let s := { s with crc := crc5Word s.crc (rxWord (laterWord c e)) }
      if rxParityOk (laterWord c e) then
        (rxbWord n (rxWord (laterWord c e)) s).bind fun _ s => ddrReadMore k (n + 1) s
      else .ok ⟨.ddrParityWrong, n, false⟩ s
    else if c.extractLsb' 10 2 = 0b01#2 then
      .ok ⟨if rxCrc c = s.crc then .ok else .ddrCrcWrong, n, true⟩ s
    else .ok ⟨.ddrInvalidPreamble, n, false⟩ s

/-- `ddr_read_loop(lb)`, `lb >= 1` (R321): the first word carries the target's ACK in its own preamble. -/
def ddrReadLoop (lb : Nat) (s : State) : Run ReadEnd :=
  (xfer (.dr 2) s).bind fun p s =>
  if p.getLsbD 0 then .ok ⟨.nakDdr, 0, false⟩ s
  else
    (xfer (.dr 18) s).bind fun d s =>
    let s := { s with crc := crc5Word s.crc (rxWord (d.extractLsb' 0 18)) }
    if rxParityOk (d.extractLsb' 0 18) then
      (rxbWord 0 (rxWord (d.extractLsb' 0 18)) s).bind fun _ s => ddrReadMore (lb - 1) 1 s
    else .ok ⟨.ddrParityWrong, 0, false⟩ s

/-- The controller's termination of a read in which no CRC word was consumed, with the trailing CRC where the target
sends one; the value is the final status (R320, R322, R323). -/
def ddrReadTerminate (r : ReadEnd) (s : State) : Run Status :=
  if r.st ≠ .nakDdr ∧ r.crcSeen = false then
    (emit terminateFrame s).bind fun _ s =>
    if s.ddrCfg.crcEt then
      (xfer (.dr 10) s).bind fun t s =>
      .ok (if rxCrc t ≠ s.crc ∧ r.st = .ok then .ddrCrcWrong else r.st) s
    else .ok r.st s
  else .ok r.st s

/-- DDR_READ after its entry check (R320). -/
def ddrReadBody (addr : BusAddr) (cmd : Byte) (fwr : Bool) (lb : Nat) (s : State) : Run Unit :=
  (enterDdr s).bind fun _ s =>
  (ddrCommand addr cmd true s).bind fun _ s =>
  (ddrReadLoop lb s).bind fun r s =>
  (ddrReadTerminate r s).bind fun st s =>
  ddrFinalize fwr st r.n s

/-- DDR_READ as a run (R320). -/
def runDdrRead (addr : BusAddr) (cmd : Byte) (fwr : Bool) (lb : Nat) (s : State) : Run Unit :=
  ddrEntry (ddrRxFits s.par lb) (ddrReadBody addr cmd fwr lb) s

/-- DDR_READ (R320). -/
def execDdrRead (addr : BusAddr) (cmd : Byte) (fwr : Bool) (lb : Nat) (s : State) : Host.Outcome State Fault Refusal :=
  (runDdrRead addr cmd fwr lb s).outcome

end Sys2Proof.Machine
end

