-- ==== Sys2Proof/Machine/Private.lean ====
section
/-! DEFINITION. The private transfers (spec/42_sdr.md R240 to R242). -/

namespace Sys2Proof.Machine

/-- PRIVATE_WRITE after its entry check (R240). -/
def privateWriteBody (addr : BusAddr) (la : Nat) (s : State) : Run Unit :=
  (sdrPrologue s).bind fun _ s =>
  (restartAddr addr false s).bind fun _ s =>
  (sdrWriteBytes la 0 s).bind fun _ s =>
  sdrStopFinish .ok la s

/-- PRIVATE_WRITE as a run (R240). -/
def runPrivateWrite (addr : BusAddr) (la : Nat) (s : State) : Run Unit :=
  sdrEntry (txFits s.par la) (privateWriteBody addr la) s

/-- PRIVATE_WRITE (R240). -/
def execPrivateWrite (addr : BusAddr) (la : Nat) (s : State) : Host.Outcome State Fault Refusal :=
  (runPrivateWrite addr la s).outcome

/-- PRIVATE_READ after its entry check (R241). -/
def privateReadBody (addr : BusAddr) (lb : Nat) (s : State) : Run Unit :=
  (sdrPrologue s).bind fun _ s =>
  (restartAddr addr true s).bind fun _ s =>
  (sdrReadBytes lb 0 0 s).bind fun n s =>
  sdrStopFinish .ok n s

/-- PRIVATE_READ as a run (R241). -/
def runPrivateRead (addr : BusAddr) (lb : Nat) (s : State) : Run Unit :=
  sdrEntry (rxFits s.par lb) (privateReadBody addr lb) s

/-- PRIVATE_READ (R241). -/
def execPrivateRead (addr : BusAddr) (lb : Nat) (s : State) : Host.Outcome State Fault Refusal :=
  (runPrivateRead addr lb s).outcome

/-- PRIVATE_WRITE_READ after its entry check (R242). -/
def privateWriteReadBody (addr : BusAddr) (la lb : Nat) (s : State) : Run Unit :=
  (sdrPrologue s).bind fun _ s =>
  (restartAddr addr false s).bind fun _ s =>
  (sdrWriteBytes la 0 s).bind fun _ s =>
  (restartAddr addr true s).bind fun _ s =>
  (sdrReadBytes lb 0 0 s).bind fun n s =>
  sdrStopFinish .ok n s

/-- PRIVATE_WRITE_READ as a run (R242). -/
def runPrivateWriteRead (addr : BusAddr) (la lb : Nat) (s : State) : Run Unit :=
  sdrEntry (txFits s.par la && rxFits s.par lb) (privateWriteReadBody addr la lb) s

/-- PRIVATE_WRITE_READ (R242). -/
def execPrivateWriteRead (addr : BusAddr) (la lb : Nat) (s : State) : Host.Outcome State Fault Refusal :=
  (runPrivateWriteRead addr la lb s).outcome

end Sys2Proof.Machine
end

