-- ==== Sys2Proof/Machine/Probe.lean ====
section
/-! DEFINITION. The probes and the interrupt service (spec/42_sdr.md R255, R256, R262). -/

namespace Sys2Proof.Machine

/-- CHECK_ACK after its entry check (R255). -/
def checkAckBody (addr : BusAddr) (s : State) : Run Unit :=
  (sdrPrologue s).bind fun _ s =>
  (restartAddr addr false s).bind fun _ s =>
  sdrStopFinish .ok 0 s

/-- CHECK_ACK as a run (R255). -/
def runCheckAck (addr : BusAddr) (s : State) : Run Unit :=
  sdrEntry true (checkAckBody addr) s

/-- CHECK_ACK (R255). -/
def execCheckAck (addr : BusAddr) (s : State) : Host.Outcome State Fault Refusal :=
  (runCheckAck addr s).outcome

/-- ARB_HEADER_ONLY after its entry check (R256). -/
def arbHeaderOnlyBody (s : State) : Run Unit :=
  (sdrPrologue s).bind fun _ s =>
  sdrStopFinish .ok 0 s

/-- ARB_HEADER_ONLY as a run (R256). -/
def runArbHeaderOnly (s : State) : Run Unit :=
  sdrEntry true arbHeaderOnlyBody s

/-- ARB_HEADER_ONLY (R256). -/
def execArbHeaderOnly (s : State) : Host.Outcome State Fault Refusal :=
  (runArbHeaderOnly s).outcome

/-- POLL once the arbitration byte `b` is known: the request is no longer pending, and is ACKed and read, ACKed, or
NACKed by its kind (R262, R414). -/
def pollService (lb : Nat) (b : Byte) (s : State) : Run Unit :=
  (rxbByte 0 b { s with arbpV := false }).bind fun _ s =>
  if b.getLsbD 0 then
    (xfer ackFrame s).bind fun _ s =>
    (sdrReadBytes lb 1 0 s).bind fun n s =>
    sdrStopFinish .ok (1 + n) s
  else if b.extractLsb' 1 7 = hjAddr then
    (xfer ackFrame s).bind fun _ s => sdrStopFinish .ok 1 s
  else
    (xfer nackFrame s).bind fun _ s => sdrStopFinish .ok 1 s

/-- POLL of a start-type request: the header is run to learn who asks; an all-high sample is spurious (R262). -/
def pollStartType (lb : Nat) (s : State) : Run Unit :=
  (emit .start s).bind fun _ s =>
  (xfer arbFrame6 s).bind fun s6 s =>
  if arbWon s6 then
    (xfer arbFrame3 s).bind fun _ s => sdrStopFinish .noIbi 0 s
  else
    (xfer arbFrame2 s).bind fun s2 s => pollService lb (arbByte s6 s2) s

/-- POLL's own entry test and body (R262): the mode, then what is pending, then the length. -/
def pollBody (lb : Nat) (s : State) : Run Unit :=
  if s.mode = .ddr then finish .paramOutOfRange 0 s
  else if s.arbpV then
    if pollFits s.par lb then pollService lb s.arbpB s else finish .paramOutOfRange 0 s
  else if s.sda then finish .noIbi 0 (dropSda s)
  else if pollFits s.par lb then pollStartType lb (dropSda s) else finish .paramOutOfRange 0 (dropSda s)

/-- POLL as a run (R262). -/
def runPoll (lb : Nat) (s : State) : Run Unit :=
  pollBody lb s

/-- POLL (R262). -/
def execPoll (lb : Nat) (s : State) : Host.Outcome State Fault Refusal :=
  (runPoll lb s).outcome

end Sys2Proof.Machine
end

