-- ==== Sys2Proof/Machine/Dispatch.lean ====
section
/-! DEFINITION. One arm per operation (spec/30_encoding.md R105). -/

namespace Sys2Proof.Machine

def exec (i : Instr) (s : State) : Host.Outcome State Fault Refusal :=
  match i with
  | .privateWrite addr la => Sys2Proof.Machine.execPrivateWrite addr la s
  | .privateRead addr lb => Sys2Proof.Machine.execPrivateRead addr lb s
  | .privateWriteRead addr la lb => Sys2Proof.Machine.execPrivateWriteRead addr la lb s
  | .cccBcastWrite la => Sys2Proof.Machine.execCccBcastWrite la s
  | .cccDirectWrite addr la lb => Sys2Proof.Machine.execCccDirectWrite addr la lb s
  | .cccDirectRead addr la lb => Sys2Proof.Machine.execCccDirectRead addr la lb s
  | .entdaa addr => Sys2Proof.Machine.execEntdaa addr s
  | .rstdaa => Sys2Proof.Machine.execRstdaa s
  | .checkAck addr => Sys2Proof.Machine.execCheckAck addr s
  | .arbHeaderOnly => Sys2Proof.Machine.execArbHeaderOnly s
  | .poll lb => Sys2Proof.Machine.execPoll lb s
  | .ddrWrite addr cmd fwr la => Sys2Proof.Machine.execDdrWrite addr cmd fwr la s
  | .ddrRead addr cmd fwr lb => Sys2Proof.Machine.execDdrRead addr cmd fwr lb s
  | .setDdrConfig ack et crcet => Sys2Proof.Machine.execSetDdrConfig ack et crcet s
  | .setClock la => Sys2Proof.Machine.execSetClock la s
  | .setDrive la => Sys2Proof.Machine.execSetDrive la s
  | .targetReset => Sys2Proof.Machine.execTargetReset s

end Sys2Proof.Machine
end

