-- ==== Sys2Proof/Machine/Run.lean ====
section
/-! DEFINITION. The operations as runs: `exec i s` is the outcome of `runOf i s`, which also says in what state an
operation that waits for ever is stuck (spec/60_exceptions.md R408). -/

namespace Sys2Proof.Machine

/-- The run of an operation, whose outcome is its meaning. -/
def runOf (i : Instr) (s : State) : Run Unit :=
  match i with
  | .privateWrite addr la => runPrivateWrite addr la s
  | .privateRead addr lb => runPrivateRead addr lb s
  | .privateWriteRead addr la lb => runPrivateWriteRead addr la lb s
  | .cccBcastWrite la => runCccBcastWrite la s
  | .cccDirectWrite addr la lb => runCccDirectWrite addr la lb s
  | .cccDirectRead addr la lb => runCccDirectRead addr la lb s
  | .entdaa addr => runEntdaa addr s
  | .rstdaa => runRstdaa s
  | .checkAck addr => runCheckAck addr s
  | .arbHeaderOnly => runArbHeaderOnly s
  | .poll lb => runPoll lb s
  | .ddrWrite addr cmd fwr la => runDdrWrite addr cmd fwr la s
  | .ddrRead addr cmd fwr lb => runDdrRead addr cmd fwr lb s
  | .setDdrConfig ack et crcet => runSetDdrConfig ack et crcet s
  | .setClock la => runSetClock la s
  | .setDrive la => runSetDrive la s
  | .targetReset => runTargetReset s

/-- The state in which an operation is stuck, if it is (R408). -/
def stuckIn (i : Instr) (s : State) : Option State :=
  match runOf i s with
  | .ok _ _ => none
  | .done _ => none
  | .stuck t => some t
  | .fault _ => none

end Sys2Proof.Machine
end

