-- ==== Sys2Proof/Machine/HostPort.lean ====
section
/-! DEFINITION. The host's accesses (spec/10_state.md R41 to R45, spec/20_memory.md R87), the submit
(spec/42_sdr.md R232) and the host's programs (spec/30_encoding.md R103, R110, R111). -/

namespace Sys2Proof.Machine

/-- What the host's next access meets after a submit: an operation that is stuck leaves the state it is stuck in, with
`BUSY` still 1, from which only a controller restart goes on (spec/60_exceptions.md R408, spec/70_reset_and_hazards.md
R450). -/
def leaveBusy (stuck : Option State) (o : Host.Outcome State Fault Refusal) : Host.Outcome State Fault Refusal :=
  match stuck with
  | some t => .next t
  | none => o

/-- The operation in DESC0 and DESC1 runs from submit to `finish` (R232, R80). A descriptor that is no operation ends
with `ParamOutOfRange` and count 0 (R108). -/
def submit (s : State) : Host.Outcome State Fault Refusal :=
  match decode s.desc0 s.desc1 with
  | .ok i => leaveBusy (stuckIn i (beginOp s)) (exec i (beginOp s))
  | .error _ => (finish .paramOutOfRange 0 (beginOp s) : Run Unit).outcome

/-- Write DESC0 (R42, R87). -/
def hostWriteDesc0 (w : Word32) (s : State) : Host.Outcome State Fault Refusal :=
  if s.busy then .refused .hostWriteWhileBusy else .next { s with desc0 := w }

/-- Write DESC1, the submit (R42, R87). -/
def hostWriteDesc1 (w : Word32) (s : State) : Host.Outcome State Fault Refusal :=
  if s.busy then .refused .hostWriteWhileBusy else submit { s with desc1 := w }

/-- Write one TXB byte (R44, R70, R87). -/
def hostWriteTxb (i : Nat) (b : Byte) (s : State) : Host.Outcome State Fault Refusal :=
  if s.busy then .refused .hostWriteWhileBusy
  else if i < s.par.txbufBytes then .next { s with txb := s.txb.write i b }
  else .fault .bufferBound

/-- Read RES0 (R43, R87, D51). -/
def hostReadRes0 (s : State) : Host.Outcome State Fault Refusal :=
  if s.busy then .fault .hostReadWhileBusy
  else if s.res0Valid then .next { s with hostData := some s.res0 }
  else .fault .res0Unwritten

/-- Read one RXB byte (R45, R70, R87, D51). -/
def hostReadRxb (i : Nat) (s : State) : Host.Outcome State Fault Refusal :=
  if s.busy then .fault .hostReadWhileBusy
  else if s.par.rxbufBytes ≤ i then .fault .bufferBound
  else if i < s.rxbValid then .next { s with hostData := some ((s.rxb.read i).setWidth 32) }
  else .fault .rxbUnspecified

/-- Read BUSY (R41, R454). -/
def hostReadBusy (s : State) : Host.Outcome State Fault Refusal :=
  .next { s with hostData := some ((BitVec.ofBool s.busy).setWidth 32) }

/-- Controller restart, at any time (R450). -/
def hostRestart (s : State) : Host.Outcome State Fault Refusal :=
  .next (initialise s)

/-- One access of the host. -/
def hostStep (a : HostAct) (s : State) : Host.Outcome State Fault Refusal :=
  match a with
  | .writeDesc0 w => hostWriteDesc0 w s
  | .writeDesc1 w => hostWriteDesc1 w s
  | .writeTxb i b => hostWriteTxb i b s
  | .readRes0 => hostReadRes0 s
  | .readRxb i => hostReadRxb i s
  | .readBusy => hostReadBusy s
  | .restart => hostRestart s

/-- The descriptor of a table word is written and submitted by the host's very next accesses: DESC0 is in its register
already, and the write of DESC1 comes next. -/
def placeDescriptor (d0 d1 : Word32) (s : State) : State :=
  { s with desc0 := d0, busy := false, host := .writeDesc1 d1 :: s.host }

/-- The host's accesses that fill TXB from an index. -/
def fillActs (i : Nat) (bs : List Byte) : List HostAct :=
  match bs with
  | [] => []
  | b :: rest => .writeTxb i b :: fillActs (i + 1) rest

/-- The accesses that submit an operation with its TXB bytes, as an assembler produces them (R110). -/
def submitActs (i : Instr) (tx : List Byte) : List HostAct :=
  fillActs 0 tx ++ [.writeDesc0 (encode i).1, .writeDesc1 (encode i).2]

/-- The big-endian TXB bytes of a list of DDR words (R72). -/
def wordBytes (ws : List DdrWord) : List Byte :=
  match ws with
  | [] => []
  | w :: rest => w.extractLsb' 8 8 :: w.extractLsb' 0 8 :: wordBytes rest

/-- The pseudo-operation `ddr_write_read` (R111). -/
def ddrWriteReadActs (addr : BusAddr) (wcmd : Byte) (ws : List DdrWord) (rcmd : Byte) (n : Nat) : List HostAct :=
  submitActs (.ddrWrite addr wcmd true ws.length) (wordBytes ws) ++ submitActs (.ddrRead addr rcmd false n) []

/-- The pseudo-operation `ddr_config_call` (R111). -/
def ddrConfigCallActs (ack et crcet : Bool) (i : Instr) (tx : List Byte) : List HostAct :=
  submitActs (.setDdrConfig ack et crcet) [] ++ submitActs i tx

end Sys2Proof.Machine
end

