-- ==== Sys2Proof/Machine/Step.lean ====
section
/-! DEFINITION. One step of the block: the next access of the host. A submit runs its operation to its end in that one
step (spec/20_memory.md R80). With no access to come an idle block waits (spec/70_reset_and_hazards.md R452), and a block
whose operation is stuck has no step (spec/60_exceptions.md R408). -/

namespace Sys2Proof.Machine

/-- No access of the host is to come. -/
def noAccess (s : State) : Host.Outcome State Fault Refusal :=
  if s.busy then .fault .stuck else .next s

/-- The step. -/
def step (s : State) : Host.Outcome State Fault Refusal :=
  match s.host with
  | [] => noAccess s
  | a :: rest => hostStep a { s with host := rest }

/-- The state in which the next step submits the descriptor of a table word. -/
def State.withFetchWord (s : State) (nbits w : Nat) : State :=
  placeDescriptor (tableWords nbits w).1 (tableWords nbits w).2 s

end Sys2Proof.Machine
end

