-- ==== Sys2Proof/Safety.lean ====
section
/-! DEFINITION. The terms the statements about the block use: the invariant between operations, what a live coprocessor
is, what an operation may change, and how an operation ends. -/

namespace Sys2Proof.Machine

/-- Both FIFOs are empty and the coprocessor is at its start address (spec/40_queue.md R160). -/
structure State.Quiet (s : State) : Prop where
  cmdq : s.cmdq = []
  rspq : s.rspq = []
  atStart : s.cpAtStart = true

/-- What holds whenever the host can look: the invariants of spec/10_state.md, the FIFOs within their depths, the
parameters within their laws, and the buffers in canonical form. -/
structure State.Sound (s : State) : Prop where
  /-- MODE names the loaded program (R31). -/
  prog : s.cpProg = s.mode
  /-- A pending arbitration byte implies SDR mode (R50). -/
  arb : s.arbpV = true → s.mode = .sdr
  /-- The SDR table is as initialisation built it (R37). -/
  table : s.sdrTab = sdrTable
  /-- R35. -/
  clk : clkMinKhz ≤ s.clkKhz.toNat ∧ s.clkKhz.toNat ≤ clkMaxKhz
  /-- R36. -/
  drive : driveLegal s.driveMa.toNat = true
  /-- R38: a known width is 1 to 32. -/
  width : ∀ w, s.sampleW = some w → 1 ≤ w ∧ w ≤ 32
  /-- R10. -/
  par : s.par.lawful = true
  txbWf : s.txb.wf
  rxbWf : s.rxb.wf
  /-- The bytes a result defines lie in RXB (R45, R75). -/
  defined : s.rxbValid ≤ s.par.rxbufBytes
  /-- R46. -/
  cmdFits : s.cmdq.length ≤ s.par.cqDepth
  /-- R47. -/
  rspFits : s.rspq.length ≤ s.par.rqDepth

/-- The block between two operations: sound and quiet. -/
structure State.Ready (s : State) : Prop extends s.Sound where
  /-- R160. -/
  quiet : s.Quiet

/-- The invariant of the block between two steps: sound, and quiet unless an operation is stuck (R41, R160, R408). -/
structure State.Inv (s : State) : Prop where
  sound : s.Sound
  quiet : s.busy = false → s.Quiet

/-- The coprocessor never hangs: it frees slots, answers, and returns to its start address (R7, R408). -/
abbrev State.Live (s : State) : Prop := s.cpBudget = none

/-- The states a statement about a whole operation starts from: ready, with a live coprocessor. -/
structure State.Runs (s : State) : Prop where
  ready : s.Ready
  live : s.Live

/-- An SDR-class operation passes the mode check and the pending-interrupt check (R230). -/
structure State.SdrFree (s : State) : Prop where
  mode : s.mode = .sdr
  noArb : s.arbpV = false
  sdaHigh : s.sda = true

/-- The next two answers of the bus win the arbitration header and ACK it (R172). -/
structure State.HeaderAck (s : State) : Prop where
  won : arbWon (s.answer 0) = true
  ack : isAck (s.answer 1) = true

/-- The registers, buffers and inputs that no SDR-class operation changes. SAMPLE_W, ARBP, RXB, RES0, BUSY and the
FIFOs are the ones it may change, and each statement says what becomes of them. -/
structure State.SdrFrame (s t : State) : Prop where
  mode : t.mode = s.mode
  ddrCfg : t.ddrCfg = s.ddrCfg
  clkKhz : t.clkKhz = s.clkKhz
  driveMa : t.driveMa = s.driveMa
  sdrTab : t.sdrTab = s.sdrTab
  crc : t.crc = s.crc
  desc0 : t.desc0 = s.desc0
  desc1 : t.desc1 = s.desc1
  txb : t.txb = s.txb
  cpProg : t.cpProg = s.cpProg
  par : t.par = s.par
  host : t.host = s.host
  hostData : t.hostData = s.hostData

/-- The registers, buffers and inputs that no DDR-class operation and no TARGET_RESET changes; MODE, the program and
the CRC are not among them. -/
structure State.BusFrame (s t : State) : Prop where
  ddrCfg : t.ddrCfg = s.ddrCfg
  clkKhz : t.clkKhz = s.clkKhz
  driveMa : t.driveMa = s.driveMa
  sdrTab : t.sdrTab = s.sdrTab
  desc0 : t.desc0 = s.desc0
  desc1 : t.desc1 = s.desc1
  txb : t.txb = s.txb
  par : t.par = s.par
  host : t.host = s.host
  hostData : t.hostData = s.hostData

/-- No byte of RXB is written, and the count of placed bytes stays. -/
structure State.RxbSame (s t : State) : Prop where
  rxb : t.rxb = s.rxb
  valid : t.rxbValid = s.rxbValid

/-- RXB after an operation that placed the bytes `b 0 .. b (n-1)` from index 0: every other byte is unchanged
(spec/20_memory.md R76). -/
structure State.RxbHolds (s t : State) (n : Nat) (b : Nat → Byte) : Prop where
  placed : ∀ k, k < n → t.rxb.read k = b k
  others : ∀ k, n ≤ k → t.rxb.read k = s.rxb.read k
  valid : t.rxbValid = n

/-- The pending arbitration byte is left alone. -/
structure State.ArbSame (s t : State) : Prop where
  v : t.arbpV = s.arbpV
  b : t.arbpB = s.arbpB

/-- The state after `finish(S, n)` (spec/00_scope.md R18). -/
def State.finished (u : State) (st : Status) (n : Nat) : State :=
  { u with res0 := resWord st n, res0Valid := true, busy := false }

/-- The operation ended with `finish(S, n)` after draining (spec/00_scope.md R18, R160). -/
structure State.Finished (t : State) (st : Status) (n : Nat) : Prop where
  res0 : t.res0 = resWord st n
  res0Valid : t.res0Valid = true
  busy : t.busy = false
  quiet : t.Quiet

/-- The draws of SDA left after one sense (D50). -/
structure State.Sensed (s t : State) : Prop where
  sdaIn : t.sdaIn = (dropSda s).sdaIn
  sdaDraws : t.sdaDraws = (dropSda s).sdaDraws

/-- No draw of SDA was used. -/
structure State.NotSensed (s t : State) : Prop where
  sdaIn : t.sdaIn = s.sdaIn
  sdaDraws : t.sdaDraws = s.sdaDraws

/-- The commands that a list of queued words completes, in order (spec/40_queue.md R153). -/
def completes (q : List CmdWord) : List CpCmd :=
  q.filterMap fun e => if e.last then some e.cmd else none

/-- How many of the low `n` bits of a value are 1. -/
def ones (n v : Nat) : Nat := (List.range n).countP (v.testBit ·)

/-! ## Expected traces (spec/30_encoding.md R140 to R148) -/

/-- A non-sampling command of a trace. -/
abbrev sent (c : CpCmd) : TraceEntry := ⟨c, none⟩

/-- A sampling command of a trace, with the low `w` bits of an answer. -/
abbrev got (c : CpCmd) (w : Nat) (a : Word32) : TraceEntry := ⟨c, some (sample w a)⟩

/-- The trace of commands in order, each sampling one with the next answer, from answer `j` on (R6, R119, R151). -/
def entries (ans : Nat → Word32) (j : Nat) (cs : List CpCmd) : List TraceEntry :=
  match cs with
  | [] => []
  | c :: rest =>
    match c.width with
    | none => sent c :: entries ans j rest
    | some w => got c w (ans j) :: entries ans (j + 1) rest

/-- How many commands of a list are sampling (R119). -/
def sampledIn (cs : List CpCmd) : Nat := cs.countP (·.width.isSome)

/-- The bus after a list of commands. -/
def busThrough (b : BusPhase) (cs : List CpCmd) : BusPhase := cs.foldl (fun _ c => c.busAfter) b

/-- SAMPLE_W after a list of commands: the width of the last sampling one (spec/40_queue.md R154, R155). -/
def widthThrough (w : Option Nat) (cs : List CpCmd) : Option Nat :=
  cs.foldl (fun w c => match c.width with
    | none => w
    | some n => some n) w

/-- The operation issued exactly the commands `cs`: they are the new part of the trace, each sampling one with the
bus's next answer; the coprocessor drove them in that order; and that many answers were used (R6, R82, R151). -/
structure State.Drove (s t : State) (cs : List CpCmd) : Prop where
  trace : t.trace = s.trace ++ entries s.answer 0 cs
  wire : t.wire = s.wire ++ cs
  bus : t.bus = busThrough s.bus cs
  used : ∀ k, t.answer k = s.answer (sampledIn cs + k)

/-- An SDR-class operation ended with status `st` and count `n` after driving exactly `cs`, SDA sensed once, and every
other register as before (RXB and ARBP are said apart). -/
structure State.SdrEnds (s t : State) (cs : List CpCmd) (st : Status) (n : Nat) : Prop where
  finished : t.Finished st n
  drove : s.Drove t cs
  width : t.sampleW = widthThrough s.sampleW cs
  frame : s.SdrFrame t
  sensed : s.Sensed t

/-- START and a won arbitration header (R140, R173). -/
def headerCmds : List CpCmd := [.start, arbFrame6, arbFrame3]

/-- START and a lost arbitration header (R140, R173). -/
def lostCmds : List CpCmd := [.start, arbFrame6, arbFrame2]

/-- One SDR write byte (R142). -/
def byteCmds (b : Byte) : List CpCmd := [sdrByteHi b, sdrByteLo b]

/-- The SDR write bytes of TXB indices `i .. i+n-1` (R142, R176). -/
def bytesCmds (m : Memory) (i n : Nat) : List CpCmd :=
  (List.range n).flatMap fun k => byteCmds (m.read (i + k))

/-- An SDR read of `n` bytes out of `max`: all but the last wanted one let the target continue (R143, R177). -/
def readCmds (n max : Nat) : List CpCmd :=
  (List.range n).map fun k => .rdb (decide (k + 1 < max))

/-- What ENTDAA drives once its header is ACKed and a target answers 7E/R (R250). -/
def entdaaCmds (ackBit : Bool) (a : BusAddr) : List CpCmd :=
  headerCmds ++ byteCmds cccEntdaa ++ [.restart, addrFrame bcastAddr true] ++ List.replicate 8 (idFrame ackBit) ++
    [dabFrame a]

/-- The byte in an answer to `RDB` (R126, R143). -/
def readByte (a : Word32) : Byte := a.extractLsb' 1 8

/-- The T slots make an SDR read of at most `max` bytes end after `n`, the answers counted from `j`: the bytes before
the last continue, and the last is the last wanted one or has T = 0 (R177). -/
structure State.ReadEnds (s : State) (j n max : Nat) : Prop where
  pos : 1 ≤ n
  le : n ≤ max
  continues : ∀ k, k + 1 < n → (s.answer (j + k)).getLsbD 0 = true
  ends : n = max ∨ (s.answer (j + (n - 1))).getLsbD 0 = false

/-- DDR word `i` of TXB, big-endian (spec/20_memory.md R72). -/
def txWord (m : Memory) (i : Nat) : DdrWord := m.read (2 * i) ++ m.read (2 * i + 1)

/-- The CRC `c` after the TXB words `i .. i+n-1` (spec/41_crc_parity.md R201). -/
def crcThrough (m : Memory) (c : BitVec 5) (i n : Nat) : BitVec 5 :=
  (List.range n).foldl (fun c k => crc5Word c (txWord m (i + k))) c

/-- The message CRC after the command word `cw` and the first `n` TXB words (R201). -/
def txCrc (m : Memory) (cw : DdrWord) (n : Nat) : BitVec 5 := crcThrough m (crc5Word crc5Init cw) 0 n

/-- Byte `k` of a list of received words, big-endian (R72). -/
def wordsByte (w : Nat → DdrWord) (k : Nat) : Byte :=
  if k % 2 = 0 then (w (k / 2)).extractLsb' 8 8 else (w (k / 2)).extractLsb' 0 8

/-! ## HDR-DDR messages (spec/43_ddr.md) -/

/-- An operation that starts in SDR mode passes the pending check and wins and gets ACK for the header that enters
HDR-DDR; one that starts in DDR mode needs nothing (R300, R303). -/
def State.EntersDdr (s : State) : Prop := s.mode = .sdr → s.SdrFree ∧ s.HeaderAck

/-- What `enter_ddr()` drives (R303). -/
def State.enterCmds (s : State) : List CpCmd :=
  match s.mode with
  | .sdr => headerCmds ++ byteCmds cccEnthdr0
  | .ddr => []

/-- How many answers `enter_ddr()` uses. -/
def State.enterAnswers (s : State) : Nat :=
  match s.mode with
  | .sdr => 2
  | .ddr => 0

/-- An operation that may start in either mode uses one draw of SDA where it starts in SDR mode (R300). -/
structure State.DdrSensed (s t : State) : Prop where
  sensed : s.mode = .sdr → s.Sensed t
  notSensed : s.mode = .ddr → s.NotSensed t

/-- SAMPLE_W where the message starts: unknown once the DDR program was loaded (spec/40_queue.md R170). -/
def State.enterWidth (s : State) : Option Nat :=
  match s.mode with
  | .sdr => none
  | .ddr => s.sampleW

/-- A DDR-class operation ended with status `st` and count `n` in mode `m`, after entering HDR-DDR if it was not there
and driving exactly the message `cs`; every other register as before (RXB is said apart; the CRC is unspecified after an
operation, spec/10_state.md R39). -/
structure State.DdrEnds (s t : State) (cs : List CpCmd) (st : Status) (n : Nat) (m : Mode) : Prop where
  finished : t.Finished st n
  drove : s.Drove t (s.enterCmds ++ cs)
  mode : t.mode = m
  prog : t.cpProg = m
  width : t.sampleW = if m = .sdr then none else widthThrough s.enterWidth cs
  frame : s.BusFrame t
  arb : s.ArbSame t
  sensed : s.DdrSensed t

/-- Whether the preamble of write word `i` is sampled: the first word under ACK_EN, a later one under ET_EN (R311). -/
def ddrAsks (ack et : Bool) (i : Nat) : Bool := if i = 0 then ack else et

/-- Whether the sampled preamble of write word `i` lets the word be sent: ACK is low on the first word, and a later
word goes on high (R311). -/
def preambleGoes (i : Nat) (a : Word32) : Bool := if i = 0 then !a.getLsbD 0 else a.getLsbD 0

/-- Write word `i` on the bus (spec/30_encoding.md R145). -/
def ddrWordCmds (ack et : Bool) (m : Memory) (i : Nat) : List CpCmd :=
  [if ddrAsks ack et i then .dpre else preambleFrame, dataFrame (txWord m i)]

/-- Write words `i .. i+n-1`. -/
def ddrWordsCmds (ack et : Bool) (m : Memory) (i n : Nat) : List CpCmd :=
  (List.range n).flatMap fun k => ddrWordCmds ack et m (i + k)

/-- The target lets the write words `i .. i+n-1` be sent, their preambles answered from answer `j` on. -/
def State.DdrGoes (s : State) (ack et : Bool) (i j n : Nat) : Prop :=
  ∀ k, k < n → ddrAsks ack et (i + k) = true →
    preambleGoes (i + k) (s.answer (j + sampledIn (ddrWordsCmds ack et s.txb i k))) = true

/-- The target stops the write words from `i` on at word `i + n`. -/
structure State.DdrStops (s : State) (ack et : Bool) (i j n : Nat) : Prop where
  before : s.DdrGoes ack et i j n
  asks : ddrAsks ack et (i + n) = true
  stops : preambleGoes (i + n) (s.answer (j + sampledIn (ddrWordsCmds ack et s.txb i n))) = false

/-- The closing command of a DDR message (R330). -/
def closeCmd (fwr : Bool) (st : Status) : CpCmd := if fwr = true ∧ st = .ok then .hrestart else .hexit

/-- The mode after a DDR message (R330). -/
def closeMode (fwr : Bool) (st : Status) : Mode := if fwr = true ∧ st = .ok then .ddr else .sdr

/-- The 18 data and parity bits of received word `k`: `a` gives the answers from the first preamble on (R147). -/
def rxBits (a : Nat → Word32) (k : Nat) : BitVec 18 :=
  if k = 0 then (a 1).extractLsb' 0 18 else laterWord (a (2 * k)) (a (2 * k + 1))

/-- Received word `k`. -/
def rxData (a : Nat → Word32) (k : Nat) : DdrWord := rxWord (rxBits a k)

/-- Word `k` is announced: the target ACKs the first word, and a later one has preamble 11 (R321). -/
def rxComes (a : Nat → Word32) (k : Nat) : Prop :=
  if k = 0 then (a 0).getLsbD 0 = false else (a (2 * k)).extractLsb' 10 2 = 0b11#2

/-- The first `n` words arrive, each with correct parity (R321). -/
def rxIntact (a : Nat → Word32) (n : Nat) : Prop :=
  ∀ k, k < n → rxComes a k ∧ rxParityOk (rxBits a k) = true

/-- The CRC `c` after the first `n` received words (R202). -/
def rxCrcThrough (a : Nat → Word32) (c : BitVec 5) (n : Nat) : BitVec 5 :=
  (List.range n).foldl (fun c k => crc5Word c (rxData a k)) c

/-- What reading the first `n` words drives (R147). -/
def ddrRxCmds (n : Nat) : List CpCmd :=
  (List.range n).flatMap fun k => if k = 0 then [.dr 2, .dr 18] else [.dr 12, .dr 8]

/-! ## POLL (spec/42_sdr.md R262) -/

/-- POLL takes the byte `b`, having driven `cs` to learn it: the pending byte, or the byte of a start-type request. -/
def State.PollTakes (s : State) (cs : List CpCmd) (b : Byte) : Prop :=
  s.mode = .sdr ∧
    ((s.arbpV = true ∧ cs = [] ∧ b = s.arbpB) ∨
     (s.arbpV = false ∧ s.sda = false ∧ arbWon (s.answer 0) = false ∧ cs = lostCmds ∧
        b = arbByte (s.answer 0) (s.answer 1)))

/-- POLL ended with status `st` and count `n` after driving exactly `cs`; it sensed SDA only where no byte was pending;
every other register as before (RXB and ARBP are said apart). -/
structure State.PollEnds (s t : State) (cs : List CpCmd) (st : Status) (n : Nat) : Prop where
  finished : t.Finished st n
  drove : s.Drove t cs
  width : t.sampleW = widthThrough s.sampleW cs
  frame : s.SdrFrame t
  sensed : s.arbpV = false → s.Sensed t
  notSensed : s.arbpV = true → s.NotSensed t

/-- The controller's termination of a read, with the trailing CRC where the target sends one (spec/43_ddr.md R322). -/
def ddrTermCmds (crcEt : Bool) : List CpCmd :=
  if crcEt then [.dw 2 0b10#2, .dr 10] else [.dw 2 0b10#2]

/-- The write CRC word with the CRC `c` (spec/30_encoding.md R146). -/
def crcWordCmd (c : BitVec 5) : CpCmd := .dw 11 (0b10110#5 ++ c ++ 1#1)

/-- The CRC word that follows an early termination at word `n`: only under CRC_ET, and never after a NACK (R312). -/
def stopCrcCmds (crcEt : Bool) (n : Nat) (c : BitVec 5) : List CpCmd :=
  if 0 < n ∧ crcEt = true then [crcWordCmd c] else []

end Sys2Proof.Machine

namespace Sys2Proof

open Sys2Proof.Machine

/-! ## Classes of operations (spec/30_encoding.md R106) -/

/-- The SDR class: 0x01 to 0x03, 0x10 to 0x14, 0x20 to 0x22 (R106). -/
def Instr.sdrClass (i : Instr) : Bool :=
  match i with
  | .privateWrite _ _ => true
  | .privateRead _ _ => true
  | .privateWriteRead _ _ _ => true
  | .cccBcastWrite _ => true
  | .cccDirectWrite _ _ _ => true
  | .cccDirectRead _ _ _ => true
  | .entdaa _ => true
  | .rstdaa => true
  | .checkAck _ => true
  | .arbHeaderOnly => true
  | .poll _ => true
  | .ddrWrite _ _ _ _ => false
  | .ddrRead _ _ _ _ => false
  | .setDdrConfig _ _ _ => false
  | .setClock _ => false
  | .setDrive _ => false
  | .targetReset => false

/-- POLL. -/
def Instr.isPoll (i : Instr) : Bool :=
  match i with
  | .poll _ => true
  | _ => false

/-- The DDR class: 0x30 and 0x31 (R106). -/
def Instr.ddrClass (i : Instr) : Bool :=
  match i with
  | .ddrWrite _ _ _ _ => true
  | .ddrRead _ _ _ _ => true
  | _ => false

/-- The length checks of R231 and R301; POLL's is part of its body (R262). -/
def Instr.lengthsOk (p : Params) (i : Instr) : Bool :=
  match i with
  | .privateWrite _ la => decide (la ≤ p.txbufBytes)
  | .privateRead _ lb => decide (1 ≤ lb ∧ lb ≤ p.rxbufBytes)
  | .privateWriteRead _ la lb => decide (la ≤ p.txbufBytes ∧ 1 ≤ lb ∧ lb ≤ p.rxbufBytes)
  | .cccBcastWrite la => decide (1 ≤ la ∧ la ≤ p.txbufBytes)
  | .cccDirectWrite _ la lb => decide (1 ≤ la ∧ la + lb ≤ p.txbufBytes)
  | .cccDirectRead _ la lb => decide (1 ≤ la ∧ la ≤ p.txbufBytes ∧ 1 ≤ lb ∧ lb ≤ p.rxbufBytes)
  | .entdaa _ => true
  | .rstdaa => true
  | .checkAck _ => true
  | .arbHeaderOnly => true
  | .poll lb => decide (1 ≤ lb ∧ lb + 1 ≤ p.rxbufBytes)
  | .ddrWrite _ _ _ la => decide (2 * la ≤ p.txbufBytes)
  | .ddrRead _ _ _ lb => decide (1 ≤ lb ∧ 2 * lb ≤ p.rxbufBytes)
  | .setDdrConfig _ _ _ => true
  | .setClock _ => true
  | .setDrive _ => true
  | .targetReset => true

/-- The operations that open with the SDR prologue when they start in SDR mode (spec/40_queue.md R173). -/
def Instr.opensHeader (i : Instr) : Bool := (i.sdrClass && !i.isPoll) || i.ddrClass

/-- The first address phase of an operation, with what it drives between the header and the RESTART before it
(spec/42_sdr.md R240 to R255). -/
def Instr.firstAddr (m : Memory) (i : Instr) : Option (List CpCmd × BusAddr × Bool) :=
  match i with
  | .privateWrite a _ => some ([], a, false)
  | .privateRead a _ => some ([], a, true)
  | .privateWriteRead a _ _ => some ([], a, false)
  | .cccBcastWrite _ => none
  | .cccDirectWrite a la _ => some (bytesCmds m 0 la, a, false)
  | .cccDirectRead a la _ => some (bytesCmds m 0 la, a, true)
  | .entdaa _ => some (byteCmds cccEntdaa, bcastAddr, true)
  | .rstdaa => none
  | .checkAck a => some ([], a, false)
  | .arbHeaderOnly => none
  | .poll _ => none
  | .ddrWrite _ _ _ _ => none
  | .ddrRead _ _ _ _ => none
  | .setDdrConfig _ _ _ => none
  | .setClock _ => none
  | .setDrive _ => none
  | .targetReset => none

/-- The statuses an operation can return (spec/42_sdr.md R233, spec/60_exceptions.md R401). -/
def Instr.statuses (i : Instr) : List Status :=
  match i with
  | .privateWrite _ _ => [.ok, .ibi, .nakDuringArbHdr, .nakDuringSdrAddr, .paramOutOfRange]
  | .privateRead _ _ => [.ok, .ibi, .nakDuringArbHdr, .nakDuringSdrAddr, .paramOutOfRange]
  | .privateWriteRead _ _ _ => [.ok, .ibi, .nakDuringArbHdr, .nakDuringSdrAddr, .paramOutOfRange]
  | .cccBcastWrite _ => [.ok, .ibi, .nakDuringArbHdr, .paramOutOfRange]
  | .cccDirectWrite _ _ _ => [.ok, .ibi, .nakDuringArbHdr, .nakDuringSdrAddr, .paramOutOfRange]
  | .cccDirectRead _ _ _ => [.ok, .ibi, .nakDuringArbHdr, .nakDuringSdrAddr, .paramOutOfRange]
  | .entdaa _ => [.ok, .ibi, .nakDuringArbHdr, .nakDuringSdrAddr, .paramOutOfRange]
  | .rstdaa => [.ok, .ibi, .nakDuringArbHdr, .paramOutOfRange]
  | .checkAck _ => [.ok, .ibi, .nakDuringArbHdr, .nakDuringSdrAddr, .paramOutOfRange]
  | .arbHeaderOnly => [.ok, .ibi, .nakDuringArbHdr, .paramOutOfRange]
  | .poll _ => [.ok, .noIbi, .paramOutOfRange]
  | .ddrWrite _ _ _ _ => [.ok, .ibi, .nakDuringArbHdr, .nakDdr, .ddrEarlyTermination, .paramOutOfRange]
  | .ddrRead _ _ _ _ =>
    [.ok, .ibi, .nakDuringArbHdr, .nakDdr, .ddrInvalidPreamble, .ddrParityWrong, .ddrCrcWrong, .paramOutOfRange]
  | .setDdrConfig _ _ _ => [.ok]
  | .setClock _ => [.ok, .paramOutOfRange]
  | .setDrive _ => [.ok, .paramOutOfRange]
  | .targetReset => [.ok]

/-- How many RXB bytes a result with this count defines (spec/10_state.md R45). -/
def Instr.definedBytes (i : Instr) (n : Nat) : Nat :=
  match i with
  | .privateRead _ _ => n
  | .privateWriteRead _ _ _ => n
  | .cccDirectRead _ _ _ => n
  | .entdaa _ => n
  | .poll _ => n
  | .ddrRead _ _ _ _ => 2 * n
  | _ => 0

end Sys2Proof
end

