-- ==== Sys2Proof/Certificates/Slice0/Obligations.lean ====
section
/-! DEFINITION. The statements about the block, one per group of rules of the spec. A statement about a whole operation
starts from a state between two operations (`State.Ready`; the invariant of every step is stated here itself) with a
live coprocessor; `State.answer k` is the bus's k-th answer to come, free beyond the input list. -/

open Sys2Proof Sys2Proof.Machine

/-! ## Encoding -/

/-- R100 to R102: no bit of an encoding is dropped, whatever the operands. -/
def Obligations.DecodeOfEncode : Prop :=
  ∀ i : Instr, i.wf = true → decode (encode i).1 (encode i).2 = .ok i

/-- R102, R105, R108: a descriptor is an operation exactly when its reserved bits are 0 and its opcode is in the table; the
operation then has that opcode, is well-formed, and has the operands ADDR, CMD, F0 to F2, LEN_A and LEN_B of the words,
whatever the fields it ignores hold. -/
def Obligations.DecodeAcceptsTheTable : Prop :=
  ∀ d0 d1 : Word32,
    ((∃ i, decode d0 d1 = .ok i) ↔
      (d0.getLsbD 15 = false ∧ d0.extractLsb' 27 5 = 0#5 ∧
        (d0.extractLsb' 0 8).toNat ∈ [0x01, 0x02, 0x03, 0x10, 0x11, 0x12, 0x13, 0x14, 0x20, 0x21, 0x22, 0x30, 0x31,
          0x40, 0x41, 0x42, 0x43])) ∧
    ∀ i, decode d0 d1 = .ok i → i.wf = true ∧ i.opcode = d0.extractLsb' 0 8 ∧
      match i with
      | .privateWrite a la => a = d0.extractLsb' 8 7 ∧ la = (d1.extractLsb' 0 16).toNat
      | .privateRead a lb => a = d0.extractLsb' 8 7 ∧ lb = (d1.extractLsb' 16 16).toNat
      | .privateWriteRead a la lb =>
        a = d0.extractLsb' 8 7 ∧ la = (d1.extractLsb' 0 16).toNat ∧ lb = (d1.extractLsb' 16 16).toNat
      | .cccBcastWrite la => la = (d1.extractLsb' 0 16).toNat
      | .cccDirectWrite a la lb =>
        a = d0.extractLsb' 8 7 ∧ la = (d1.extractLsb' 0 16).toNat ∧ lb = (d1.extractLsb' 16 16).toNat
      | .cccDirectRead a la lb =>
        a = d0.extractLsb' 8 7 ∧ la = (d1.extractLsb' 0 16).toNat ∧ lb = (d1.extractLsb' 16 16).toNat
      | .entdaa a => a = d0.extractLsb' 8 7
      | .rstdaa => True
      | .checkAck a => a = d0.extractLsb' 8 7
      | .arbHeaderOnly => True
      | .poll lb => lb = (d1.extractLsb' 16 16).toNat
      | .ddrWrite a c f la =>
        a = d0.extractLsb' 8 7 ∧ c = d0.extractLsb' 16 8 ∧ f = d0.getLsbD 24 ∧ la = (d1.extractLsb' 0 16).toNat
      | .ddrRead a c f lb =>
        a = d0.extractLsb' 8 7 ∧ c = d0.extractLsb' 16 8 ∧ f = d0.getLsbD 24 ∧ lb = (d1.extractLsb' 16 16).toNat
      | .setDdrConfig x y z => x = d0.getLsbD 24 ∧ y = d0.getLsbD 25 ∧ z = d0.getLsbD 26
      | .setClock k => k = (d1.extractLsb' 0 16).toNat
      | .setDrive m => m = (d1.extractLsb' 0 16).toNat
      | .targetReset => True

/-- R100, R101, R105: descriptor words written out from the field tables decode to the operations they stand for. -/
def Obligations.WrittenOutWordsDecode : Prop :=
  decode 0x00007001#32 0x00000002#32 = .ok (.privateWrite 0x70#7 2) ∧
  decode 0x00003002#32 0x00050000#32 = .ok (.privateRead 0x30#7 5) ∧
  decode 0x00003011#32 0x00010001#32 = .ok (.cccDirectWrite 0x30#7 1 1) ∧
  decode 0x00000022#32 0x00080000#32 = .ok (.poll 8) ∧
  decode 0x01200830#32 0x00000001#32 = .ok (.ddrWrite 0x08#7 0x20#8 true 1) ∧
  decode 0x00200831#32 0x00040000#32 = .ok (.ddrRead 0x08#7 0x20#8 false 4) ∧
  decode 0x05000040#32 0x00000000#32 = .ok (.setDdrConfig true false true) ∧
  decode 0x00000041#32 0x000030D4#32 = .ok (.setClock 12500) ∧
  decode 0x00008001#32 0x00000000#32 = .error .reservedBit15 ∧
  decode 0x08000001#32 0x00000000#32 = .error .reservedBits31to27 ∧
  decode 0x00000004#32 0x00000000#32 = .error .undefinedOpcode

/-- R108: a descriptor with a reserved bit set, or with an OP outside the table, ends with ParamOutOfRange and count 0,
drives nothing and changes no context register, buffer or queue. -/
def Obligations.IllegalDescriptorEnds : Prop :=
  ∀ (s : State) (w : Word32) (rest : List HostAct),
    s.busy = false → s.host = .writeDesc1 w :: rest →
    (s.desc0.getLsbD 15 = true ∨ s.desc0.extractLsb' 27 5 ≠ 0#5 ∨
      (s.desc0.extractLsb' 0 8).toNat ∉ [0x01, 0x02, 0x03, 0x10, 0x11, 0x12, 0x13, 0x14, 0x20, 0x21, 0x22, 0x30, 0x31,
        0x40, 0x41, 0x42, 0x43]) →
    step s = .next ((beginOp { s with host := rest, desc1 := w }).finished .paramOutOfRange 0)

/-! ## The step and the host's accesses -/

/-- R232, R408: when the words in DESC0 and DESC1 decode to an operation, the step that writes DESC1 is that operation's
meaning, run with BUSY set, and the access is taken from the host's list. Where the operation waits for ever, the step
leaves the state it waits in: BUSY is 1 and no result is posted. That the one step is the whole operation is the model's
choice (notes/assumptions/1.md), and so is what `beginOp` clears beside it, its record of RXB, of the trace and of the
unchecked puts (notes/assumptions/13.md, 19.md, 16.md); the state of a stuck block is notes/assumptions/9.md. -/
def Obligations.StepRunsTheDecodedOperation : Prop :=
  ∀ (s : State) (w : Word32) (rest : List HostAct) (i : Instr),
    s.busy = false → s.host = .writeDesc1 w :: rest → decode s.desc0 w = .ok i →
    (exec i (beginOp { s with host := rest, desc1 := w }) ≠ .fault .stuck →
      step s = exec i (beginOp { s with host := rest, desc1 := w })) ∧
    (s.Inv → exec i (beginOp { s with host := rest, desc1 := w }) = .fault .stuck →
      ∃ u, step s = .next u ∧ u.busy = true ∧ u.host = rest ∧ u.desc0 = s.desc0 ∧ u.desc1 = w ∧ u.res0 = s.res0 ∧
        u.res0Valid = s.res0Valid ∧ u.par = s.par)

/-- R87: while BUSY = 1 a host write of DESC0, DESC1 or TXB is no step, and a host read of RES0 or RXB gives no value. -/
def Obligations.HostAccessWhileBusy : Prop :=
  ∀ (s : State) (rest : List HostAct), s.busy = true →
    (∀ w, s.host = .writeDesc0 w :: rest → step s = .refused .hostWriteWhileBusy) ∧
    (∀ w, s.host = .writeDesc1 w :: rest → step s = .refused .hostWriteWhileBusy) ∧
    (∀ i b, s.host = .writeTxb i b :: rest → step s = .refused .hostWriteWhileBusy) ∧
    (s.host = .readRes0 :: rest → step s = .fault .hostReadWhileBusy) ∧
    (∀ i, s.host = .readRxb i :: rest → step s = .fault .hostReadWhileBusy)

/-- R452: with no access to come an idle block waits and nothing changes. R408: a stuck one has no step. R42, R44, R70:
with BUSY = 0 a host write of DESC0 or of a byte of TXB writes that register or byte and nothing else. That a byte beyond
TXB is the fault `bufferBound` is the model's reading of a bound the spec only gives (notes/assumptions/17.md), and that
waiting is a step of its own is the model's choice (notes/assumptions/1.md, 4.md, 9.md). -/
def Obligations.HostWritesAndWaits : Prop :=
  (∀ s : State, s.host = [] → (s.busy = false → step s = .next s) ∧ (s.busy = true → step s = .fault .stuck)) ∧
  ∀ (s : State) (rest : List HostAct), s.busy = false → s.txb.wf →
    (∀ w, s.host = .writeDesc0 w :: rest → step s = .next { s with host := rest, desc0 := w }) ∧
    (∀ i b, s.host = .writeTxb i b :: rest →
      (s.par.txbufBytes ≤ i → step s = .fault .bufferBound) ∧
      (i < s.par.txbufBytes → ∃ m, step s = .next { s with host := rest, txb := m } ∧ m.wf ∧ m.read i = b ∧
        ∀ k, k ≠ i → m.read k = s.txb.read k))

/-- R41, R43, R45: with BUSY = 0 the host reads RES0 once an operation has finished, and the RXB bytes the last result
defines; any other read of them is a fault. BUSY can be read at any time. A read changes nothing else. -/
def Obligations.HostReads : Prop :=
  ∀ (s : State) (rest : List HostAct),
    (s.host = .readBusy :: rest →
      step s = .next { s with host := rest, hostData := some (if s.busy then 1#32 else 0#32) }) ∧
    (s.busy = false →
      (s.host = .readRes0 :: rest →
        (s.res0Valid = true → step s = .next { s with host := rest, hostData := some s.res0 }) ∧
        (s.res0Valid = false → step s = .fault .res0Unwritten)) ∧
      ∀ i, s.host = .readRxb i :: rest →
        (s.par.rxbufBytes ≤ i → step s = .fault .bufferBound) ∧
        (i < s.par.rxbufBytes → s.rxbValid ≤ i → step s = .fault .rxbUnspecified) ∧
        (i < s.par.rxbufBytes → i < s.rxbValid →
          step s = .next { s with host := rest, hostData := some ((s.rxb.read i).setWidth 32) }))

/-! ## Reset -/

/-- The values after initialisation that the table of R452 gives; CLK_KHZ and DRIVE_MA are within the laws of their
parameters (R35, R36); the engine waits for a submit. The last clause holds because the model's list of host accesses is
empty at reset (notes/assumptions/4.md, 1.md). That the bus phase is `unknown` is the model's word for the missing claim of
R453 (notes/assumptions/14.md), and `res0Valid` is its record that RES0 has no value yet (notes/assumptions/3.md, 13.md). -/
def Obligations.ResetValues : Prop :=
  State.reset.mode = .sdr ∧ State.reset.arbpV = false ∧
  State.reset.ddrCfg = { ackEn := false, etEn := false, crcEt := false } ∧
  State.reset.clkKhz = State.reset.par.clkResetKhz ∧ State.reset.driveMa = State.reset.par.driveResetMa ∧
  State.reset.par.lawful = true ∧
  (∀ k, (h : k < 512) → State.reset.sdrTab[k] = sdrTabEntry k) ∧ State.reset.sampleW = none ∧
  State.reset.busy = false ∧ State.reset.cmdq = [] ∧ State.reset.rspq = [] ∧ State.reset.cpProg = .sdr ∧
  State.reset.cpAtStart = true ∧ State.reset.res0Valid = false ∧ State.reset.bus = .unknown ∧
  step State.reset = .next State.reset

/-- R450, R451: a controller restart, at any time and in any state, gives those values again; it drives nothing: no command
goes to the bus or into the trace, and no answer and no draw of SDA is used. That it is one access of the host, that the
parameters and the inputs from outside stay, and that the bus is then `unknown` is the model's choice
(notes/assumptions/15.md, 14.md); the restarted coprocessor is live unless an input says otherwise
(notes/assumptions/9.md). -/
def Obligations.RestartInitialises : Prop :=
  ∀ (s : State) (rest : List HostAct), s.host = .restart :: rest →
    ∃ t, step s = .next t ∧ t.mode = .sdr ∧ t.arbpV = false ∧
      t.ddrCfg = { ackEn := false, etEn := false, crcEt := false } ∧
      t.clkKhz = s.par.clkResetKhz ∧ t.driveMa = s.par.driveResetMa ∧ t.sdrTab = sdrTable ∧ t.sampleW = none ∧
      t.busy = false ∧ t.cmdq = [] ∧ t.rspq = [] ∧ t.cpProg = .sdr ∧ t.cpAtStart = true ∧ t.res0Valid = false ∧
      t.bus = .unknown ∧ t.par = s.par ∧ t.host = rest ∧ t.trace = [] ∧ t.wire = [] ∧
      (∀ k, t.answer k = s.answer k) ∧ t.sda = s.sda ∧ (s.cpFates = [] → t.Live)

/-- The invariant of the block holds at reset. -/
def Obligations.ResetInv : Prop := State.reset.Inv

/-- The invariant of the block is kept by every step, whatever the host does and whether or not the coprocessor is live:
MODE names the loaded program (R31), a pending arbitration byte implies SDR mode (R50), the SDR table is as built (R37),
CLK_KHZ and DRIVE_MA are legal (R35, R36), a known sample width is in its range (R38), the FIFOs are within their depths
(R46, R47), the buffers are in canonical form, and with BUSY = 0 both FIFOs are empty and the coprocessor is at its start
address (R160). A state with BUSY = 1 is one of a stuck operation (R408). -/
def Obligations.StepKeepsInv : Prop :=
  ∀ s t : State, s.Inv → step s = .next t → t.Inv

/-! ## Every operation ends -/

/-- R7, R18, R133, R160 to R162, R461, R467, R75: from a ready state with a live coprocessor, every operation with
every operand ends with a result, ready for the next one; it never emits a command its program does not run, never
collects at a wrong width, never overflows the response FIFO and never leaves a buffer. -/
def Obligations.EveryOperationEnds : Prop :=
  ∀ (i : Instr) (s : State), s.Runs →
    ∃ t, exec i s = .next t ∧ t.Ready ∧ t.Live ∧ t.busy = false ∧ t.res0Valid = true

/-- R408, R450: whatever the coprocessor does, an operation from a ready state either ends or is stuck waiting for it; with
a coprocessor that takes nothing, ARB_HEADER_ONLY on a free bus is stuck; with one that takes the words of TARGET_RESET but
never returns to its start address, TARGET_RESET is stuck. A controller restart ends an operation that is stuck: the submit
leaves BUSY = 1, and the restart leaves the block idle, with no result posted. How a coprocessor fails is an input of the
model (notes/assumptions/9.md). -/
def Obligations.OnlyAHungCoprocessorStops : Prop :=
  (∀ (i : Instr) (s : State), s.Ready → (∃ t, exec i s = .next t ∧ t.Ready) ∨ exec i s = .fault .stuck) ∧
  (∀ s : State, s.Ready → s.SdrFree → s.cpBudget = some 0 → exec .arbHeaderOnly s = .fault .stuck) ∧
  (∀ s : State, s.Ready → s.mode = .sdr → s.cpBudget = some (cmdWords s.par .trst).length → s.cpReturns = false →
    exec .targetReset s = .fault .stuck) ∧
  ∀ (s : State) (w : Word32) (rest : List HostAct) (i : Instr), s.Inv → s.busy = false →
    s.host = .writeDesc1 w :: .restart :: rest → decode s.desc0 w = .ok i →
    exec i (beginOp { s with host := .restart :: rest, desc1 := w }) = .fault .stuck →
    ∃ u t, step s = .next u ∧ u.busy = true ∧ step u = .next t ∧ t.Ready ∧ t.busy = false ∧ t.res0Valid = false ∧
      t.host = rest

/-- R104, R107, R233, R401: the result word holds a status the operation can return in bits 3:0, zero in bits 15:4, and
a count that fits bits 31:16; a result with count n defines the RXB bytes R45 gives it. -/
def Obligations.ResultWord : Prop :=
  ∀ (i : Instr) (s t : State), s.Ready → s.rxbValid = 0 → exec i s = .next t →
    ∃ st n, st ∈ i.statuses ∧ n < 65536 ∧ t.res0 = resWord st n ∧ t.res0.extractLsb' 0 4 = st.code ∧
      t.res0.extractLsb' 4 12 = 0#12 ∧ (t.res0.extractLsb' 16 16).toNat = n ∧
      t.rxbValid = i.definedBytes n

/-- R6, R82, R151: the coprocessor drives exactly the commands the operation issued, in that order, each sampling one
paired with the bus's next answer. -/
def Obligations.TraceIsTheWire : Prop :=
  ∀ (i : Instr) (s t : State), s.Ready → exec i s = .next t → ∃ cs, s.Drove t cs

/-- R152: what an operation does depends neither on the depths of the FIFOs nor on the coprocessor's pace. -/
def Obligations.DepthAndPaceDoNotMatter : Prop :=
  ∀ (i : Instr) (s t : State) (cq rq : Nat) (pace : List Nat), s.Runs → 4 ≤ cq → 1 ≤ rq → exec i s = .next t →
    ∃ t', exec i { s with par := { s.par with cqDepth := cq, rqDepth := rq }, cpPace := pace } = .next t' ∧
      { t' with par := t.par, cpPace := t.cpPace, uncheckedLeft := t.uncheckedLeft } = t

/-- R31, R331, R353: MODE after an operation. Only a DDR operation with F0 = 1 that ended Ok leaves DDR mode behind; one
whose entry check failed leaves MODE as it was; TARGET_RESET leaves SDR; no other operation changes it. -/
def Obligations.ModeAfter : Prop :=
  ∀ (i : Instr) (s t : State), s.Ready → exec i s = .next t →
    match i with
    | .ddrWrite _ _ fwr _ =>
      if t.res0 = resWord .paramOutOfRange 0 then t.mode = s.mode
      else (t.mode = .ddr ↔ fwr = true ∧ t.res0.extractLsb' 0 4 = Status.ok.code)
    | .ddrRead _ _ fwr _ =>
      if t.res0 = resWord .paramOutOfRange 0 then t.mode = s.mode
      else (t.mode = .ddr ↔ fwr = true ∧ t.res0.extractLsb' 0 4 = Status.ok.code)
    | .targetReset => t.mode = .sdr
    | _ => t.mode = s.mode

/-- R32, R412: a byte becomes pending only through an operation that returns Ibi, and stops being pending only through
POLL or TARGET_RESET. -/
def Obligations.PendingByteChanges : Prop :=
  ∀ (i : Instr) (s t : State), s.Ready → exec i s = .next t →
    (s.arbpV = false → t.arbpV = true → i.opensHeader = true ∧ t.res0 = resWord .ibi 0) ∧
    (s.arbpV = true → t.arbpV = false → i.isPoll = true ∨ i = .targetReset)

/-- R34 to R37, R42, R51, R85, R401: only SET_DDR_CONFIG, SET_CLOCK and SET_DRIVE change their registers; no operation
changes the descriptor, TXB or the SDR table. -/
def Obligations.ConfigurationKept : Prop :=
  ∀ (i : Instr) (s t : State), s.Ready → exec i s = .next t →
    ((∀ a e c, i ≠ .setDdrConfig a e c) → t.ddrCfg = s.ddrCfg) ∧
    ((∀ k, i ≠ .setClock k) → t.clkKhz = s.clkKhz) ∧
    ((∀ m, i ≠ .setDrive m) → t.driveMa = s.driveMa) ∧
    t.desc0 = s.desc0 ∧ t.desc1 = s.desc1 ∧ t.txb = s.txb ∧ t.sdrTab = s.sdrTab ∧ t.par = s.par

/-- R76: an operation writes RXB only below its final count (times 2 for words). -/
def Obligations.RxbOutsideTheResult : Prop :=
  ∀ (i : Instr) (s t : State), s.Ready → exec i s = .next t →
    ∀ k, i.definedBytes (t.res0.extractLsb' 16 16).toNat ≤ k → t.rxb.read k = s.rxb.read k

/-- R403, R426: where an operation leaves the bus, if it drove it: in HDR-DDR mode when MODE is DDR, inside a frame after an
Ibi, and idle after every other end. That it is idle after TARGET_RESET is read from the list of R426, since the spec does
not say how its waveform leaves the bus (notes/assumptions/14.md). -/
def Obligations.BusAfter : Prop :=
  ∀ (i : Instr) (s t : State), s.Ready → exec i s = .next t → t.wire ≠ s.wire →
    t.bus = (if t.mode = .ddr then .hdrDdr
      else if t.res0 = resWord .ibi 0 then .sdrFrame
      else .idle)

/-! ## CRC, parity and the SDR table -/

/-- R200, R203: the table-driven CRC update equals the bitwise one for every register value and every word, and every
table entry has bits 2:0 equal to 0. -/
def Obligations.CrcTableIsBitwise : Prop :=
  (∀ (c : BitVec 5) (w : DdrWord), crc5WordTab c w = crc5Word c w) ∧
  ∀ x : Byte, (crc5Tab x).extractLsb' 0 3 = 0#3

/-- R210, R211: PA1 is 1 when the odd-position bits of the word hold an odd number of ones, and PA0 when the even-position
bits hold an even number; `adjust` makes the number of ones in the even positions even, so PA0 equal to 1, changes at most
bit 0, and so leaves PA1 alone. -/
def Obligations.AdjustMakesPa0One : Prop :=
  ∀ w : DdrWord,
    (pa1 w = true ↔ ones 16 (w &&& 0xAAAA#16).toNat % 2 = 1) ∧
    (pa0 w = true ↔ ones 16 (w &&& 0x5555#16).toNat % 2 = 0) ∧
    ones 16 (adjust w &&& 0x5555#16).toNat % 2 = 0 ∧ pa0 (adjust w) = true ∧ pa1 (adjust w) = pa1 w ∧
    (pa0 w = true → adjust w = w) ∧ ∀ k, 1 ≤ k → (adjust w).getLsbD k = w.getLsbD k

/-- R214, R215: a byte with its T-bit, and a dynamic address with its parity bit, hold an odd number of ones, counted bit by
bit. -/
def Obligations.OddParity : Prop :=
  (∀ b : Byte, ones 9 (b ++ BitVec.ofBool (tBit b)).toNat % 2 = 1) ∧
  ∀ a : BusAddr, ones 8 (dab a).toNat % 2 = 1 ∧ (dab a).extractLsb' 1 7 = a

/-- R212, R213: the command word's fields, its PA0 = 1, and the 20 slots it is sent in. -/
def Obligations.CommandWordFields : Prop :=
  ∀ (a : BusAddr) (c : Byte) (rnw : Bool),
    (cmdWord a c rnw).getLsbD 15 = rnw ∧ (cmdWord a c rnw).extractLsb' 8 7 = c.extractLsb' 0 7 ∧
    (cmdWord a c rnw).extractLsb' 1 7 = a ∧ pa0 (cmdWord a c rnw) = true ∧
    cmdFrame (cmdWord a c rnw) =
      .dw 20 (0b01#2 ++ cmdWord a c rnw ++ BitVec.ofBool (pa1 (cmdWord a c rnw)) ++ 1#1)

/-- R142, R175, R220: in a ready state the two table entries of a byte are its SDR write frame. -/
def Obligations.SdrTableEntries : Prop :=
  ∀ (s : State) (b : Byte), s.Ready →
    s.sdrTab[2 * b.toNat]'(by have := b.isLt; omega) = .pp 6 (b.extractLsb' 2 6) ∧
    s.sdrTab[2 * b.toNat + 1]'(by have := b.isLt; omega) =
      .pp 3 (b.extractLsb' 0 2 ++ BitVec.ofBool (tBit b))

/-! ## Buffers and queues -/

/-- R15, R70: a byte written reads back, every other byte is as before, the canonical form is kept, and equal buffers
are equal data. -/
def Obligations.BufferLaws : Prop :=
  ∀ (m m' : Memory) (a : Nat) (b : Byte), m.wf → m'.wf →
    (m.write a b).wf ∧ (m.write a b).read a = b ∧ (∀ k, k ≠ a → (m.write a b).read k = m.read k) ∧
    ((∀ k, m.read k = m'.read k) → m = m')

/-- R153, R150: `put` appends each word of `CP_ENCODE` of its command, in order, behind the words still queued and never
leaves more than CQ_DEPTH of them; the words taken meanwhile were the oldest ones, and the commands they complete went to
the bus in order. That CQ_DEPTH counts words, where R46 says commands, is the model's reading
(notes/assumptions/8.md). -/
def Obligations.PutKeepsOrder : Prop :=
  ∀ (s : State) (c : CpCmd), s.Live → 4 ≤ s.par.cqDepth → s.cmdq.length ≤ s.par.cqDepth →
    (∀ e ∈ s.cmdq, e.last = true → e.cmd.width = none) → c.program = s.cpProg →
    (cmdWords s.par c).map (·.word) = cpEncode Config.cpEncodePlain s.par.encodeRows c ∧
    ∃ t k, put c s = .ok () t ∧ t.cmdq.length ≤ s.par.cqDepth ∧ t.cmdq ≠ [] ∧
      t.cmdq = (s.cmdq ++ cmdWords s.par c).drop k ∧
      t.wire = s.wire ++ completes ((s.cmdq ++ cmdWords s.par c).take k) ∧ t.rspq = s.rspq

/-- R154, R155, R119: `xfer` sets the sample width, drives the command behind those queued, and gives what CP_RESP_DECODE
makes of the response, the low bits of the bus's next answer, whatever the lawful encodings of commands and responses; no
response stays outstanding. -/
def Obligations.XferGivesTheAnswer : Prop :=
  ∀ (s : State) (c : CpCmd) (w : Nat), s.Live → s.cpProg = s.mode → s.rspq = [] → s.par.lawful = true →
    (∀ e ∈ s.cmdq, e.last = true → e.cmd.width = none) → c.program = s.mode → c.width = some w →
    ∃ t, xfer c s = .ok (sample w (s.answer 0)) t ∧ t.sampleW = some w ∧ t.rspq = [] ∧ t.cmdq = [] ∧
      t.wire = s.wire ++ completes s.cmdq ++ [c] ∧ t.trace = s.trace ++ [got c w (s.answer 0)] ∧
      (∀ k, t.answer k = s.answer (1 + k))

/-- R156, R462: `load_program` with both FIFOs empty and the coprocessor at its start address loads the program and
forgets the sample width; otherwise it is a fault. R133: a command the loaded program does not run is a fault. -/
def Obligations.ProgramFaults : Prop :=
  ∀ s : State,
    (∀ p, (s.Quiet → loadProgram p s = .ok () { s with cpProg := p, sampleW := none, uncheckedLeft := 0 }) ∧
      (¬ s.Quiet → loadProgram p s = .fault .loadInFlight)) ∧
    ∀ c, c.program ≠ s.cpProg → emit c s = .fault .wrongProgram ∧ xfer c s = .fault .wrongProgram ∧
      putUnchecked c s = .fault .wrongProgram

/-- R158, R159, R161: after `drain` both FIFOs are empty, the coprocessor is at its start address, and every command
queued before went to the bus in order. -/
def Obligations.DrainCompletes : Prop :=
  ∀ s : State, s.Live → s.rspq = [] → (∀ e ∈ s.cmdq, e.last = true → e.cmd.width = none) →
    ∃ t, drain s = .ok () t ∧ t.Quiet ∧ t.wire = s.wire ++ completes s.cmdq ∧ t.mode = s.mode ∧ t.sampleW = s.sampleW

/-- R161, R460: an unchecked put is a fault unless it is one of the four words directly after `wait_until_queue_empty()`,
and where it would overflow CMDQ; otherwise it appends its word. Used there for a command of at most four words that is not
sampled, it gives the trace and the bus commands of `emit`. Which other actions end the allowance (every ordinary put, a
response taken, the wait for the start address, a sample width, a program load, a submit) is the model's reading of
"directly after" (notes/assumptions/16.md). -/
def Obligations.UncheckedPuts : Prop :=
  ∀ s : State,
    (∀ e, s.uncheckedLeft = 0 → putWordUnchecked e s = .fault .uncheckedPut) ∧
    (∀ e, s.par.cqDepth ≤ s.cmdq.length → putWordUnchecked e s = .fault .uncheckedPut) ∧
    (∀ e k, s.uncheckedLeft = k + 1 → s.cmdq.length < s.par.cqDepth →
      putWordUnchecked e s = .ok () { s with cmdq := s.cmdq ++ [e], uncheckedLeft := k }) ∧
    (∀ t, waitUntilQueueEmpty s = .ok () t → t.uncheckedLeft = 4 ∧ t.cmdq = []) ∧
    (∀ c t, s.Live → s.rspq = [] → s.par.lawful = true → (∀ e ∈ s.cmdq, e.last = true → e.cmd.width = none) →
      s.cpProg = s.mode → c.program = s.cpProg → c.width = none → (cmdWords s.par c).length ≤ 4 →
      waitUntilQueueEmpty s = .ok () t →
      ∃ u u', emitUnchecked c t = .ok () u ∧ emit c t = .ok () u' ∧ u.trace = u'.trace ∧
        u.wire ++ completes u.cmdq = u'.wire ++ completes u'.cmdq ∧ u.rspq = u'.rspq) ∧
    (∀ e t, putWord e s = .ok () t → t.uncheckedLeft = 0) ∧
    (∀ c w r t, popResponse c w s = .ok r t → t.uncheckedLeft = 0) ∧
    (∀ t, waitPcStart s = .ok () t → t.uncheckedLeft = 0) ∧
    (∀ p t, loadProgram p s = .ok () t → t.uncheckedLeft = 0) ∧
    (∀ n, (setSampleWidth n s).uncheckedLeft = 0) ∧ (beginOp s).uncheckedLeft = 0

/-! ## Entry checks -/

/-- R230, R262: in DDR mode every SDR-class operation, POLL among them, ends with ParamOutOfRange and changes nothing
but RES0 and BUSY. -/
def Obligations.SdrOperationInDdrMode : Prop :=
  ∀ (i : Instr) (s : State), i.sdrClass = true → s.mode = .ddr →
    exec i s = .next (s.finished .paramOutOfRange 0)

/-- R178, R230, R300: in SDR mode a pending byte, or SDA low, ends every SDR-class operation but POLL and every
DDR-class operation with Ibi, whatever its lengths. That SDA is not sensed where a byte is pending, so that no draw is used,
is inferred from the order in R178 (notes/assumptions/11.md). -/
def Obligations.PendingInterruptRefuses : Prop :=
  ∀ (i : Instr) (s : State), i.opensHeader = true → s.mode = .sdr →
    (s.arbpV = true → exec i s = .next (s.finished .ibi 0)) ∧
    (s.arbpV = false → s.sda = false → exec i s = .next ((dropSda s).finished .ibi 0))

/-- R231, R262, R301: a length that does not fit ends an operation with ParamOutOfRange, before anything is driven: an
SDR-class one on a free bus, POLL with a request (which stays pending), a DDR-class one in either mode. -/
def Obligations.LengthRefuses : Prop :=
  ∀ (i : Instr) (s : State), i.lengthsOk s.par = false →
    (i.sdrClass = true → i.isPoll = false → s.SdrFree →
      exec i s = .next ((dropSda s).finished .paramOutOfRange 0)) ∧
    (i.isPoll = true → s.mode = .sdr →
      (s.arbpV = true → exec i s = .next (s.finished .paramOutOfRange 0)) ∧
      (s.arbpV = false → s.sda = false → exec i s = .next ((dropSda s).finished .paramOutOfRange 0))) ∧
    (i.ddrClass = true → s.SdrFree → exec i s = .next ((dropSda s).finished .paramOutOfRange 0)) ∧
    (i.ddrClass = true → s.mode = .ddr → exec i s = .next (s.finished .paramOutOfRange 0))

/-! ## The SDR prologue and address phases -/

/-- R140, R171 to R173: a header that does not go through. Lost: the operation ends with Ibi and count 0, without STOP,
and the captured byte is pending. NACKed: it ends with NakDuringArbHdr and STOP. -/
def Obligations.HeaderFails : Prop :=
  ∀ (i : Instr) (s : State), i.opensHeader = true → s.Runs → s.SdrFree → i.lengthsOk s.par = true →
    (arbWon (s.answer 0) = false →
      ∃ t, exec i s = .next t ∧ s.SdrEnds t lostCmds .ibi 0 ∧ s.RxbSame t ∧
        t.arbpV = true ∧ t.arbpB = arbByte (s.answer 0) (s.answer 1) ∧ t.bus = .sdrFrame) ∧
    (arbWon (s.answer 0) = true → isAck (s.answer 1) = false →
      ∃ t, exec i s = .next t ∧ s.SdrEnds t (headerCmds ++ [CpCmd.stop]) .nakDuringArbHdr 0 ∧ s.RxbSame t ∧
        s.ArbSame t ∧ t.bus = .idle)

/-- R174, R240 to R250, R255: an address phase is NACKed: NakDuringSdrAddr, count 0, STOP. First the first address
phase of each operation that has one; then the second one of PRIVATE_WRITE_READ (R242), whose count is 0 although its
bytes were sent. -/
def Obligations.AddressNacked : Prop :=
  (∀ (i : Instr) (s : State) (cs : List CpCmd) (a : BusAddr) (rnw : Bool),
    i.firstAddr s.txb = some (cs, a, rnw) → s.Runs → s.SdrFree → i.lengthsOk s.par = true → s.HeaderAck →
    isAck (s.answer 2) = false →
    ∃ t, exec i s = .next t ∧
      s.SdrEnds t (headerCmds ++ cs ++ [CpCmd.restart, addrFrame a rnw, .stop]) .nakDuringSdrAddr 0 ∧
      s.RxbSame t ∧ s.ArbSame t) ∧
  ∀ (s : State) (a : BusAddr) (la lb : Nat), s.Runs → s.SdrFree → la ≤ s.par.txbufBytes → 1 ≤ lb →
    lb ≤ s.par.rxbufBytes → s.HeaderAck → isAck (s.answer 2) = true → isAck (s.answer 3) = false →
    ∃ t, exec (.privateWriteRead a la lb) s = .next t ∧
      s.SdrEnds t (headerCmds ++ [CpCmd.restart, addrFrame a false] ++ bytesCmds s.txb 0 la ++
        [CpCmd.restart, addrFrame a true, .stop]) .nakDuringSdrAddr 0 ∧ s.RxbSame t ∧ s.ArbSame t

/-! ## SDR transfers -/

/-- R240: PRIVATE_WRITE with its address acknowledged: the bytes of TXB are written, Ok, count `la`. -/
def Obligations.PrivateWriteCompletes : Prop :=
  ∀ (s : State) (a : BusAddr) (la : Nat), s.Runs → s.SdrFree → la ≤ s.par.txbufBytes → s.HeaderAck →
    isAck (s.answer 2) = true →
    ∃ t, exec (.privateWrite a la) s = .next t ∧
      s.SdrEnds t (headerCmds ++ [CpCmd.restart, addrFrame a false] ++ bytesCmds s.txb 0 la ++ [CpCmd.stop]) .ok la ∧
      s.RxbSame t ∧ s.ArbSame t

/-- R241, R177: PRIVATE_READ stores the bytes up to the one whose T slot ends the stream, or all it asked for. -/
def Obligations.PrivateReadCompletes : Prop :=
  ∀ (s : State) (a : BusAddr) (lb n : Nat), s.Runs → s.SdrFree → 1 ≤ lb → lb ≤ s.par.rxbufBytes → s.HeaderAck →
    isAck (s.answer 2) = true → s.ReadEnds 3 n lb →
    ∃ t, exec (.privateRead a lb) s = .next t ∧
      s.SdrEnds t (headerCmds ++ [CpCmd.restart, addrFrame a true] ++ readCmds n lb ++ [CpCmd.stop]) .ok n ∧
      s.RxbHolds t n (fun k => readByte (s.answer (3 + k))) ∧ s.ArbSame t

/-- R242: PRIVATE_WRITE_READ writes, then reads after a RESTART, with no STOP between. -/
def Obligations.PrivateWriteReadCompletes : Prop :=
  ∀ (s : State) (a : BusAddr) (la lb n : Nat), s.Runs → s.SdrFree → la ≤ s.par.txbufBytes → 1 ≤ lb →
    lb ≤ s.par.rxbufBytes → s.HeaderAck → isAck (s.answer 2) = true → isAck (s.answer 3) = true → s.ReadEnds 4 n lb →
    ∃ t, exec (.privateWriteRead a la lb) s = .next t ∧
      s.SdrEnds t (headerCmds ++ [CpCmd.restart, addrFrame a false] ++ bytesCmds s.txb 0 la ++
        [CpCmd.restart, addrFrame a true] ++ readCmds n lb ++ [CpCmd.stop]) .ok n ∧
      s.RxbHolds t n (fun k => readByte (s.answer (4 + k))) ∧ s.ArbSame t

/-- R177, R241, R242, R247, R262: whatever the bus answers, an SDR read whose header and addresses are acknowledged ends
with Ok after exactly one number of bytes, the one at which the stream ends or the length is reached: PRIVATE_READ,
PRIVATE_WRITE_READ, CCC_DIRECT_READ, and the payload of an IBI that POLL serves. -/
def Obligations.EveryReadEnds : Prop :=
  (∀ (s : State) (a : BusAddr) (la lb : Nat), s.Runs → s.SdrFree → s.HeaderAck → 1 ≤ lb → lb ≤ s.par.rxbufBytes →
    isAck (s.answer 2) = true →
    (∃ n t, exec (.privateRead a lb) s = .next t ∧ t.res0 = resWord .ok n ∧ t.rxbValid = n ∧ s.ReadEnds 3 n lb ∧
      ∀ m, s.ReadEnds 3 m lb → m = n) ∧
    (la ≤ s.par.txbufBytes → isAck (s.answer 3) = true →
      ∃ n t, exec (.privateWriteRead a la lb) s = .next t ∧ t.res0 = resWord .ok n ∧ t.rxbValid = n ∧
        s.ReadEnds 4 n lb ∧ ∀ m, s.ReadEnds 4 m lb → m = n) ∧
    (1 ≤ la → la ≤ s.par.txbufBytes →
      ∃ n t, exec (.cccDirectRead a la lb) s = .next t ∧ t.res0 = resWord .ok n ∧ t.rxbValid = n ∧
        s.ReadEnds 3 n lb ∧ ∀ m, s.ReadEnds 3 m lb → m = n)) ∧
  ∀ (s : State) (lb : Nat) (cs : List CpCmd) (b : Byte), s.Runs → 1 ≤ lb → lb + 1 ≤ s.par.rxbufBytes →
    s.PollTakes cs b → b.getLsbD 0 = true →
    ∃ n t, exec (.poll lb) s = .next t ∧ t.res0 = resWord .ok (1 + n) ∧ t.rxbValid = 1 + n ∧
      s.ReadEnds (sampledIn cs + 1) n lb ∧ ∀ m, s.ReadEnds (sampledIn cs + 1) m lb → m = n

/-- R245: CCC_BCAST_WRITE: the bytes follow the header's ACK directly, with no RESTART. -/
def Obligations.CccBcastWriteCompletes : Prop :=
  ∀ (s : State) (la : Nat), s.Runs → s.SdrFree → 1 ≤ la → la ≤ s.par.txbufBytes → s.HeaderAck →
    ∃ t, exec (.cccBcastWrite la) s = .next t ∧
      s.SdrEnds t (headerCmds ++ bytesCmds s.txb 0 la ++ [CpCmd.stop]) .ok la ∧ s.RxbSame t ∧ s.ArbSame t

/-- R246: CCC_DIRECT_WRITE: the broadcast bytes, then the direct bytes after the address; the count is the direct bytes
only. -/
def Obligations.CccDirectWriteCompletes : Prop :=
  ∀ (s : State) (a : BusAddr) (la lb : Nat), s.Runs → s.SdrFree → 1 ≤ la → la + lb ≤ s.par.txbufBytes →
    s.HeaderAck → isAck (s.answer 2) = true →
    ∃ t, exec (.cccDirectWrite a la lb) s = .next t ∧
      s.SdrEnds t (headerCmds ++ bytesCmds s.txb 0 la ++ [CpCmd.restart, addrFrame a false] ++ bytesCmds s.txb la lb ++
        [.stop]) .ok lb ∧ s.RxbSame t ∧ s.ArbSame t

/-- R247: CCC_DIRECT_READ: the broadcast bytes, then a read; the count is the bytes placed in RXB. -/
def Obligations.CccDirectReadCompletes : Prop :=
  ∀ (s : State) (a : BusAddr) (la lb n : Nat), s.Runs → s.SdrFree → 1 ≤ la → la ≤ s.par.txbufBytes → 1 ≤ lb →
    lb ≤ s.par.rxbufBytes → s.HeaderAck → isAck (s.answer 2) = true → s.ReadEnds 3 n lb →
    ∃ t, exec (.cccDirectRead a la lb) s = .next t ∧
      s.SdrEnds t (headerCmds ++ bytesCmds s.txb 0 la ++ [CpCmd.restart, addrFrame a true] ++ readCmds n lb ++ [CpCmd.stop]) .ok n ∧
      s.RxbHolds t n (fun k => readByte (s.answer (3 + k))) ∧ s.ArbSame t

/-- R250: ENTDAA with a target that takes part: its eight ID bytes are in RXB and the count is 8, whether or not it
acknowledges its address; the status says which. -/
def Obligations.EntdaaCompletes : Prop :=
  ∀ (s : State) (a : BusAddr), s.Runs → s.SdrFree → s.HeaderAck → isAck (s.answer 2) = true →
    ∃ t, exec (.entdaa a) s = .next t ∧
      s.SdrEnds t (entdaaCmds s.par.entdaaIdAckBit a ++ [CpCmd.stop])
        (if isAck (s.answer 11) then .ok else .nakDuringSdrAddr) 8 ∧
      s.RxbHolds t 8 (fun k => idByte s.par.entdaaIdAckBit (s.answer (3 + k))) ∧ s.ArbSame t

/-- R251, R255, R256: RSTDAA sends the code 06; CHECK_ACK ends Ok when its address is acknowledged; ARB_HEADER_ONLY ends
Ok when the header is. All return count 0. -/
def Obligations.ProbesComplete : Prop :=
  ∀ s : State, s.Runs → s.SdrFree → s.HeaderAck →
    (∃ t, exec .rstdaa s = .next t ∧ s.SdrEnds t (headerCmds ++ byteCmds 0x06#8 ++ [CpCmd.stop]) .ok 0 ∧
      s.RxbSame t ∧ s.ArbSame t) ∧
    (∃ t, exec .arbHeaderOnly s = .next t ∧ s.SdrEnds t (headerCmds ++ [CpCmd.stop]) .ok 0 ∧
      s.RxbSame t ∧ s.ArbSame t) ∧
    ∀ a, isAck (s.answer 2) = true →
      ∃ t, exec (.checkAck a) s = .next t ∧
        s.SdrEnds t (headerCmds ++ [CpCmd.restart, addrFrame a false] ++ [CpCmd.stop]) .ok 0 ∧ s.RxbSame t ∧ s.ArbSame t

/-- R111, R251: the bus trace of RSTDAA is that of CCC_BCAST_WRITE of the one byte 06, however the header goes. -/
def Obligations.RstdaaIsABroadcast : Prop :=
  ∀ s : State, s.Runs → s.txb.read 0 = 0x06#8 →
    ∃ t t', exec .rstdaa s = .next t ∧ exec (.cccBcastWrite 1) s = .next t' ∧ t.trace = t'.trace ∧ t.wire = t'.wire ∧
      t.arbpV = t'.arbpV ∧ t.res0.extractLsb' 0 4 = t'.res0.extractLsb' 0 4

/-! ## POLL -/

/-- R262, R410, R413, R414: an IBI (RnW = 1), pending or of start type, is acknowledged and its payload read behind its
byte; a pending byte is taken before SDA is sensed, and none is pending afterwards. The value ARBP_B keeps with ARBP_V = 0
is the model's choice, the spec gives none (R33; notes/assumptions/12.md). -/
def Obligations.PollServicesIbi : Prop :=
  ∀ (s : State) (lb n : Nat) (cs : List CpCmd) (b : Byte), s.Runs → 1 ≤ lb → lb + 1 ≤ s.par.rxbufBytes →
    s.PollTakes cs b → b.getLsbD 0 = true → s.ReadEnds (sampledIn cs + 1) n lb →
    ∃ t, exec (.poll lb) s = .next t ∧
      s.PollEnds t (cs ++ [CpCmd.od 1 0#1] ++ readCmds n lb ++ [CpCmd.stop]) .ok (1 + n) ∧
      s.RxbHolds t (1 + n) (fun k => if k = 0 then b else readByte (s.answer (sampledIn cs + k))) ∧
      t.arbpV = false ∧ t.arbpB = s.arbpB

/-- R262, R414: a request with RnW = 0: Hot-Join is acknowledged, any other is not; RXB holds its byte. The value ARBP_B
keeps with ARBP_V = 0 is the model's choice, the spec gives none (R33; notes/assumptions/12.md). -/
def Obligations.PollServicesOthers : Prop :=
  ∀ (s : State) (lb : Nat) (cs : List CpCmd) (b : Byte), s.Runs → 1 ≤ lb → lb + 1 ≤ s.par.rxbufBytes →
    s.PollTakes cs b → b.getLsbD 0 = false →
    ∃ t, exec (.poll lb) s = .next t ∧
      s.PollEnds t (cs ++ [if b.extractLsb' 1 7 = 0x02#7 then CpCmd.od 1 0#1 else CpCmd.od 1 1#1] ++ [CpCmd.stop]) .ok 1 ∧
      s.RxbHolds t 1 (fun _ => b) ∧ t.arbpV = false ∧ t.arbpB = s.arbpB

/-- R262: with no byte pending and SDA high nothing is driven, whatever the length; with SDA low but no address on the
bus (spurious) the header is finished and its ACK slot ignored. Both answer NoIbi. -/
def Obligations.PollFindsNothing : Prop :=
  ∀ (s : State) (lb : Nat),
    (s.SdrFree → exec (.poll lb) s = .next ((dropSda s).finished .noIbi 0)) ∧
    (s.Runs → s.mode = .sdr → s.arbpV = false → s.sda = false → 1 ≤ lb → lb + 1 ≤ s.par.rxbufBytes →
      arbWon (s.answer 0) = true →
      ∃ t, exec (.poll lb) s = .next t ∧ s.PollEnds t (headerCmds ++ [CpCmd.stop]) .noIbi 0 ∧
        s.RxbSame t ∧ s.ArbSame t)

/-! ## HDR-DDR -/

/-- R303, R304, R310 to R312, R330: DDR_WRITE of every word, entered from SDR mode or already in DDR mode: command word,
words, CRC word, and the restart or exit pattern; Ok, count `la`. -/
def Obligations.DdrWriteCompletes : Prop :=
  ∀ (s : State) (a : BusAddr) (c : Byte) (fwr : Bool) (la : Nat), s.Runs → s.EntersDdr → 2 * la ≤ s.par.txbufBytes →
    s.DdrGoes s.ddrCfg.ackEn s.ddrCfg.etEn 0 s.enterAnswers la →
    ∃ t, exec (.ddrWrite a c fwr la) s = .next t ∧
      s.DdrEnds t ([cmdFrame (cmdWord a c false)] ++ ddrWordsCmds s.ddrCfg.ackEn s.ddrCfg.etEn s.txb 0 la ++
          [crcWordCmd (txCrc s.txb (cmdWord a c false) la), closeCmd fwr .ok])
        .ok la (closeMode fwr .ok) ∧
      s.RxbSame t

/-- R311, R312, R330: the target stops a DDR_WRITE at word `n`: a NACK on the first, or early termination on a later
word, with a CRC word only under CRC_ET; the bus leaves HDR-DDR. -/
def Obligations.DdrWriteStops : Prop :=
  ∀ (s : State) (a : BusAddr) (c : Byte) (fwr : Bool) (la n : Nat), s.Runs → s.EntersDdr → 2 * la ≤ s.par.txbufBytes →
    n < la → s.DdrStops s.ddrCfg.ackEn s.ddrCfg.etEn 0 s.enterAnswers n →
    ∃ t, exec (.ddrWrite a c fwr la) s = .next t ∧
      s.DdrEnds t ([cmdFrame (cmdWord a c false)] ++ ddrWordsCmds s.ddrCfg.ackEn s.ddrCfg.etEn s.txb 0 n ++ [CpCmd.dpre] ++
          stopCrcCmds s.ddrCfg.crcEt n (txCrc s.txb (cmdWord a c false) n) ++ [CpCmd.hexit])
        (if n = 0 then .nakDdr else .ddrEarlyTermination) n .sdr ∧
      s.RxbSame t

/-- R320, R321: the target NACKs a DDR_READ: nothing is stored, no termination pattern is sent. -/
def Obligations.DdrReadNacked : Prop :=
  ∀ (s : State) (a : BusAddr) (c : Byte) (fwr : Bool) (lb : Nat), s.Runs → s.EntersDdr → 1 ≤ lb →
    2 * lb ≤ s.par.rxbufBytes → (s.answer s.enterAnswers).getLsbD 0 = true →
    ∃ t, exec (.ddrRead a c fwr lb) s = .next t ∧
      s.DdrEnds t [cmdFrame (cmdWord a c true), .dr 2, .hexit] .nakDdr 0 .sdr ∧ s.RxbSame t

/-- R320, R321, R330: a DDR_READ of `n` words ended by the target's CRC word: Ok or DdrCrcWrong by comparing it with the
CRC of the message, and no termination pattern. -/
def Obligations.DdrReadEndsWithCrc : Prop :=
  ∀ (s : State) (a : BusAddr) (c : Byte) (fwr : Bool) (lb n : Nat) (x : Nat → Word32) (st : Status),
    s.Runs → s.EntersDdr → 1 ≤ n → n < lb → 2 * lb ≤ s.par.rxbufBytes → (∀ k, x k = s.answer (s.enterAnswers + k)) →
    rxIntact x n → (x (2 * n)).extractLsb' 10 2 = 0b01#2 →
    st = (if (x (2 * n)).extractLsb' 0 5 = rxCrcThrough x (crc5Word 0x1F#5 (cmdWord a c true)) n then .ok
      else .ddrCrcWrong) →
    ∃ t, exec (.ddrRead a c fwr lb) s = .next t ∧
      s.DdrEnds t ([cmdFrame (cmdWord a c true)] ++ ddrRxCmds n ++ [CpCmd.dr 12, closeCmd fwr st]) st n (closeMode fwr st) ∧
      s.RxbHolds t (2 * n) (wordsByte (rxData x))

/-- R320, R322, R330: a DDR_READ that fills its buffer: the controller terminates it, and under CRC_ET judges the
trailing CRC. -/
def Obligations.DdrReadFills : Prop :=
  ∀ (s : State) (a : BusAddr) (c : Byte) (fwr : Bool) (lb : Nat) (x : Nat → Word32) (st : Status),
    s.Runs → s.EntersDdr → 1 ≤ lb → 2 * lb ≤ s.par.rxbufBytes → (∀ k, x k = s.answer (s.enterAnswers + k)) →
    rxIntact x lb →
    st = (if s.ddrCfg.crcEt = true ∧
        (x (2 * lb)).extractLsb' 0 5 ≠ rxCrcThrough x (crc5Word 0x1F#5 (cmdWord a c true)) lb then .ddrCrcWrong
      else .ok) →
    ∃ t, exec (.ddrRead a c fwr lb) s = .next t ∧
      s.DdrEnds t ([cmdFrame (cmdWord a c true)] ++ ddrRxCmds lb ++ ddrTermCmds s.ddrCfg.crcEt ++
          [closeCmd fwr st]) st lb (closeMode fwr st) ∧
      s.RxbHolds t (2 * lb) (wordsByte (rxData x))

/-- R321 to R323: a DDR_READ that meets an undefined preamble, or a word of wrong parity, after `n` good words: that
status, the controller's termination, a trailing CRC read but not judged, and the exit pattern. The bad word is not
stored. -/
def Obligations.DdrReadFails : Prop :=
  ∀ (s : State) (a : BusAddr) (c : Byte) (fwr : Bool) (lb n : Nat) (x : Nat → Word32),
    s.Runs → s.EntersDdr → n < lb → 2 * lb ≤ s.par.rxbufBytes → (∀ k, x k = s.answer (s.enterAnswers + k)) →
    rxIntact x n →
    (1 ≤ n → (x (2 * n)).getLsbD 10 = false →
      ∃ t, exec (.ddrRead a c fwr lb) s = .next t ∧
        s.DdrEnds t ([cmdFrame (cmdWord a c true)] ++ ddrRxCmds n ++ [CpCmd.dr 12] ++
          ddrTermCmds s.ddrCfg.crcEt ++ [CpCmd.hexit]) .ddrInvalidPreamble n .sdr ∧
        s.RxbHolds t (2 * n) (wordsByte (rxData x))) ∧
    (rxComes x n → (rxBits x n).extractLsb' 0 2 ≠ parityPair (rxData x n) →
      ∃ t, exec (.ddrRead a c fwr lb) s = .next t ∧
        s.DdrEnds t ([cmdFrame (cmdWord a c true)] ++ ddrRxCmds (n + 1) ++
          ddrTermCmds s.ddrCfg.crcEt ++ [CpCmd.hexit]) .ddrParityWrong n .sdr ∧
        (∀ k, k < 2 * n → t.rxb.read k = wordsByte (rxData x) k) ∧
        ∀ k, 2 * n ≤ k → t.rxb.read k = s.rxb.read k)

/-! ## Configuration and target reset -/

/-- R349 to R352: the configuration operations run in either mode and whatever is pending; they write their register, or
refuse an illegal value, and change nothing else but RES0 and BUSY. -/
def Obligations.ConfigurationCompletes : Prop :=
  ∀ s : State,
    (∀ ack et crcet, exec (.setDdrConfig ack et crcet) s =
      .next ({ s with ddrCfg := { ackEn := ack, etEn := et, crcEt := crcet } }.finished .ok 0)) ∧
    (∀ khz, exec (.setClock khz) s = .next (if 49 ≤ khz ∧ khz ≤ 12500 then
      { s with clkKhz := BitVec.ofNat 14 khz }.finished .ok 0 else s.finished .paramOutOfRange 0)) ∧
    ∀ ma, exec (.setDrive ma) s = .next (if ma ∈ [2, 4, 8, 12] then
      { s with driveMa := BitVec.ofNat 4 ma }.finished .ok 0 else s.finished .paramOutOfRange 0)

/-- R353: TARGET_RESET, in either mode and with a byte pending or not: the SDR program is loaded if it was not, the reset
waveform alone is driven, the pending byte is discarded, and everything else is kept. The value ARBP_B keeps with ARBP_V = 0
is the model's choice, the spec gives none (R33; notes/assumptions/12.md); that the bus is then idle is read from R426
(notes/assumptions/14.md). -/
def Obligations.TargetResetCompletes : Prop :=
  ∀ s : State, s.Runs →
    ∃ t, exec .targetReset s = .next t ∧ t.Finished .ok 0 ∧ s.Drove t [.trst] ∧ t.mode = .sdr ∧ t.cpProg = .sdr ∧
      t.arbpV = false ∧ t.arbpB = s.arbpB ∧ t.crc = s.crc ∧ t.sampleW = (if s.mode = .ddr then none else s.sampleW) ∧
      s.BusFrame t ∧ s.RxbSame t ∧ s.NotSensed t

/-! ## Container layouts -/

/-- R31, R32, R34 to R36: where the context registers lie in their 32-bit containers. -/
def Obligations.ContextContainers : Prop :=
  ∀ s : State,
    (s.ctx0.getLsbD 0 = true ↔ s.mode = .ddr) ∧ s.ctx0.extractLsb' 1 31 = 0#31 ∧
    s.ctx1.extractLsb' 0 8 = s.arbpB ∧ s.ctx1.getLsbD 8 = s.arbpV ∧ s.ctx1.extractLsb' 9 23 = 0#23 ∧
    s.ctx2.getLsbD 0 = s.ddrCfg.ackEn ∧ s.ctx2.getLsbD 1 = s.ddrCfg.etEn ∧ s.ctx2.getLsbD 2 = s.ddrCfg.crcEt ∧
    s.ctx2.extractLsb' 3 29 = 0#29 ∧
    s.ctx3.extractLsb' 0 14 = s.clkKhz ∧ s.ctx3.extractLsb' 14 18 = 0#18 ∧
    s.ctx4.extractLsb' 0 4 = s.driveMa ∧ s.ctx4.extractLsb' 4 28 = 0#28
end

