-- ==== Sys2Proof/Laws/Memory.lean ====
section
/-! SUPPORT. The laws of a byte buffer: a read after a write, and the canonical form kept by every operation. -/

namespace Sys2Proof.Machine

/-- Putting a byte in front changes what that index reads and nothing else. -/
theorem Memory.read_consCell (a : Nat) (b : Byte) (m : Memory) (hm : Memory.read m a = Memory.fill) (k : Nat) :
    Memory.read (Memory.consCell a b m) k = if k = a then b else Memory.read m k := by
  unfold Memory.consCell
  split <;> rename_i h
  · split <;> rename_i e
    · rw [e, hm, h]
    · rfl
  · rw [Memory.read]

/-- Every index below all the listed ones is unlisted. -/
theorem Memory.read_below (m : Memory) (a : Nat) (h : ∀ c ∈ m, a < c.1) : Memory.read m a = Memory.fill := by
  induction m with
  | nil => rfl
  | cons c m ih =>
    have hc := h c (by simp)
    rw [Memory.read, if_neg (by omega), ih fun d hd => h d (by simp [hd])]

/-- A read after a write, on buffers with rising indices. -/
theorem Memory.read_write (m : Memory) (hm : m.wf) (a k : Nat) (b : Byte) :
    Memory.read (Memory.write m a b) k = if k = a then b else Memory.read m k := by
  induction m with
  | nil => exact Memory.read_consCell a b [] rfl k
  | cons c m ih =>
    obtain ⟨i, x⟩ := c
    have hp := List.pairwise_cons.1 hm.1
    have hw : Memory.wf m := ⟨hp.2, fun d hd => hm.2 d (by simp [hd])⟩
    rw [Memory.write]
    split
    · rename_i h
      refine Memory.read_consCell a b _ (Memory.read_below _ _ fun d hd => ?_) k
      rcases List.mem_cons.1 hd with rfl | hd
      · exact h
      · exact h.trans (hp.1 d hd)
    · split
      · rename_i h
        subst h
        rw [Memory.read_consCell a b m (Memory.read_below _ _ hp.1), Memory.read]
        split <;> rfl
      · rename_i h1 h2
        rw [Memory.read, ih hw, Memory.read]
        by_cases e : k = i
        · subst e
          rw [if_pos rfl, if_pos rfl, if_neg (by omega)]
        · rw [if_neg e, if_neg e]

theorem Memory.wf_consCell (a : Nat) (b : Byte) (m : Memory) (hm : m.wf) (h : ∀ c ∈ m, a < c.1) :
    (Memory.consCell a b m).wf := by
  unfold Memory.consCell
  split
  · exact hm
  · rename_i hb
    exact ⟨List.pairwise_cons.2 ⟨h, hm.1⟩, fun c hc => by
      rcases List.mem_cons.1 hc with rfl | hc
      · exact hb
      · exact hm.2 c hc⟩

/-- The indices a write lists are the written one and those listed before. -/
theorem Memory.mem_write (m : Memory) (a : Nat) (b : Byte) (c : Host.Cell) (h : c ∈ Memory.write m a b) :
    c.1 = a ∨ c ∈ m := by
  induction m with
  | nil =>
    unfold Memory.write Memory.consCell at h
    split at h
    · simp at h
    · exact .inl (by rw [List.mem_singleton.1 h])
  | cons d m ih =>
    obtain ⟨i, x⟩ := d
    unfold Memory.write Memory.consCell at h
    split at h <;> split at h
    · exact .inr h
    · rcases List.mem_cons.1 h with rfl | h
      · exact .inl rfl
      · exact .inr h
    · split at h
      · exact .inr (List.mem_cons_of_mem _ h)
      · rcases List.mem_cons.1 h with rfl | h
        · exact .inl rfl
        · exact .inr (List.mem_cons_of_mem _ h)
    · rcases List.mem_cons.1 h with rfl | h
      · exact .inr (by simp)
      · exact (ih h).imp id (List.mem_cons_of_mem _)

/-- A write keeps the canonical form. -/
theorem Memory.wf_write (m : Memory) (hm : m.wf) (a : Nat) (b : Byte) : (Memory.write m a b).wf := by
  induction m with
  | nil => exact Memory.wf_consCell a b [] hm (by simp)
  | cons c m ih =>
    obtain ⟨i, x⟩ := c
    have hp := List.pairwise_cons.1 hm.1
    have hw : Memory.wf m := ⟨hp.2, fun d hd => hm.2 d (by simp [hd])⟩
    rw [Memory.write]
    split
    · rename_i h
      refine Memory.wf_consCell a b _ hm fun d hd => ?_
      rcases List.mem_cons.1 hd with rfl | hd
      · exact h
      · exact h.trans (hp.1 d hd)
    · split
      · rename_i h
        subst h
        exact Memory.wf_consCell a b m hw hp.1
      · rename_i h1 h2
        refine ⟨List.pairwise_cons.2 ⟨fun d hd => ?_, (ih hw).1⟩, fun d hd => ?_⟩
        · rcases Memory.mem_write m a b d hd with e | e
          · simp only [e]; omega
          · exact hp.1 d e
        · rcases List.mem_cons.1 hd with rfl | hd
          · exact hm.2 _ (by simp)
          · exact (ih hw).2 d hd

/-- The empty buffer is in canonical form. -/
theorem Memory.wf_nil : Memory.wf [] := ⟨List.Pairwise.nil, by simp⟩

/-- Writing bytes at rising indices keeps the canonical form. -/
theorem Memory.wf_writeList (m : Memory) (hm : m.wf) (a : Nat) (bs : List Byte) : (Memory.writeList m a bs).wf := by
  induction bs generalizing m a with
  | nil => exact hm
  | cons b bs ih => exact ih _ (Memory.wf_write m hm a b) _

/-- What a buffer reads after bytes were written at rising indices. -/
theorem Memory.read_writeList (m : Memory) (hm : m.wf) (a : Nat) (bs : List Byte) (k : Nat) :
    Memory.read (Memory.writeList m a bs) k =
      if h : a ≤ k ∧ k < a + bs.length then bs[k - a]'(by omega) else Memory.read m k := by
  induction bs generalizing m a with
  | nil =>
    rw [dif_neg (by simp only [List.length_nil]; omega)]
    rfl
  | cons b bs ih =>
    rw [Memory.writeList, ih _ (Memory.wf_write m hm a b), Memory.read_write m hm]
    simp only [List.length_cons]
    by_cases e : k = a
    · subst e
      rw [dif_neg (by omega), if_pos rfl, dif_pos (by omega)]
      simp
    · by_cases h : a ≤ k ∧ k < a + (bs.length + 1)
      · rw [dif_pos (by omega), dif_pos h]
        rw [List.getElem_cons, dif_neg (by omega)]
        congr 1
      · rw [dif_neg (by omega), if_neg e, dif_neg h]

theorem Memory.writeList_append (m : Memory) (a : Nat) (bs cs : List Byte) :
    Memory.writeList m a (bs ++ cs) = Memory.writeList (Memory.writeList m a bs) (a + bs.length) cs := by
  induction bs generalizing m a with
  | nil => rfl
  | cons b bs ih =>
    rw [List.cons_append, Memory.writeList, ih, Memory.writeList, List.length_cons]
    congr 1
    omega

end Sys2Proof.Machine
end

