-- ==== Sys2Proof/Laws/Codec.lean ====
section
/-! SUPPORT. What the encodings between the engine and the coprocessor do (spec/00_scope.md R10): every sample has a
response word, and the words of a command are some words before a last one. -/

namespace Sys2Proof.Machine

theorem sample_sample (w : Nat) (a : Word32) : sample w (sample w a) = sample w a := by
  apply BitVec.eq_of_toNat_eq
  simp only [sample, BitVec.toNat_setWidth]
  apply Nat.eq_of_testBit_eq
  intro i
  simp only [Nat.testBit_mod_two_pow]
  cases decide (i < 32) <;> cases decide (i < w) <;> simp

/-- Under the law, `CP_RESP_DECODE` gives back the sample a response word stands for (R151, R154). -/
theorem respDecode_respWord {rows : List RespRow} (h : respLawful rows = true) {n : Nat} {b : Word32}
    (hb : sample n b = b) : respDecode rows (respWord rows n b) n = b := by
  by_cases hd : respDecode rows b n = b
  · have e : respWord rows n b = b := by simp [respWord, List.find?, hd]
    rw [e, hd]
  · cases hf : rows.find? (fun x => decide (x.word = b ∧ x.width = n)) with
    | none => exact absurd (by rw [respDecode, hf, hb]) hd
    | some x =>
      have hx := List.find?_some hf
      simp only [decide_eq_true_eq] at hx
      have := of_decide_eq_true (List.all_eq_true.1 h x (List.mem_of_find?_eq_some hf))
      rw [hx.1, hx.2, hb] at this
      exact this

/-- No table is lawful. -/
theorem respLawful_nil : respLawful [] = true := rfl

@[simp] theorem tagWords_length (c : CpCmd) (ws : List Word32) : (tagWords c ws).length = ws.length := by
  induction ws with
  | nil => rfl
  | cons w ws ih =>
    cases ws with
    | nil => rfl
    | cons x xs => simp only [tagWords, List.length_cons] at ih ⊢; rw [ih]

/-- The words enter CMDQ as `CP_ENCODE` lists them (R153). -/
@[simp] theorem tagWords_words (c : CpCmd) (ws : List Word32) : (tagWords c ws).map (·.word) = ws := by
  induction ws with
  | nil => rfl
  | cons w ws ih =>
    cases ws with
    | nil => rfl
    | cons x xs => simp only [tagWords, List.map_cons] at ih ⊢; rw [ih]

/-- Some words that do not complete the command, and the one that does. -/
theorem tagWords_split (c : CpCmd) (w : Word32) (ws : List Word32) :
    ∃ es x, tagWords c (w :: ws) = es ++ [⟨c, x, true⟩] ∧ ∀ e ∈ es, e.last = false := by
  induction ws generalizing w with
  | nil => exact ⟨[], w, rfl, by simp⟩
  | cons y ys ih =>
    obtain ⟨es, x, h, hl⟩ := ih y
    refine ⟨⟨c, w, false⟩ :: es, x, by rw [tagWords, h]; rfl, ?_⟩
    intro e he
    rcases List.mem_cons.1 he with rfl | he
    · rfl
    · exact hl e he

/-- A command has at least one word (R10). -/
theorem cpEncode_cons (plain : CpCmd → Word32) (rows : List EncodeRow) (c : CpCmd) :
    ∃ w ws, cpEncode plain rows c = w :: ws := by
  unfold cpEncode
  split
  · exact ⟨_, _, rfl⟩
  · exact ⟨_, _, rfl⟩

end Sys2Proof.Machine
end

