-- ==== Sys2Proof/Laws/Queue.lean ====
section
/-! SUPPORT. What the queue operations do, said once (spec/40_queue.md): inside an operation the engine's state follows
a settled state, the one in which the coprocessor has driven every queued command. Each operation on the queue is one
change of the settled state, whatever the depth of the FIFO and the pace of the coprocessor (R152). -/

namespace Sys2Proof.Machine

/-! ## Settling -/

@[simp] theorem completes_nil : completes [] = [] := rfl

theorem completes_cons (e : CmdWord) (q : List CmdWord) :
    completes (e :: q) = (if e.last then [e.cmd] else []) ++ completes q := by
  unfold completes
  rw [List.filterMap_cons]
  cases e.last <;> rfl

@[simp] theorem completes_append (q r : List CmdWord) : completes (q ++ r) = completes q ++ completes r :=
  List.filterMap_append

/-- The state in which the coprocessor has driven every queued command and is at its start address; the pace, the
budget and the allowance of unchecked puts are left out. -/
def State.settle (s : State) : State :=
  { s with cmdq := [], cpAtStart := true, bus := busThrough s.bus (completes s.cmdq),
           wire := s.wire ++ completes s.cmdq, cpPace := [], cpBudget := none, uncheckedLeft := 0 }

/-- What holds between two primitives inside an operation: only non-sampling commands are queued, and no response is
outstanding (R154). `L` says that the coprocessor is known to be live. -/
structure State.Running (L : Bool) (s : State) : Prop where
  prog : s.cpProg = s.mode
  rspq : s.rspq = []
  live : L = true → s.cpBudget = none
  /-- A response has a place in RSPQ and a word to come in (R10, R47). -/
  link : 1 ≤ s.par.rqDepth ∧ respLawful s.par.respRows = true
  pending : ∀ e ∈ s.cmdq, e.last = true → e.cmd.width = none

/-- `s` is inside an operation and settles to `u`. -/
structure State.Follows (L : Bool) (s u : State) : Prop where
  running : s.Running L
  settle : s.settle = u

/-- Everything a piece of an operation can do: go on with a value and a settled state that meet `Q`, end the operation
quiet in a settled state that meets `D`, or be stuck, which a live coprocessor rules out (R408). -/
def Run.Post {α : Type} (L : Bool) (r : Run α) (Q : α → State → Prop) (D : State → Prop) : Prop :=
  match r with
  | .ok a s => ∃ u, s.Follows L u ∧ Q a u
  | .done t => t.Quiet ∧ D t.settle ∧ (L = true → t.cpBudget = none)
  | .stuck _ => L = false
  | .fault _ => False

/-- The piece of an operation goes on with value `a` in a state that settles to `u`. -/
abbrev Run.Goes {α : Type} (L : Bool) (r : Run α) (a : α) (u : State) : Prop :=
  r.Post L (fun b v => b = a ∧ v = u) (fun _ => False)

/-- The operation ends with both FIFOs empty, in a state that settles to `u`. -/
abbrev Run.Ends {α : Type} (L : Bool) (r : Run α) (u : State) : Prop :=
  r.Post L (fun _ _ => False) (fun v => v = u)

section post
variable {L : Bool} {α β : Type}

theorem Run.Post.bind {r : Run α} {k : α → State → Run β} {Q : α → State → Prop} {Q' : β → State → Prop}
    {D D' : State → Prop} (h : r.Post L Q D) (hd : ∀ v, D v → D' v)
    (hk : ∀ a s u, s.Follows L u → Q a u → (k a s).Post L Q' D') : (r.bind k).Post L Q' D' := by
  cases r with
  | ok a s =>
    obtain ⟨u, hs, hq⟩ := h
    exact hk a s u hs hq
  | done t => exact ⟨h.1, hd _ h.2.1, h.2.2⟩
  | stuck t => exact h
  | fault f => exact h

theorem Run.Post.mono {r : Run α} {Q Q' : α → State → Prop} {D D' : State → Prop} (h : r.Post L Q D)
    (hq : ∀ a u, Q a u → Q' a u) (hd : ∀ v, D v → D' v) : r.Post L Q' D' := by
  cases r with
  | ok a s =>
    obtain ⟨u, hs, hq'⟩ := h
    exact ⟨u, hs, hq _ _ hq'⟩
  | done t => exact ⟨h.1, hd _ h.2.1, h.2.2⟩
  | stuck t => exact h
  | fault f => exact h

/-- A piece with one way to go on, followed by anything. -/
theorem Run.Goes.bind {r : Run α} {a : α} {u : State} {k : α → State → Run β} {Q : β → State → Prop}
    {D : State → Prop} (h : r.Goes L a u) (hk : ∀ s, s.Follows L u → (k a s).Post L Q D) :
    (r.bind k).Post L Q D :=
  Run.Post.bind h (fun _ h => h.elim) fun b s v hs hb => by
    obtain ⟨rfl, rfl⟩ := hb
    exact hk s hs

/-- Nothing after the end of an operation runs (R18). -/
theorem Run.Ends.bind {r : Run α} {u : State} {k : α → State → Run β} (h : r.Ends L u) : (r.bind k).Ends L u :=
  Run.Post.bind h (fun _ h => h) fun _ _ _ _ h => h.elim

theorem Run.Goes.ok {a : α} {s u : State} (h : s.Follows L u) : (Run.ok a s).Goes L a u :=
  ⟨u, h, rfl, rfl⟩

/-- With a live coprocessor an operation that ends has a next state. -/
theorem Run.Post.outcome {r : Run Unit} {D : State → Prop} (h : r.Post true (fun _ _ => False) D) :
    ∃ t, r.outcome = .next t ∧ D t.settle ∧ t.Quiet ∧ t.cpBudget = none := by
  cases r with
  | ok a s =>
    obtain ⟨u, -, hq⟩ := h
    exact hq.elim
  | done t => exact ⟨t, rfl, h.2.1, h.1, h.2.2 rfl⟩
  | stuck t => exact nomatch h
  | fault f => exact h.elim

/-- Whatever the coprocessor, an operation that ends either does so in `D` or is stuck. -/
theorem Run.Post.outcome_of_next {r : Run Unit} {D : State → Prop} (h : r.Post L (fun _ _ => False) D) {t : State}
    (ht : r.outcome = .next t) : D t.settle ∧ t.Quiet := by
  cases r with
  | ok a s =>
    obtain ⟨u, -, hq⟩ := h
    exact hq.elim
  | done t' =>
    cases ht
    exact ⟨h.2.1, h.1⟩
  | stuck t' => cases ht
  | fault f => cases ht

end post

/-! ## What a settled state shares with the state -/

section settled
variable {L : Bool} {s u : State}

@[simp] theorem busThrough_append (b : BusPhase) (q : List CpCmd) (c : CpCmd) :
    busThrough b (q ++ [c]) = c.busAfter := by simp [busThrough]

@[simp] theorem answer_settle (s : State) (k : Nat) : s.settle.answer k = s.answer k := rfl
@[simp] theorem sda_settle (s : State) : s.settle.sda = s.sda := rfl

theorem State.Follows.mode (h : s.Follows L u) : s.mode = u.mode := by rw [← h.settle]; rfl
theorem State.Follows.cpProg (h : s.Follows L u) : s.cpProg = u.mode := h.running.prog.trans h.mode
theorem State.Follows.par (h : s.Follows L u) : s.par = u.par := by rw [← h.settle]; rfl
theorem State.Follows.txb (h : s.Follows L u) : s.txb = u.txb := by rw [← h.settle]; rfl
theorem State.Follows.rxb (h : s.Follows L u) : s.rxb = u.rxb := by rw [← h.settle]; rfl
theorem State.Follows.crc (h : s.Follows L u) : s.crc = u.crc := by rw [← h.settle]; rfl
theorem State.Follows.ddrCfg (h : s.Follows L u) : s.ddrCfg = u.ddrCfg := by rw [← h.settle]; rfl
theorem State.Follows.sdrTab (h : s.Follows L u) : s.sdrTab = u.sdrTab := by rw [← h.settle]; rfl
theorem State.Follows.arbpV (h : s.Follows L u) : s.arbpV = u.arbpV := by rw [← h.settle]; rfl
theorem State.Follows.arbpB (h : s.Follows L u) : s.arbpB = u.arbpB := by rw [← h.settle]; rfl
theorem State.Follows.answer (h : s.Follows L u) (k : Nat) : s.answer k = u.answer k := by rw [← h.settle]; rfl

/-- A quiet state whose coprocessor agrees with the engine is inside an operation. -/
theorem State.Quiet.running (hq : s.Quiet) (hp : s.cpProg = s.mode) (hl : L = true → s.cpBudget = none)
    (hr : 1 ≤ s.par.rqDepth ∧ respLawful s.par.respRows = true) : s.Running L :=
  ⟨hp, hq.rspq, hl, hr, by simp [hq.cmdq]⟩

end settled

/-! ## The coprocessor -/

section coprocessor
variable {L : Bool} {s : State}

/-- The settled form of `{ s with .. }` after an answer is dropped. -/
@[simp] theorem settle_dropAnswer (s : State) : (dropAnswer s).settle = dropAnswer s.settle := by
  rfl

/-- Dropping an answer moves every later answer one place forward. -/
theorem answer_dropAnswer (s : State) (k : Nat) : (dropAnswer s).answer k = s.answer (k + 1) := by
  unfold dropAnswer State.answer
  cases h : s.busIn with
  | nil => simp; congr 1; omega
  | cons a q =>
    cases hk : q[k]? <;> simp [hk]

/-- A step of the coprocessor, or of waiting for it: stuck when it has hung, or a state that meets `Q`. -/
def Run.Waits (L : Bool) (r : Run Unit) (Q : State → Prop) : Prop :=
  ((∃ t, r = .stuck t) ∧ L = false) ∨ ∃ s, r = .ok () s ∧ Q s

theorem Run.Waits.bind {r : Run Unit} {k : Unit → State → Run Unit} {Q Q' : State → Prop} (h : r.Waits L Q)
    (hk : ∀ s, Q s → (k () s).Waits L Q') : (r.bind k).Waits L Q' := by
  obtain ⟨⟨t, rfl⟩, hL⟩ | ⟨s, rfl, hs⟩ := h
  · exact .inl ⟨⟨t, rfl⟩, hL⟩
  · exact hk s hs

theorem Run.Waits.mono {r : Run Unit} {Q Q' : State → Prop} (h : r.Waits L Q) (hq : ∀ s, Q s → Q' s) :
    r.Waits L Q' :=
  h.imp id fun ⟨s, h1, h2⟩ => ⟨s, h1, hq s h2⟩

/-- A wait followed by a piece of an operation. -/
theorem Run.Waits.post {α : Type} {r : Run Unit} {k : Unit → State → Run α} {Q : State → Prop} {Q' : α → State → Prop}
    {D : State → Prop} (h : r.Waits L Q) (hk : ∀ s, Q s → (k () s).Post L Q' D) : (r.bind k).Post L Q' D := by
  obtain ⟨⟨t, rfl⟩, hL⟩ | ⟨s, rfl, hs⟩ := h
  · exact hL
  · exact hk s hs

/-- What waiting for the coprocessor keeps. -/
structure State.Waited (L : Bool) (s s' : State) : Prop where
  running : s'.Running L
  settle : s'.settle = s.settle
  sampleW : s'.sampleW = s.sampleW

theorem State.Running.waited (h : s.Running L) : s.Waited L s := ⟨h, rfl, rfl⟩

theorem State.Waited.trans {s s' s'' : State} (h : s.Waited L s') (h' : s'.Waited L s'') : s.Waited L s'' :=
  ⟨h'.running, h'.settle.trans h.settle, h'.sampleW.trans h.sampleW⟩

/-- A coprocessor step on a queued word: stuck with its budget spent, or the word is taken with some budget left. -/
theorem cpStep_takes {e : CmdWord} {q : List CmdWord} (hl : L = true → s.cpBudget = none) (hq : s.cmdq = e :: q) :
    (cpStep s = .stuck s ∧ s.cpBudget = some 0 ∧ L = false) ∨
      ∃ b, (L = true → b = none) ∧
        cpStep s = cpTake e { s with cmdq := q, cpBudget := b, cpAtStart := false } := by
  match hb : s.cpBudget with
  | none =>
    exact .inr ⟨none, fun _ => rfl, by simp [cpStep, hq, hb]⟩
  | some 0 =>
    refine .inl ⟨by simp [cpStep, hq, hb], rfl, ?_⟩
    cases L with
    | false => rfl
    | true => exact absurd (hl rfl) (by simp [hb])
  | some (k + 1) =>
    exact .inr ⟨some k, fun hL => absurd (hl hL) (by simp [hb]), by simp [cpStep, hq, hb]⟩

/-- The state after a word of a non-sampling command is taken. -/
def State.taken (s : State) (e : CmdWord) : State :=
  if e.last then { s with bus := e.cmd.busAfter, wire := s.wire ++ [e.cmd] } else s

/-- Taking such a word has one end (R150). -/
theorem cpTake_none {e : CmdWord} (h : e.last = true → e.cmd.width = none) (s : State) :
    cpTake e s = .ok () (s.taken e) := by
  unfold cpTake State.taken cpDrive
  split
  · rename_i hl
    rw [h hl]
  · rfl

/-- One coprocessor step on a pending word changes nothing that the settled state shows. -/
theorem cpStep_running {e : CmdWord} {q : List CmdWord} (h : s.Running L) (hq : s.cmdq = e :: q) :
    (cpStep s).Waits L fun s' => s.Waited L s' ∧ s'.cmdq = q := by
  have hc : e.last = true → e.cmd.width = none := h.pending e (by simp [hq])
  obtain ⟨e0, -, hL⟩ | ⟨b, hb, e1⟩ := cpStep_takes h.live hq
  · exact .inl ⟨⟨s, e0⟩, hL⟩
  · refine .inr ⟨_, e1.trans (cpTake_none hc _), ?_⟩
    have hp : ∀ d ∈ q, d.last = true → d.cmd.width = none := fun d hd => h.pending d (by simp [hq, hd])
    unfold State.taken
    cases hl : e.last with
    | true =>
      exact ⟨⟨⟨h.prog, h.rspq, hb, h.link, hp⟩, by simp [State.settle, busThrough, hq, completes_cons, hl], rfl⟩, rfl⟩
    | false =>
      exact ⟨⟨⟨h.prog, h.rspq, hb, h.link, hp⟩, by simp [State.settle, busThrough, hq, completes_cons, hl], rfl⟩, rfl⟩

/-- The engine's waits for the coprocessor change nothing that the settled state shows. -/
theorem cpRun_running (n : Nat) (h : s.Running L) :
    (cpRun n s).Waits L fun s' => s.Waited L s' ∧ s'.cmdq = s.cmdq.drop n := by
  induction n generalizing s with
  | zero => exact .inr ⟨s, rfl, h.waited, rfl⟩
  | succ n ih =>
    cases hq : s.cmdq with
    | nil =>
      rw [cpRun, cpStep, hq]
      simp only [Run.bind]
      exact (ih h).mono fun s' h' => ⟨h'.1, by simp [h'.2, hq]⟩
    | cons c q =>
      exact (cpStep_running h hq).bind fun s1 h1 => (ih h1.1.running).mono fun s' h' =>
        ⟨h1.1.trans h'.1, by simp [h'.2, h1.2]⟩

/-- So does the coprocessor's own progress. -/
theorem cpFree_running (n : Nat) (h : s.Running L) : (cpFree n s).Waits L fun s' => s.Waited L s' := by
  induction n generalizing s with
  | zero => exact .inr ⟨s, rfl, h.waited⟩
  | succ n ih =>
    rw [cpFree]
    split
    · exact .inr ⟨s, rfl, h.waited⟩
    · cases hq : s.cmdq with
      | nil =>
        rw [cpStep, hq]
        simp only [Run.bind]
        exact ih h
      | cons c q =>
        exact (cpStep_running h hq).bind fun s1 h1 => (ih h1.1.running).mono fun s' h' => h1.1.trans h'

theorem cpAlong_running (h : s.Running L) : (cpAlong s).Waits L fun s' => s.Waited L s' := by
  unfold cpAlong
  cases hp : s.cpPace with
  | nil => exact .inr ⟨s, rfl, h.waited⟩
  | cons n q =>
    have h' : State.Running L { s with cpPace := q } := ⟨h.prog, h.rspq, h.live, h.link, h.pending⟩
    exact (cpFree_running n h').mono fun s' g => ⟨g.running, g.settle, g.sampleW⟩

theorem waitNotFull_running (h : s.Running L) : (waitNotFull s).Waits L fun s' => s.Waited L s' := by
  unfold waitNotFull
  split
  · exact .inr ⟨s, rfl, h.waited⟩
  · exact (cpRun_running _ h).mono fun s' h' => h'.1

end coprocessor

/-! ## The queue operations -/

section queue
variable {L : Bool} {s u : State} {c : CpCmd}

/-- The settled state after a command that is not sampled. -/
def State.sending (u : State) (c : CpCmd) : State :=
  { u with bus := c.busAfter, wire := u.wire ++ [c], trace := u.trace ++ [sent c] }

/-- The settled state after a sampled command of width `w`. -/
def State.sampling (u : State) (c : CpCmd) (w : Nat) : State :=
  { dropAnswer u with
    sampleW := some w, bus := c.busAfter, wire := u.wire ++ [c], trace := u.trace ++ [got c w (u.answer 0)] }

/-- `put` of one word appends it to a queue that settles as before (R153). -/
theorem putWord_running (e : CmdWord) (h : s.Running L) :
    (putWord e s).Waits L fun s' => ∃ s1 : State, s.Waited L s1 ∧
      s' = { s1 with cmdq := s1.cmdq ++ [e], uncheckedLeft := 0 } :=
  (cpAlong_running h).bind fun _ h1 => (waitNotFull_running h1.running).bind fun s2 h2 =>
    .inr ⟨_, rfl, s2, h1.trans h2, rfl⟩

/-- A queue that completes the same commands settles to the same state. -/
theorem State.Waited.append {s s1 : State} (h : s.Waited L s1) {e : CmdWord} (he : e.last = false) :
    s.Waited L { s1 with cmdq := s1.cmdq ++ [e], uncheckedLeft := 0 } := by
  refine ⟨⟨h.running.prog, h.running.rspq, h.running.live, h.running.link, ?_⟩, ?_, h.sampleW⟩
  · intro d hd hl
    rcases List.mem_append.1 hd with hd | hd
    · exact h.running.pending d hd hl
    · rw [List.mem_singleton.1 hd, he] at hl
      exact absurd hl (by decide)
  · rw [← h.settle]
    simp [State.settle, completes, he]

/-- `put` of words that complete no command. -/
theorem putWords_running (es : List CmdWord) (he : ∀ e ∈ es, e.last = false) (h : s.Running L) :
    (putWords es s).Waits L fun s' => s.Waited L s' := by
  induction es generalizing s with
  | nil => exact .inr ⟨s, rfl, h.waited⟩
  | cons e es ih =>
    refine (putWord_running e h).bind fun s' h' => ?_
    obtain ⟨s1, h1, rfl⟩ := h'
    have h2 := h1.append (he e (by simp))
    exact (ih (fun d hd => he d (List.mem_cons_of_mem _ hd)) h2.running).mono fun _ h3 => h2.trans h3

theorem putWords_append (es fs : List CmdWord) (s : State) :
    putWords (es ++ fs) s = (putWords es s).bind fun _ s => putWords fs s := by
  induction es generalizing s with
  | nil => rfl
  | cons e es ih =>
    simp only [List.cons_append, putWords]
    cases putWord e s with
    | ok a s' => exact ih s'
    | done t => rfl
    | stuck t => rfl
    | fault f => rfl

/-- `put` appends the last word of the command to a queue that settles as before (R153). -/
theorem put_running (h : s.Running L) (hc : c.program = s.cpProg) :
    (put c s).Waits L fun s' => ∃ (s1 : State) (w : Word32), s.Waited L s1 ∧
      s' = { s1 with cmdq := s1.cmdq ++ [⟨c, w, true⟩], uncheckedLeft := 0 } := by
  unfold put cmdWords
  rw [if_pos hc]
  obtain ⟨x, xs, hx⟩ := cpEncode_cons Config.cpEncodePlain s.par.encodeRows c
  obtain ⟨es, w, hw, hl⟩ := tagWords_split c x xs
  rw [hx, hw, putWords_append]
  refine (putWords_running es hl h).bind fun s1 h1 => ?_
  refine Run.Waits.bind (Q := _) (putWord_running ⟨c, w, true⟩ h1.running) fun s' h' => ?_
  obtain ⟨s2, h2, rfl⟩ := h'
  exact .inr ⟨_, rfl, s2, w, h1.trans h2, rfl⟩

/-- `emit` of a non-sampling command (R153). -/
theorem emit_goes (h : s.Follows L u) (hc : c.program = u.mode) (hw : c.width = none) :
    (emit c s).Goes L () (u.sending c) := by
  refine (put_running h.running (hc.trans h.cpProg.symm)).post fun s' h' => ?_
  obtain ⟨s1, w, h1, rfl⟩ := h'
  refine ⟨_, ⟨⟨h1.running.prog, h1.running.rspq, h1.running.live, h1.running.link, ?_⟩, rfl⟩, rfl, ?_⟩
  · intro d hd hl
    rcases List.mem_append.1 hd with hd | hd
    · exact h1.running.pending d hd hl
    · rw [List.mem_singleton.1 hd]
      exact hw
  · rw [← h.settle, ← h1.settle]
    simp [State.settle, State.sending, traced, busThrough, completes]

/-- The wait for the response of a sampling command at the end of the queue (R154). -/
theorem awaitResponse_running {w : Nat} {x : Word32} (h : s.Running L) (hw : c.width = some w)
    (hs : s.sampleW = some w) :
    (awaitResponse (s.cmdq.length + 1) { s with cmdq := s.cmdq ++ [⟨c, x, true⟩], uncheckedLeft := 0 }).Waits L fun s' =>
      s'.rspq = [respWord s.par.respRows w (sample w (s.answer 0))] ∧ s'.par = s.par ∧
      State.Running L { s' with rspq := [] } ∧
      State.settle { s' with rspq := [] } =
        { dropAnswer s.settle with bus := c.busAfter, wire := s.settle.wire ++ [c] } := by
  generalize hq : s.cmdq = q
  induction q generalizing s with
  | nil =>
    have hrq : ¬ s.par.rqDepth ≤ 0 := by have := h.link.1; omega
    have hl : L = true → ({ s with cmdq := [⟨c, x, true⟩], uncheckedLeft := 0 } : State).cpBudget = none := h.live
    simp only [List.nil_append, List.length_nil, awaitResponse]
    rw [if_pos h.rspq]
    obtain ⟨e0, -, hL⟩ | ⟨b, hb, e1⟩ := cpStep_takes hl rfl
    · rw [e0]
      exact .inl ⟨⟨_, rfl⟩, hL⟩
    · rw [e1]
      refine .inr ⟨{ dropAnswer s with
          cmdq := [], uncheckedLeft := 0, cpBudget := b, cpAtStart := false, bus := c.busAfter, wire := s.wire ++ [c],
          rspq := [respWord s.par.respRows w (sample w (s.answer 0))] }, ?_, rfl, rfl,
          ⟨h.prog, rfl, hb, h.link, by simp⟩, ?_⟩
      · simp [cpTake, cpDrive, hw, hs, Run.bind, dropAnswer, hrq, h.rspq, State.answer]
      · simp [State.settle, busThrough, dropAnswer, hq, h.rspq]
  | cons d q ih =>
    have hd : d.last = true → d.cmd.width = none := h.pending d (by simp [hq])
    have hr : ({ s with cmdq := d :: q ++ [⟨c, x, true⟩], uncheckedLeft := 0 } : State).rspq = [] := h.rspq
    have hl : L = true → ({ s with cmdq := d :: q ++ [⟨c, x, true⟩], uncheckedLeft := 0 } : State).cpBudget = none :=
      h.live
    rw [List.length_cons, awaitResponse, if_pos hr]
    obtain ⟨e0, -, hL⟩ | ⟨b, hb, e1⟩ := cpStep_takes hl rfl
    · rw [e0]
      exact .inl ⟨⟨_, rfl⟩, hL⟩
    · have h1 : State.Waited L s (State.taken { s with cmdq := q, cpBudget := b, cpAtStart := false } d) := by
        have hp : ∀ d ∈ q, d.last = true → d.cmd.width = none := fun d hd => h.pending d (by simp [hq, hd])
        unfold State.taken
        cases hl : d.last with
        | true =>
          exact ⟨⟨h.prog, h.rspq, hb, h.link, hp⟩, by simp [State.settle, busThrough, hq, completes_cons, hl], rfl⟩
        | false =>
          exact ⟨⟨h.prog, h.rspq, hb, h.link, hp⟩, by simp [State.settle, busThrough, hq, completes_cons, hl], rfl⟩
      rw [e1, cpTake_none hd]
      generalize hy : State.taken { s with cmdq := q, cpBudget := b, cpAtStart := false } d = y at h1
      have e2 : State.taken { s with cmdq := q ++ [⟨c, x, true⟩], uncheckedLeft := 0, cpBudget := b, cpAtStart := false } d =
          { y with cmdq := y.cmdq ++ [⟨c, x, true⟩], uncheckedLeft := 0 } ∧ y.cmdq = q := by
        rw [← hy]
        unfold State.taken
        cases d.last <;> exact ⟨rfl, rfl⟩
      have ha : y.answer 0 = s.answer 0 := by rw [← answer_settle y, h1.settle, answer_settle]
      have hpar : y.par = s.par := by
        have : y.settle.par = s.settle.par := by rw [h1.settle]
        exact this
      refine Eq.subst (motive := fun z => Run.Waits L (awaitResponse (q.length + 1) z) _) e2.1.symm ?_
      rw [e2.2]
      exact (ih h1.running (h1.sampleW.trans hs) e2.2).mono fun s' g =>
        ⟨by rw [g.1, ha, hpar], g.2.1.trans hpar, g.2.2.1, by rw [g.2.2.2, h1.settle]⟩

/-- `r <- xfer(c)`: the response is the low `w` bits of the bus's next answer (R154). -/
theorem xfer_goes {w : Nat} (h : s.Follows L u) (hc : c.program = u.mode) (hw : c.width = some w) :
    (xfer c s).Goes L (sample w (u.answer 0)) (u.sampling c w) := by
  have hn : (needWidth c s).Running L ∧ (needWidth c s).settle = { u with sampleW := some w } ∧
      (needWidth c s).sampleW = some w := by
    unfold needWidth setSampleWidth
    rw [hw, ← h.settle]
    by_cases e : s.sampleW = some w
    · simp only [if_pos e]
      exact ⟨h.running, by simp only [State.settle, e], e⟩
    · simp only [if_neg e]
      exact ⟨⟨h.running.prog, h.running.rspq, h.running.live, h.running.link, h.running.pending⟩, rfl, trivial⟩
  have hcp : c.program = (needWidth c s).cpProg := by
    have : (needWidth c s).settle.cpProg = s.settle.cpProg := by rw [hn.2.1, h.settle]
    exact (hc.trans h.cpProg.symm).trans this.symm
  refine (put_running hn.1 hcp).post fun s' h' => ?_
  obtain ⟨s1, x, h1, rfl⟩ := h'
  have hu : s1.settle = { u with sampleW := some w } := by rw [h1.settle, hn.2.1]
  have ha : s1.answer 0 = u.answer 0 := by rw [← answer_settle s1, hu]; rfl
  unfold collect
  simp only [List.length_append, List.length_singleton, hw, Option.getD_some]
  refine (awaitResponse_running h1.running hw (h1.sampleW.trans hn.2.2)).post fun s2 g => ?_
  obtain ⟨g1, gp, g2, g3⟩ := g
  have hd : respDecode s2.par.respRows (respWord s1.par.respRows w (sample w (u.answer 0))) w = sample w (u.answer 0) := by
    rw [gp]
    exact respDecode_respWord h1.running.link.2 (sample_sample _ _)
  simp only [popResponse, g1, ha, hd]
  refine ⟨_, ⟨⟨g2.prog, rfl, g2.live, g2.link, g2.pending⟩, rfl⟩, rfl, ?_⟩
  rw [hu] at g3
  have e2 : State.settle { s2 with
      rspq := [], trace := s2.trace ++ [⟨c, some (sample w (u.answer 0))⟩], uncheckedLeft := 0 } =
      { State.settle { s2 with rspq := [] } with trace := (State.settle { s2 with rspq := [] }).trace ++
        [got c w (u.answer 0)] } := rfl
  rw [e2, g3]
  rfl

/-- `drain()`: every command emitted so far has completed, and both FIFOs are empty (R158). -/
theorem drain_running (h : s.Follows L u) :
    (drain s).Waits L fun s' => s'.Follows L u ∧ s'.Quiet := by
  unfold drain waitUntilQueueEmpty waitPcStart
  refine Run.Waits.bind (Q := fun s' => s.Waited L s' ∧ s'.cmdq = []) ?_ fun s1 h' => ?_
  · refine (cpRun_running s.cmdq.length h.running).bind fun s1 h1 => .inr ⟨_, rfl, ?_⟩
    refine ⟨⟨⟨h1.1.running.prog, h1.1.running.rspq, h1.1.running.live, h1.1.running.link, h1.1.running.pending⟩,
      h1.1.settle, h1.1.sampleW⟩, ?_⟩
    simpa using h1.2
  · obtain ⟨h1, h2⟩ := h'
    split
    · rename_i hs
      refine .inl ⟨⟨_, rfl⟩, ?_⟩
      cases L with
      | false => rfl
      | true => exact absurd ((h1.running.live rfl).symm.trans hs.2.1) (by simp)
    · refine .inr ⟨_, rfl, ⟨⟨h1.running.prog, h1.running.rspq, h1.running.live, h1.running.link, h1.running.pending⟩, ?_⟩,
        ⟨h2, h1.running.rspq, rfl⟩⟩
      rw [← h.settle, ← h1.settle]
      rfl

theorem drain_goes (h : s.Follows L u) : (drain s).Goes L () u := by
  obtain ⟨⟨t, e⟩, hL⟩ | ⟨s1, e, h1, -⟩ := drain_running h <;> rw [e]
  · exact hL
  · exact ⟨u, h1, rfl, rfl⟩

/-- The settled state of a quiet one is that state, but for the pace, the budget and the unchecked puts. -/
theorem State.Quiet.settle (h : s.Quiet) : s.settle = { s with cpPace := [], cpBudget := none, uncheckedLeft := 0 } := by
  simp [State.settle, busThrough, h.cmdq, h.atStart]

/-- The settled state after `switch_program(p)` (R170). -/
def State.switched (u : State) (p : Mode) : State :=
  { u with mode := p, cpProg := p, sampleW := none }

/-- What `switch_program(p)` does: it is stuck, or it goes on with both FIFOs empty. It never loads with anything in
flight (R156, R170). -/
theorem switchProgram_running (p : Mode) (h : s.Follows L u) :
    (switchProgram p s).Waits L fun s' => s'.Follows L (u.switched p) ∧ s'.Quiet := by
  refine (drain_running h).bind fun s1 h' => ?_
  obtain ⟨h1, h2⟩ := h'
  simp only [loadProgram, Run.bind]
  rw [if_pos ⟨h2.cmdq, h2.rspq, h2.atStart⟩]
  refine .inr ⟨_, rfl, ⟨⟨rfl, h2.rspq, h1.running.live, h1.running.link, h1.running.pending⟩, ?_⟩, h2.cmdq, h2.rspq, rfl⟩
  rw [← h1.settle]
  rfl

theorem switchProgram_goes (p : Mode) (h : s.Follows L u) : (switchProgram p s).Goes L () (u.switched p) := by
  obtain ⟨⟨t, e⟩, hL⟩ | ⟨s1, e, h1, -⟩ := switchProgram_running p h <;> rw [e]
  · exact hL
  · exact ⟨_, h1, rfl, rfl⟩

/-- `finish` from a quiet state (R18, R160). -/
theorem finish_ends {α : Type} (st : Status) (n : Nat) (h : s.Follows L u) (hq : s.Quiet) :
    (finish st n s : Run α).Ends L (u.finished st n) := by
  refine ⟨⟨hq.cmdq, hq.rspq, hq.atStart⟩, ?_, h.running.live⟩
  rw [← h.settle]
  rfl

/-- `finish` after a drain ends the operation (R160). -/
theorem drain_finish_ends {α : Type} (st : Status) (n : Nat) (h : s.Follows L u) :
    ((drain s).bind fun _ s => (finish st n s : Run α)).Ends L (u.finished st n) :=
  (drain_running h).post fun _ h' => finish_ends st n h'.1 h'.2

/-- `finish` after a program switch (R330). -/
theorem switch_finish_ends {α : Type} (p : Mode) (st : Status) (n : Nat) (h : s.Follows L u) :
    ((switchProgram p s).bind fun _ s => (finish st n s : Run α)).Ends L ((u.switched p).finished st n) :=
  (switchProgram_running p h).post fun _ h' => finish_ends st n h'.1 h'.2

end queue

end Sys2Proof.Machine
end

