-- ==== Sys2Proof/Laws/Play.lean ====
section
/-! SUPPORT. Playing a list of commands on a settled state: what `emit` and `xfer` do one after another, with the
trace, the bus, and the answers used read off the list. -/

namespace Sys2Proof.Machine

/-- The settled state after one command. -/
def State.play1 (u : State) (c : CpCmd) : State :=
  match c.width with
  | none => u.sending c
  | some w => u.sampling c w

/-- The settled state after a list of commands. -/
def State.play (u : State) (cs : List CpCmd) : State := cs.foldl State.play1 u

section play
variable {L : Bool} {s u v : State} {c : CpCmd} {cs ds : List CpCmd}

@[simp] theorem play_nil : u.play [] = u := rfl
theorem play_cons : u.play (c :: cs) = (u.play1 c).play cs := rfl
@[simp] theorem play_play : (u.play cs).play ds = u.play (cs ++ ds) := by simp [State.play]
theorem play1_eq : u.play1 c = u.play [c] := rfl

/-- A command changes none of these fields of the settled state. -/
structure State.PlayFrame (u v : State) : Prop where
  mode : v.mode = u.mode
  arbpV : v.arbpV = u.arbpV
  arbpB : v.arbpB = u.arbpB
  ddrCfg : v.ddrCfg = u.ddrCfg
  clkKhz : v.clkKhz = u.clkKhz
  driveMa : v.driveMa = u.driveMa
  sdrTab : v.sdrTab = u.sdrTab
  crc : v.crc = u.crc
  busy : v.busy = u.busy
  desc0 : v.desc0 = u.desc0
  desc1 : v.desc1 = u.desc1
  res0 : v.res0 = u.res0
  txb : v.txb = u.txb
  rxb : v.rxb = u.rxb
  cpProg : v.cpProg = u.cpProg
  par : v.par = u.par
  res0Valid : v.res0Valid = u.res0Valid
  rxbValid : v.rxbValid = u.rxbValid
  host : v.host = u.host
  hostData : v.hostData = u.hostData
  sdaIn : v.sdaIn = u.sdaIn
  sdaDraws : v.sdaDraws = u.sdaDraws
  cpBudget : v.cpBudget = u.cpBudget

theorem play1_frame (u : State) (c : CpCmd) : u.PlayFrame (u.play1 c) := by
  unfold State.play1
  cases c.width <;> constructor <;> rfl

theorem play_frame (u : State) (cs : List CpCmd) : u.PlayFrame (u.play cs) := by
  induction cs generalizing u with
  | nil => constructor <;> rfl
  | cons c cs ih =>
    have h := play1_frame u c
    have g := ih (u.play1 c)
    rw [play_cons]
    exact ⟨g.mode.trans h.mode, g.arbpV.trans h.arbpV, g.arbpB.trans h.arbpB, g.ddrCfg.trans h.ddrCfg,
      g.clkKhz.trans h.clkKhz, g.driveMa.trans h.driveMa, g.sdrTab.trans h.sdrTab, g.crc.trans h.crc,
      g.busy.trans h.busy, g.desc0.trans h.desc0, g.desc1.trans h.desc1, g.res0.trans h.res0, g.txb.trans h.txb,
      g.rxb.trans h.rxb, g.cpProg.trans h.cpProg, g.par.trans h.par, g.res0Valid.trans h.res0Valid,
      g.rxbValid.trans h.rxbValid, g.host.trans h.host, g.hostData.trans h.hostData, g.sdaIn.trans h.sdaIn,
      g.sdaDraws.trans h.sdaDraws, g.cpBudget.trans h.cpBudget⟩

@[simp] theorem play_mode : (u.play cs).mode = u.mode := (play_frame u cs).mode
@[simp] theorem play_arbpV : (u.play cs).arbpV = u.arbpV := (play_frame u cs).arbpV
@[simp] theorem play_arbpB : (u.play cs).arbpB = u.arbpB := (play_frame u cs).arbpB
@[simp] theorem play_ddrCfg : (u.play cs).ddrCfg = u.ddrCfg := (play_frame u cs).ddrCfg
@[simp] theorem play_clkKhz : (u.play cs).clkKhz = u.clkKhz := (play_frame u cs).clkKhz
@[simp] theorem play_driveMa : (u.play cs).driveMa = u.driveMa := (play_frame u cs).driveMa
@[simp] theorem play_sdrTab : (u.play cs).sdrTab = u.sdrTab := (play_frame u cs).sdrTab
@[simp] theorem play_crc : (u.play cs).crc = u.crc := (play_frame u cs).crc
@[simp] theorem play_busy : (u.play cs).busy = u.busy := (play_frame u cs).busy
@[simp] theorem play_desc0 : (u.play cs).desc0 = u.desc0 := (play_frame u cs).desc0
@[simp] theorem play_desc1 : (u.play cs).desc1 = u.desc1 := (play_frame u cs).desc1
@[simp] theorem play_res0 : (u.play cs).res0 = u.res0 := (play_frame u cs).res0
@[simp] theorem play_txb : (u.play cs).txb = u.txb := (play_frame u cs).txb
@[simp] theorem play_rxb : (u.play cs).rxb = u.rxb := (play_frame u cs).rxb
@[simp] theorem play_cpProg : (u.play cs).cpProg = u.cpProg := (play_frame u cs).cpProg
@[simp] theorem play_par : (u.play cs).par = u.par := (play_frame u cs).par
@[simp] theorem play_res0Valid : (u.play cs).res0Valid = u.res0Valid := (play_frame u cs).res0Valid
@[simp] theorem play_rxbValid : (u.play cs).rxbValid = u.rxbValid := (play_frame u cs).rxbValid
@[simp] theorem play_host : (u.play cs).host = u.host := (play_frame u cs).host
@[simp] theorem play_hostData : (u.play cs).hostData = u.hostData := (play_frame u cs).hostData
@[simp] theorem play_sdaIn : (u.play cs).sdaIn = u.sdaIn := (play_frame u cs).sdaIn
@[simp] theorem play_sdaDraws : (u.play cs).sdaDraws = u.sdaDraws := (play_frame u cs).sdaDraws
@[simp] theorem play_cpBudget : (u.play cs).cpBudget = u.cpBudget := (play_frame u cs).cpBudget

@[simp] theorem sampledIn_nil : sampledIn [] = 0 := rfl
@[simp] theorem sampledIn_append (cs ds : List CpCmd) : sampledIn (cs ++ ds) = sampledIn cs + sampledIn ds := by
  simp [sampledIn]
theorem sampledIn_cons (c : CpCmd) (cs : List CpCmd) :
    sampledIn (c :: cs) = (if c.width.isSome then 1 else 0) + sampledIn cs := by
  simp [sampledIn, List.countP_cons]; omega

theorem play1_answer (u : State) (c : CpCmd) (k : Nat) :
    (u.play1 c).answer k = u.answer ((if c.width.isSome then 1 else 0) + k) := by
  unfold State.play1
  cases c.width with
  | none => simp; rfl
  | some w => exact (answer_dropAnswer u k).trans (by simp [Nat.add_comm])

/-- The answers left after a list of commands. -/
@[simp] theorem play_answer (u : State) (cs : List CpCmd) (k : Nat) :
    (u.play cs).answer k = u.answer (sampledIn cs + k) := by
  induction cs generalizing u k with
  | nil => simp
  | cons c cs ih => rw [play_cons, ih, play1_answer, sampledIn_cons, ← Nat.add_assoc]

theorem entries_append (ans : Nat → Word32) (j : Nat) (cs ds : List CpCmd) :
    entries ans j (cs ++ ds) = entries ans j cs ++ entries ans (j + sampledIn cs) ds := by
  induction cs generalizing j with
  | nil => simp [entries]
  | cons c cs ih =>
    rw [sampledIn_cons]
    cases h : c.width with
    | none => simp [entries, h, ih]
    | some w => simp [entries, h, ih, Nat.add_assoc]

/-- Answers counted from later on. -/
theorem entries_shift (ans : Nat → Word32) (i j : Nat) (cs : List CpCmd) :
    entries (fun k => ans (i + k)) j cs = entries ans (i + j) cs := by
  induction cs generalizing j with
  | nil => simp [entries]
  | cons c cs ih => cases h : c.width <;> simp [entries, h, ih, Nat.add_assoc]

/-- The trace of a list of commands. -/
theorem play_trace (u : State) (cs : List CpCmd) : (u.play cs).trace = u.trace ++ entries u.answer 0 cs := by
  induction cs generalizing u with
  | nil => simp [entries]
  | cons c cs ih =>
    have ha : (u.play1 c).answer = fun k => u.answer ((if c.width.isSome then 1 else 0) + k) :=
      funext fun k => play1_answer u c k
    rw [play_cons, ih, ha, entries_shift]
    cases h : c.width <;> simp [entries, h, State.play1, State.sending, State.sampling, dropAnswer]

theorem play_wire (u : State) (cs : List CpCmd) : (u.play cs).wire = u.wire ++ cs := by
  induction cs generalizing u with
  | nil => simp
  | cons c cs ih =>
    rw [play_cons, ih]
    unfold State.play1
    cases c.width <;> simp [State.sending, State.sampling, dropAnswer]

theorem play_bus (u : State) (cs : List CpCmd) : (u.play cs).bus = busThrough u.bus cs := by
  induction cs generalizing u with
  | nil => rfl
  | cons c cs ih =>
    rw [play_cons, ih]
    unfold State.play1
    cases c.width <;> rfl

/-- SAMPLE_W after a list of commands. -/
theorem play_sampleW (u : State) (cs : List CpCmd) : (u.play cs).sampleW = widthThrough u.sampleW cs := by
  induction cs generalizing u with
  | nil => rfl
  | cons c cs ih =>
    rw [play_cons, ih]
    unfold State.play1 widthThrough
    rw [List.foldl_cons]
    cases c.width <;> rfl

/-- Commands do not change the mode. -/
theorem mode_play {p : Mode} (hm : u.mode = p) (cs : List CpCmd) : (u.play cs).mode = p := by rw [play_mode, hm]

/-- `emit` plays one non-sampling command (R153). -/
theorem emit_play {p : Mode} (c : CpCmd) (h : s.Follows L u) (hm : u.mode = p) (hc : c.program = p)
    (hw : c.width = none) : (emit c s).Goes L () (u.play [c]) := by
  have := emit_goes h (hc.trans hm.symm) hw
  simpa [State.play, State.play1, hw] using this

/-- `xfer` plays one sampling command and gives its response (R154). -/
theorem xfer_play {p : Mode} (c : CpCmd) (w : Nat) (h : s.Follows L u) (hm : u.mode = p) (hc : c.program = p)
    (hw : c.width = some w) : (xfer c s).Goes L (sample w (u.answer 0)) (u.play [c]) := by
  have := xfer_goes h (hc.trans hm.symm) hw
  simpa [State.play, State.play1, hw] using this

end play

end Sys2Proof.Machine
end

