-- ==== Sys2Proof/Laws/Phases.lean ====
section
/-! SUPPORT. What each bus-phase procedure can do, said once, as a change of the settled state (spec/40_queue.md R171 to
R178, spec/42_sdr.md R230). -/

namespace Sys2Proof.Machine

/-! ## Reading a response -/

@[simp] theorem getLsbD_sample (w k : Nat) (a : Word32) : (sample w a).getLsbD k = (decide (k < w) && a.getLsbD k) := by
  simp only [sample, BitVec.getLsbD_setWidth]
  by_cases h : k < 32
  · simp [h]
  · have := BitVec.getLsbD_of_ge a k (by omega)
    simp [this]

/-- A field inside the width reads as in the answer. -/
theorem extractLsb'_sample (w i n : Nat) (a : Word32) (h : i + n ≤ w) :
    (sample w a).extractLsb' i n = a.extractLsb' i n := by
  apply BitVec.eq_of_getLsbD_eq
  intro k hk
  simp only [BitVec.getLsbD_extractLsb', getLsbD_sample]
  have : i + k < w := by omega
  simp [hk, this]

@[simp] theorem arbWon_sample (a : Word32) : arbWon (sample 6 a) = arbWon a := by
  rw [arbWon, arbWon, extractLsb'_sample _ _ _ _ (by omega)]

theorem isAck_sample (w : Nat) (a : Word32) (h : 0 < w) : isAck (sample w a) = isAck a := by
  rw [isAck, isAck, getLsbD_sample, decide_eq_true h, Bool.true_and]

@[simp] theorem arbByte_sample (a b : Word32) : arbByte (sample 6 a) (sample 2 b) = arbByte a b := by
  rw [arbByte, arbByte, extractLsb'_sample _ _ _ _ (by omega), extractLsb'_sample _ _ _ _ (by omega)]

/-! ## Changes of state between two commands -/

section updates
variable {L : Bool} {s u : State}

theorem State.Follows.setCrc (h : s.Follows L u) (c : BitVec 5) :
    State.Follows L { s with crc := c } { u with crc := c } :=
  ⟨⟨h.running.prog, h.running.rspq, h.running.live, h.running.link, h.running.pending⟩, by rw [← h.settle]; rfl⟩

theorem State.Follows.setArb (h : s.Follows L u) (v : Bool) (b : Byte) :
    State.Follows L { s with arbpV := v, arbpB := b } { u with arbpV := v, arbpB := b } :=
  ⟨⟨h.running.prog, h.running.rspq, h.running.live, h.running.link, h.running.pending⟩, by rw [← h.settle]; rfl⟩

theorem State.Follows.clearArb (h : s.Follows L u) :
    State.Follows L { s with arbpV := false } { u with arbpV := false } :=
  ⟨⟨h.running.prog, h.running.rspq, h.running.live, h.running.link, h.running.pending⟩, by rw [← h.settle]; rfl⟩

theorem State.Follows.setRxb (h : s.Follows L u) (m : Memory) (n : Nat) :
    State.Follows L { s with rxb := m, rxbValid := n } { u with rxb := m, rxbValid := n } :=
  ⟨⟨h.running.prog, h.running.rspq, h.running.live, h.running.link, h.running.pending⟩, by rw [← h.settle]; rfl⟩

theorem txbByte_goes (h : s.Follows L u) {i : Nat} (hi : i < u.par.txbufBytes) :
    (txbByte i s).Goes L (u.txb.read i) u := by
  rw [txbByte, if_pos (by rw [h.par]; exact hi), h.txb]
  exact Run.Goes.ok h

/-- The settled state after bytes were stored in RXB from an index. -/
def State.stored (u : State) (i : Nat) (bs : List Byte) : State :=
  { u with rxb := u.rxb.writeList i bs, rxbValid := if bs = [] then u.rxbValid else i + bs.length }

theorem rxbByte_goes (h : s.Follows L u) {i : Nat} (b : Byte) (hi : i < u.par.rxbufBytes) :
    (rxbByte i b s).Goes L () (u.stored i [b]) := by
  rw [rxbByte, if_pos (by rw [h.par]; exact hi), h.rxb]
  exact Run.Goes.ok (h.setRxb _ _)

@[simp] theorem stored_nil (u : State) (i : Nat) : u.stored i [] = u := rfl

theorem stored_stored (u : State) (i : Nat) (bs cs : List Byte) :
    (u.stored i bs).stored (i + bs.length) cs = u.stored i (bs ++ cs) := by
  unfold State.stored
  rw [Memory.writeList_append]
  cases bs <;> cases cs <;> simp; omega

theorem play1_stored (u : State) (c : CpCmd) (i : Nat) (bs : List Byte) :
    (u.stored i bs).play1 c = (u.play1 c).stored i bs := by
  unfold State.play1
  cases c.width <;> rfl

/-- Storing bytes and driving commands do not meet. -/
theorem play_stored (u : State) (cs : List CpCmd) (i : Nat) (bs : List Byte) :
    (u.stored i bs).play cs = (u.play cs).stored i bs := by
  induction cs generalizing u with
  | nil => rfl
  | cons c cs ih => rw [play_cons, play_cons, play1_stored, ih]

theorem play1_crc' (u : State) (c : CpCmd) (x : BitVec 5) :
    State.play1 { u with crc := x } c = { u.play1 c with crc := x } := by
  unfold State.play1
  cases c.width <;> rfl

theorem play_setCrc (u : State) (cs : List CpCmd) (x : BitVec 5) :
    State.play { u with crc := x } cs = { u.play cs with crc := x } := by
  induction cs generalizing u with
  | nil => rfl
  | cons c cs ih => rw [play_cons, play_cons, play1_crc', ih]

theorem play_clearArb (u : State) (cs : List CpCmd) :
    State.play { u with arbpV := false } cs = { u.play cs with arbpV := false } := by
  induction cs generalizing u with
  | nil => rfl
  | cons c cs ih =>
    rw [play_cons, play_cons, ← ih]
    congr 1
    unfold State.play1
    cases c.width <;> rfl

theorem play_setArb (u : State) (cs : List CpCmd) (v : Bool) (b : Byte) :
    State.play { u with arbpB := b, arbpV := v } cs = { u.play cs with arbpB := b, arbpV := v } := by
  induction cs generalizing u with
  | nil => rfl
  | cons c cs ih =>
    rw [play_cons, play_cons, ← ih]
    congr 1
    unfold State.play1
    cases c.width <;> rfl

end updates

/-! ## The SDR procedures -/

section sdr
variable {L : Bool} {s u : State}

/-- `sdr_stop_finish(S, n)` (R171). -/
theorem sdrStopFinish_ends {α : Type} (h : s.Follows L u) (hm : u.mode = .sdr) (st : Status) (n : Nat) :
    (sdrStopFinish st n s : Run α).Ends L ((u.play [.stop]).finished st n) :=
  (emit_play .stop h hm rfl rfl).bind fun _ hs => drain_finish_ends st n hs

/-- The state after a lost arbitration header whose two answers are the next ones (R172). -/
def State.lostHeader (u : State) : State :=
  { u with arbpB := arbByte (u.answer 0) (u.answer 1), arbpV := true }

/-- `arb_header()` (R172). -/
theorem arbHeader_post (h : s.Follows L u) (hm : u.mode = .sdr) :
    (arbHeader s).Post L
      (fun o v => (arbWon (u.answer 0) = true ∧ o = (if isAck (u.answer 1) then .ack else .nack) ∧
          v = u.play [arbFrame6, arbFrame3]) ∨
        (arbWon (u.answer 0) = false ∧ o = .lost ∧ v = u.lostHeader.play [arbFrame6, arbFrame2]))
      fun _ => False := by
  refine (xfer_play arbFrame6 6 h hm rfl rfl).bind fun s1 h1 => ?_
  simp only [arbWon_sample]
  cases hw : arbWon (u.answer 0) with
  | true =>
    simp only [if_true]
    refine (xfer_play arbFrame3 3 h1 (mode_play hm _) rfl rfl).bind fun s2 h2 => ?_
    refine ⟨_, h2, .inl ⟨trivial, ?_, by simp⟩⟩
    rw [isAck_sample _ _ (by omega), play_answer]
    rfl
  | false =>
    simp only [Bool.false_eq_true, if_false]
    refine (xfer_play arbFrame2 2 h1 (mode_play hm _) rfl rfl).bind fun s2 h2 => ?_
    refine ⟨_, h2.setArb true (arbByte (sample 6 (u.answer 0)) (sample 2 ((u.play [arbFrame6]).answer 0))),
      .inr ⟨trivial, rfl, ?_⟩⟩
    rw [arbByte_sample, play_answer]
    rfl

/-- How `sdr_prologue()` ends an operation: the header is lost and nothing more is driven, or it is NACKed and the frame
is stopped (R173). -/
def State.PrologueEnds (u v : State) : Prop :=
  (arbWon (u.answer 0) = false ∧ v = (u.lostHeader.play lostCmds).finished .ibi 0) ∨
  (arbWon (u.answer 0) = true ∧ isAck (u.answer 1) = false ∧
    v = (u.play (headerCmds ++ [.stop])).finished .nakDuringArbHdr 0)

/-- `sdr_prologue()` (R173). -/
theorem sdrPrologue_post (h : s.Follows L u) (hm : u.mode = .sdr) :
    (sdrPrologue s).Post L (fun _ v => u.HeaderAck ∧ v = u.play headerCmds) u.PrologueEnds := by
  refine (emit_play .start h hm rfl rfl).bind fun s1 h1 => ?_
  refine (arbHeader_post h1 (by simpa using hm)).bind (fun _ h => h.elim) fun o s2 v h2 ho => ?_
  have a0 : (u.play [.start]).answer 0 = u.answer 0 := by rw [play_answer]; rfl
  have a1 : (u.play [.start]).answer 1 = u.answer 1 := by rw [play_answer]; rfl
  rw [a0, a1] at ho
  obtain ⟨hw, rfl, rfl⟩ | ⟨hl, rfl, rfl⟩ := ho
  · cases ha : isAck (u.answer 1) with
    | true => exact ⟨_, h2, ⟨hw, ha⟩, by simp [headerCmds]⟩
    | false =>
      refine (sdrStopFinish_ends h2 (by simpa using hm) _ _).mono (fun _ _ h => h.elim) fun v hv => ?_
      exact .inr ⟨hw, ha, by rw [hv]; simp [headerCmds]⟩
  · refine (drain_finish_ends _ _ h2).mono (fun _ _ h => h.elim) fun v hv => .inl ⟨hl, ?_⟩
    rw [hv]
    have : (u.play [.start]).lostHeader = u.lostHeader.play [.start] := by
      unfold State.lostHeader
      rw [a0, a1]
      rfl
    rw [this, play_play]
    rfl

/-- RESTART and an address phase (R174): ACKed, it goes on; NACKed, the frame is stopped. -/
theorem restartAddr_post (h : s.Follows L u) (hm : u.mode = .sdr) (a : BusAddr) (rnw : Bool) :
    (restartAddr a rnw s).Post L
      (fun _ v => isAck (u.answer 0) = true ∧ v = u.play [.restart, addrFrame a rnw])
      (fun v => isAck (u.answer 0) = false ∧
        v = (u.play [.restart, addrFrame a rnw, .stop]).finished .nakDuringSdrAddr 0) := by
  refine (emit_play .restart h hm rfl rfl).bind fun s1 h1 => ?_
  refine Run.Post.bind (Q := fun b v => b = isAck (u.answer 0) ∧ v = u.play [.restart, addrFrame a rnw])
    (D := fun _ => False) ?_ (fun _ h => h.elim) fun b s3 v h3 hb => ?_
  · refine (xfer_play (addrFrame a rnw) 9 h1 (mode_play hm _) rfl rfl).bind fun s2 h2 => ⟨_, h2, ?_, by simp⟩
    rw [isAck_sample _ _ (by omega), play_answer]
    rfl
  · obtain ⟨rfl, rfl⟩ := hb
    cases ha : isAck (u.answer 0) with
    | true => exact ⟨_, h3, rfl, rfl⟩
    | false =>
      exact (sdrStopFinish_ends h3 (by simpa using hm) _ _).mono (fun _ _ h => h.elim) fun v hv =>
        ⟨rfl, by rw [hv]; simp⟩

theorem sdrTable_getElem (k : Nat) (hk : k < 512) : sdrTable[k] = sdrTabEntry k := by
  simp [sdrTable, sdrTableList]

/-- `sdr_write_byte(b)` with the table as initialisation built it (R175). -/
theorem sdrWriteByte_goes (h : s.Follows L u) (hm : u.mode = .sdr) (ht : u.sdrTab = sdrTable) (b : Byte) :
    (sdrWriteByte b s).Goes L () (u.play (byteCmds b)) := by
  have hb := b.isLt
  have e0 : sdrTabEntry (2 * b.toNat) = sdrByteHi b := by
    rw [sdrTabEntry, if_pos (by omega), show 2 * b.toNat / 2 = b.toNat by omega, BitVec.ofNat_toNat, BitVec.setWidth_eq]
  have e1 : sdrTabEntry (2 * b.toNat + 1) = sdrByteLo b := by
    rw [sdrTabEntry, if_neg (by omega), show (2 * b.toNat + 1) / 2 = b.toNat by omega, BitVec.ofNat_toNat, BitVec.setWidth_eq]
  have hs : s.sdrTab = sdrTable := h.sdrTab.trans ht
  unfold sdrWriteByte
  simp only [hs, sdrTable_getElem, e0]
  refine (emit_play (sdrByteHi b) h hm rfl rfl).bind fun s1 h1 => ?_
  have hs1 : s1.sdrTab = sdrTable := h1.sdrTab.trans (by simpa using ht)
  simp only [hs1, sdrTable_getElem, e1]
  have := emit_play (sdrByteLo b) h1 (mode_play hm _) rfl rfl
  rw [play_play] at this
  exact this.mono (fun _ _ h => ⟨trivial, h.2⟩) fun _ h => h

theorem bytesCmds_succ (m : Memory) (i n : Nat) :
    bytesCmds m i (n + 1) = byteCmds (m.read i) ++ bytesCmds m (i + 1) n := by
  simp only [bytesCmds, List.range_succ_eq_map, List.flatMap_cons, List.flatMap_map]
  congr 1
  congr 1
  funext k
  rw [show i + 1 + k = i + (k + 1) by omega]

/-- `sdr_write_bytes(i, n)` (R176). -/
theorem sdrWriteBytes_goes (n i : Nat) (h : s.Follows L u) (hm : u.mode = .sdr) (ht : u.sdrTab = sdrTable)
    (hn : i + n ≤ u.par.txbufBytes) :
    (sdrWriteBytes n i s).Goes L () (u.play (bytesCmds u.txb i n)) := by
  induction n generalizing s u i with
  | zero => exact Run.Goes.ok h
  | succ n ih =>
    refine (txbByte_goes h (by omega)).bind fun s1 h1 => ?_
    refine (sdrWriteByte_goes h1 hm ht _).bind fun s2 h2 => ?_
    have := ih (i + 1) h2 (by simpa using hm) (by simpa using ht) (by simp only [play_par]; omega)
    rw [play_play, play_txb] at this
    rw [bytesCmds_succ]
    exact this

/-! ## Reading bytes -/

/-- A read has one end (R177). -/
theorem State.ReadEnds.unique {j n n' max : Nat} (h : u.ReadEnds j n max) (h' : u.ReadEnds j n' max) : n = n' := by
  have key : ∀ {a b : Nat}, u.ReadEnds j a max → u.ReadEnds j b max → ¬ a < b := by
    intro a b ha hb hlt
    have hp := ha.pos
    rcases ha.ends with e | e
    · have := hb.le; omega
    · have := hb.continues (a - 1) (by omega)
      rw [e] at this
      cases this
  have := key h h'
  have := key h' h
  omega

/-- The first `n` bytes of the answers from `j` on, as stored in RXB (R177). -/
def State.readList (u : State) (j n : Nat) : List Byte := (List.range n).map fun k => readByte (u.answer (j + k))

theorem readCmds_succ (n max : Nat) : readCmds (n + 1) max = .rdb (decide (1 < max)) :: readCmds n (max - 1) := by
  simp only [readCmds, List.range_succ_eq_map, List.map_cons, List.map_map]
  congr 1
  apply List.map_congr_left
  intro k _
  simp only [Function.comp, Nat.succ_eq_add_one]
  congr 1
  exact decide_eq_decide.2 (by omega)

theorem readList_succ (u : State) (j n : Nat) :
    u.readList j (n + 1) = readByte (u.answer j) :: u.readList (j + 1) n := by
  simp only [State.readList, List.range_succ_eq_map, List.map_cons, List.map_map]
  congr 1
  apply List.map_congr_left
  intro k _
  simp only [Function.comp, Nat.succ_eq_add_one]
  rw [show j + 1 + k = j + (k + 1) by omega]

@[simp] theorem readList_length (u : State) (j n : Nat) : (u.readList j n).length = n := by simp [State.readList]

theorem readByte_sample (a : Word32) : (sample 9 a).extractLsb' 1 8 = readByte a :=
  extractLsb'_sample _ _ _ _ (by omega)

/-- `sdr_read_bytes(base, max)` (R177). -/
theorem sdrReadBytes_post (left base n : Nat) (h : s.Follows L u) (hm : u.mode = .sdr) (hl : 1 ≤ left)
    (hn : base + n + left ≤ u.par.rxbufBytes) :
    (sdrReadBytes left base n s).Post L
      (fun r v => ∃ k, u.ReadEnds 0 k left ∧ r = n + k ∧
        v = (u.play (readCmds k left)).stored (base + n) (u.readList 0 k))
      fun _ => False := by
  induction left generalizing s u n with
  | zero => omega
  | succ k ih =>
    refine (xfer_play (.rdb (decide (0 < k))) 9 h hm rfl rfl).bind fun s1 h1 => ?_
    rw [readByte_sample]
    refine (rxbByte_goes h1 _ (by simp only [play_par]; omega)).bind fun s2 h2 => ?_
    simp only [getLsbD_sample]
    by_cases hc : 0 < k ∧ (decide (0 < 9) && (u.answer 0).getLsbD 0) = false
    · rw [if_pos hc]
      refine ⟨_, h2, 1, ⟨by omega, by omega, by omega, .inr (by simpa using hc.2)⟩, rfl, ?_⟩
      rw [readCmds_succ, readList_succ]
      simp [readCmds, State.readList, hc.1]
    · rw [if_neg hc]
      by_cases hk : k = 0
      · subst hk
        refine ⟨_, h2, 1, ⟨by omega, by omega, by omega, .inl rfl⟩, rfl, ?_⟩
        rw [readCmds_succ, readList_succ]
        simp [readCmds, State.readList]
      · have hT : (u.answer 0).getLsbD 0 = true := by
          have h0 : 0 < k := by omega
          simpa [h0] using hc
        refine (ih (n + 1) h2 hm (by omega) ?_).mono (fun r v hv => ?_) fun _ h => h
        · show base + (n + 1) + k ≤ ((u.play _).stored _ _).par.rxbufBytes
          simp only [State.stored, play_par]
          omega
        · obtain ⟨m, he, rfl, rfl⟩ := hv
          have ans : ∀ j, ((u.play [.rdb (decide (0 < k))]).stored (base + n) [readByte (u.answer 0)]).answer j =
              u.answer (j + 1) := by
            intro j
            show (u.play [.rdb (decide (0 < k))]).answer j = _
            rw [play_answer, Nat.add_comm]
            rfl
          refine ⟨m + 1, ⟨by omega, by have := he.le; omega, ?_, ?_⟩, by omega, ?_⟩
          · intro i hi
            match i with
            | 0 => simpa using hT
            | i + 1 =>
              have := he.continues i (by omega)
              rw [ans] at this
              simpa [Nat.add_comm, Nat.add_left_comm] using this
          · rcases he.ends with e | e
            · exact .inl (by omega)
            · right
              rw [ans] at e
              have hp := he.pos
              rw [show 0 + (m - 1) + 1 = 0 + (m + 1 - 1) by omega] at e
              exact e
          · have hr : State.readList ((u.play [.rdb (decide (0 < k))]).stored (base + n) [readByte (u.answer 0)]) 0 m =
                u.readList 1 m := by
              unfold State.readList
              apply List.map_congr_left
              intro i _
              rw [ans]
              congr 2
              omega
            have hd : decide (1 < k + 1) = decide (0 < k) := decide_eq_decide.2 (by omega)
            rw [hr, readList_succ, readCmds_succ, play_stored, play_play, hd, Nat.add_sub_cancel,
              ← Nat.add_assoc base n 1]
            have := stored_stored (u.play ([.rdb (decide (0 < k))] ++ readCmds m k)) (base + n) [readByte (u.answer 0)]
              (u.readList 1 m)
            simpa using this

end sdr

end Sys2Proof.Machine
end

