-- ==== Sys2Proof/Laws/Ddr.lean ====
section
/-! SUPPORT. What each HDR-DDR procedure can do, said once, as a change of the settled state (spec/43_ddr.md R303 to
R330). -/

namespace Sys2Proof.Machine

section ddr
variable {L : Bool} {s u : State}

/-- The settled state with another CRC. -/
def State.withCrc (u : State) (c : BitVec 5) : State := { u with crc := c }

theorem play_withCrc (u : State) (c : BitVec 5) (cs : List CpCmd) : (u.withCrc c).play cs = (u.play cs).withCrc c :=
  play_setCrc u cs c

@[simp] theorem withCrc_withCrc (u : State) (c d : BitVec 5) : (u.withCrc c).withCrc d = u.withCrc d := rfl
@[simp] theorem withCrc_answer (u : State) (c : BitVec 5) (k : Nat) : (u.withCrc c).answer k = u.answer k := rfl
@[simp] theorem withCrc_mode (u : State) (c : BitVec 5) : (u.withCrc c).mode = u.mode := rfl
@[simp] theorem withCrc_txb (u : State) (c : BitVec 5) : (u.withCrc c).txb = u.txb := rfl
@[simp] theorem withCrc_par (u : State) (c : BitVec 5) : (u.withCrc c).par = u.par := rfl
@[simp] theorem withCrc_crc (u : State) (c : BitVec 5) : (u.withCrc c).crc = c := rfl
theorem withCrc_self (u : State) : u.withCrc u.crc = u := rfl
theorem withCrc_stored (u : State) (c : BitVec 5) (i : Nat) (bs : List Byte) :
    (u.withCrc c).stored i bs = (u.stored i bs).withCrc c := rfl
@[simp] theorem stored_crc (u : State) (i : Nat) (bs : List Byte) : (u.stored i bs).crc = u.crc := rfl
@[simp] theorem stored_mode (u : State) (i : Nat) (bs : List Byte) : (u.stored i bs).mode = u.mode := rfl
@[simp] theorem stored_par (u : State) (i : Nat) (bs : List Byte) : (u.stored i bs).par = u.par := rfl
@[simp] theorem stored_answer (u : State) (i : Nat) (bs : List Byte) (k : Nat) :
    (u.stored i bs).answer k = u.answer k := rfl

/-- `enter_ddr()` (R303). -/
theorem enterDdr_post (h : s.Follows L u) (ht : u.sdrTab = sdrTable) :
    (enterDdr s).Post L
      (fun _ v => (u.mode = .ddr ∧ v = u) ∨
        (u.mode = .sdr ∧ u.HeaderAck ∧ v = (u.play (headerCmds ++ byteCmds cccEnthdr0)).switched .ddr))
      fun v => u.mode = .sdr ∧ u.PrologueEnds v := by
  unfold enterDdr
  rw [h.mode]
  cases hm : u.mode with
  | ddr => exact ⟨u, h, .inl ⟨rfl, rfl⟩⟩
  | sdr =>
    rw [if_pos rfl]
    refine (sdrPrologue_post h hm).bind (fun v hv => ⟨rfl, hv⟩) fun _ s1 v h1 hv => ?_
    obtain ⟨ha, rfl⟩ := hv
    refine (sdrWriteByte_goes h1 (mode_play hm _) (by simpa using ht) _).bind fun s2 h2 => ?_
    refine (switchProgram_goes .ddr h2).mono (fun _ v hv => .inr ⟨rfl, ha, ?_⟩) fun _ h => h.elim
    rw [hv.2, play_play]

/-- `ddr_command(rnw)` (R304). -/
theorem ddrCommand_goes (h : s.Follows L u) (hm : u.mode = .ddr) (a : BusAddr) (c : Byte) (rnw : Bool) :
    (ddrCommand a c rnw s).Goes L ()
      ((u.play [cmdFrame (cmdWord a c rnw)]).withCrc (crc5Word crc5Init (cmdWord a c rnw))) := by
  rw [← play_withCrc]
  exact emit_play _ (h.setCrc _) hm rfl rfl

/-- A DDR word of TXB (spec/20_memory.md R72). -/
theorem txbWord_goes (h : s.Follows L u) {i : Nat} (hi : 2 * i + 2 ≤ u.par.txbufBytes) :
    (txbWord i s).Goes L (txWord u.txb i) u := by
  refine (txbByte_goes h (by omega)).bind fun s1 h1 => (txbByte_goes h1 (by omega)).bind fun s2 h2 => ?_
  exact Run.Goes.ok h2

theorem rxbWord_goes (h : s.Follows L u) {i : Nat} (w : DdrWord) (hi : 2 * i + 2 ≤ u.par.rxbufBytes) :
    (rxbWord i w s).Goes L () (u.stored (2 * i) [w.extractLsb' 8 8, w.extractLsb' 0 8]) := by
  refine (rxbByte_goes h _ (by omega)).bind fun s1 h1 => ?_
  have := rxbByte_goes h1 (i := 2 * i + 1) (w.extractLsb' 0 8) (by simp only [stored_par]; omega)
  have e := stored_stored u (2 * i) [w.extractLsb' 8 8] [w.extractLsb' 0 8]
  rw [List.length_singleton] at e
  rw [e] at this
  exact this

/-! ## The write loop -/

theorem ddrWordsCmds_succ (ack et : Bool) (m : Memory) (i n : Nat) :
    ddrWordsCmds ack et m i (n + 1) = ddrWordCmds ack et m i ++ ddrWordsCmds ack et m (i + 1) n := by
  simp only [ddrWordsCmds, List.range_succ_eq_map, List.flatMap_cons, List.flatMap_map]
  congr 1
  congr 1
  funext k
  rw [show i + 1 + k = i + (k + 1) by omega]

theorem crcThrough_succ (m : Memory) (c : BitVec 5) (i n : Nat) :
    crcThrough m c i (n + 1) = crcThrough m (crc5Word c (txWord m i)) (i + 1) n := by
  simp only [crcThrough, List.range_succ_eq_map, List.foldl_cons, List.foldl_map]
  congr 1
  funext c k
  rw [show i + 1 + k = i + (k + 1) by omega]

/-- What the write loop can do (R311): every word is sent, or the target stops it at one. -/
def State.DdrWrote (u : State) (ack et : Bool) (left i : Nat) (r : Status × Nat) (v : State) : Prop :=
  (u.DdrGoes ack et i 0 left ∧ r = (.ok, i + left) ∧
    v = (u.play (ddrWordsCmds ack et u.txb i left)).withCrc (crcThrough u.txb u.crc i left)) ∨
  ∃ k, k < left ∧ u.DdrStops ack et i 0 k ∧
    r = (if i + k = 0 then .nakDdr else .ddrEarlyTermination, i + k) ∧
    v = (u.play (ddrWordsCmds ack et u.txb i k ++ [.dpre])).withCrc (crcThrough u.txb u.crc i k)

/-- One more word in front of what the loop does. -/
theorem State.DdrWrote.cons {ack et : Bool} {left i : Nat} {r : Status × Nat} {v : State}
    (hgo : ddrAsks ack et i = true → preambleGoes i (u.answer 0) = true)
    (h : State.DdrWrote ((u.play (ddrWordCmds ack et u.txb i)).withCrc (crc5Word u.crc (txWord u.txb i))) ack et left
      (i + 1) r v) : u.DdrWrote ack et (left + 1) i r v := by
  have hgoes : ∀ n, State.DdrGoes ((u.play (ddrWordCmds ack et u.txb i)).withCrc (crc5Word u.crc (txWord u.txb i))) ack
      et (i + 1) 0 n → u.DdrGoes ack et i 0 (n + 1) := by
    intro n hn k hk ha
    match k with
    | 0 => simpa [ddrWordsCmds] using hgo ha
    | k + 1 =>
      have := hn k (by omega) (by rw [show i + 1 + k = i + (k + 1) by omega]; exact ha)
      rw [ddrWordsCmds_succ, sampledIn_append]
      simpa [Nat.add_assoc, Nat.add_comm, Nat.add_left_comm] using this
  obtain ⟨hg, rfl, rfl⟩ | ⟨k, hk, hs, rfl, rfl⟩ := h
  · refine .inl ⟨hgoes _ hg, by rw [Nat.add_right_comm, Nat.add_assoc], ?_⟩
    rw [crcThrough_succ, ddrWordsCmds_succ]
    simp [play_withCrc]
  · refine .inr ⟨k + 1, by omega, ⟨hgoes _ hs.before, ?_, ?_⟩, ?_, ?_⟩
    · have := hs.asks
      rwa [show i + 1 + k = i + (k + 1) by omega] at this
    · have := hs.stops
      rw [ddrWordsCmds_succ, sampledIn_append]
      simpa [Nat.add_assoc, Nat.add_comm, Nat.add_left_comm] using this
    · rw [if_neg (by omega), if_neg (by omega), show i + 1 + k = i + (k + 1) by omega]
    · rw [crcThrough_succ, ddrWordsCmds_succ]
      simp [play_withCrc]

theorem ddrWriteLoop_post (ack et : Bool) (left i : Nat) (h : s.Follows L u) (hm : u.mode = .ddr)
    (hn : 2 * (i + left) ≤ u.par.txbufBytes) :
    (ddrWriteLoop ack et left i s).Post L (fun r v => u.DdrWrote ack et left i r v) fun _ => False := by
  induction left generalizing s u i with
  | zero => exact ⟨u, h, .inl ⟨by intro k hk; omega, rfl, rfl⟩⟩
  | succ left ih =>
    refine (txbWord_goes h (by omega)).bind fun s1 h1 => ?_
    have hasks : (i = 0 ∧ ack = true ∨ 0 < i ∧ et = true) ↔ ddrAsks ack et i = true := by
      unfold ddrAsks
      by_cases e : i = 0
      · simp [e]
      · simp [e, Nat.pos_of_ne_zero e]
    have rest : ∀ (s' : State), (ddrAsks ack et i = true → preambleGoes i (u.answer 0) = true) →
        s'.Follows L ((u.play (ddrWordCmds ack et u.txb i)).withCrc (crc5Word u.crc (txWord u.txb i))) →
        (ddrWriteLoop ack et left (i + 1) s').Post L (fun r v => u.DdrWrote ack et (left + 1) i r v) fun _ => False :=
      fun s' hgo hs' => (ih (i + 1) hs' (mode_play hm _) (by simp only [withCrc_par, play_par]; omega)).mono
        (fun r v hv => hv.cons hgo) fun _ h => h
    have hcrc : s1.crc = u.crc := h1.crc
    rw [hcrc]
    by_cases ha : ddrAsks ack et i = true
    · rw [if_pos (hasks.2 ha)]
      refine (xfer_play .dpre 1 (h1.setCrc (crc5Word u.crc (txWord u.txb i))) hm rfl rfl).bind fun s2 h2 => ?_
      have e : State.play { u with crc := crc5Word u.crc (txWord u.txb i) } [.dpre] =
          (u.play [.dpre]).withCrc (crc5Word u.crc (txWord u.txb i)) := play_withCrc _ _ _
      rw [e] at h2
      have a0 : State.answer { u with crc := crc5Word u.crc (txWord u.txb i) } 0 = u.answer 0 := rfl
      have hbit : (sample 1 (u.answer 0)).getLsbD 0 = (u.answer 0).getLsbD 0 := by
        rw [getLsbD_sample]
        rfl
      simp only [a0, hbit]
      have back : State.Follows L { s2 with crc := u.crc } ((u.play [.dpre]).withCrc u.crc) := h2.setCrc u.crc
      by_cases hg : preambleGoes i (u.answer 0) = true
      · have n1 : ¬ (i = 0 ∧ (u.answer 0).getLsbD 0 = true) := by
          rintro ⟨h0, h1⟩
          simp [preambleGoes, h0] at hg
          rw [← BitVec.getLsbD_eq_getElem, h1] at hg
          cases hg
        have n2 : ¬ (0 < i ∧ (u.answer 0).getLsbD 0 = false) := by
          rintro ⟨h0, h1⟩
          rw [preambleGoes, if_neg (by omega), h1] at hg
          cases hg
        rw [if_neg n1, if_neg n2]
        refine (emit_play (dataFrame (txWord u.txb i)) h2 (mode_play hm _) rfl rfl).bind fun s3 h3 => ?_
        refine rest s3 (fun _ => hg) ?_
        rw [play_withCrc, play_play] at h3
        simpa [ddrWordCmds, ha] using h3
      · have hstop : u.DdrStops ack et i 0 0 := ⟨by intro k hk; omega, ha, by simpa [ddrWordsCmds] using hg⟩
        by_cases h0 : i = 0
        · have : (u.answer 0).getLsbD 0 = true := by
            rw [preambleGoes, if_pos h0] at hg
            simpa using hg
          rw [if_pos ⟨h0, this⟩]
          exact ⟨_, back, .inr ⟨0, by omega, hstop, by simp [h0], rfl⟩⟩
        · have : (u.answer 0).getLsbD 0 = false := by
            rw [preambleGoes, if_neg h0] at hg
            simpa using hg
          rw [if_neg (by tauto), if_pos ⟨by omega, this⟩]
          exact ⟨_, back, .inr ⟨0, by omega, hstop, by simp [h0], rfl⟩⟩
    · rw [if_neg (fun h => ha (hasks.1 h))]
      refine (emit_play preambleFrame (h1.setCrc (crc5Word u.crc (txWord u.txb i))) hm rfl rfl).bind fun s2 h2 => ?_
      have e : State.play { u with crc := crc5Word u.crc (txWord u.txb i) } [preambleFrame] =
          (u.play [preambleFrame]).withCrc (crc5Word u.crc (txWord u.txb i)) := play_withCrc _ _ _
      rw [e] at h2
      refine (emit_play (dataFrame (txWord u.txb i)) h2 (mode_play hm _) rfl rfl).bind fun s3 h3 => ?_
      refine rest s3 (fun h => absurd h ha) ?_
      rw [play_withCrc, play_play] at h3
      simpa [ddrWordCmds, ha] using h3

/-! ## The read loop -/

/-- The bytes of words `n .. n+m-1`, as RXB holds them from index `2n` (spec/20_memory.md R72). -/
def rxBytes (a : Nat → Word32) (n m : Nat) : List Byte :=
  (List.range (2 * m)).map fun k => wordsByte (rxData a) (2 * n + k)

theorem rxBytes_succ (a : Nat → Word32) (n m : Nat) :
    rxBytes a n (m + 1) = [(rxData a n).extractLsb' 8 8, (rxData a n).extractLsb' 0 8] ++ rxBytes a (n + 1) m := by
  have e : 2 * (m + 1) = 2 * m + 1 + 1 := by omega
  simp only [rxBytes, e, List.range_succ_eq_map, List.map_cons, List.map_map, List.cons_append, List.nil_append]
  congr 1
  · simp [wordsByte]
  congr 1
  · rw [wordsByte, if_neg (by omega)]
    congr 2
    simp only [Nat.succ_eq_add_one]
    omega
  · apply List.map_congr_left
    intro k _
    simp only [Function.comp, Nat.succ_eq_add_one]
    congr 1
    omega

/-- The CRC after words `n .. n+m-1`. -/
def rxCrcFrom (a : Nat → Word32) (c : BitVec 5) (n m : Nat) : BitVec 5 :=
  (List.range m).foldl (fun c k => crc5Word c (rxData a (n + k))) c

theorem rxCrcFrom_succ (a : Nat → Word32) (c : BitVec 5) (n m : Nat) :
    rxCrcFrom a c n (m + 1) = rxCrcFrom a (crc5Word c (rxData a n)) (n + 1) m := by
  simp only [rxCrcFrom, List.range_succ_eq_map, List.foldl_cons, List.foldl_map]
  congr 1
  funext c k
  rw [show n + 1 + k = n + (k + 1) by omega]

/-- The commands that read words `n .. n+m-1`. -/
def rxCmdsFrom (n m : Nat) : List CpCmd :=
  (List.range m).flatMap fun k => if n + k = 0 then [.dr 2, .dr 18] else [.dr 12, .dr 8]

theorem rxCmdsFrom_succ (n m : Nat) :
    rxCmdsFrom n (m + 1) = (if n = 0 then [.dr 2, .dr 18] else [.dr 12, .dr 8]) ++ rxCmdsFrom (n + 1) m := by
  simp only [rxCmdsFrom, List.range_succ_eq_map, List.flatMap_cons, List.flatMap_map]
  congr 1
  congr 1
  funext k
  rw [show n + 1 + k = n + (k + 1) by omega]

/-- Words `n .. n+m-1` arrive intact. -/
def rxIntactFrom (a : Nat → Word32) (n m : Nat) : Prop :=
  ∀ k, k < m → rxComes a (n + k) ∧ rxParityOk (rxBits a (n + k)) = true

theorem rxIntactFrom_cons {a : Nat → Word32} {n m : Nat} (h1 : rxComes a n) (h2 : rxParityOk (rxBits a n) = true)
    (h : rxIntactFrom a (n + 1) m) : rxIntactFrom a n (m + 1) := by
  intro k hk
  match k with
  | 0 => exact ⟨h1, h2⟩
  | k + 1 =>
    have := h k (by omega)
    rwa [show n + 1 + k = n + (k + 1) by omega] at this

/-- The state after words `n .. n+m-1` were read and stored. -/
def State.rxGot (u : State) (a : Nat → Word32) (n m : Nat) (more : List CpCmd) : State :=
  ((u.play (rxCmdsFrom n m ++ more)).stored (2 * n) (rxBytes a n m)).withCrc (rxCrcFrom a u.crc n m)

theorem rxGot_succ (u : State) (a : Nat → Word32) (n m : Nat) (more : List CpCmd) :
    State.rxGot (((u.play (rxCmdsFrom n 1)).stored (2 * n)
        [(rxData a n).extractLsb' 8 8, (rxData a n).extractLsb' 0 8]).withCrc (crc5Word u.crc (rxData a n)))
      a (n + 1) m more = u.rxGot a n (m + 1) more := by
  have e1 : rxCmdsFrom n (m + 1) = rxCmdsFrom n 1 ++ rxCmdsFrom (n + 1) m := by
    rw [rxCmdsFrom_succ, rxCmdsFrom_succ n 0]
    simp [rxCmdsFrom]
  unfold State.rxGot
  rw [rxBytes_succ, rxCrcFrom_succ, e1, play_withCrc, play_stored, play_play, withCrc_stored, withCrc_withCrc,
    List.append_assoc]
  have e2 := stored_stored (u.play (rxCmdsFrom n 1 ++ (rxCmdsFrom (n + 1) m ++ more))) (2 * n)
    [(rxData a n).extractLsb' 8 8, (rxData a n).extractLsb' 0 8] (rxBytes a (n + 1) m)
  have e3 : 2 * n + [(rxData a n).extractLsb' 8 8, (rxData a n).extractLsb' 0 8].length = 2 * (n + 1) := by
    simp only [List.length_cons, List.length_nil]
    omega
  rw [e3] at e2
  rw [e2, withCrc_crc]

/-- How the read loop can end from word `n` on, with at most `left` more words (R321): the buffer is full; a CRC word
comes; no defined preamble comes; or a word's parity is wrong. -/
def State.DdrGot (u : State) (a : Nat → Word32) (n left : Nat) (r : ReadEnd) (v : State) : Prop :=
  ∃ m, m ≤ left ∧ rxIntactFrom a n m ∧ r.n = n + m ∧
    ((m = left ∧ r.st = .ok ∧ r.crcSeen = false ∧ v = u.rxGot a n m []) ∨
     (m < left ∧ 0 < n + m ∧ (a (2 * (n + m))).extractLsb' 10 2 = 0b01#2 ∧
        r.st = (if rxCrc (a (2 * (n + m))) = rxCrcFrom a u.crc n m then .ok else .ddrCrcWrong) ∧ r.crcSeen = true ∧
        v = u.rxGot a n m [.dr 12]) ∨
     (m < left ∧ 0 < n + m ∧ (a (2 * (n + m))).extractLsb' 10 2 ≠ 0b11#2 ∧
        (a (2 * (n + m))).extractLsb' 10 2 ≠ 0b01#2 ∧ r.st = .ddrInvalidPreamble ∧ r.crcSeen = false ∧
        v = u.rxGot a n m [.dr 12]) ∨
     (m < left ∧ rxComes a (n + m) ∧ rxParityOk (rxBits a (n + m)) = false ∧ r.st = .ddrParityWrong ∧
        r.crcSeen = false ∧
        v = (u.rxGot a n m (if n + m = 0 then [.dr 2, .dr 18] else [.dr 12, .dr 8])).withCrc
          (crc5Word (rxCrcFrom a u.crc n m) (rxData a (n + m)))))

theorem State.DdrGot.cons {a : Nat → Word32} {n left : Nat} {r : ReadEnd} {v : State}
    (h1 : rxComes a n) (h2 : rxParityOk (rxBits a n) = true)
    (h : State.DdrGot (((u.play (rxCmdsFrom n 1)).stored (2 * n)
        [(rxData a n).extractLsb' 8 8, (rxData a n).extractLsb' 0 8]).withCrc (crc5Word u.crc (rxData a n)))
      a (n + 1) left r v) : u.DdrGot a n (left + 1) r v := by
  obtain ⟨m, hm, hi, hr, h⟩ := h
  refine ⟨m + 1, by omega, rxIntactFrom_cons h1 h2 hi, by omega, ?_⟩
  have e : n + 1 + m = n + (m + 1) := by omega
  have c : rxCrcFrom a (crc5Word u.crc (rxData a n)) (n + 1) m = rxCrcFrom a u.crc n (m + 1) :=
    (rxCrcFrom_succ a u.crc n m).symm
  simp only [rxGot_succ, withCrc_crc, e, c] at h
  rcases h with h | h | h | h
  · exact .inl ⟨by omega, h.2⟩
  · exact .inr (.inl ⟨by omega, h.2⟩)
  · exact .inr (.inr (.inl ⟨by omega, h.2⟩))
  · exact .inr (.inr (.inr ⟨by omega, h.2⟩))

theorem rxCrc_sample (w : Nat) (a : Word32) (h : 10 ≤ w) : rxCrc (sample w a) = rxCrc a :=
  extractLsb'_sample _ _ _ _ (by simp only [ddrCrcRxLsb]; omega)

/-- The read loop after the first word (R321). -/
theorem ddrReadMore_post (a : Nat → Word32) (left n : Nat) (h : s.Follows L u) (hm : u.mode = .ddr) (hn : 1 ≤ n)
    (hb : 2 * (n + left) ≤ u.par.rxbufBytes) (ha : ∀ k, u.answer k = a (2 * n + k)) :
    (ddrReadMore left n s).Post L (fun r v => u.DdrGot a n left r v) fun _ => False := by
  induction left generalizing s u n with
  | zero =>
    exact ⟨u, h, 0, by omega, by intro k hk; omega, rfl, .inl ⟨rfl, rfl, rfl, by
      simp [State.rxGot, rxCmdsFrom, rxBytes, rxCrcFrom]; rfl⟩⟩
  | succ left ih =>
    have a0 : u.answer 0 = a (2 * n) := ha 0
    have intact0 : rxIntactFrom a n 0 := by intro k hk; omega
    have got0 : ∀ more, u.rxGot a n 0 more = u.play more := by
      intro more
      simp [State.rxGot, rxCmdsFrom, rxBytes, rxCrcFrom]
      have := withCrc_self (u.play more)
      rwa [play_crc] at this
    refine (xfer_play (.dr 12) 12 h hm rfl rfl).bind fun s1 h1 => ?_
    rw [extractLsb'_sample _ _ _ _ (by omega), a0]
    by_cases h11 : (a (2 * n)).extractLsb' 10 2 = 0b11#2
    · rw [if_pos h11]
      refine (xfer_play (.dr 8) 8 h1 (mode_play hm _) rfl rfl).bind fun s2 h2 => ?_
      have a1 : (u.play [.dr 12]).answer 0 = a (2 * n + 1) := by rw [play_answer, ha]; rfl
      have hw : laterWord (sample 12 (a (2 * n))) (sample 8 ((u.play [.dr 12]).answer 0)) = rxBits a n := by
        rw [laterWord, extractLsb'_sample _ _ _ _ (by omega), extractLsb'_sample _ _ _ _ (by omega), a1, rxBits,
          if_neg (by omega), laterWord]
      rw [hw]
      have hc : s2.crc = u.crc := h2.crc.trans (by simp)
      have hcm : rxComes a n := by rw [rxComes, if_neg (by omega)]; exact h11
      have hcmds : rxCmdsFrom n 1 = [.dr 12, .dr 8] := by
        rw [rxCmdsFrom_succ, if_neg (by omega)]
        rfl
      have h3 := h2.setCrc (crc5Word u.crc (rxWord (rxBits a n)))
      rw [play_play] at h3
      simp only [hc]
      by_cases hp : rxParityOk (rxBits a n) = true
      · rw [if_pos hp]
        refine (rxbWord_goes h3 _ (by simp only [play_par]; omega)).bind fun s4 h4 => ?_
        refine (ih (n + 1) h4 (mode_play hm _) (by omega) ?_ ?_).mono (fun r v hv => ?_) fun _ h => h
        · show 2 * (n + 1 + left) ≤ (u.play _).par.rxbufBytes
          simp only [play_par]
          omega
        · intro k
          show (u.play _).answer k = _
          rw [play_answer, ha]
          congr 1
          show 2 * n + (2 + k) = _
          omega
        · refine State.DdrGot.cons hcm hp ?_
          rw [hcmds]
          exact hv
      · rw [if_neg hp]
        refine ⟨_, h3, 0, by omega, intact0, rfl, .inr (.inr (.inr ⟨by omega, hcm, by simpa using hp, rfl, rfl, ?_⟩))⟩
        rw [got0, if_neg (by omega)]
        rfl
    · rw [if_neg h11]
      by_cases h01 : (a (2 * n)).extractLsb' 10 2 = 0b01#2
      · rw [if_pos h01, rxCrc_sample _ _ (by omega)]
        have hc : s1.crc = u.crc := h1.crc.trans (by simp)
        refine ⟨_, h1, 0, by omega, intact0, rfl, .inr (.inl ⟨by omega, by omega, h01, ?_, rfl, (got0 _).symm⟩)⟩
        rw [hc]
        rfl
      · rw [if_neg h01]
        exact ⟨_, h1, 0, by omega, intact0, rfl, .inr (.inr (.inl ⟨by omega, by omega, h11, h01, rfl, rfl, (got0 _).symm⟩))⟩

/-- `ddr_read_loop(lb)` (R321): the target NACKs, or words are read. -/
theorem ddrReadLoop_post (lb : Nat) (h : s.Follows L u) (hm : u.mode = .ddr) (hl : 1 ≤ lb)
    (hb : 2 * lb ≤ u.par.rxbufBytes) :
    (ddrReadLoop lb s).Post L
      (fun r v => ((u.answer 0).getLsbD 0 = true ∧ r = ⟨.nakDdr, 0, false⟩ ∧ v = u.play [.dr 2]) ∨
        ((u.answer 0).getLsbD 0 = false ∧ u.DdrGot u.answer 0 lb r v))
      fun _ => False := by
  refine (xfer_play (.dr 2) 2 h hm rfl rfl).bind fun s1 h1 => ?_
  have hbit : (sample 2 (u.answer 0)).getLsbD 0 = (u.answer 0).getLsbD 0 := by
    rw [getLsbD_sample]
    rfl
  rw [hbit]
  by_cases hn : (u.answer 0).getLsbD 0 = true
  · rw [if_pos hn]
    exact ⟨_, h1, .inl ⟨hn, rfl, rfl⟩⟩
  · rw [if_neg hn]
    have hn' : (u.answer 0).getLsbD 0 = false := by simpa using hn
    refine (xfer_play (.dr 18) 18 h1 (mode_play hm _) rfl rfl).bind fun s2 h2 => ?_
    have a1 : (u.play [.dr 2]).answer 0 = u.answer 1 := by rw [play_answer]; rfl
    have hw : (sample 18 ((u.play [.dr 2]).answer 0)).extractLsb' 0 18 = rxBits u.answer 0 := by
      rw [extractLsb'_sample _ _ _ _ (by omega), a1]
      rfl
    rw [hw]
    have hc : s2.crc = u.crc := h2.crc.trans (by simp)
    have h3 := h2.setCrc (crc5Word u.crc (rxWord (rxBits u.answer 0)))
    rw [play_play] at h3
    simp only [hc]
    obtain ⟨left, rfl⟩ : ∃ left, lb = left + 1 := ⟨lb - 1, by omega⟩
    by_cases hp : rxParityOk (rxBits u.answer 0) = true
    · rw [if_pos hp]
      refine (rxbWord_goes h3 _ (by simp only [play_par]; omega)).bind fun s4 h4 => ?_
      refine (ddrReadMore_post u.answer _ 1 h4 (mode_play hm _) (by omega) ?_ ?_).mono (fun r v hv => ?_) fun _ h => h
      · show 2 * (1 + left) ≤ (u.play _).par.rxbufBytes
        simp only [play_par]
        omega
      · intro k
        show (u.play _).answer k = _
        rw [play_answer]
        rfl
      · exact .inr ⟨hn', State.DdrGot.cons hn' hp hv⟩
    · rw [if_neg hp]
      refine ⟨_, h3, .inr ⟨hn', 0, by omega, by intro k hk; omega, rfl, .inr (.inr (.inr
        ⟨by omega, hn', by simpa using hp, rfl, rfl, ?_⟩))⟩⟩
      simp [State.rxGot, rxCmdsFrom, rxBytes, rxCrcFrom]
      rfl

/-! ## The end of a message -/

/-- The commands that end a read in which no CRC word came (R322, R323). -/
def termCmds (crcet : Bool) (r : ReadEnd) : List CpCmd :=
  if r.st ≠ .nakDdr ∧ r.crcSeen = false then
    if crcet then [terminateFrame, .dr 10] else [terminateFrame]
  else []

/-- The final status of a read: a trailing CRC is judged only where the words were good (R320, R323). -/
def termStatus (u : State) (r : ReadEnd) : Status :=
  if r.st = .ok ∧ r.crcSeen = false ∧ u.ddrCfg.crcEt = true ∧ rxCrc (u.answer 0) ≠ u.crc then .ddrCrcWrong else r.st

theorem ddrReadTerminate_goes (r : ReadEnd) (h : s.Follows L u) (hm : u.mode = .ddr) :
    (ddrReadTerminate r s).Goes L (termStatus u r) (u.play (termCmds u.ddrCfg.crcEt r)) := by
  unfold ddrReadTerminate termCmds termStatus
  by_cases hr : r.st ≠ .nakDdr ∧ r.crcSeen = false
  · rw [if_pos hr, if_pos hr]
    refine (emit_play terminateFrame h hm rfl rfl).bind fun s1 h1 => ?_
    have hcfg : s1.ddrCfg = u.ddrCfg := h1.ddrCfg.trans (by simp)
    rw [hcfg]
    cases hc : u.ddrCfg.crcEt with
    | true =>
      simp only [if_true]
      refine (xfer_play (.dr 10) 10 h1 (mode_play hm _) rfl rfl).bind fun s2 h2 => ?_
      have hcrc : s2.crc = u.crc := h2.crc.trans (by simp)
      have a0 : (u.play [terminateFrame]).answer 0 = u.answer 0 := by rw [play_answer]; rfl
      rw [rxCrc_sample _ _ (by omega), hcrc, a0]
      refine ⟨_, h2, ?_, by rw [play_play]; rfl⟩
      by_cases e : rxCrc (u.answer 0) = u.crc
      · simp [e]
      · simp [e, hr.2]
    | false =>
      simp only [Bool.false_eq_true, if_false]
      exact ⟨_, h1, by simp, rfl⟩
  · rw [if_neg hr, if_neg hr]
    refine ⟨_, h, ?_, rfl⟩
    rw [if_neg]
    rintro ⟨h1, h2, -⟩
    exact hr ⟨by rw [h1]; decide, h2⟩

/-- The settled state after `ddr_finalize` (R330). -/
def State.closed (u : State) (fwr : Bool) (st : Status) (n : Nat) : State :=
  if fwr = true ∧ st = .ok then (u.play [.hrestart]).finished .ok n
  else ((u.play [.hexit]).switched .sdr).finished st n

/-- `ddr_finalize(st, n)` (R330). -/
theorem ddrFinalize_ends (fwr : Bool) (st : Status) (n : Nat) (h : s.Follows L u) (hm : u.mode = .ddr) :
    (ddrFinalize fwr st n s).Ends L (u.closed fwr st n) := by
  unfold ddrFinalize State.closed
  by_cases hc : fwr = true ∧ st = .ok
  · rw [if_pos hc, if_pos hc]
    exact (emit_play .hrestart h hm rfl rfl).bind fun s1 h1 => drain_finish_ends _ _ h1
  · rw [if_neg hc, if_neg hc]
    exact (emit_play .hexit h hm rfl rfl).bind fun s1 h1 => switch_finish_ends _ _ _ h1

end ddr

end Sys2Proof.Machine
end

