-- ==== Sys2Proof/Laws/Bodies.lean ====
section
/-! SUPPORT. Everything each operation's body can do, as a change of the settled state: one lemma per body, its ends
listed (spec/42_sdr.md R240 to R262, spec/43_ddr.md R310 to R323, spec/44_config.md R353). -/

namespace Sys2Proof.Machine

section counts

@[simp] theorem sampledIn_headerCmds : sampledIn headerCmds = 2 := rfl
@[simp] theorem sampledIn_byteCmds (b : Byte) : sampledIn (byteCmds b) = 0 := rfl
@[simp] theorem sampledIn_restartAddr (a : BusAddr) (rnw : Bool) : sampledIn [.restart, addrFrame a rnw] = 1 := rfl

@[simp] theorem sampledIn_restartAddr_cons (a : BusAddr) (rnw : Bool) (cs : List CpCmd) :
    sampledIn (.restart :: addrFrame a rnw :: cs) = 1 + sampledIn cs :=
  sampledIn_append [.restart, addrFrame a rnw] cs

@[simp] theorem sampledIn_bytesCmds (m : Memory) (i n : Nat) : sampledIn (bytesCmds m i n) = 0 := by
  induction n generalizing i with
  | zero => rfl
  | succ n ih => rw [bytesCmds_succ, sampledIn_append, ih, sampledIn_byteCmds]

@[simp] theorem sampledIn_readCmds (n max : Nat) : sampledIn (readCmds n max) = n := by
  induction n generalizing max with
  | zero => rfl
  | succ n ih =>
    rw [readCmds_succ, sampledIn_cons, ih]
    simp only [CpCmd.width, Option.isSome_some, if_true]
    omega

end counts

section bodies
variable {L : Bool} {s u : State}

/-- The state after an address frame is NACKed, the commands `cs` having been driven before it (R174). -/
def State.AddrNack (u : State) (cs : List CpCmd) (a : BusAddr) (rnw : Bool) (v : State) : Prop :=
  isAck (u.answer (sampledIn cs)) = false ∧
    v = (u.play (cs ++ [.restart, addrFrame a rnw, .stop])).finished .nakDuringSdrAddr 0

/-- RESTART and an address phase after the commands `cs`. -/
theorem restartAddr_after {cs : List CpCmd} (h : s.Follows L (u.play cs)) (hm : u.mode = .sdr) (a : BusAddr)
    (rnw : Bool) :
    (restartAddr a rnw s).Post L
      (fun _ v => isAck (u.answer (sampledIn cs)) = true ∧ v = u.play (cs ++ [.restart, addrFrame a rnw]))
      (u.AddrNack cs a rnw) := by
  refine (restartAddr_post h (mode_play hm _) a rnw).mono (fun _ v hv => ?_) fun v hv => ?_
  · exact ⟨by simpa using hv.1, by rw [hv.2, play_play]⟩
  · exact ⟨by simpa using hv.1, by rw [hv.2, play_play]⟩

/-- TXB bytes after the commands `cs`. -/
theorem sdrWriteBytes_after {cs : List CpCmd} (n i : Nat) (h : s.Follows L (u.play cs)) (hm : u.mode = .sdr)
    (ht : u.sdrTab = sdrTable) (hn : i + n ≤ u.par.txbufBytes) :
    (sdrWriteBytes n i s).Goes L () (u.play (cs ++ bytesCmds u.txb i n)) := by
  have := sdrWriteBytes_goes n i h (mode_play hm _) (by simpa using ht) (by simpa using hn)
  rwa [play_play, play_txb] at this

/-- A code byte after the commands `cs`. -/
theorem sdrWriteByte_after {cs : List CpCmd} (b : Byte) (h : s.Follows L (u.play cs)) (hm : u.mode = .sdr)
    (ht : u.sdrTab = sdrTable) : (sdrWriteByte b s).Goes L () (u.play (cs ++ byteCmds b)) := by
  have := sdrWriteByte_goes h (mode_play hm _) (by simpa using ht) b
  rwa [play_play] at this

theorem sdrStopFinish_after {cs : List CpCmd} {α : Type} (h : s.Follows L (u.play cs)) (hm : u.mode = .sdr)
    (st : Status) (n : Nat) : (sdrStopFinish st n s : Run α).Ends L ((u.play (cs ++ [.stop])).finished st n) := by
  have := sdrStopFinish_ends (α := α) h (mode_play hm _) st n
  rwa [play_play] at this

/-- Reading at most `max` bytes into RXB from index `base` after the commands `cs`, then STOP: the ends (R177). -/
def State.ReadStops (u : State) (cs : List CpCmd) (max base : Nat) (v : State) : Prop :=
  ∃ k, u.ReadEnds (sampledIn cs) k max ∧
    v = ((u.play (cs ++ readCmds k max ++ [.stop])).stored base (u.readList (sampledIn cs) k)).finished .ok (base + k)

theorem ReadEnds_play {cs : List CpCmd} {j k max : Nat} :
    (u.play cs).ReadEnds j k max ↔ u.ReadEnds (sampledIn cs + j) k max := by
  constructor <;> intro h
  · exact ⟨h.pos, h.le, fun i hi => by have := h.continues i hi; rwa [play_answer, ← Nat.add_assoc] at this,
      h.ends.imp id fun e => by rwa [play_answer, ← Nat.add_assoc] at e⟩
  · exact ⟨h.pos, h.le, fun i hi => by have := h.continues i hi; rwa [play_answer, ← Nat.add_assoc],
      h.ends.imp id fun e => by rwa [play_answer, ← Nat.add_assoc]⟩

theorem readList_play (cs : List CpCmd) (j k : Nat) : (u.play cs).readList j k = u.readList (sampledIn cs + j) k := by
  unfold State.readList
  apply List.map_congr_left
  intro i _
  rw [play_answer, ← Nat.add_assoc]

/-- The read and the STOP after the commands `cs`. -/
theorem readStop_after {cs : List CpCmd} (max base : Nat) (h : s.Follows L (u.play cs)) (hm : u.mode = .sdr)
    (hl : 1 ≤ max) (hn : base + max ≤ u.par.rxbufBytes) :
    ((sdrReadBytes max base 0 s).bind fun n s => sdrStopFinish .ok (base + n) s : Run Unit).Post L
      (fun _ _ => False) (u.ReadStops cs max base) := by
  refine (sdrReadBytes_post max base 0 h (mode_play hm _) hl (by simpa using hn)).bind (fun _ h => h.elim)
    fun n s1 v h1 hv => ?_
  obtain ⟨k, hk, rfl, rfl⟩ := hv
  refine (sdrStopFinish_ends h1 (by simpa using hm) _ _).mono (fun _ _ h => h.elim) fun v hv => ⟨k, ?_, ?_⟩
  · simpa using ReadEnds_play.1 hk
  · rw [hv, play_stored, play_play, play_play, readList_play]
    simp

/-- The prologue, then what a continuation does after the won and ACKed header. -/
theorem prologue_bind {k : Unit → State → Run Unit} {D : State → Prop} (h : s.Follows L u) (hm : u.mode = .sdr)
    (hk : ∀ s, u.HeaderAck → s.Follows L (u.play headerCmds) → (k () s).Post L (fun _ _ => False) D) :
    ((sdrPrologue s).bind k).Post L (fun _ _ => False) (fun v => u.PrologueEnds v ∨ (u.HeaderAck ∧ D v)) := by
  refine (sdrPrologue_post h hm).bind (fun v hv => .inl hv) fun _ s1 v h1 hv => ?_
  obtain ⟨ha, rfl⟩ := hv
  exact (hk s1 ha h1).mono (fun _ _ h => h) fun v hv => .inr ⟨ha, hv⟩

theorem privateWriteBody_post (h : s.Follows L u) (hm : u.mode = .sdr) (ht : u.sdrTab = sdrTable) (a : BusAddr)
    (la : Nat) (hn : la ≤ u.par.txbufBytes) :
    (privateWriteBody a la s).Post L (fun _ _ => False) fun v => u.PrologueEnds v ∨ (u.HeaderAck ∧
      (u.AddrNack headerCmds a false v ∨ (isAck (u.answer 2) = true ∧
        v = (u.play (headerCmds ++ [.restart, addrFrame a false] ++ bytesCmds u.txb 0 la ++ [.stop])).finished .ok la))) := by
  refine prologue_bind h hm fun s1 _ h1 => ?_
  refine (restartAddr_after h1 hm a false).bind (fun _ h => .inl h) fun _ s2 v h2 hv => ?_
  obtain ⟨hk, rfl⟩ := hv
  refine (sdrWriteBytes_after la 0 h2 hm ht (by omega)).bind fun s3 h3 => ?_
  exact (sdrStopFinish_after h3 hm _ _).mono (fun _ _ h => h) fun v hv => .inr ⟨hk, hv⟩

theorem privateReadBody_post (h : s.Follows L u) (hm : u.mode = .sdr) (a : BusAddr)
    (lb : Nat) (hl : 1 ≤ lb) (hn : lb ≤ u.par.rxbufBytes) :
    (privateReadBody a lb s).Post L (fun _ _ => False) fun v => u.PrologueEnds v ∨ (u.HeaderAck ∧
      (u.AddrNack headerCmds a true v ∨ (isAck (u.answer 2) = true ∧
        u.ReadStops (headerCmds ++ [.restart, addrFrame a true]) lb 0 v))) := by
  refine prologue_bind h hm fun s1 _ h1 => ?_
  refine (restartAddr_after h1 hm a true).bind (fun _ h => .inl h) fun _ s2 v h2 hv => ?_
  obtain ⟨hk, rfl⟩ := hv
  have := readStop_after lb 0 h2 hm hl (by omega)
  simp only [Nat.zero_add] at this
  exact this.mono (fun _ _ h => h) fun v hv => .inr ⟨hk, hv⟩

theorem privateWriteReadBody_post (h : s.Follows L u) (hm : u.mode = .sdr) (ht : u.sdrTab = sdrTable) (a : BusAddr)
    (la lb : Nat) (hn : la ≤ u.par.txbufBytes) (hl : 1 ≤ lb) (hb : lb ≤ u.par.rxbufBytes) :
    (privateWriteReadBody a la lb s).Post L (fun _ _ => False) fun v => u.PrologueEnds v ∨ (u.HeaderAck ∧
      (u.AddrNack headerCmds a false v ∨ (isAck (u.answer 2) = true ∧
        (u.AddrNack (headerCmds ++ [.restart, addrFrame a false] ++ bytesCmds u.txb 0 la) a true v ∨
          (isAck (u.answer 3) = true ∧
            u.ReadStops (headerCmds ++ [.restart, addrFrame a false] ++ bytesCmds u.txb 0 la ++
              [.restart, addrFrame a true]) lb 0 v))))) := by
  refine prologue_bind h hm fun s1 _ h1 => ?_
  refine (restartAddr_after h1 hm a false).bind (fun _ h => .inl h) fun _ s2 v h2 hv => ?_
  obtain ⟨hk, rfl⟩ := hv
  refine (sdrWriteBytes_after la 0 h2 hm ht (by omega)).bind fun s3 h3 => ?_
  refine (restartAddr_after h3 hm a true).bind (fun _ h => .inr ⟨hk, .inl h⟩) fun _ s4 v h4 hv => ?_
  obtain ⟨hk', rfl⟩ := hv
  have := readStop_after lb 0 h4 hm hl (by omega)
  simp only [Nat.zero_add] at this
  exact this.mono (fun _ _ h => h) fun v hv => .inr ⟨hk, .inr ⟨by simpa using hk', hv⟩⟩

theorem cccBcastWriteBody_post (h : s.Follows L u) (hm : u.mode = .sdr) (ht : u.sdrTab = sdrTable) (la : Nat)
    (hn : la ≤ u.par.txbufBytes) :
    (cccBcastWriteBody la s).Post L (fun _ _ => False) fun v => u.PrologueEnds v ∨ (u.HeaderAck ∧
      v = (u.play (headerCmds ++ bytesCmds u.txb 0 la ++ [.stop])).finished .ok la) := by
  refine prologue_bind h hm fun s1 _ h1 => ?_
  refine (sdrWriteBytes_after la 0 h1 hm ht (by omega)).bind fun s3 h3 => ?_
  exact sdrStopFinish_after h3 hm _ _

theorem cccDirectWriteBody_post (h : s.Follows L u) (hm : u.mode = .sdr) (ht : u.sdrTab = sdrTable) (a : BusAddr)
    (la lb : Nat) (hn : la + lb ≤ u.par.txbufBytes) :
    (cccDirectWriteBody a la lb s).Post L (fun _ _ => False) fun v => u.PrologueEnds v ∨ (u.HeaderAck ∧
      (u.AddrNack (headerCmds ++ bytesCmds u.txb 0 la) a false v ∨ (isAck (u.answer 2) = true ∧
        v = (u.play (headerCmds ++ bytesCmds u.txb 0 la ++ [.restart, addrFrame a false] ++ bytesCmds u.txb la lb ++
          [.stop])).finished .ok lb))) := by
  refine prologue_bind h hm fun s1 _ h1 => ?_
  refine (sdrWriteBytes_after la 0 h1 hm ht (by omega)).bind fun s2 h2 => ?_
  refine (restartAddr_after h2 hm a false).bind (fun _ h => .inl h) fun _ s3 v h3 hv => ?_
  obtain ⟨hk, rfl⟩ := hv
  refine (sdrWriteBytes_after lb la h3 hm ht hn).bind fun s4 h4 => ?_
  exact (sdrStopFinish_after h4 hm _ _).mono (fun _ _ h => h) fun v hv => .inr ⟨by simpa using hk, hv⟩

theorem cccDirectReadBody_post (h : s.Follows L u) (hm : u.mode = .sdr) (ht : u.sdrTab = sdrTable) (a : BusAddr)
    (la lb : Nat) (hn : la ≤ u.par.txbufBytes) (hl : 1 ≤ lb) (hb : lb ≤ u.par.rxbufBytes) :
    (cccDirectReadBody a la lb s).Post L (fun _ _ => False) fun v => u.PrologueEnds v ∨ (u.HeaderAck ∧
      (u.AddrNack (headerCmds ++ bytesCmds u.txb 0 la) a true v ∨ (isAck (u.answer 2) = true ∧
        u.ReadStops (headerCmds ++ bytesCmds u.txb 0 la ++ [.restart, addrFrame a true]) lb 0 v))) := by
  refine prologue_bind h hm fun s1 _ h1 => ?_
  refine (sdrWriteBytes_after la 0 h1 hm ht (by omega)).bind fun s2 h2 => ?_
  refine (restartAddr_after h2 hm a true).bind (fun _ h => .inl h) fun _ s3 v h3 hv => ?_
  obtain ⟨hk, rfl⟩ := hv
  have := readStop_after lb 0 h3 hm hl (by omega)
  simp only [Nat.zero_add] at this
  exact this.mono (fun _ _ h => h) fun v hv => .inr ⟨by simpa using hk, hv⟩

/-! ## ENTDAA -/

theorem idFrame_width (b : Bool) : (idFrame b).width = some (if b then 9 else 8) := by cases b <;> rfl

theorem idFrame_program (b : Bool) : (idFrame b).program = .sdr := by cases b <;> rfl

theorem idByte_sample (b : Bool) (a : Word32) : idByte b (sample (if b then 9 else 8) a) = idByte b a := by
  cases b <;> exact extractLsb'_sample _ _ _ _ (by simp)

/-- ENTDAA's ID bytes in the answers from `j` on (R250). -/
def State.idList (u : State) (j n : Nat) : List Byte :=
  (List.range n).map fun k => idByte u.par.entdaaIdAckBit (u.answer (j + k))

theorem idList_succ (u : State) (j n : Nat) :
    u.idList j (n + 1) = idByte u.par.entdaaIdAckBit (u.answer j) :: u.idList (j + 1) n := by
  simp only [State.idList, List.range_succ_eq_map, List.map_cons, List.map_map]
  congr 1
  apply List.map_congr_left
  intro k _
  simp only [Function.comp, Nat.succ_eq_add_one]
  rw [show j + 1 + k = j + (k + 1) by omega]

theorem idList_play (cs : List CpCmd) (j n : Nat) : (u.play cs).idList j n = u.idList (sampledIn cs + j) n := by
  unfold State.idList
  apply List.map_congr_left
  intro k _
  rw [play_answer, play_par, ← Nat.add_assoc]

@[simp] theorem sampledIn_idFrames (b : Bool) (n : Nat) : sampledIn (List.replicate n (idFrame b)) = n := by
  simp [sampledIn, List.countP_replicate, idFrame_width]

theorem entdaaIdBytes_goes (n i : Nat) (h : s.Follows L u) (hm : u.mode = .sdr) (hn : i + n ≤ u.par.rxbufBytes) :
    (entdaaIdBytes n i s).Goes L ()
      ((u.play (List.replicate n (idFrame u.par.entdaaIdAckBit))).stored i (u.idList 0 n)) := by
  induction n generalizing s u i with
  | zero => exact Run.Goes.ok h
  | succ n ih =>
    rw [entdaaIdBytes, h.par]
    refine (xfer_play _ _ h hm (idFrame_program _) (idFrame_width _)).bind fun s1 h1 => ?_
    have hp : s1.par = u.par := h1.par.trans (by simp)
    rw [hp, idByte_sample]
    refine (rxbByte_goes h1 _ (by simp only [play_par]; omega)).bind fun s2 h2 => ?_
    have := ih (i + 1) h2 (by simpa using hm) (by simp only [stored_par, play_par]; omega)
    refine this.mono (fun _ v hv => ⟨rfl, ?_⟩) fun _ h => h
    rw [hv.2, idList_succ, List.replicate_succ]
    have e : State.idList ((u.play [idFrame u.par.entdaaIdAckBit]).stored i [idByte u.par.entdaaIdAckBit (u.answer 0)]) 0 n =
        u.idList 1 n := by
      unfold State.idList
      apply List.map_congr_left
      intro k _
      rw [stored_answer, play_answer, stored_par, play_par, sampledIn_cons, idFrame_width]
      congr 2
      simp only [Option.isSome_some, if_true, sampledIn_nil]
      omega
    rw [e, stored_par, play_par, play_stored, play_play]
    have := stored_stored (u.play ([idFrame u.par.entdaaIdAckBit] ++ List.replicate n (idFrame u.par.entdaaIdAckBit))) i
      [idByte u.par.entdaaIdAckBit (u.answer 0)] (u.idList 1 n)
    simpa using this

theorem entdaaBody_post (h : s.Follows L u) (hm : u.mode = .sdr) (ht : u.sdrTab = sdrTable) (a : BusAddr)
    (hb : 8 ≤ u.par.rxbufBytes) :
    (entdaaBody a s).Post L (fun _ _ => False) fun v => u.PrologueEnds v ∨ (u.HeaderAck ∧
      (u.AddrNack (headerCmds ++ byteCmds cccEntdaa) bcastAddr true v ∨ (isAck (u.answer 2) = true ∧
        v = ((u.play (entdaaCmds u.par.entdaaIdAckBit a ++ [.stop])).stored 0 (u.idList 3 8)).finished
          (if isAck (u.answer 11) then .ok else .nakDuringSdrAddr) 8))) := by
  refine prologue_bind h hm fun s1 _ h1 => ?_
  refine (sdrWriteByte_after _ h1 hm ht).bind fun s2 h2 => ?_
  refine (restartAddr_after h2 hm _ true).bind (fun _ h => .inl h) fun _ s3 v h3 hv => ?_
  obtain ⟨hk, rfl⟩ := hv
  refine (entdaaIdBytes_goes 8 0 h3 (mode_play hm _) (by simpa using hb)).bind fun s4 h4 => ?_
  rw [play_par, play_play, idList_play] at h4
  refine (xfer_play (dabFrame a) 9 h4 (mode_play hm _) rfl rfl).bind fun s5 h5 => ?_
  rw [isAck_sample _ _ (by omega), stored_answer, play_answer, sampledIn_append, sampledIn_idFrames]
  rw [play_stored, play_play] at h5
  have fin : ∀ st, (sdrStopFinish st 8 s5 : Run Unit).Ends L
      (((u.play (entdaaCmds u.par.entdaaIdAckBit a ++ [.stop])).stored 0 (u.idList 3 8)).finished st 8) := by
    intro st
    have := sdrStopFinish_ends (α := Unit) h5 (mode_play hm _) st 8
    rw [play_stored, play_play] at this
    exact this
  have hk' : isAck (u.answer 2) = true := by simpa using hk
  show Run.Post L (if isAck (u.answer 11) = true then _ else _) _ _
  cases hd : isAck (u.answer 11) with
  | true =>
    simp only [if_true]
    exact (fin _).mono (fun _ _ h => h) fun v hv => .inr ⟨hk', hv⟩
  | false =>
    simp only [Bool.false_eq_true, if_false]
    exact (fin _).mono (fun _ _ h => h) fun v hv => .inr ⟨hk', hv⟩

theorem rstdaaBody_post (h : s.Follows L u) (hm : u.mode = .sdr) (ht : u.sdrTab = sdrTable) :
    (rstdaaBody s).Post L (fun _ _ => False) fun v => u.PrologueEnds v ∨ (u.HeaderAck ∧
      v = (u.play (headerCmds ++ byteCmds cccRstdaa ++ [.stop])).finished .ok 0) := by
  refine prologue_bind h hm fun s1 _ h1 => ?_
  refine (sdrWriteByte_after _ h1 hm ht).bind fun s2 h2 => ?_
  exact sdrStopFinish_after h2 hm _ _

theorem checkAckBody_post (h : s.Follows L u) (hm : u.mode = .sdr) (a : BusAddr) :
    (checkAckBody a s).Post L (fun _ _ => False) fun v => u.PrologueEnds v ∨ (u.HeaderAck ∧
      (u.AddrNack headerCmds a false v ∨ (isAck (u.answer 2) = true ∧
        v = (u.play (headerCmds ++ [.restart, addrFrame a false] ++ [.stop])).finished .ok 0))) := by
  refine prologue_bind h hm fun s1 _ h1 => ?_
  refine (restartAddr_after h1 hm a false).bind (fun _ h => .inl h) fun _ s2 v h2 hv => ?_
  obtain ⟨hk, rfl⟩ := hv
  exact (sdrStopFinish_after h2 hm _ _).mono (fun _ _ h => h) fun v hv => .inr ⟨hk, hv⟩

theorem arbHeaderOnlyBody_post (h : s.Follows L u) (hm : u.mode = .sdr) :
    (arbHeaderOnlyBody s).Post L (fun _ _ => False) fun v => u.PrologueEnds v ∨ (u.HeaderAck ∧
      v = (u.play (headerCmds ++ [.stop])).finished .ok 0) := by
  refine prologue_bind h hm fun s1 _ h1 => ?_
  exact sdrStopFinish_after h1 hm _ _

/-! ## POLL -/

/-- The state once POLL has taken the arbitration byte (R262). -/
def State.polled (u : State) (b : Byte) : State := { u with arbpV := false }.stored 0 [b]

/-- What POLL can do with an arbitration byte, the commands `cs` having been driven (R262). -/
def State.PollServes (u : State) (cs : List CpCmd) (lb : Nat) (b : Byte) (v : State) : Prop :=
  (b.getLsbD 0 = true ∧ ∃ k, u.ReadEnds (sampledIn cs + 1) k lb ∧
    v = (((u.polled b).play (cs ++ [ackFrame] ++ readCmds k lb ++ [.stop])).stored 1
      (u.readList (sampledIn cs + 1) k)).finished .ok (1 + k)) ∨
  (b.getLsbD 0 = false ∧
    v = ((u.polled b).play (cs ++ [if b.extractLsb' 1 7 = hjAddr then ackFrame else nackFrame] ++ [.stop])).finished .ok 1)

theorem pollService_post {cs : List CpCmd} (h : s.Follows L (u.play cs)) (hm : u.mode = .sdr) (lb : Nat) (b : Byte)
    (hl : 1 ≤ lb) (hn : lb + 1 ≤ u.par.rxbufBytes) :
    (pollService lb b s).Post L (fun _ _ => False) (u.PollServes cs lb b) := by
  have hs : State.Follows L { s with arbpV := false } (State.play { u with arbpV := false } cs) := by
    rw [play_clearArb]
    exact h.clearArb
  refine (rxbByte_goes hs b (by simp only [play_par]; omega)).bind fun s1 h1 => ?_
  rw [← play_stored] at h1
  have hm' : (u.polled b).mode = .sdr := hm
  by_cases hb : b.getLsbD 0 = true
  · rw [if_pos hb]
    refine (xfer_play ackFrame 1 h1 (mode_play hm' _) rfl rfl).bind fun s2 h2 => ?_
    rw [play_play] at h2
    refine (readStop_after lb 1 h2 hm' hl (by show 1 + lb ≤ u.par.rxbufBytes; omega)).mono (fun _ _ h => h)
      fun v ⟨k, hk, hv⟩ => .inl ⟨hb, k, ?_, ?_⟩
    · rw [sampledIn_append] at hk
      exact ⟨hk.pos, hk.le, hk.continues, hk.ends⟩
    · rw [hv, sampledIn_append]
      rfl
  · rw [if_neg hb]
    have hb' : b.getLsbD 0 = false := by simpa using hb
    have one : ∀ c : CpCmd, c.program = .sdr → c.width = some 1 →
        ((xfer c s1).bind fun _ s => sdrStopFinish .ok 1 s : Run Unit).Ends L
          (((u.polled b).play (cs ++ [c] ++ [.stop])).finished .ok 1) := by
      intro c hc hw
      refine (xfer_play c 1 h1 (mode_play hm' _) hc hw).bind fun s2 h2 => ?_
      rw [play_play] at h2
      exact sdrStopFinish_after h2 hm' _ _
    by_cases hj : b.extractLsb' 1 7 = hjAddr
    · rw [if_pos hj]
      exact (one ackFrame rfl rfl).mono (fun _ _ h => h) fun v hv => .inr ⟨hb', by rw [if_pos hj]; exact hv⟩
    · rw [if_neg hj]
      exact (one nackFrame rfl rfl).mono (fun _ _ h => h) fun v hv => .inr ⟨hb', by rw [if_neg hj]; exact hv⟩

/-- What POLL of a start-type request can do (R262). -/
theorem pollStartType_post (h : s.Follows L u) (hm : u.mode = .sdr) (lb : Nat) (hl : 1 ≤ lb)
    (hn : lb + 1 ≤ u.par.rxbufBytes) :
    (pollStartType lb s).Post L (fun _ _ => False) fun v =>
      (arbWon (u.answer 0) = true ∧ v = (u.play (headerCmds ++ [.stop])).finished .noIbi 0) ∨
      (arbWon (u.answer 0) = false ∧ u.PollServes lostCmds lb (arbByte (u.answer 0) (u.answer 1)) v) := by
  refine (emit_play .start h hm rfl rfl).bind fun s1 h1 => ?_
  refine (xfer_play arbFrame6 6 h1 (mode_play hm _) rfl rfl).bind fun s2 h2 => ?_
  have a0 : (u.play [.start]).answer 0 = u.answer 0 := by rw [play_answer]; rfl
  rw [play_play] at h2
  rw [arbWon_sample, a0]
  cases hw : arbWon (u.answer 0) with
  | true =>
    simp only [if_true]
    refine (xfer_play arbFrame3 3 h2 (mode_play hm _) rfl rfl).bind fun s3 h3 => ?_
    rw [play_play] at h3
    exact (sdrStopFinish_after h3 hm _ _).mono (fun _ _ h => h) fun v hv => .inl ⟨trivial, hv⟩
  | false =>
    simp only [Bool.false_eq_true, if_false]
    refine (xfer_play arbFrame2 2 h2 (mode_play hm _) rfl rfl).bind fun s3 h3 => ?_
    rw [play_play] at h3
    have a1 : (u.play ([.start] ++ [arbFrame6])).answer 0 = u.answer 1 := by rw [play_answer]; rfl
    rw [arbByte_sample, a1]
    exact (pollService_post (cs := lostCmds) h3 hm lb _ hl hn).mono (fun _ _ h => h) fun v hv => .inr ⟨trivial, hv⟩

/-! ## HDR-DDR -/

/-- The state in which the DDR message of an operation starts: the DDR program is loaded (R303, R304). -/
def State.entered (u : State) : State :=
  match u.mode with
  | .sdr => (u.play (headerCmds ++ byteCmds cccEnthdr0)).switched .ddr
  | .ddr => u

@[simp] theorem entered_mode (u : State) : u.entered.mode = .ddr := by
  unfold State.entered
  split
  · rfl
  · assumption

/-- The state after the command word (R304). -/
def State.commanded (u : State) (a : BusAddr) (c : Byte) (rnw : Bool) : State :=
  (u.entered.play [cmdFrame (cmdWord a c rnw)]).withCrc (crc5Word crc5Init (cmdWord a c rnw))

@[simp] theorem commanded_mode (u : State) (a : BusAddr) (c : Byte) (rnw : Bool) :
    (u.commanded a c rnw).mode = .ddr := by simp [State.commanded]
@[simp] theorem entered_ddrCfg (u : State) : u.entered.ddrCfg = u.ddrCfg := by
  unfold State.entered
  split <;> simp [State.switched]
@[simp] theorem entered_txb (u : State) : u.entered.txb = u.txb := by
  unfold State.entered
  split <;> simp [State.switched]
@[simp] theorem entered_par (u : State) : u.entered.par = u.par := by
  unfold State.entered
  split <;> simp [State.switched]
@[simp] theorem commanded_ddrCfg (u : State) (a : BusAddr) (c : Byte) (rnw : Bool) :
    (u.commanded a c rnw).ddrCfg = u.ddrCfg := by simp [State.commanded, State.withCrc]
@[simp] theorem commanded_txb (u : State) (a : BusAddr) (c : Byte) (rnw : Bool) :
    (u.commanded a c rnw).txb = u.txb := by simp [State.commanded]
@[simp] theorem commanded_par (u : State) (a : BusAddr) (c : Byte) (rnw : Bool) :
    (u.commanded a c rnw).par = u.par := by simp [State.commanded]

/-- Entry into HDR-DDR and the command word, then a continuation. -/
theorem enter_bind {k : Unit → State → Run Unit} {D : State → Prop} (h : s.Follows L u) (ht : u.sdrTab = sdrTable)
    (a : BusAddr) (c : Byte) (rnw : Bool)
    (hk : ∀ s, s.Follows L (u.commanded a c rnw) → (k () s).Post L (fun _ _ => False) D) :
    ((enterDdr s).bind fun _ s => (ddrCommand a c rnw s).bind k).Post L (fun _ _ => False)
      (fun v => (u.mode = .sdr ∧ u.PrologueEnds v) ∨ ((u.mode = .sdr → u.HeaderAck) ∧ D v)) := by
  refine (enterDdr_post h ht).bind (fun v hv => .inl hv) fun _ s1 v h1 hv => ?_
  have hv' : (u.mode = .sdr → u.HeaderAck) ∧ v = u.entered := by
    obtain ⟨hm, rfl⟩ | ⟨hm, ha, rfl⟩ := hv
    · exact ⟨fun e => absurd (hm.symm.trans e) (by decide), by simp [State.entered, hm]⟩
    · exact ⟨fun _ => ha, by simp [State.entered, hm]⟩
  obtain ⟨ha, rfl⟩ := hv'
  refine (ddrCommand_goes h1 (entered_mode u) a c rnw).bind fun s2 h2 => ?_
  exact (hk s2 h2).mono (fun _ _ h => h) fun v hv => .inr ⟨ha, hv⟩

/-- The ends of DDR_WRITE's message (R310 to R312). -/
def State.DdrWriteEnds (u : State) (a : BusAddr) (c : Byte) (fwr : Bool) (la : Nat) (v : State) : Prop :=
  ∃ r w, (u.commanded a c false).DdrWrote u.ddrCfg.ackEn u.ddrCfg.etEn la 0 r w ∧
    v = (w.play (if ddrSendsCrc u.ddrCfg.crcEt r.1 then [crcFrame w.crc] else [])).closed fwr r.1 r.2

theorem DdrWrote_fields {ack et : Bool} {left i : Nat} {r : Status × Nat} {w : State}
    (h : u.DdrWrote ack et left i r w) : w.mode = u.mode ∧ w.ddrCfg = u.ddrCfg := by
  obtain ⟨-, -, rfl⟩ | ⟨k, -, -, -, rfl⟩ := h <;> simp [State.withCrc]

theorem ddrWriteBody_post (h : s.Follows L u) (ht : u.sdrTab = sdrTable) (a : BusAddr) (c : Byte) (fwr : Bool)
    (la : Nat) (hn : 2 * la ≤ u.par.txbufBytes) :
    (ddrWriteBody a c fwr la s).Post L (fun _ _ => False) fun v =>
      (u.mode = .sdr ∧ u.PrologueEnds v) ∨ ((u.mode = .sdr → u.HeaderAck) ∧ u.DdrWriteEnds a c fwr la v) := by
  refine enter_bind h ht a c false fun s1 h1 => ?_
  have hcfg : s1.ddrCfg = u.ddrCfg := h1.ddrCfg.trans (by simp)
  rw [hcfg]
  refine (ddrWriteLoop_post _ _ la 0 h1 (by simp) (by simpa using hn)).bind (fun _ h => h.elim)
    fun r s2 w h2 hr => ?_
  obtain ⟨hm, hc⟩ := DdrWrote_fields hr
  have hm' : w.mode = .ddr := hm.trans (by simp)
  have hc2 : s2.ddrCfg = u.ddrCfg := (h2.ddrCfg.trans hc).trans (by simp)
  have hcrc : s2.crc = w.crc := h2.crc
  rw [hc2, hcrc]
  refine Run.Goes.bind (a := ()) (u := w.play (if ddrSendsCrc u.ddrCfg.crcEt r.1 then [crcFrame w.crc] else [])) ?_
    fun s3 h3 => ?_
  · cases ddrSendsCrc u.ddrCfg.crcEt r.1 with
    | true => exact emit_play _ h2 hm' rfl rfl
    | false => exact Run.Goes.ok h2
  · exact (ddrFinalize_ends fwr r.1 r.2 h3 (mode_play hm' _)).mono (fun _ _ h => h) fun v hv => ⟨r, w, hr, hv⟩

/-- The ends of DDR_READ's message (R320 to R323). -/
def State.DdrReadEnds (u : State) (a : BusAddr) (c : Byte) (fwr : Bool) (lb : Nat) (v : State) : Prop :=
  ∃ r w, (((u.commanded a c true).answer 0).getLsbD 0 = true ∧ r = ⟨.nakDdr, 0, false⟩ ∧
        w = (u.commanded a c true).play [.dr 2] ∨
      ((u.commanded a c true).answer 0).getLsbD 0 = false ∧
        (u.commanded a c true).DdrGot (u.commanded a c true).answer 0 lb r w) ∧
    v = (w.play (termCmds u.ddrCfg.crcEt r)).closed fwr (termStatus w r) r.n

theorem DdrGot_fields {a : Nat → Word32} {n left : Nat} {r : ReadEnd} {w : State} (h : u.DdrGot a n left r w) :
    w.mode = u.mode ∧ w.ddrCfg = u.ddrCfg := by
  have got : ∀ m more, (u.rxGot a n m more).mode = u.mode ∧ (u.rxGot a n m more).ddrCfg = u.ddrCfg := by
    intro m more
    exact ⟨play_mode, play_ddrCfg⟩
  obtain ⟨m, -, -, -, ⟨-, -, -, rfl⟩ | ⟨-, -, -, -, -, rfl⟩ | ⟨-, -, -, -, -, -, rfl⟩ | ⟨-, -, -, -, -, rfl⟩⟩ := h
  · exact got _ _
  · exact got _ _
  · exact got _ _
  · exact got _ _

theorem ddrReadBody_post (h : s.Follows L u) (ht : u.sdrTab = sdrTable) (a : BusAddr) (c : Byte) (fwr : Bool)
    (lb : Nat) (hl : 1 ≤ lb) (hn : 2 * lb ≤ u.par.rxbufBytes) :
    (ddrReadBody a c fwr lb s).Post L (fun _ _ => False) fun v =>
      (u.mode = .sdr ∧ u.PrologueEnds v) ∨ ((u.mode = .sdr → u.HeaderAck) ∧ u.DdrReadEnds a c fwr lb v) := by
  refine enter_bind h ht a c true fun s1 h1 => ?_
  refine (ddrReadLoop_post lb h1 (by simp) hl (by simpa using hn)).bind (fun _ h => h.elim) fun r s2 w h2 hr => ?_
  have hf : w.mode = .ddr ∧ w.ddrCfg = u.ddrCfg := by
    rcases hr with ⟨-, -, rfl⟩ | ⟨-, hg⟩
    · simp
    · have := DdrGot_fields hg
      exact ⟨this.1.trans (by simp), this.2.trans (by simp)⟩
  refine (ddrReadTerminate_goes r h2 hf.1).bind fun s3 h3 => ?_
  rw [hf.2] at h3
  exact (ddrFinalize_ends fwr _ r.n h3 (mode_play hf.1 _)).mono (fun _ _ h => h) fun v hv => ⟨r, w, hr, hv⟩

/-! ## Target reset -/

/-- TARGET_RESET (R353). -/
theorem targetResetBody_ends (h : s.Follows L u) :
    (targetResetBody s).Ends L
      (State.finished { State.play (if u.mode = Mode.ddr then u.switched .sdr else u) [.trst] with arbpV := false } .ok 0) := by
  unfold targetResetBody
  rw [h.mode]
  have rest : ∀ s1 v, s1.Follows L v → v.mode = .sdr →
      ((emit .trst s1).bind fun _ s => (drain s).bind fun _ s =>
        (finish .ok 0 { s with arbpV := false } : Run Unit)).Ends L
        ({ v.play [.trst] with arbpV := false }.finished .ok 0) := by
    intro s1 v h1 hm
    refine (emit_play .trst h1 hm rfl rfl).bind fun s2 h2 => ?_
    exact (drain_running h2).post fun s3 h3 =>
      finish_ends .ok 0 h3.1.clearArb ⟨h3.2.cmdq, h3.2.rspq, h3.2.atStart⟩
  cases hm : u.mode with
  | ddr =>
    rw [if_pos rfl, if_pos rfl]
    exact (switchProgram_goes Mode.sdr h).bind fun s1 h1 => rest s1 _ h1 rfl
  | sdr =>
    rw [if_neg (by decide), if_neg (by decide)]
    exact rest s u h hm

end bodies

end Sys2Proof.Machine
end

