-- ==== Sys2Proof/Laws/Config.lean ====
section
/-! SUPPORT. The parameters of the machine at reset keep their laws (spec/00_scope.md R10), the SDR table entry by entry
(spec/41_crc_parity.md R220), and the buffers at reset. -/

namespace Sys2Proof.Machine

/-- The drive strength at reset is one of the legal ones (R36). -/
theorem driveResetMa_legal : driveLegal Config.driveResetMa.toNat = true := by
  unfold Config.driveResetMa
  split <;> decide

/-- The response table at reset is lawful (U14). -/
theorem respRows_lawful : respLawful Config.respRows = true := by
  unfold Config.respRows
  split
  · assumption
  · rfl

/-- The laws of R10 hold of the machine whose reset state is `State.reset`. -/
theorem params_lawful : Config.params.lawful = true := by
  have h1 := Config.txbufExtra.isLt
  have h2 := Config.rxbufExtra.isLt
  have h3 := Config.clkResetExtra.isLt
  have h4 : driveLegal Config.params.driveResetMa.toNat = true := driveResetMa_legal
  have h5 : Config.params.clkResetKhz.toNat = Config.clkResetExtra.val + 49 := by
    show (BitVec.ofNat 14 (Config.clkResetExtra.val + 49)).toNat = _
    rw [BitVec.toNat_ofNat]
    omega
  simp only [Params.lawful, Bool.and_eq_true, decide_eq_true_eq, h4, h5, clkMinKhz, clkMaxKhz]
  simp only [Config.params]
  refine ⟨⟨⟨⟨⟨⟨?_, ?_⟩, ?_⟩, ?_⟩, ?_⟩, trivial⟩, respRows_lawful⟩ <;> omega

/-- An entry of the SDR table (R220). -/
theorem sdrTable_get (k : Nat) (h : k < 512) : sdrTable[k] = sdrTabEntry k := by
  simp [sdrTable, sdrTableList]

/-- The buffers are in canonical form at reset. -/
theorem reset_buffers_wf : State.reset.txb.wf ∧ State.reset.rxb.wf := ⟨Memory.wf_nil, Memory.wf_nil⟩

end Sys2Proof.Machine
end

