-- ==== Sys2Proof/Laws/Exec.lean ====
section
/-! SUPPORT. From a ready state to the end of an operation: the entry checks, and how the end of a run in the settled
state gives the terms the statements use. -/

namespace Sys2Proof.Machine

section start
variable {L : Bool} {s u v t : State}

/-- An operation starts from a ready state. -/
theorem State.Ready.follows (h : s.Ready) (hl : L = true → s.cpBudget = none) : s.Follows L s.settle := by
  refine ⟨h.quiet.running h.prog hl ?_, rfl⟩
  have hp := h.par
  simp only [Params.lawful, Bool.and_eq_true, decide_eq_true_eq] at hp
  exact ⟨by omega, hp.2⟩

theorem State.Runs.follows (h : s.Runs) : s.Follows true s.settle := h.ready.follows fun _ => h.live

/-- Sensing SDA does not touch the queue. -/
theorem State.Follows.dropSda (h : s.Follows L u) : (dropSda s).Follows L (dropSda u) :=
  ⟨⟨h.running.prog, h.running.rspq, h.running.live, h.running.link, h.running.pending⟩, by rw [← h.settle]; rfl⟩

@[simp] theorem dropSda_answer (s : State) (k : Nat) : (dropSda s).answer k = s.answer k := rfl

/-- An SDR-class operation that passes its entry check. -/
theorem sdrEntry_free (h : s.SdrFree) (ok : Bool) (body : State → Run Unit) (hk : ok = true) :
    sdrEntry ok body s = body (dropSda s) := by
  simp [sdrEntry, h.mode, entryPending, afterEntryPending, h.noArb, h.sdaHigh, hk]

/-- A DDR-class operation that passes its entry check. -/
theorem ddrEntry_free (h : s.mode = .sdr → s.SdrFree) (ok : Bool) (body : State → Run Unit) (hk : ok = true) :
    ddrEntry ok body s = body (if s.mode = .sdr then dropSda s else s) := by
  unfold ddrEntry
  split
  · rename_i hm
    have h := h hm
    simp [entryPending, afterEntryPending, h.noArb, h.sdaHigh, hk]
  · simp [hk]

end start

/-! ## Reading the end of an operation -/

section finish
variable {s u v t : State} {cs : List CpCmd} {st : Status} {n : Nat}

/-- The fields of a settled state are those of the state. -/
structure State.SettlesTo (t v : State) : Prop where
  settle : t.settle = v
  quiet : t.Quiet

theorem State.SettlesTo.eq (h : t.SettlesTo v) :
    v = { t with cpPace := [], cpBudget := none, uncheckedLeft := 0 } := by rw [← h.settle, h.quiet.settle]

/-- `finish` leaves what it says in RES0 and BUSY. -/
theorem State.SettlesTo.finished (h : t.SettlesTo (u.finished st n)) : t.Finished st n := by
  have e := h.eq
  have e1 := congrArg State.res0 e
  have e2 := congrArg State.res0Valid e
  have e3 := congrArg State.busy e
  exact ⟨e1.symm, e2.symm, e3.symm, h.quiet⟩

/-- The commands an operation drove, from its settled end. -/
theorem State.SettlesTo.drove (h : t.SettlesTo v) (ht : v.trace = s.trace ++ entries s.answer 0 cs)
    (hw : v.wire = s.wire ++ cs) (hb : v.bus = busThrough s.bus cs)
    (ha : ∀ k, v.answer k = s.answer (sampledIn cs + k)) : s.Drove t cs := by
  have e := h.eq
  subst e
  exact ⟨ht, hw, hb, ha⟩

end finish

/-! ## SDR-class ends -/

section
variable {s t : State} {cs : List CpCmd} {st : Status} {n k : Nat} {m : Memory} {v : Bool} {b : Byte}

/-- The end of an SDR-class operation, from its settled state. -/
theorem sdrEnds_of (hr : s.Ready)
    (h : t.SettlesTo (State.finished { (dropSda s.settle).play cs with rxb := m, rxbValid := k, arbpV := v, arbpB := b } st n)) :
    s.SdrEnds t cs st n ∧ t.rxb = m ∧ t.rxbValid = k ∧ t.arbpV = v ∧ t.arbpB = b := by
  have hf := h.finished
  have hs := hr.quiet.settle
  have e := h.eq
  have f : ∀ {α : Type} (g : State → α), g (State.finished { (dropSda s.settle).play cs with rxb := m, rxbValid := k, arbpV := v, arbpB := b } st n) = g { t with cpPace := [], cpBudget := none, uncheckedLeft := 0 } := fun g => congrArg g e
  refine ⟨⟨hf, h.drove ?_ ?_ ?_ ?_, ?_, ?_, ?_⟩, ?_, ?_, ?_, ?_⟩
  · show (State.play _ cs).trace = _
    rw [play_trace, hs]; rfl
  · show (State.play _ cs).wire = _
    rw [play_wire, hs]; rfl
  · show (State.play _ cs).bus = _
    rw [play_bus, hs]; rfl
  · intro k
    show (State.play _ cs).answer k = _
    rw [play_answer]; rfl
  · have := f State.sampleW
    refine this.symm.trans ?_
    show (State.play _ cs).sampleW = _
    rw [play_sampleW, hs]; rfl
  · constructor
    · exact (f State.mode).symm.trans play_mode
    · exact (f State.ddrCfg).symm.trans play_ddrCfg
    · exact (f State.clkKhz).symm.trans play_clkKhz
    · exact (f State.driveMa).symm.trans play_driveMa
    · exact (f State.sdrTab).symm.trans play_sdrTab
    · exact (f State.crc).symm.trans play_crc
    · exact (f State.desc0).symm.trans play_desc0
    · exact (f State.desc1).symm.trans play_desc1
    · exact (f State.txb).symm.trans play_txb
    · exact (f State.cpProg).symm.trans play_cpProg
    · exact (f State.par).symm.trans play_par
    · exact (f State.host).symm.trans play_host
    · exact (f State.hostData).symm.trans play_hostData
  · exact ⟨(f State.sdaIn).symm.trans play_sdaIn, (f State.sdaDraws).symm.trans play_sdaDraws⟩
  · exact (f State.rxb).symm
  · exact (f State.rxbValid).symm
  · exact (f State.arbpV).symm
  · exact (f State.arbpB).symm

theorem plain_ends (hr : s.Ready) (h : t.SettlesTo (((dropSda s.settle).play cs).finished st n)) :
    s.SdrEnds t cs st n ∧ s.RxbSame t ∧ s.ArbSame t := by
  obtain ⟨h1, h2, h3, h4, h5⟩ := sdrEnds_of (m := ((dropSda s.settle).play cs).rxb) (k := ((dropSda s.settle).play cs).rxbValid) (v := ((dropSda s.settle).play cs).arbpV) (b := ((dropSda s.settle).play cs).arbpB) hr h
  exact ⟨h1, ⟨h2.trans play_rxb, h3.trans play_rxbValid⟩, ⟨h4.trans play_arbpV, h5.trans play_arbpB⟩⟩

theorem stored_ends {i : Nat} {bs : List Byte} (hr : s.Ready) (h : t.SettlesTo ((((dropSda s.settle).play cs).stored i bs).finished st n)) :
    s.SdrEnds t cs st n ∧ t.rxb = s.rxb.writeList i bs ∧ t.rxbValid = (if bs = [] then s.rxbValid else i + bs.length) ∧ s.ArbSame t := by
  obtain ⟨h1, h2, h3, h4, h5⟩ := sdrEnds_of (m := (((dropSda s.settle).play cs).stored i bs).rxb) (k := (((dropSda s.settle).play cs).stored i bs).rxbValid) (v := ((dropSda s.settle).play cs).arbpV) (b := ((dropSda s.settle).play cs).arbpB) hr h
  refine ⟨h1, h2.trans ?_, h3.trans ?_, ⟨h4.trans play_arbpV, h5.trans play_arbpB⟩⟩
  · show Memory.writeList (State.play _ _).rxb _ _ = _
    rw [play_rxb]; rfl
  · show (if bs = [] then (State.play _ _).rxbValid else _) = _
    rw [play_rxbValid]; rfl

theorem lost_ends (hr : s.Ready) (h : t.SettlesTo (((dropSda s.settle).lostHeader.play cs).finished st n)) :
    s.SdrEnds t cs st n ∧ s.RxbSame t ∧ t.arbpV = true ∧ t.arbpB = arbByte (s.answer 0) (s.answer 1) := by
  unfold State.lostHeader at h
  rw [play_setArb] at h
  obtain ⟨h1, h2, h3, h4, h5⟩ := sdrEnds_of (m := ((dropSda s.settle).play cs).rxb) (k := ((dropSda s.settle).play cs).rxbValid) hr h
  exact ⟨h1, ⟨h2.trans play_rxb, h3.trans play_rxbValid⟩, h4, h5⟩

end

section
variable {s : State}

theorem outcome_settles {r : Run Unit} {D : State → Prop} (h : r.Post true (fun _ _ => False) D) :
    ∃ t v, r.outcome = .next t ∧ D v ∧ t.SettlesTo v := by
  obtain ⟨t, h1, h2, h3, h4⟩ := h.outcome
  exact ⟨t, _, h1, h2, rfl, h3⟩

theorem SdrFree.dropMode (h : s.SdrFree) : (dropSda s.settle).mode = .sdr := h.mode

theorem not_prologueEnds {u v : State} (h : u.HeaderAck) (hp : u.PrologueEnds v) : False := by
  rcases hp with ⟨h1, -⟩ | ⟨-, h1, -⟩
  · rw [h.won] at h1; cases h1
  · rw [h.ack] at h1; cases h1

theorem not_addrNack {u v : State} {cs a rnw} (h : isAck (u.answer (sampledIn cs)) = true) (hp : u.AddrNack cs a rnw v) : False := by
  rw [hp.1] at h; cases h

theorem rxbHolds_of {t : State} {n : Nat} {bs : List Byte} {b : Nat → Byte} (hr : s.Ready) (hl : bs.length = n) (h1 : 1 ≤ n)
    (hb : ∀ k (h : k < bs.length), bs[k] = b k) (hm : t.rxb = s.rxb.writeList 0 bs)
    (hv : t.rxbValid = (if bs = [] then s.rxbValid else 0 + bs.length)) : s.RxbHolds t n b := by
  subst hl
  refine ⟨fun k hk => ?_, fun k hk => ?_, ?_⟩
  · rw [hm, Memory.read_writeList _ hr.rxbWf, dif_pos ⟨by omega, by omega⟩]
    exact hb k hk
  · rw [hm, Memory.read_writeList _ hr.rxbWf, dif_neg (by omega)]
  · rw [hv, if_neg (by rintro rfl; simp at h1)]; omega

theorem readStops_ends {t : State} {cs : List CpCmd} {n max : Nat} (hr : s.Ready) {v : State}
    (hE : s.ReadEnds (sampledIn cs) n max) (h : (dropSda s.settle).ReadStops cs max 0 v) (ht : t.SettlesTo v) :
    s.SdrEnds t (cs ++ readCmds n max ++ [.stop]) .ok n ∧
    s.RxbHolds t n (fun k => readByte (s.answer (sampledIn cs + k))) ∧ s.ArbSame t := by
  obtain ⟨k, hk, rfl⟩ := h
  have hk' : s.ReadEnds (sampledIn cs) k max := ⟨hk.pos, hk.le, hk.continues, hk.ends⟩
  obtain rfl := hk'.unique hE
  rw [Nat.zero_add] at ht
  obtain ⟨h1, h2, h3, h4⟩ := stored_ends hr ht
  refine ⟨h1, rxbHolds_of hr (readList_length _ _ _) hk.pos ?_ h2 h3, h4⟩
  intro j hj
  simp only [State.readList, List.getElem_map, List.getElem_range]
  rfl

end

/-! ## DDR-class ends -/

section
variable {s t u : State}

/-- The settled state in which a DDR-class operation starts, its entry check passed. -/
def State.ddrStart (s : State) : State := if s.mode = .sdr then dropSda s.settle else s.settle

theorem ddrStart_follows (h : s.Runs) : State.Follows true (if s.mode = .sdr then dropSda s else s) s.ddrStart := by
  unfold State.ddrStart
  split
  · exact h.follows.dropSda
  · exact h.follows

@[simp] theorem ddrStart_answer (s : State) (k : Nat) : s.ddrStart.answer k = s.answer k := by
  unfold State.ddrStart
  split <;> rfl

@[simp] theorem ddrStart_mode (s : State) : s.ddrStart.mode = s.mode := by
  unfold State.ddrStart
  split <;> rfl

/-- The bus after two lists of commands. -/
theorem busThrough_append' (b : BusPhase) (cs ds : List CpCmd) :
    busThrough b (cs ++ ds) = busThrough (busThrough b cs) ds := by simp [busThrough]

theorem entered_play (u : State) (cs : List CpCmd) :
    (u.entered.play cs).trace = u.trace ++ entries u.answer 0 (u.enterCmds ++ cs) ∧
    (u.entered.play cs).wire = u.wire ++ (u.enterCmds ++ cs) ∧
    (u.entered.play cs).bus = busThrough u.bus (u.enterCmds ++ cs) ∧
    (∀ k, (u.entered.play cs).answer k = u.answer (sampledIn (u.enterCmds ++ cs) + k)) ∧
    (u.entered.play cs).sampleW = widthThrough u.enterWidth cs := by
  cases hm : u.mode with
  | ddr =>
    have e : u.entered = u := by simp [State.entered, hm]
    have e2 : u.enterCmds = [] := by simp [State.enterCmds, hm]
    have e3 : u.enterWidth = u.sampleW := by simp [State.enterWidth, hm]
    rw [e, e2, e3]
    exact ⟨play_trace u cs, play_wire u cs, play_bus u cs, fun k => play_answer u cs k, play_sampleW u cs⟩
  | sdr =>
    have e : u.entered = (u.play (headerCmds ++ byteCmds cccEnthdr0)).switched .ddr := by simp [State.entered, hm]
    have e2 : u.enterCmds = headerCmds ++ byteCmds cccEnthdr0 := by simp [State.enterCmds, hm]
    have e3 : u.enterWidth = none := by simp [State.enterWidth, hm]
    rw [e, e2, e3]
    have ha : ∀ k, ((u.play (headerCmds ++ byteCmds cccEnthdr0)).switched .ddr).answer k =
        u.answer (sampledIn (headerCmds ++ byteCmds cccEnthdr0) + k) := fun k => play_answer u _ k
    refine ⟨?_, ?_, ?_, fun k => ?_, ?_⟩
    · rw [entries_append _ _ _ cs, play_trace, show ((u.play (headerCmds ++ byteCmds cccEnthdr0)).switched .ddr).trace =
        (u.play (headerCmds ++ byteCmds cccEnthdr0)).trace from rfl, play_trace, funext ha, entries_shift,
        Nat.zero_add, Nat.add_zero, List.append_assoc]
    · rw [play_wire, show ((u.play (headerCmds ++ byteCmds cccEnthdr0)).switched .ddr).wire =
        (u.play (headerCmds ++ byteCmds cccEnthdr0)).wire from rfl, play_wire, List.append_assoc]
    · rw [play_bus, show ((u.play (headerCmds ++ byteCmds cccEnthdr0)).switched .ddr).bus =
        (u.play (headerCmds ++ byteCmds cccEnthdr0)).bus from rfl, play_bus, busThrough_append' _ _ cs]
    · rw [play_answer, ha, sampledIn_append _ cs, Nat.add_assoc]
    · rw [play_sampleW]
      rfl

/-- What entering HDR-DDR and driving the message leaves alone. -/
theorem entered_frame (u : State) (cs : List CpCmd) :
    u.BusFrame (u.entered.play cs) ∧ u.ArbSame (u.entered.play cs) ∧ u.NotSensed (u.entered.play cs) ∧
      u.RxbSame (u.entered.play cs) := by
  unfold State.entered
  cases u.mode with
  | ddr => exact ⟨by constructor <;> simp, by constructor <;> simp, by constructor <;> simp, by constructor <;> simp⟩
  | sdr =>
    exact ⟨by constructor <;> simp [State.switched], by constructor <;> simp [State.switched],
      by constructor <;> simp [State.switched], by constructor <;> simp [State.switched]⟩

theorem play_setData (u : State) (cs : List CpCmd) (c : BitVec 5) (m : Memory) (k : Nat) :
    State.play { u with crc := c, rxb := m, rxbValid := k } cs = { u.play cs with crc := c, rxb := m, rxbValid := k } := by
  induction cs generalizing u with
  | nil => rfl
  | cons d cs ih =>
    rw [play_cons, play_cons, ← ih]
    congr 1
    unfold State.play1
    cases d.width <;> rfl

/-- The settled end of a DDR message, its mode, program and sample width said (R330). -/
theorem closed_eq {ms : List CpCmd} {c : BitVec 5} {m : Memory} {k n : Nat} {fwr : Bool} {st : Status}
    (hprog : u.cpProg = u.mode) :
    State.closed { u.entered.play ms with crc := c, rxb := m, rxbValid := k } fwr st n =
      State.finished { u.entered.play (ms ++ [closeCmd fwr st]) with
        crc := c, rxb := m, rxbValid := k, mode := closeMode fwr st, cpProg := closeMode fwr st
        sampleW := if closeMode fwr st = .sdr then none else (u.entered.play (ms ++ [closeCmd fwr st])).sampleW } st n := by
  unfold State.closed
  by_cases hc : fwr = true ∧ st = .ok
  · have e1 : closeCmd fwr st = .hrestart := by simp [closeCmd, hc]
    have e2 : closeMode fwr st = .ddr := by simp [closeMode, hc]
    rw [if_pos hc, e1, e2, play_setData (u.entered.play ms), play_play, hc.2]
    have hm : (u.entered.play (ms ++ [CpCmd.hrestart])).mode = .ddr := by simp
    have hp : (u.entered.play (ms ++ [CpCmd.hrestart])).cpProg = .ddr := by
      rw [play_cpProg]
      unfold State.entered
      cases hs : u.mode with
      | sdr => rfl
      | ddr => exact hprog.trans hs
    generalize u.entered.play (ms ++ [CpCmd.hrestart]) = z at hm hp ⊢
    rw [if_neg (by decide)]
    cases z
    simp only at hm hp
    subst hm hp
    rfl
  · have e1 : closeCmd fwr st = .hexit := by simp only [closeCmd, if_neg hc]
    have e2 : closeMode fwr st = .sdr := by simp only [closeMode, if_neg hc]
    rw [if_neg hc, e1, e2, play_setData (u.entered.play ms), play_play]
    rfl

/-- The end of a DDR-class message, from its settled state. -/
theorem ddrEnds_of {ms : List CpCmd} {c : BitVec 5} {m : Memory} {k n : Nat} {fwr : Bool} {st : Status} (hr : s.Ready)
    (h : t.SettlesTo (State.closed { s.ddrStart.entered.play ms with crc := c, rxb := m, rxbValid := k } fwr st n)) :
    s.DdrEnds t (ms ++ [closeCmd fwr st]) st n (closeMode fwr st) ∧ t.rxb = m ∧ t.rxbValid = k := by
  obtain ⟨g1, g2, g3, g4, g5⟩ := entered_play s.ddrStart (ms ++ [closeCmd fwr st])
  obtain ⟨f1, f2, f3, f4⟩ := entered_frame s.ddrStart (ms ++ [closeCmd fwr st])
  have hprog : s.ddrStart.cpProg = s.ddrStart.mode := by
    unfold State.ddrStart
    split <;> exact hr.prog
  have hv := closed_eq (ms := ms) (c := c) (m := m) (k := k) (n := n) (fwr := fwr) (st := st) hprog
  generalize hy : s.ddrStart.entered.play (ms ++ [closeCmd fwr st]) = y at g1 g2 g3 g4 g5 f1 f2 f3 f4 hv
  rw [hv] at h
  have hs : s.ddrStart = { (if s.mode = .sdr then dropSda s else s) with cpPace := [], cpBudget := none, uncheckedLeft := 0 } := by
    unfold State.ddrStart
    rw [hr.quiet.settle]
    split <;> rfl
  have hen : s.ddrStart.enterCmds = s.enterCmds := by rw [State.enterCmds, ddrStart_mode, State.enterCmds]
  have hew : s.ddrStart.enterWidth = s.enterWidth := by
    rw [State.enterWidth, ddrStart_mode, State.enterWidth, hs]
    cases s.mode <;> rfl
  have field : ∀ {α : Type} (g : State → α), g s.ddrStart = g { (if s.mode = .sdr then dropSda s else s) with cpPace := [], cpBudget := none, uncheckedLeft := 0 } :=
    fun g => congrArg g hs
  have hf := h.finished
  have e := h.eq
  have f : ∀ {α : Type} (g : State → α), g (State.finished { y with
        crc := c, rxb := m, rxbValid := k, mode := closeMode fwr st, cpProg := closeMode fwr st,
        sampleW := if closeMode fwr st = .sdr then none else y.sampleW } st n) = g { t with cpPace := [], cpBudget := none, uncheckedLeft := 0 } := fun g => congrArg g e
  have hsame : ∀ {α : Type} (g : State → α), (∀ x : State, g (dropSda x) = g x) →
      (∀ x : State, g { x with cpPace := [], cpBudget := none, uncheckedLeft := 0 } = g x) → g s.ddrStart = g s := by
    intro α g h1 h2
    rw [field g, h2]
    split
    · exact h1 s
    · rfl
  refine ⟨⟨hf, h.drove ?_ ?_ ?_ ?_, ?_, ?_, ?_, ?_, ?_, ?_⟩, ?_, ?_⟩
  · refine g1.trans ?_
    rw [hen, hsame State.trace (fun _ => rfl) (fun _ => rfl), funext (ddrStart_answer s)]
  · refine g2.trans ?_
    rw [hen, hsame State.wire (fun _ => rfl) (fun _ => rfl)]
  · refine g3.trans ?_
    rw [hen, hsame State.bus (fun _ => rfl) (fun _ => rfl)]
  · intro j
    refine (g4 j).trans ?_
    rw [hen, ddrStart_answer]
  · exact (f State.mode).symm
  · exact (f State.cpProg).symm
  · refine (f State.sampleW).symm.trans ?_
    show (if closeMode fwr st = .sdr then none else y.sampleW) = _
    rw [g5, hew]
  · constructor
    · exact (f State.ddrCfg).symm.trans (f1.ddrCfg.trans (hsame State.ddrCfg (fun _ => rfl) (fun _ => rfl)))
    · exact (f State.clkKhz).symm.trans (f1.clkKhz.trans (hsame State.clkKhz (fun _ => rfl) (fun _ => rfl)))
    · exact (f State.driveMa).symm.trans (f1.driveMa.trans (hsame State.driveMa (fun _ => rfl) (fun _ => rfl)))
    · exact (f State.sdrTab).symm.trans (f1.sdrTab.trans (hsame State.sdrTab (fun _ => rfl) (fun _ => rfl)))
    · exact (f State.desc0).symm.trans (f1.desc0.trans (hsame State.desc0 (fun _ => rfl) (fun _ => rfl)))
    · exact (f State.desc1).symm.trans (f1.desc1.trans (hsame State.desc1 (fun _ => rfl) (fun _ => rfl)))
    · exact (f State.txb).symm.trans (f1.txb.trans (hsame State.txb (fun _ => rfl) (fun _ => rfl)))
    · exact (f State.par).symm.trans (f1.par.trans (hsame State.par (fun _ => rfl) (fun _ => rfl)))
    · exact (f State.host).symm.trans (f1.host.trans (hsame State.host (fun _ => rfl) (fun _ => rfl)))
    · exact (f State.hostData).symm.trans (f1.hostData.trans (hsame State.hostData (fun _ => rfl) (fun _ => rfl)))
  · exact ⟨(f State.arbpV).symm.trans (f2.v.trans (hsame State.arbpV (fun _ => rfl) (fun _ => rfl))),
      (f State.arbpB).symm.trans (f2.b.trans (hsame State.arbpB (fun _ => rfl) (fun _ => rfl)))⟩
  · have d1 := (f State.sdaIn).symm.trans f3.sdaIn
    have d2 := (f State.sdaDraws).symm.trans f3.sdaDraws
    constructor
    · intro hm
      rw [field State.sdaIn, if_pos hm] at d1
      rw [field State.sdaDraws, if_pos hm] at d2
      exact ⟨d1, d2⟩
    · intro hm
      rw [field State.sdaIn, if_neg (by rw [hm]; decide)] at d1
      rw [field State.sdaDraws, if_neg (by rw [hm]; decide)] at d2
      exact ⟨d1, d2⟩
  · exact (f State.rxb).symm
  · exact (f State.rxbValid).symm

end

end Sys2Proof.Machine
end

