-- ==== Sys2Proof/Laws/DdrEnds.lean ====
section
/-! SUPPORT. The ends of HDR-DDR messages (spec/43_ddr.md R310 to R330) in the terms of the statements. -/

namespace Sys2Proof.Machine

section
variable {s t u : State}

/-- The header is won and ACKed where an operation enters HDR-DDR from SDR mode. -/
theorem hdr_of (he : s.EntersDdr) : s.ddrStart.mode = .sdr → s.ddrStart.HeaderAck := by
  intro h
  rw [ddrStart_mode] at h
  obtain ⟨-, h1, h2⟩ := he h
  exact ⟨by rw [ddrStart_answer]; exact h1, by rw [ddrStart_answer]; exact h2⟩

/-- The answers to a message are those after the entry (R303). -/
theorem commanded_answer (a : BusAddr) (c : Byte) (rnw : Bool) (k : Nat) : (s.ddrStart.commanded a c rnw).answer k = s.answer (s.enterAnswers + k) := by
  unfold State.commanded
  rw [withCrc_answer, (entered_play _ _).2.2.2.1, ddrStart_answer]
  congr 1
  rw [State.enterCmds, State.enterAnswers, ddrStart_mode]
  cases s.mode <;> simp [sampledIn, cmdFrame, CpCmd.width, headerCmds, byteCmds, arbFrame6, arbFrame3, sdrByteHi, sdrByteLo]

/-- A field that sensing SDA and the queue's bookkeeping leave alone. -/
theorem ddrStart_eq {α : Type} (hr : s.Ready) (g : State → α) (h1 : ∀ x : State, g (dropSda x) = g x)
      (h2 : ∀ x : State, g { x with cpPace := [], cpBudget := none, uncheckedLeft := 0 } = g x) : g s.ddrStart = g s := by
  unfold State.ddrStart
  rw [hr.quiet.settle]
  split
  · rw [h1, h2]
  · rw [h2]

/-- What the start of a DDR-class operation leaves alone. -/
theorem start_ddr (hr : s.Runs) : s.ddrStart.sdrTab = sdrTable ∧ s.ddrStart.par = s.par ∧ s.ddrStart.txb = s.txb ∧ s.ddrStart.ddrCfg = s.ddrCfg ∧ s.ddrStart.rxb = s.rxb ∧ s.ddrStart.rxbValid = s.rxbValid :=
  ⟨(ddrStart_eq hr.ready State.sdrTab (fun _ => rfl) (fun _ => rfl)).trans hr.ready.table,
   ddrStart_eq hr.ready State.par (fun _ => rfl) (fun _ => rfl),
   ddrStart_eq hr.ready State.txb (fun _ => rfl) (fun _ => rfl),
   ddrStart_eq hr.ready State.ddrCfg (fun _ => rfl) (fun _ => rfl),
   ddrStart_eq hr.ready State.rxb (fun _ => rfl) (fun _ => rfl),
   ddrStart_eq hr.ready State.rxbValid (fun _ => rfl) (fun _ => rfl)⟩

/-- Whether the target lets the words be sent, seen from the message's start. -/
theorem goes_iff (hr : s.Runs) (a c rnw ack et n) :
    (s.ddrStart.commanded a c rnw).DdrGoes ack et 0 0 n ↔ s.DdrGoes ack et 0 s.enterAnswers n := by
  unfold State.DdrGoes
  simp only [commanded_answer, commanded_txb, (start_ddr hr).2.2.1, Nat.zero_add]

/-- Where the target stops the words, seen from the message's start. -/
theorem stops_iff (hr : s.Runs) (a c rnw ack et n) :
    (s.ddrStart.commanded a c rnw).DdrStops ack et 0 0 n ↔ s.DdrStops ack et 0 s.enterAnswers n := by
  constructor
  · intro h
    refine ⟨(goes_iff hr a c rnw ack et n).1 h.before, h.asks, ?_⟩
    have := h.stops
    simpa only [commanded_answer, commanded_txb, (start_ddr hr).2.2.1, Nat.zero_add] using this
  · intro h
    refine ⟨(goes_iff hr a c rnw ack et n).2 h.before, h.asks, ?_⟩
    have := h.stops
    simpa only [commanded_answer, commanded_txb, (start_ddr hr).2.2.1, Nat.zero_add] using this

/-- A message that stores nothing leaves RXB alone. -/
theorem rxbSame_of (hr : s.Runs) (ms : List CpCmd) (h1 : t.rxb = (s.ddrStart.entered.play ms).rxb) (h2 : t.rxbValid = (s.ddrStart.entered.play ms).rxbValid) : s.RxbSame t := by
  have := (entered_frame s.ddrStart ms).2.2.2
  exact ⟨h1.trans (this.rxb.trans (start_ddr hr).2.2.2.2.1), h2.trans (this.valid.trans (start_ddr hr).2.2.2.2.2)⟩

/-- The end of a message that stores nothing, its final CRC dropped. -/
theorem write_ends (hr : s.Runs) {a cc fwr st n x} {ms : List CpCmd} (ht : t.SettlesTo (State.closed (((s.ddrStart.commanded a cc false).play ms).withCrc x) fwr st n)) :
    s.DdrEnds t ([cmdFrame (cmdWord a cc false)] ++ ms ++ [closeCmd fwr st]) st n (closeMode fwr st) ∧ s.RxbSame t := by
  unfold State.commanded at ht
  rw [play_withCrc, withCrc_withCrc, play_play] at ht
  obtain ⟨h1, h2, h3⟩ := ddrEnds_of (c := x) (m := (s.ddrStart.entered.play ([cmdFrame (cmdWord a cc false)] ++ ms)).rxb) (k := (s.ddrStart.entered.play ([cmdFrame (cmdWord a cc false)] ++ ms)).rxbValid) hr.ready ht
  exact ⟨h1, rxbSame_of hr _ h2 h3⟩

/-- A DDR-class operation that passes its entry check runs its body. -/
theorem exec_ddr {s : State} {ok : Bool} {body : State → Run Unit} (he : s.EntersDdr) (h : ok = true) :
    (ddrEntry ok body s).outcome = (body (if s.mode = .sdr then dropSda s else s)).outcome := by
  rw [ddrEntry_free (fun hm => (he hm).1) _ _ h]

/-- The prologue does not end the operation. -/
theorem not_prologue (he : s.EntersDdr) {v} (h : s.ddrStart.mode = .sdr ∧ s.ddrStart.PrologueEnds v) : False :=
  not_prologueEnds (hdr_of he h.1) h.2

/-- A word is either sent or stopped. -/
theorem goes_stops {ack et i j n k} (hg : s.DdrGoes ack et i j n) (hk : k < n) (hs : s.DdrStops ack et i j k) : False := by
  have := hg k hk hs.asks
  rw [hs.stops] at this
  cases this

/-- The target stops the words at one word only. -/
theorem stops_unique {ack et i j k k'} (h : s.DdrStops ack et i j k) (h' : s.DdrStops ack et i j k') : k = k' := by
  rcases Nat.lt_trichotomy k k' with hl | e | hl
  · exact (goes_stops h'.before hl h).elim
  · exact e
  · exact (goes_stops h.before hl h').elim

/-- The end of a read that stored `m` words. -/
theorem rxGot_ends (hr : s.Runs) {a cc fwr st n m y} {more more' : List CpCmd} {ans : Nat → Word32} 
    (ht : t.SettlesTo (State.closed ((((s.ddrStart.commanded a cc true).rxGot ans 0 m more).withCrc y).play more') fwr st n)) :
    s.DdrEnds t ([cmdFrame (cmdWord a cc true)] ++ ddrRxCmds m ++ more ++ more' ++ [closeCmd fwr st]) st n (closeMode fwr st) ∧
    t.rxb = s.rxb.writeList 0 (rxBytes ans 0 m) ∧ t.rxbValid = (if rxBytes ans 0 m = [] then s.rxbValid else 0 + (rxBytes ans 0 m).length) := by
  unfold State.rxGot State.commanded at ht
  rw [withCrc_withCrc, play_withCrc, play_stored, play_play, play_withCrc, withCrc_stored, withCrc_withCrc, play_play] at ht
  obtain ⟨g1, g2, g3⟩ := ddrEnds_of (c := y)
    (m := (s.ddrStart.entered.play ([cmdFrame (cmdWord a cc true)] ++ (rxCmdsFrom 0 m ++ more ++ more'))).rxb.writeList 0 (rxBytes ans 0 m))
    (k := if rxBytes ans 0 m = [] then (s.ddrStart.entered.play ([cmdFrame (cmdWord a cc true)] ++ (rxCmdsFrom 0 m ++ more ++ more'))).rxbValid else 0 + (rxBytes ans 0 m).length) hr.ready ht
  have hf := (entered_frame s.ddrStart ([cmdFrame (cmdWord a cc true)] ++ (rxCmdsFrom 0 m ++ more ++ more'))).2.2.2
  have e : rxCmdsFrom 0 m = ddrRxCmds m := by
    unfold rxCmdsFrom ddrRxCmds
    simp
  refine ⟨?_, ?_, ?_⟩
  · rw [e] at g1
    simpa [List.append_assoc] using g1
  · rw [g2, hf.rxb, (start_ddr hr).2.2.2.2.1]
  · rw [g3, hf.valid, (start_ddr hr).2.2.2.2.2]

/-- RXB after a read of `n` words. -/
theorem rxHolds (hr : s.Runs) {ans n} (h1 : 1 ≤ n) (hm : t.rxb = s.rxb.writeList 0 (rxBytes ans 0 n)) (hv : t.rxbValid = (if rxBytes ans 0 n = [] then s.rxbValid else 0 + (rxBytes ans 0 n).length)) :
    s.RxbHolds t (2 * n) (wordsByte (rxData ans)) := by
  refine rxbHolds_of hr.ready (by simp [rxBytes]) (by omega) ?_ hm hv
  intro k hk
  simp [rxBytes]

/-- How a read ends, in the terms of the statements. -/
theorem got_at {a c lb r w} {x : Nat → Word32} (hx : ∀ k, x k = s.answer (s.enterAnswers + k))
    (hg : (s.ddrStart.commanded a c true).DdrGot (s.ddrStart.commanded a c true).answer 0 lb r w) :
    ∃ m, m ≤ lb ∧ rxIntact x m ∧ r.n = m ∧
    ((m = lb ∧ r.st = .ok ∧ r.crcSeen = false ∧ w = (s.ddrStart.commanded a c true).rxGot x 0 m []) ∨
     (m < lb ∧ 0 < m ∧ (x (2 * m)).extractLsb' 10 2 = 0b01#2 ∧
        r.st = (if rxCrc (x (2 * m)) = rxCrcFrom x (crc5Word crc5Init (cmdWord a c true)) 0 m then .ok else .ddrCrcWrong) ∧ r.crcSeen = true ∧
        w = (s.ddrStart.commanded a c true).rxGot x 0 m [.dr 12]) ∨
     (m < lb ∧ 0 < m ∧ (x (2 * m)).extractLsb' 10 2 ≠ 0b11#2 ∧
        (x (2 * m)).extractLsb' 10 2 ≠ 0b01#2 ∧ r.st = .ddrInvalidPreamble ∧ r.crcSeen = false ∧
        w = (s.ddrStart.commanded a c true).rxGot x 0 m [.dr 12]) ∨
     (m < lb ∧ rxComes x m ∧ rxParityOk (rxBits x m) = false ∧ r.st = .ddrParityWrong ∧
        r.crcSeen = false ∧
        w = ((s.ddrStart.commanded a c true).rxGot x 0 m (if m = 0 then [.dr 2, .dr 18] else [.dr 12, .dr 8])).withCrc
          (crc5Word (rxCrcFrom x (crc5Word crc5Init (cmdWord a c true)) 0 m) (rxData x m)))) := by
  have hxa : (s.ddrStart.commanded a c true).answer = x := by
    funext k
    rw [commanded_answer, hx]
  rw [hxa] at hg
  obtain ⟨m, hm, hint, hrn, hrest⟩ := hg
  simp only [Nat.zero_add] at hrn hrest
  refine ⟨m, hm, ?_, hrn, ?_⟩
  · intro k hk
    have := hint k hk
    rwa [Nat.zero_add] at this
  · exact hrest

/-- The CRC from the first word on. -/
theorem rxCrcFrom_zero (x c n) : rxCrcFrom x c 0 n = rxCrcThrough x c n := by
  unfold rxCrcFrom rxCrcThrough
  congr 1
  funext c k
  rw [Nat.zero_add]

/-- A word that arrives intact does not end the read. -/
theorem intact_not {x : Nat → Word32} {n m : Nat} (hi : rxIntact x n) (hm : m < n) (h : ¬ rxComes x m ∨ rxParityOk (rxBits x m) = false) : False := by
  obtain ⟨h1, h2⟩ := hi m hm
  rcases h with h | h
  · exact h h1
  · rw [h2] at h; cases h

/-- A later word is announced by preamble 11. -/
theorem comes_pos {x : Nat → Word32} {m : Nat} (h : 0 < m) : rxComes x m ↔ (x (2 * m)).extractLsb' 10 2 = 0b11#2 := by
  rw [rxComes, if_neg (by omega)]

end

end Sys2Proof.Machine
end

