-- ==== Sys2Proof/Laws/Depth.lean ====
section
/-! SUPPORT. Two machines that differ in the depths of their FIFOs, and in the pace of their coprocessors, do the same
inside an operation (spec/40_queue.md R152): they follow settled states that are equal but for the depths, and each
primitive keeps that. -/

namespace Sys2Proof.Machine

/-- The state with other FIFO depths. -/
def State.withDepths (u : State) (cq rq : Nat) : State :=
  { u with par := { u.par with cqDepth := cq, rqDepth := rq } }

/-- Two states inside the same operation on machines of other depths, with the SDR table as built (R37). -/
structure State.Alike (cq rq : Nat) (s s' : State) : Prop where
  left : s.Running true
  right : s'.Running true
  settle : s'.settle = s.settle.withDepths cq rq
  table : s.sdrTab = sdrTable

/-- Two runs that go on alike, end alike, or stop for the same reason. -/
def Run.Alike {α : Type} (cq rq : Nat) (r r' : Run α) : Prop :=
  match r, r' with
  | .ok a s, .ok b s' => a = b ∧ s.Alike cq rq s'
  | .done t, .done t' => t'.settle = t.settle.withDepths cq rq
  | .fault f, .fault g => f = g
  | _, _ => False

section alike
variable {cq rq : Nat} {α β : Type} {s s' : State}

theorem Run.Alike.bind {r r' : Run α} {k k' : α → State → Run β} (h : r.Alike cq rq r')
    (hk : ∀ a s s', s.Alike cq rq s' → (k a s).Alike cq rq (k' a s')) : (r.bind k).Alike cq rq (r'.bind k') := by
  cases r <;> cases r' <;> simp only [Run.Alike] at h
  · obtain ⟨rfl, h⟩ := h
    exact hk _ _ _ h
  · exact h
  · exact h

theorem Run.Alike.goes {r r' : Run α} {a : α} {u : State} (h : r.Goes true a u) (h' : r'.Goes true a (u.withDepths cq rq))
    (ht : u.sdrTab = sdrTable) : r.Alike cq rq r' := by
  cases r with
  | ok b s =>
    obtain ⟨v, hs, rfl, rfl⟩ := h
    cases r' with
    | ok b' s' =>
      obtain ⟨v', hs', rfl, rfl⟩ := h'
      exact ⟨rfl, hs.running, hs'.running, by rw [hs.settle, hs'.settle], hs.sdrTab.trans ht⟩
    | done t => exact h'.2.1.elim
    | stuck t => exact nomatch h'
    | fault f => exact h'.elim
  | done t => exact h.2.1.elim
  | stuck t => exact nomatch h
  | fault f => exact h.elim

theorem State.Alike.followsL (h : s.Alike cq rq s') : s.Follows true s.settle := ⟨h.left, rfl⟩
theorem State.Alike.followsR (h : s.Alike cq rq s') : s'.Follows true (s.settle.withDepths cq rq) := ⟨h.right, h.settle⟩

/-- Every field that is no part of the queue, of the pace or of the depths is the same on both. -/
theorem State.Alike.same (h : s.Alike cq rq s') {γ : Type} (g : State → γ) (hg : ∀ x : State, g x.settle = g x)
    (hd : ∀ x : State, g (x.withDepths cq rq) = g x) : g s' = g s := by
  rw [← hg s', h.settle, hd, hg]

/-- A change of both that is the same change of the settled states keeps them alike. -/
theorem State.Alike.change (h : s.Alike cq rq s') (f : State → State) (hf : ∀ x : State, (f x).settle = f x.settle)
    (hd : ∀ x : State, f (x.withDepths cq rq) = (f x).withDepths cq rq)
    (hr : ∀ x : State, x.Running true → (f x).Running true) (ht : ∀ x : State, (f x).sdrTab = x.sdrTab) :
    (f s).Alike cq rq (f s') :=
  ⟨hr s h.left, hr s' h.right, by rw [hf, hf, h.settle, hd], (ht s).trans h.table⟩

/-- `put` of a command the loaded program does not run (R133). -/
theorem put_wrong {c : CpCmd} (hc : c.program ≠ s.cpProg) : put c s = .fault .wrongProgram := if_neg hc

theorem emit_alike {c : CpCmd} (hw : c.width = none) (h : s.Alike cq rq s') : (emit c s).Alike cq rq (emit c s') := by
  by_cases hc : c.program = s.settle.mode
  · exact Run.Alike.goes (emit_goes h.followsL hc hw) (emit_goes h.followsR hc hw) h.table
  · have e1 := put_wrong (c := c) fun e => hc (e.trans h.followsL.cpProg)
    have e2 := put_wrong (c := c) fun e => hc (e.trans h.followsR.cpProg)
    rw [emit, emit, e1, e2]
    rfl

theorem xfer_alike {c : CpCmd} {w : Nat} (hw : c.width = some w) (h : s.Alike cq rq s') :
    (xfer c s).Alike cq rq (xfer c s') := by
  by_cases hc : c.program = s.settle.mode
  · exact Run.Alike.goes (xfer_goes h.followsL hc hw) (xfer_goes h.followsR hc hw) h.table
  · have hn : ∀ x : State, x.Running true → (needWidth c x).Running true ∧ (needWidth c x).cpProg = x.cpProg := by
      intro x hx
      unfold needWidth
      rw [hw]
      by_cases e : x.sampleW = some w
      · simp only [if_pos e]
        exact ⟨hx, trivial⟩
      · simp only [if_neg e]
        exact ⟨⟨hx.prog, hx.rspq, hx.live, hx.link, hx.pending⟩, rfl⟩
    have e1 := put_wrong (c := c) fun e => hc ((e.trans (hn s h.left).2).trans h.followsL.cpProg)
    have e2 := put_wrong (c := c) fun e => hc ((e.trans (hn s' h.right).2).trans h.followsR.cpProg)
    rw [xfer, xfer, e1, e2]
    rfl

theorem drain_alike (h : s.Alike cq rq s') : (drain s).Alike cq rq (drain s') :=
  Run.Alike.goes (drain_goes h.followsL) (drain_goes h.followsR) h.table

theorem switchProgram_alike (p : Mode) (h : s.Alike cq rq s') : (switchProgram p s).Alike cq rq (switchProgram p s') :=
  Run.Alike.goes (switchProgram_goes p h.followsL) (switchProgram_goes p h.followsR) h.table

theorem finish_alike (st : Status) (n : Nat) (h : s.Alike cq rq s') :
    (finish st n s : Run α).Alike cq rq (finish st n s') := by
  unfold finish Run.Alike
  exact congrArg (fun x : State => x.finished st n) h.settle

theorem txbByte_alike (i : Nat) (h : s.Alike cq rq s') : (txbByte i s).Alike cq rq (txbByte i s') := by
  have e1 : s'.par.txbufBytes = s.par.txbufBytes := h.same (fun x => x.par.txbufBytes) (fun _ => rfl) fun _ => rfl
  have e2 : s'.txb = s.txb := h.same (fun x => x.txb) (fun _ => rfl) fun _ => rfl
  unfold txbByte
  rw [e1, e2]
  split
  · exact ⟨rfl, h⟩
  · rfl

theorem rxbByte_alike (i : Nat) (b : Byte) (h : s.Alike cq rq s') : (rxbByte i b s).Alike cq rq (rxbByte i b s') := by
  have e1 : s'.par.rxbufBytes = s.par.rxbufBytes := h.same (fun x => x.par.rxbufBytes) (fun _ => rfl) fun _ => rfl
  unfold rxbByte
  rw [e1]
  split
  · exact ⟨rfl, h.change (fun x => { x with rxb := x.rxb.write i b, rxbValid := i + 1 }) (fun _ => rfl) (fun _ => rfl)
      (fun x hx => ⟨hx.prog, hx.rspq, hx.live, hx.link, hx.pending⟩) fun _ => rfl⟩
  · rfl

/-- The same choice on both. -/
theorem Run.Alike.ite {c c' : Prop} [Decidable c] [Decidable c'] {r r' q q' : Run α} (hc : c' ↔ c)
    (h : r.Alike cq rq r') (g : q.Alike cq rq q') : (if c then r else q).Alike cq rq (if c' then r' else q') := by
  by_cases e : c
  · rw [if_pos e, if_pos (hc.2 e)]
    exact h
  · rw [if_neg e, if_neg fun x => e (hc.1 x)]
    exact g

/-! ### The phases (spec/40_queue.md R171 to R178, spec/43_ddr.md) -/

theorem sdrStopFinish_alike (st : Status) (n : Nat) (h : s.Alike cq rq s') :
    (sdrStopFinish st n s : Run α).Alike cq rq (sdrStopFinish st n s') :=
  (emit_alike rfl h).bind fun _ _ _ h => (drain_alike h).bind fun _ _ _ h => finish_alike st n h

theorem arbHeader_alike (h : s.Alike cq rq s') : (arbHeader s).Alike cq rq (arbHeader s') :=
  (xfer_alike rfl h).bind fun a _ _ h => by
    cases arbWon a
    · exact (xfer_alike rfl h).bind fun b _ _ h => ⟨rfl, h.change
        (fun x => { x with arbpB := arbByte a b, arbpV := true }) (fun _ => rfl) (fun _ => rfl)
        (fun x hx => ⟨hx.prog, hx.rspq, hx.live, hx.link, hx.pending⟩) fun _ => rfl⟩
    · exact (xfer_alike rfl h).bind fun _ _ _ h => ⟨rfl, h⟩

theorem sdrPrologue_alike (h : s.Alike cq rq s') : (sdrPrologue s).Alike cq rq (sdrPrologue s') :=
  (emit_alike rfl h).bind fun _ _ _ h => (arbHeader_alike h).bind fun a _ _ h => by
    cases a
    · exact (drain_alike h).bind fun _ _ _ h => finish_alike _ _ h
    · exact ⟨rfl, h⟩
    · exact sdrStopFinish_alike _ _ h

theorem restartAddr_alike (a : BusAddr) (rnw : Bool) (h : s.Alike cq rq s') :
    (restartAddr a rnw s).Alike cq rq (restartAddr a rnw s') :=
  (emit_alike rfl h).bind fun _ _ _ h => Run.Alike.bind
    (Run.Alike.bind (xfer_alike rfl h) fun _ _ _ h => ⟨rfl, h⟩) fun ack _ _ h => by
      cases ack
      · exact sdrStopFinish_alike _ _ h
      · exact ⟨rfl, h⟩

theorem sdrWriteByte_alike (b : Byte) (h : s.Alike cq rq s') : (sdrWriteByte b s).Alike cq rq (sdrWriteByte b s') := by
  have hb := b.isLt
  have key : ∀ (k : Nat) (hk : k < 512) (x x' : State), x.Alike cq rq x' →
      (emit (x.sdrTab[k]) x).Alike cq rq (emit (x'.sdrTab[k]) x') := by
    intro k hk x x' g
    have e : x'.sdrTab = x.sdrTab := g.same (fun x => x.sdrTab) (fun _ => rfl) fun _ => rfl
    simp only [e, g.table, sdrTable_get k hk]
    refine emit_alike ?_ g
    unfold sdrTabEntry
    split <;> rfl
  exact (key _ (by omega) _ _ h).bind fun _ _ _ h => key _ (by omega) _ _ h

theorem sdrWriteBytes_alike (n i : Nat) (h : s.Alike cq rq s') :
    (sdrWriteBytes n i s).Alike cq rq (sdrWriteBytes n i s') := by
  induction n generalizing i s s' with
  | zero => exact ⟨rfl, h⟩
  | succ n ih =>
    exact (txbByte_alike i h).bind fun b _ _ h => (sdrWriteByte_alike b h).bind fun _ _ _ h => ih (i + 1) h

theorem sdrReadBytes_alike (left base n : Nat) (h : s.Alike cq rq s') :
    (sdrReadBytes left base n s).Alike cq rq (sdrReadBytes left base n s') := by
  induction left generalizing n s s' with
  | zero => exact ⟨rfl, h⟩
  | succ k ih =>
    exact (xfer_alike rfl h).bind fun r _ _ h => (rxbByte_alike _ _ h).bind fun _ _ _ h =>
      Run.Alike.ite Iff.rfl ⟨rfl, h⟩ (ih (n + 1) h)

theorem State.Alike.dropSda (h : s.Alike cq rq s') : (dropSda s).Alike cq rq (dropSda s') :=
  h.change Machine.dropSda (fun _ => rfl) (fun _ => rfl) (fun _ hx => ⟨hx.prog, hx.rspq, hx.live, hx.link, hx.pending⟩)
    fun _ => rfl

theorem State.Alike.afterEntry (h : s.Alike cq rq s') : (afterEntryPending s).Alike cq rq (afterEntryPending s') := by
  have e : s'.arbpV = s.arbpV := h.same (fun x => x.arbpV) (fun _ => rfl) fun _ => rfl
  unfold afterEntryPending
  rw [e]
  cases s.arbpV
  · exact h.dropSda
  · exact h

theorem State.Alike.mode (h : s.Alike cq rq s') : s'.mode = s.mode := h.same (fun x => x.mode) (fun _ => rfl) fun _ => rfl

theorem State.Alike.pending (h : s.Alike cq rq s') : entryPending s' = entryPending s :=
  h.same entryPending (fun _ => rfl) fun _ => rfl

theorem sdrEntry_alike (ok : Bool) {body body' : State → Run Unit} (h : s.Alike cq rq s')
    (hb : ∀ s s', s.Alike cq rq s' → (body s).Alike cq rq (body' s')) :
    (sdrEntry ok body s).Alike cq rq (sdrEntry ok body' s') := by
  unfold sdrEntry
  rw [h.mode, h.pending]
  exact Run.Alike.ite Iff.rfl (finish_alike _ _ h) (Run.Alike.ite Iff.rfl (finish_alike _ _ h.afterEntry)
    (Run.Alike.ite Iff.rfl (finish_alike _ _ h.afterEntry) (hb _ _ h.afterEntry)))

theorem ddrEntry_alike (ok : Bool) {body body' : State → Run Unit} (h : s.Alike cq rq s')
    (hb : ∀ s s', s.Alike cq rq s' → (body s).Alike cq rq (body' s')) :
    (ddrEntry ok body s).Alike cq rq (ddrEntry ok body' s') := by
  unfold ddrEntry
  rw [h.mode, h.pending]
  exact Run.Alike.ite Iff.rfl
    (Run.Alike.ite Iff.rfl (finish_alike _ _ h.afterEntry)
      (Run.Alike.ite Iff.rfl (finish_alike _ _ h.afterEntry) (hb _ _ h.afterEntry)))
    (Run.Alike.ite Iff.rfl (finish_alike _ _ h) (hb _ _ h))

theorem enterDdr_alike (h : s.Alike cq rq s') : (enterDdr s).Alike cq rq (enterDdr s') := by
  unfold enterDdr
  rw [h.mode]
  exact Run.Alike.ite Iff.rfl ((sdrPrologue_alike h).bind fun _ _ _ h => (sdrWriteByte_alike _ h).bind
    fun _ _ _ h => switchProgram_alike _ h) ⟨rfl, h⟩

/-- The same new CRC on both. -/
theorem State.Alike.setCrc (c : BitVec 5) (h : s.Alike cq rq s') : State.Alike cq rq { s with crc := c } { s' with crc := c } :=
  h.change (fun x => { x with crc := c }) (fun _ => rfl) (fun _ => rfl)
    (fun _ hx => ⟨hx.prog, hx.rspq, hx.live, hx.link, hx.pending⟩) fun _ => rfl

theorem State.Alike.crc (h : s.Alike cq rq s') : s'.crc = s.crc := h.same (fun x => x.crc) (fun _ => rfl) fun _ => rfl

theorem ddrCommand_alike (a : BusAddr) (c : Byte) (rnw : Bool) (h : s.Alike cq rq s') :
    (ddrCommand a c rnw s).Alike cq rq (ddrCommand a c rnw s') :=
  emit_alike rfl (h.setCrc _)

theorem ddrFinalize_alike (fwr : Bool) (st : Status) (n : Nat) (h : s.Alike cq rq s') :
    (ddrFinalize fwr st n s).Alike cq rq (ddrFinalize fwr st n s') :=
  Run.Alike.ite Iff.rfl
    ((emit_alike rfl h).bind fun _ _ _ h => (drain_alike h).bind fun _ _ _ h => finish_alike _ _ h)
    ((emit_alike rfl h).bind fun _ _ _ h => (switchProgram_alike _ h).bind fun _ _ _ h => finish_alike _ _ h)

end alike

end Sys2Proof.Machine
end

