-- ==== Sys2Proof/Laws/PerInstr.lean ====
section
/-! SUPPORT. Facts about every operation as syntax, one lemma per constructor. -/

namespace Sys2Proof.Laws

/-- The fields of an assembled DESC0 (spec/30_encoding.md R100). -/
theorem desc0Of_fields (op : Byte) (addr : BusAddr) (cmd : Byte) (f0 f1 f2 : Bool) :
    (desc0Of op addr cmd f0 f1 f2).getLsbD 15 = false ∧ rsv1Field (desc0Of op addr cmd f0 f1 f2) = 0#5 ∧
      opField (desc0Of op addr cmd f0 f1 f2) = op := by
  refine ⟨?_, ?_, ?_⟩
  · unfold desc0Of
    simp only [BitVec.getLsbD_append]
    simp
  · unfold rsv1Field desc0Of
    ext i hi
    simp only [BitVec.getElem_extractLsb', BitVec.getLsbD_append]
    simp [show ¬ 27 + i < 8 by omega, show ¬ 27 + i - 8 < 7 by omega, show ¬ 27 + i - 8 - 7 < 1 by omega,
      show ¬ 27 + i - 8 - 7 - 1 < 8 by omega, show ¬ 27 + i - 8 - 7 - 1 - 8 < 1 by omega,
      show ¬ 27 + i - 8 - 7 - 1 - 8 - 1 < 1 by omega, show ¬ 27 + i - 8 - 7 - 1 - 8 - 1 - 1 < 1 by omega]
  · unfold opField desc0Of
    ext i hi
    simp only [BitVec.getElem_extractLsb', BitVec.getLsbD_append, Nat.zero_add]
    simp [hi, BitVec.getLsbD_eq_getElem]

/-- The encoding of an operation has its reserved bits 0 and its own opcode (R100, R105). -/
def EncodeReserved.Statement (i : Instr) : Prop :=
  (encode i).1.getLsbD 15 = false ∧ rsv1Field (encode i).1 = 0#5 ∧ opField (encode i).1 = i.opcode

theorem EncodeReserved.privateWrite (a b) : EncodeReserved.Statement (.privateWrite a b) := desc0Of_fields _ _ _ _ _ _
theorem EncodeReserved.privateRead (a b) : EncodeReserved.Statement (.privateRead a b) := desc0Of_fields _ _ _ _ _ _
theorem EncodeReserved.privateWriteRead (a b c) : EncodeReserved.Statement (.privateWriteRead a b c) := desc0Of_fields _ _ _ _ _ _
theorem EncodeReserved.cccBcastWrite (a) : EncodeReserved.Statement (.cccBcastWrite a) := desc0Of_fields _ _ _ _ _ _
theorem EncodeReserved.cccDirectWrite (a b c) : EncodeReserved.Statement (.cccDirectWrite a b c) := desc0Of_fields _ _ _ _ _ _
theorem EncodeReserved.cccDirectRead (a b c) : EncodeReserved.Statement (.cccDirectRead a b c) := desc0Of_fields _ _ _ _ _ _
theorem EncodeReserved.entdaa (a) : EncodeReserved.Statement (.entdaa a) := desc0Of_fields _ _ _ _ _ _
theorem EncodeReserved.rstdaa : EncodeReserved.Statement .rstdaa := desc0Of_fields _ _ _ _ _ _
theorem EncodeReserved.checkAck (a) : EncodeReserved.Statement (.checkAck a) := desc0Of_fields _ _ _ _ _ _
theorem EncodeReserved.arbHeaderOnly : EncodeReserved.Statement .arbHeaderOnly := desc0Of_fields _ _ _ _ _ _
theorem EncodeReserved.poll (a) : EncodeReserved.Statement (.poll a) := desc0Of_fields _ _ _ _ _ _
theorem EncodeReserved.ddrWrite (a b c d) : EncodeReserved.Statement (.ddrWrite a b c d) := desc0Of_fields _ _ _ _ _ _
theorem EncodeReserved.ddrRead (a b c d) : EncodeReserved.Statement (.ddrRead a b c d) := desc0Of_fields _ _ _ _ _ _
theorem EncodeReserved.setDdrConfig (a b c) : EncodeReserved.Statement (.setDdrConfig a b c) := desc0Of_fields _ _ _ _ _ _
theorem EncodeReserved.setClock (a) : EncodeReserved.Statement (.setClock a) := desc0Of_fields _ _ _ _ _ _
theorem EncodeReserved.setDrive (a) : EncodeReserved.Statement (.setDrive a) := desc0Of_fields _ _ _ _ _ _
theorem EncodeReserved.targetReset : EncodeReserved.Statement .targetReset := desc0Of_fields _ _ _ _ _ _

end Sys2Proof.Laws
end

