-- ==== Sys2Proof/Laws/Summary.lean ====
section
/-! SUPPORT. One summary of everything an operation can do, whatever the bus answers and whether or not the coprocessor
is live: status and count, what it drove, what it stored, and every register it left alone. The whole-machine rules are
read off it. -/

namespace Sys2Proof.Machine

/-- MODE after an operation (spec/43_ddr.md R331, spec/44_config.md R353). -/
def modeRule (i : Instr) (m m' : Mode) (st : Status) : Prop :=
  match i with
  | .ddrWrite _ _ fwr _ => if st = .paramOutOfRange then m' = m else (m' = .ddr ↔ fwr = true ∧ st = .ok)
  | .ddrRead _ _ fwr _ => if st = .paramOutOfRange then m' = m else (m' = .ddr ↔ fwr = true ∧ st = .ok)
  | .targetReset => m' = .sdr
  | _ => m' = m

/-- Where a driven bus is left (spec/60_exceptions.md R403, R426). -/
def busRule (m' : Mode) (st : Status) : BusPhase :=
  if m' = .ddr then .hdrDdr else if st = .ibi then .sdrFrame else .idle

/-- Every sampling command of the list has a width a register can hold. -/
def saneWidths (cs : List CpCmd) : Prop := ∀ c ∈ cs, ∀ w, c.width = some w → 1 ≤ w ∧ w ≤ 32

/-- The operation `i` took the settled state `u` to `v`, ending with `st` and `n` after driving `cs` and storing `bs`. -/
structure Ended (i : Instr) (u v : State) (st : Status) (n : Nat) (cs : List CpCmd) (bs : List Byte) : Prop where
  status : st ∈ i.statuses
  count : n < 65536
  zero : st = .paramOutOfRange ∨ st = .ibi → n = 0
  res0 : v.res0 = resWord st n
  res0Valid : v.res0Valid = true
  busy : v.busy = false
  trace : v.trace = u.trace ++ entries u.answer 0 cs
  wire : v.wire = u.wire ++ cs
  bus : v.bus = busThrough u.bus cs
  answer : ∀ k, v.answer k = u.answer (sampledIn cs + k)
  ddrCfg : (∀ a e c, i ≠ .setDdrConfig a e c) → v.ddrCfg = u.ddrCfg
  clkKhz : (∀ k, i ≠ .setClock k) → v.clkKhz = u.clkKhz
  clkLegal : v.clkKhz = u.clkKhz ∨ (clkMinKhz ≤ v.clkKhz.toNat ∧ v.clkKhz.toNat ≤ clkMaxKhz)
  driveMa : (∀ k, i ≠ .setDrive k) → v.driveMa = u.driveMa
  driveIsLegal : v.driveMa = u.driveMa ∨ driveLegal v.driveMa.toNat = true
  sdrTab : v.sdrTab = u.sdrTab
  txb : v.txb = u.txb
  desc0 : v.desc0 = u.desc0
  desc1 : v.desc1 = u.desc1
  par : v.par = u.par
  host : v.host = u.host
  prog : v.cpProg = v.mode
  width : ∀ w, v.sampleW = some w → u.sampleW = some w ∨ (1 ≤ w ∧ w ≤ 32)
  rxb : v.rxb = u.rxb.writeList 0 bs
  valid : v.rxbValid = if bs = [] then u.rxbValid else bs.length
  bytes : bs.length = i.definedBytes n
  fits : bs.length ≤ u.par.rxbufBytes
  mode : modeRule i u.mode v.mode st
  arbSet : u.arbpV = false → v.arbpV = true → i.opensHeader = true ∧ st = .ibi ∧ n = 0
  arbClear : u.arbpV = true → v.arbpV = false → i.isPoll = true ∨ i = .targetReset
  arbMode : v.arbpV = true → v.mode = .sdr
  closed : cs ≠ [] → v.bus = busRule v.mode st

/-- The operation took `u` to `v` in one of its ways. -/
def Ends (i : Instr) (u v : State) : Prop := ∃ st n cs bs, Ended i u v st n cs bs

section widths

theorem saneWidths_nil : saneWidths [] := by simp [saneWidths]

theorem saneWidths_append {cs ds : List CpCmd} (h : saneWidths cs) (h' : saneWidths ds) : saneWidths (cs ++ ds) :=
  fun c hc => (List.mem_append.1 hc).elim (h c) (h' c)

theorem saneWidths_bytes (m : Memory) (i n : Nat) : saneWidths (bytesCmds m i n) := by
  intro c hc w hw
  simp only [bytesCmds, List.mem_flatMap, byteCmds, List.mem_cons, List.not_mem_nil, or_false] at hc
  obtain ⟨k, -, rfl | rfl⟩ := hc <;> cases hw

theorem saneWidths_read (n max : Nat) : saneWidths (readCmds n max) := by
  intro c hc w hw
  simp only [readCmds, List.mem_map] at hc
  obtain ⟨k, -, rfl⟩ := hc
  cases hw
  omega

theorem saneWidths_idFrames (b : Bool) (n : Nat) : saneWidths (List.replicate n (idFrame b)) := by
  intro c hc w hw
  rw [List.eq_of_mem_replicate hc, idFrame_width] at hw
  cases hw
  cases b <;> simp

theorem saneWidths_ddrWords (ack et : Bool) (m : Memory) (i n : Nat) : saneWidths (ddrWordsCmds ack et m i n) := by
  intro c hc w hw
  simp only [ddrWordsCmds, List.mem_flatMap, ddrWordCmds, List.mem_cons, List.not_mem_nil, or_false] at hc
  obtain ⟨k, -, rfl | rfl⟩ := hc
  · split at hw <;> cases hw
    omega
  · cases hw

theorem saneWidths_rx (n m : Nat) : saneWidths (rxCmdsFrom n m) := by
  intro c hc w hw
  simp only [rxCmdsFrom, List.mem_flatMap] at hc
  obtain ⟨k, -, hc⟩ := hc
  split at hc <;> simp only [List.mem_cons, List.not_mem_nil, or_false] at hc <;> obtain rfl | rfl := hc <;>
    cases hw <;> omega

/-- A list of commands whose widths can be seen. -/
theorem saneWidths_of {cs : List CpCmd} (h : cs.all fun c => match c.width with
    | none => true
    | some w => decide (1 ≤ w ∧ w ≤ 32)) : saneWidths cs := by
  intro c hc w hw
  have := List.all_eq_true.1 h c hc
  rw [hw] at this
  exact of_decide_eq_true this

theorem widthThrough_sane {cs : List CpCmd} (h : saneWidths cs) (w0 : Option Nat) (w : Nat)
    (hw : widthThrough w0 cs = some w) : w0 = some w ∨ (1 ≤ w ∧ w ≤ 32) := by
  induction cs generalizing w0 with
  | nil => exact .inl hw
  | cons c cs ih =>
    have ht : saneWidths cs := fun d hd => h d (List.mem_cons_of_mem _ hd)
    rw [widthThrough, List.foldl_cons] at hw
    rcases ih ht _ hw with e | e
    · cases hc : c.width with
      | none => rw [hc] at e; exact .inl e
      | some x =>
        rw [hc] at e
        cases e
        exact .inr (h c (by simp) _ hc)
    · exact .inr e

end widths

section shapes
variable {i : Instr} {u base : State} {cs : List CpCmd} {st : Status} {n : Nat} {bs : List Byte}

/-- The pending byte after an operation (spec/10_state.md R32). -/
def arbRule (i : Instr) (v v' : Bool) (st : Status) (n : Nat) : Prop :=
  v' = v ∨ (v' = true ∧ i.opensHeader = true ∧ st = .ibi ∧ n = 0) ∨ (v' = false ∧ i.isPoll = true)

/-- An end in SDR mode after driving `cs`, whose last command says where the bus is left. -/
theorem ended_sdr {av : Bool} {ab : Byte} (hb : base = u ∨ base = dropSda u) (hm : u.mode = .sdr) (hp : u.cpProg = u.mode)
    (hst : st ∈ i.statuses) (hn : n < 65536) (hz : st = .paramOutOfRange ∨ st = .ibi → n = 0) (hw : saneWidths cs) (hbs : bs.length = i.definedBytes n)
    (hf : bs.length ≤ u.par.rxbufBytes) (hmr : modeRule i .sdr .sdr st) (ha : arbRule i u.arbpV av st n)
    (hc : ∀ b, cs ≠ [] → busThrough b cs = if st = .ibi then .sdrFrame else .idle) :
    Ended i u (State.finished { base.play cs with
      rxb := u.rxb.writeList 0 bs, rxbValid := if bs = [] then u.rxbValid else bs.length, arbpV := av, arbpB := ab } st n)
      st n cs bs := by
  have field : ∀ {α : Type} (g : State → α), (∀ x : State, g (dropSda x) = g x) → g base = g u := by
    intro α g h
    rcases hb with rfl | rfl
    · rfl
    · exact h u
  have hans : base.answer = u.answer := by
    rcases hb with rfl | rfl <;> rfl
  have hmode : (base.play cs).mode = .sdr := (play_mode.trans (field State.mode fun _ => rfl)).trans hm
  refine Ended.mk hst hn hz rfl rfl rfl ?_ ?_ ?_ ?_ ?_ ?_ ?_ ?_ ?_ ?_ ?_ ?_ ?_ ?_
     ?_ ?_ ?_ ?_ ?_ ?_ ?_ ?_ ?_ ?_ ?_ ?_
  · exact (play_trace base cs).trans (by rw [field State.trace fun _ => rfl, hans])
  · exact (play_wire base cs).trans (by rw [field State.wire fun _ => rfl])
  · exact (play_bus base cs).trans (by rw [field State.bus fun _ => rfl])
  · intro k
    exact (play_answer base cs k).trans (by rw [hans])
  · exact fun _ => play_ddrCfg.trans (field State.ddrCfg fun _ => rfl)
  · exact fun _ => play_clkKhz.trans (field State.clkKhz fun _ => rfl)
  · exact .inl (play_clkKhz.trans (field State.clkKhz fun _ => rfl))
  · exact fun _ => play_driveMa.trans (field State.driveMa fun _ => rfl)
  · exact .inl (play_driveMa.trans (field State.driveMa fun _ => rfl))
  · exact play_sdrTab.trans (field State.sdrTab fun _ => rfl)
  · exact play_txb.trans (field State.txb fun _ => rfl)
  · exact play_desc0.trans (field State.desc0 fun _ => rfl)
  · exact play_desc1.trans (field State.desc1 fun _ => rfl)
  · exact play_par.trans (field State.par fun _ => rfl)
  · exact play_host.trans (field State.host fun _ => rfl)
  · show (base.play cs).cpProg = (base.play cs).mode
    rw [hmode, play_cpProg, field State.cpProg fun _ => rfl, hp, hm]
  · intro w hw'
    have : (base.play cs).sampleW = some w := hw'
    rw [play_sampleW, field State.sampleW fun _ => rfl] at this
    exact widthThrough_sane hw _ _ this
  · rfl
  · rfl
  · exact hbs
  · exact hf
  · show modeRule i u.mode (base.play cs).mode st
    rw [hm, hmode]
    exact hmr
  · intro h1 h2
    rcases ha with e | e | e
    · exact absurd (h2.symm.trans (e.trans h1)) (by decide)
    · exact e.2
    · exact absurd (h2.symm.trans e.1) (by decide)
  · intro h1 h2
    rcases ha with e | e | e
    · exact absurd (h1.symm.trans (e.symm.trans h2)) (by decide)
    · exact absurd (e.1.symm.trans h2) (by decide)
    · exact .inl e.2
  · exact fun _ => hmode
  · intro h
    show (base.play cs).bus = busRule (base.play cs).mode st
    rw [hmode, play_bus, hc _ h]
    simp [busRule]

/-- An end of the entry check: nothing is driven or stored. -/
theorem ended_entry (hb : base = u ∨ base = dropSda u) (hp : u.cpProg = u.mode)
    (hst : st ∈ i.statuses) (h0 : i.definedBytes 0 = 0) (hmr : modeRule i u.mode u.mode st)
    (ha : u.arbpV = true → u.mode = .sdr) : Ended i u (base.finished st 0) st 0 [] [] := by
  have field : ∀ {α : Type} (g : State → α), (∀ x : State, g (dropSda x) = g x) → g base = g u := by
    intro α g h
    rcases hb with rfl | rfl
    · rfl
    · exact h u
  have hans : base.answer = u.answer := by
    rcases hb with rfl | rfl <;> rfl
  refine Ended.mk hst (by omega) (fun _ => rfl) rfl rfl rfl ?_ ?_ ?_ ?_ ?_ ?_ ?_ ?_ ?_ ?_ ?_ ?_
    ?_ ?_ ?_ ?_ ?_ ?_ ?_ ?_ ?_ ?_ ?_ ?_ ?_ ?_
  · exact (field State.trace fun _ => rfl).trans (by simp [entries])
  · exact (field State.wire fun _ => rfl).trans (by simp)
  · exact field State.bus fun _ => rfl
  · intro k
    rw [sampledIn_nil, Nat.zero_add, ← hans]
    rfl
  · exact fun _ => field State.ddrCfg fun _ => rfl
  · exact fun _ => field State.clkKhz fun _ => rfl
  · exact .inl (field State.clkKhz fun _ => rfl)
  · exact fun _ => field State.driveMa fun _ => rfl
  · exact .inl (field State.driveMa fun _ => rfl)
  · exact field State.sdrTab fun _ => rfl
  · exact field State.txb fun _ => rfl
  · exact field State.desc0 fun _ => rfl
  · exact field State.desc1 fun _ => rfl
  · exact field State.par fun _ => rfl
  · exact field State.host fun _ => rfl
  · exact ((field State.cpProg fun _ => rfl).trans hp).trans (field State.mode fun _ => rfl).symm
  · exact fun w hw => .inl ((field State.sampleW fun _ => rfl).symm.trans hw)
  · exact field State.rxb fun _ => rfl
  · exact field State.rxbValid fun _ => rfl
  · exact h0.symm
  · exact Nat.zero_le _
  · show modeRule i u.mode base.mode st
    rw [field State.mode fun _ => rfl]
    exact hmr
  · exact fun h1 h2 => absurd (h2.symm.trans ((field State.arbpV fun _ => rfl).trans h1)) (by decide)
  · exact fun h1 h2 => absurd (h1.symm.trans ((field State.arbpV fun _ => rfl).symm.trans h2)) (by decide)
  · intro h
    exact (field State.mode fun _ => rfl).trans (ha ((field State.arbpV fun _ => rfl).symm.trans h))
  · exact fun h => absurd rfl h

/-- The end of a DDR message `ms`. -/
theorem ended_ddr {ms : List CpCmd} {c : BitVec 5} {fwr : Bool} (hb : base = u ∨ base = dropSda u)
    (hp : u.cpProg = u.mode) (hst : st ∈ i.statuses) (hn : n < 65536) (hpar : st ≠ .paramOutOfRange) (hw : saneWidths ms)
    (hbs : bs.length = i.definedBytes n) (hf : bs.length ≤ u.par.rxbufBytes)
    (hmr : modeRule i u.mode (closeMode fwr st) st) (ha : u.arbpV = false)
    (hst' : st ≠ .ibi) :
    ∃ cs, Ended i u (State.closed { base.entered.play ms with
      crc := c, rxb := u.rxb.writeList 0 bs, rxbValid := if bs = [] then u.rxbValid else bs.length } fwr st n)
      st n cs bs := by
  have field : ∀ {α : Type} (g : State → α), (∀ x : State, g (dropSda x) = g x) → g base = g u := by
    intro α g h
    rcases hb with rfl | rfl
    · rfl
    · exact h u
  have hans : base.answer = u.answer := by
    rcases hb with rfl | rfl <;> rfl
  obtain ⟨g1, g2, g3, g4, g5⟩ := entered_play base (ms ++ [closeCmd fwr st])
  obtain ⟨f1, f2, -, -⟩ := entered_frame base (ms ++ [closeCmd fwr st])
  have hv : State.closed { base.entered.play ms with
        crc := c, rxb := u.rxb.writeList 0 bs, rxbValid := if bs = [] then u.rxbValid else bs.length } fwr st n =
      State.finished { base.entered.play (ms ++ [closeCmd fwr st]) with
        crc := c, rxb := u.rxb.writeList 0 bs, rxbValid := if bs = [] then u.rxbValid else bs.length
        mode := closeMode fwr st, cpProg := closeMode fwr st
        sampleW := if closeMode fwr st = .sdr then none else (base.entered.play (ms ++ [closeCmd fwr st])).sampleW }
        st n := by
    have := closed_eq (ms := ms) (c := c) (m := u.rxb.writeList 0 bs)
      (k := if bs = [] then u.rxbValid else bs.length) (fwr := fwr) (st := st) (n := n) (u := base)
      (by rw [field State.cpProg fun _ => rfl, hp, field State.mode fun _ => rfl])
    exact this
  rw [hv]
  refine ⟨base.enterCmds ++ (ms ++ [closeCmd fwr st]), Ended.mk hst hn (fun h => h.elim (fun h => absurd h hpar) fun h => absurd h hst') rfl rfl rfl ?_ ?_ ?_ ?_ ?_ ?_ ?_ ?_ ?_ ?_ ?_ ?_
    ?_ ?_ ?_ ?_ ?_ ?_ ?_ ?_ ?_ ?_ ?_ ?_ ?_ ?_⟩
  · exact g1.trans (by rw [field State.trace fun _ => rfl, hans])
  · exact g2.trans (by rw [field State.wire fun _ => rfl])
  · exact g3.trans (by rw [field State.bus fun _ => rfl])
  · intro k
    exact (g4 k).trans (by rw [hans])
  · exact fun _ => f1.ddrCfg.trans (field State.ddrCfg fun _ => rfl)
  · exact fun _ => f1.clkKhz.trans (field State.clkKhz fun _ => rfl)
  · exact .inl (f1.clkKhz.trans (field State.clkKhz fun _ => rfl))
  · exact fun _ => f1.driveMa.trans (field State.driveMa fun _ => rfl)
  · exact .inl (f1.driveMa.trans (field State.driveMa fun _ => rfl))
  · exact f1.sdrTab.trans (field State.sdrTab fun _ => rfl)
  · exact f1.txb.trans (field State.txb fun _ => rfl)
  · exact f1.desc0.trans (field State.desc0 fun _ => rfl)
  · exact f1.desc1.trans (field State.desc1 fun _ => rfl)
  · exact f1.par.trans (field State.par fun _ => rfl)
  · exact f1.host.trans (field State.host fun _ => rfl)
  · rfl
  · intro w hw'
    have h1 : (if closeMode fwr st = .sdr then none else (base.entered.play (ms ++ [closeCmd fwr st])).sampleW) = some w :=
      hw'
    split at h1
    · cases h1
    · rw [g5] at h1
      have hs : saneWidths (ms ++ [closeCmd fwr st]) := by
        refine saneWidths_append hw ?_
        unfold closeCmd
        split <;> exact saneWidths_of rfl
      rcases widthThrough_sane hs _ _ h1 with e | e
      · left
        rw [State.enterWidth] at e
        split at e
        · cases e
        · exact (field State.sampleW fun _ => rfl).symm.trans e
      · exact .inr e
  · rfl
  · rfl
  · exact hbs
  · exact hf
  · exact hmr
  · intro h1 h2
    exact absurd (h2.symm.trans ((f2.v.trans (field State.arbpV fun _ => rfl)).trans h1)) (by decide)
  · exact fun h1 => absurd (ha.symm.trans h1) (by decide)
  · intro h
    exact absurd (h.symm.trans ((f2.v.trans (field State.arbpV fun _ => rfl)).trans ha)) (by decide)
  · intro _
    refine g3.trans ?_
    show _ = busRule (closeMode fwr st) st
    rw [← List.append_assoc, busThrough_append, busRule, if_neg hst']
    unfold closeCmd closeMode
    split <;> rfl

end shapes

/-! ## Every operation -/

section all
variable {L : Bool} {s u v : State} {i : Instr}

/-- The meaning of an operation is the outcome of its run. -/
theorem exec_run (i : Instr) (s : State) : exec i s = (runOf i s).outcome := by cases i <;> rfl

/-- `finish` with nothing driven, from a ready state changed by `f`. -/
theorem finish_post {P : State → Prop} (st : Status) (n : Nat) (h : s.Follows L u) (hq : s.Quiet)
    (hv : P (u.finished st n)) : (finish st n s : Run Unit).Post L (fun _ _ => False) P :=
  (finish_ends st n h hq).mono (fun _ _ h => h) fun v e => by rw [e]; exact hv

theorem State.Quiet.dropSda (h : s.Quiet) : (dropSda s).Quiet := ⟨h.cmdq, h.rspq, h.atStart⟩

/-- An SDR-class operation whose body does what its summary says. -/
theorem sdrEntry_post (hr : s.Ready) (hl : L = true → s.cpBudget = none) (ok : Bool) (body : State → Run Unit)
    (h0 : i.definedBytes 0 = 0) (hc : i.sdrClass = true) (hst : Status.ibi ∈ i.statuses ∧ Status.paramOutOfRange ∈ i.statuses)
    (hb : ok = true → s.SdrFree → (body (dropSda s)).Post L (fun _ _ => False) (Ends i s.settle)) :
    (sdrEntry ok body s).Post L (fun _ _ => False) (Ends i s.settle) := by
  have hf := hr.follows hl
  have hm : ∀ st, modeRule i s.settle.mode s.settle.mode st := by
    intro st
    cases i <;> first | rfl | simp [Instr.sdrClass] at hc
  unfold sdrEntry
  split
  · exact finish_post _ _ hf hr.quiet ⟨_, _, _, _, ended_entry (.inl rfl) hr.prog hst.2 h0 (hm _) hr.arb⟩
  · rename_i hmode
    have hmode : s.mode = .sdr := by
      cases h : s.mode with
      | sdr => rfl
      | ddr => exact absurd h hmode
    have hf' : State.Follows L (afterEntryPending s) (if s.arbpV then s.settle else dropSda s.settle) := by
      unfold afterEntryPending
      split
      · exact hf
      · exact hf.dropSda
    have hq' : (afterEntryPending s).Quiet := by
      unfold afterEntryPending
      split
      · exact hr.quiet
      · exact hr.quiet.dropSda
    have hbase : (if s.arbpV then s.settle else dropSda s.settle) = s.settle ∨
        (if s.arbpV then s.settle else dropSda s.settle) = dropSda s.settle := by
      split
      · exact .inl rfl
      · exact .inr rfl
    split
    · exact finish_post _ _ hf' hq' ⟨_, _, _, _, ended_entry hbase hr.prog hst.1 h0 (hm _) hr.arb⟩
    · rename_i hp
      have hp' : s.arbpV = false ∧ s.sda = true := by simpa [entryPending] using hp
      split
      · exact finish_post _ _ hf' hq' ⟨_, _, _, _, ended_entry hbase hr.prog hst.2 h0 (hm _) hr.arb⟩
      · rename_i hok
        have : afterEntryPending s = dropSda s := by simp [afterEntryPending, hp'.1]
        rw [this]
        exact hb (by simpa using hok) ⟨hmode, hp'.1, hp'.2⟩

/-- A DDR-class operation whose body does what its summary says. -/
theorem ddrEntry_post (hr : s.Ready) (hl : L = true → s.cpBudget = none) (ok : Bool) (body : State → Run Unit)
    (h0 : i.definedBytes 0 = 0) (hc : i.ddrClass = true) (hst : Status.ibi ∈ i.statuses ∧ Status.paramOutOfRange ∈ i.statuses)
    (hb : ok = true → (s.mode = .sdr → s.SdrFree) →
      (body (if s.mode = .sdr then dropSda s else s)).Post L (fun _ _ => False) (Ends i s.settle)) :
    (ddrEntry ok body s).Post L (fun _ _ => False) (Ends i s.settle) := by
  have hf := hr.follows hl
  have hm : ∀ st, st = .paramOutOfRange ∨ (st = .ibi ∧ s.mode = .sdr) → modeRule i s.settle.mode s.settle.mode st := by
    rintro st (rfl | ⟨rfl, h⟩) <;> cases i <;> simp [Instr.ddrClass, modeRule, State.settle] at hc ⊢ <;> simp [h]
  unfold ddrEntry
  split
  · rename_i hmode
    have hf' : State.Follows L (afterEntryPending s) (if s.arbpV then s.settle else dropSda s.settle) := by
      unfold afterEntryPending
      split
      · exact hf
      · exact hf.dropSda
    have hq' : (afterEntryPending s).Quiet := by
      unfold afterEntryPending
      split
      · exact hr.quiet
      · exact hr.quiet.dropSda
    have hbase : (if s.arbpV then s.settle else dropSda s.settle) = s.settle ∨
        (if s.arbpV then s.settle else dropSda s.settle) = dropSda s.settle := by
      split
      · exact .inl rfl
      · exact .inr rfl
    split
    · exact finish_post _ _ hf' hq'
        ⟨_, _, _, _, ended_entry hbase hr.prog hst.1 h0 (hm _ (.inr ⟨rfl, hmode⟩)) hr.arb⟩
    · rename_i hp
      have hp' : s.arbpV = false ∧ s.sda = true := by simpa [entryPending] using hp
      split
      · exact finish_post _ _ hf' hq' ⟨_, _, _, _, ended_entry hbase hr.prog hst.2 h0 (hm _ (.inl rfl)) hr.arb⟩
      · rename_i hok
        have : afterEntryPending s = dropSda s := by simp [afterEntryPending, hp'.1]
        rw [this]
        have := hb (by simpa using hok) fun _ => ⟨hmode, hp'.1, hp'.2⟩
        rwa [if_pos hmode] at this
  · rename_i hmode
    split
    · exact finish_post _ _ hf hr.quiet ⟨_, _, _, _, ended_entry (.inl rfl) hr.prog hst.2 h0 (hm _ (.inl rfl)) hr.arb⟩
    · rename_i hok
      have := hb (by simpa using hok) fun h => absurd h hmode
      rwa [if_neg hmode] at this

/-- A plain SDR end: nothing stored, the pending byte left alone. -/
theorem ends_plain {cs : List CpCmd} {st : Status} {n : Nat} (hr : s.Ready) (hf : s.SdrFree) (hc : i.opensHeader = true)
    (hst : st ∈ i.statuses) (hn : n < 65536) (h0 : i.definedBytes n = 0) (hw : saneWidths cs) (hs : st ≠ .ibi)
    (hp : st ≠ .paramOutOfRange) (hd : i.ddrClass = true → st ≠ .ok) :
    Ends i s.settle (((dropSda s.settle).play (cs ++ [.stop])).finished st n) := by
  refine ⟨st, n, cs ++ [.stop], [], ?_⟩
  have hm : modeRule i .sdr .sdr st := by
    cases i <;> first | rfl | exact absurd hc (by decide) | (simp [modeRule, hp]; intro _; exact hd rfl)
  have := ended_sdr (i := i) (u := s.settle) (base := dropSda s.settle) (cs := cs ++ [.stop]) (bs := [])
    (av := ((dropSda s.settle).play (cs ++ [.stop])).arbpV) (ab := ((dropSda s.settle).play (cs ++ [.stop])).arbpB)
    (.inr rfl) hf.mode hr.prog hst hn (fun h => h.elim (fun h => absurd h hp) fun h => absurd h hs) (saneWidths_append hw (saneWidths_of rfl)) h0.symm (Nat.zero_le _) hm
    (.inl play_arbpV) (fun b _ => by rw [busThrough_append, if_neg hs]; rfl)
  have e : (((dropSda s.settle).play (cs ++ [.stop])).finished st n) = State.finished
      { (dropSda s.settle).play (cs ++ [.stop]) with
        rxb := s.settle.rxb.writeList 0 [], rxbValid := if ([] : List Byte) = [] then s.settle.rxbValid else 0
        arbpV := ((dropSda s.settle).play (cs ++ [.stop])).arbpV
        arbpB := ((dropSda s.settle).play (cs ++ [.stop])).arbpB } st n := by
    have h1 : ((dropSda s.settle).play (cs ++ [.stop])).rxb = s.settle.rxb := play_rxb
    have h2 : ((dropSda s.settle).play (cs ++ [.stop])).rxbValid = s.settle.rxbValid := play_rxbValid
    rw [if_pos rfl, show s.settle.rxb.writeList 0 [] = s.settle.rxb from rfl, ← h1, ← h2]
  rw [e]
  exact this

/-- An SDR end after a read into RXB. -/
theorem ends_stored {cs : List CpCmd} {n : Nat} {bs : List Byte} {st : Status} (hr : s.Ready) (hf : s.SdrFree) (hc : i.opensHeader = true)
    (hst : st ∈ i.statuses) (hn : n < 65536) (h0 : bs.length = i.definedBytes n) (hfit : bs.length ≤ s.par.rxbufBytes)
    (hw : saneWidths cs) (hs : st ≠ .ibi) (hp : st ≠ .paramOutOfRange) (hd : i.ddrClass = false) :
    Ends i s.settle ((((dropSda s.settle).play (cs ++ [.stop])).stored 0 bs).finished st n) := by
  refine ⟨st, n, cs ++ [.stop], bs, ?_⟩
  have hm : modeRule i .sdr .sdr st := by
    cases i <;> first | rfl | exact absurd hc (by decide) | simp [Instr.ddrClass] at hd
  have := ended_sdr (i := i) (u := s.settle) (base := dropSda s.settle) (cs := cs ++ [.stop]) (bs := bs)
    (av := ((dropSda s.settle).play (cs ++ [.stop])).arbpV) (ab := ((dropSda s.settle).play (cs ++ [.stop])).arbpB)
    (.inr rfl) hf.mode hr.prog hst hn (fun h => h.elim (fun h => absurd h hp) fun h => absurd h hs) (saneWidths_append hw (saneWidths_of rfl)) h0 hfit hm
    (.inl play_arbpV) (fun b _ => by rw [busThrough_append, if_neg hs]; rfl)
  have e : ((((dropSda s.settle).play (cs ++ [.stop])).stored 0 bs).finished st n) = State.finished
      { (dropSda s.settle).play (cs ++ [.stop]) with
        rxb := s.settle.rxb.writeList 0 bs, rxbValid := if bs = [] then s.settle.rxbValid else bs.length
        arbpV := ((dropSda s.settle).play (cs ++ [.stop])).arbpV
        arbpB := ((dropSda s.settle).play (cs ++ [.stop])).arbpB } st n := by
    have h1 : ((dropSda s.settle).play (cs ++ [.stop])).rxb = s.settle.rxb := play_rxb
    have h2 : ((dropSda s.settle).play (cs ++ [.stop])).rxbValid = s.settle.rxbValid := play_rxbValid
    unfold State.stored
    rw [h1, h2, Nat.zero_add]
  rw [e]
  exact this

/-- The prologue's own ends. -/
theorem ends_prologue (hr : s.Ready) (hf : s.SdrFree) (hc : i.opensHeader = true)
    (hst : Status.ibi ∈ i.statuses ∧ Status.nakDuringArbHdr ∈ i.statuses) (h0 : i.definedBytes 0 = 0)
    (h : (dropSda s.settle).PrologueEnds v) : Ends i s.settle v := by
  have hm : ∀ st, st = .ibi ∨ st = .nakDuringArbHdr → modeRule i .sdr .sdr st := by
    rintro st (rfl | rfl) <;> cases i <;> first | rfl | exact absurd hc (by decide) | simp [modeRule]
  rcases h with ⟨-, rfl⟩ | ⟨-, -, rfl⟩
  · refine ⟨.ibi, 0, lostCmds, [], ?_⟩
    have := ended_sdr (i := i) (u := s.settle) (base := dropSda s.settle) (cs := lostCmds) (bs := []) (st := .ibi) (n := 0)
      (av := true) (ab := arbByte ((dropSda s.settle).answer 0) ((dropSda s.settle).answer 1))
      (.inr rfl) hf.mode hr.prog hst.1 (by omega) (fun _ => rfl) (saneWidths_of rfl) h0.symm (Nat.zero_le _) (hm _ (.inl rfl))
      (.inr (.inl ⟨rfl, hc, rfl, rfl⟩)) (fun b _ => rfl)
    exact this
  · exact ends_plain (cs := headerCmds) hr hf hc hst.2 (by omega) h0 (saneWidths_of rfl) (by decide) (by decide)
      fun _ => by decide

/-- An address NACK. -/
theorem ends_addrNack {cs : List CpCmd} {a : BusAddr} {rnw : Bool} (hr : s.Ready) (hf : s.SdrFree) (hc : i.opensHeader = true)
    (hst : Status.nakDuringSdrAddr ∈ i.statuses) (h0 : i.definedBytes 0 = 0) (hw : saneWidths cs)
    (h : (dropSda s.settle).AddrNack cs a rnw v) : Ends i s.settle v := by
  rw [h.2, show cs ++ [.restart, addrFrame a rnw, .stop] = (cs ++ [.restart, addrFrame a rnw]) ++ [.stop] by simp]
  exact ends_plain hr hf hc hst (by omega) h0 (saneWidths_append hw (saneWidths_of rfl)) (by decide) (by decide)
    fun _ => by decide

/-- A read. -/
theorem ends_read {cs : List CpCmd} {max : Nat} (hr : s.Ready) (hf : s.SdrFree) (hc : i.opensHeader = true) (hst : Status.ok ∈ i.statuses)
    (h0 : ∀ n, i.definedBytes n = n) (hw : saneWidths cs) (hd : i.ddrClass = false) (hfit : max ≤ s.par.rxbufBytes)
    (h : (dropSda s.settle).ReadStops cs max 0 v) : Ends i s.settle v := by
  obtain ⟨k, hk, rfl⟩ := h
  have hp := hr.par
  simp only [Params.lawful, Bool.and_eq_true, decide_eq_true_eq] at hp
  have hkm := hk.le
  rw [Nat.zero_add]
  exact ends_stored hr hf hc hst (by omega) (by rw [h0, readList_length]) (by rw [readList_length]; omega)
    (saneWidths_append hw (saneWidths_read _ _)) (by decide) (by decide) hd

/-- The lengths of a lawful machine's buffers. -/
theorem lawful_sizes {p : Params} (h : p.lawful = true) :
    4 ≤ p.cqDepth ∧ 1 ≤ p.rqDepth ∧ 1 ≤ p.txbufBytes ∧ p.txbufBytes ≤ 65535 ∧ 8 ≤ p.rxbufBytes ∧ p.rxbufBytes ≤ 65535 := by
  simp only [Params.lawful, Bool.and_eq_true, decide_eq_true_eq] at h
  omega

/-- POLL takes a byte and serves it. -/
theorem ends_poll {base : State} {cs : List CpCmd} {lb : Nat} {b : Byte} (hb : base = s.settle ∨ base = dropSda s.settle)
    (hr : s.Ready) (hm : s.mode = .sdr) (hn : lb + 1 ≤ s.par.rxbufBytes)
    (hw : saneWidths cs) (h : base.PollServes cs lb b v) : Ends (.poll lb) s.settle v := by
  have hp := lawful_sizes hr.par
  have field : ∀ {α : Type} (g : State → α), (∀ x : State, g (dropSda x) = g x) → g base = g s.settle := by
    intro α g h'
    rcases hb with rfl | rfl
    · rfl
    · exact h' s.settle
  have hrx : base.rxb = s.settle.rxb := field State.rxb fun _ => rfl
  rcases h with ⟨-, k, hk, rfl⟩ | ⟨-, rfl⟩
  · have hkm := hk.le
    have hl : (b :: base.readList (sampledIn cs + 1) k).length = 1 + k := by
      rw [List.length_cons, readList_length, Nat.add_comm]
    have := ended_sdr (i := .poll lb) (u := s.settle) (base := base) (cs := cs ++ [ackFrame] ++ readCmds k lb ++ [.stop])
      (bs := b :: base.readList (sampledIn cs + 1) k) (st := .ok) (n := 1 + k) (av := false)
      (ab := (base.play (cs ++ [ackFrame] ++ readCmds k lb ++ [.stop])).arbpB)
      hb hm hr.prog (by simp [Instr.statuses]) (by omega) (by simp) (saneWidths_append (saneWidths_append (saneWidths_append hw (saneWidths_of rfl))
        (saneWidths_read _ _)) (saneWidths_of rfl)) hl (by rw [hl]; show 1 + k ≤ s.par.rxbufBytes; omega) rfl
      (.inr (.inr ⟨rfl, rfl⟩)) (fun b _ => by rw [busThrough_append]; rfl)
    refine ⟨.ok, 1 + k, cs ++ [ackFrame] ++ readCmds k lb ++ [.stop], b :: base.readList (sampledIn cs + 1) k, ?_⟩
    have e : ((((base.polled b).play (cs ++ [ackFrame] ++ readCmds k lb ++ [.stop])).stored 1
        (base.readList (sampledIn cs + 1) k)).finished .ok (1 + k)) = State.finished
        { base.play (cs ++ [ackFrame] ++ readCmds k lb ++ [.stop]) with
          rxb := s.settle.rxb.writeList 0 (b :: base.readList (sampledIn cs + 1) k)
          rxbValid := if (b :: base.readList (sampledIn cs + 1) k) = [] then s.settle.rxbValid else
            (b :: base.readList (sampledIn cs + 1) k).length
          arbpV := false
          arbpB := (base.play (cs ++ [ackFrame] ++ readCmds k lb ++ [.stop])).arbpB } .ok (1 + k) := by
      have h1 : (base.play (cs ++ [ackFrame] ++ readCmds k lb ++ [.stop])).rxb = s.settle.rxb := play_rxb.trans hrx
      unfold State.polled
      rw [play_stored, play_clearArb]
      have := stored_stored { base.play (cs ++ [ackFrame] ++ readCmds k lb ++ [.stop]) with arbpV := false } 0 [b]
        (base.readList (sampledIn cs + 1) k)
      rw [List.length_singleton, Nat.zero_add] at this
      rw [this]
      unfold State.stored
      rw [if_neg (by simp), if_neg (by simp), Nat.zero_add]
      simp only [List.singleton_append]
      rw [h1]
    rw [e]
    exact this
  · have := ended_sdr (i := .poll lb) (u := s.settle) (base := base)
      (cs := cs ++ [if b.extractLsb' 1 7 = hjAddr then ackFrame else nackFrame] ++ [.stop])
      (bs := [b]) (st := .ok) (n := 1) (av := false)
      (ab := (base.play (cs ++ [if b.extractLsb' 1 7 = hjAddr then ackFrame else nackFrame] ++ [.stop])).arbpB)
      hb hm hr.prog (by simp [Instr.statuses]) (by omega) (by simp) (saneWidths_append (saneWidths_append hw (by split <;> exact saneWidths_of rfl))
        (saneWidths_of rfl)) rfl (by show 1 ≤ s.par.rxbufBytes; omega) rfl
      (.inr (.inr ⟨rfl, rfl⟩)) (fun b _ => by rw [busThrough_append]; rfl)
    refine ⟨.ok, 1, cs ++ [if b.extractLsb' 1 7 = hjAddr then ackFrame else nackFrame] ++ [.stop], [b], ?_⟩
    have e : (((base.polled b).play (cs ++ [if b.extractLsb' 1 7 = hjAddr then ackFrame else nackFrame] ++ [.stop])).finished .ok 1) =
        State.finished
        { base.play (cs ++ [if b.extractLsb' 1 7 = hjAddr then ackFrame else nackFrame] ++ [.stop]) with
          rxb := s.settle.rxb.writeList 0 [b]
          rxbValid := if [b] = [] then s.settle.rxbValid else [b].length
          arbpV := false
          arbpB := (base.play (cs ++ [if b.extractLsb' 1 7 = hjAddr then ackFrame else nackFrame] ++ [.stop])).arbpB } .ok 1 := by
      have h1 : (base.play (cs ++ [if b.extractLsb' 1 7 = hjAddr then ackFrame else nackFrame] ++ [.stop])).rxb = s.settle.rxb :=
        play_rxb.trans hrx
      unfold State.polled
      rw [play_stored, play_clearArb]
      unfold State.stored
      rw [h1]
      rfl
    rw [e]
    exact this

/-- POLL. -/
theorem poll_post (hr : s.Ready) (hl : L = true → s.cpBudget = none) (lb : Nat) :
    (pollBody lb s).Post L (fun _ _ => False) (Ends (.poll lb) s.settle) := by
  have hf := hr.follows hl
  have hfit : pollFits s.par lb = true → 1 ≤ lb ∧ lb + 1 ≤ s.par.rxbufBytes := by simp [pollFits]
  have entry : ∀ {s' base : State} (st : Status), st ∈ (Instr.poll lb).statuses → s'.Follows L base → s'.Quiet →
      base = s.settle ∨ base = dropSda s.settle →
      (finish st 0 s' : Run Unit).Post L (fun _ _ => False) (Ends (.poll lb) s.settle) :=
    fun st hst h1 h2 h3 => finish_post st 0 h1 h2 ⟨_, _, _, _, ended_entry h3 hr.prog hst rfl rfl hr.arb⟩
  unfold pollBody
  split
  · exact entry _ (by simp [Instr.statuses]) hf hr.quiet (.inl rfl)
  · rename_i hmode
    have hmode : s.mode = .sdr := by
      cases h : s.mode with
      | sdr => rfl
      | ddr => exact absurd h hmode
    split
    · split
      · rename_i hok
        have hok := hfit hok
        exact (pollService_post (u := s.settle) (cs := []) hf hmode lb s.arbpB hok.1 hok.2).mono (fun _ _ h => h)
          fun v hv => ends_poll (.inl rfl) hr hmode hok.2 saneWidths_nil hv
      · exact entry _ (by simp [Instr.statuses]) hf hr.quiet (.inl rfl)
    · split
      · exact entry _ (by simp [Instr.statuses]) hf.dropSda hr.quiet.dropSda (.inr rfl)
      · split
        · rename_i hok
          have hok := hfit hok
          refine (pollStartType_post (u := dropSda s.settle) hf.dropSda hmode lb hok.1 hok.2).mono (fun _ _ h => h)
            fun v hv => ?_
          rcases hv with ⟨-, rfl⟩ | ⟨-, hv⟩
          · refine ⟨.noIbi, 0, headerCmds ++ [.stop], [], ?_⟩
            have := ended_sdr (i := .poll lb) (u := s.settle) (base := dropSda s.settle) (cs := headerCmds ++ [.stop])
              (bs := []) (st := .noIbi) (n := 0) (av := ((dropSda s.settle).play (headerCmds ++ [.stop])).arbpV)
              (ab := ((dropSda s.settle).play (headerCmds ++ [.stop])).arbpB)
              (.inr rfl) hmode hr.prog (by simp [Instr.statuses]) (by omega) (by simp) (saneWidths_of rfl) rfl (Nat.zero_le _) rfl
              (.inl play_arbpV) (fun b _ => rfl)
            have h1 : ((dropSda s.settle).play (headerCmds ++ [.stop])).rxb = s.settle.rxb := play_rxb
            have h2 : ((dropSda s.settle).play (headerCmds ++ [.stop])).rxbValid = s.settle.rxbValid := play_rxbValid
            have e : (((dropSda s.settle).play (headerCmds ++ [.stop])).finished .noIbi 0) = State.finished
                { (dropSda s.settle).play (headerCmds ++ [.stop]) with
                  rxb := s.settle.rxb.writeList 0 []
                  rxbValid := if ([] : List Byte) = [] then s.settle.rxbValid else 0
                  arbpV := ((dropSda s.settle).play (headerCmds ++ [.stop])).arbpV
                  arbpB := ((dropSda s.settle).play (headerCmds ++ [.stop])).arbpB } .noIbi 0 := by
              rw [if_pos rfl, show s.settle.rxb.writeList 0 [] = s.settle.rxb from rfl, ← h1, ← h2]
            rw [e]
            exact this
          · exact ends_poll (.inr rfl) hr hmode hok.2 (saneWidths_of rfl) hv
        · exact entry _ (by simp [Instr.statuses]) hf.dropSda hr.quiet.dropSda (.inr rfl)

theorem ddr_start (hr : s.Ready) (hl : L = true → s.cpBudget = none) :
    State.Follows L (if s.mode = .sdr then dropSda s else s) s.ddrStart ∧
      (s.ddrStart = s.settle ∨ s.ddrStart = dropSda s.settle) := by
  unfold State.ddrStart
  split
  · exact ⟨(hr.follows hl).dropSda, .inr rfl⟩
  · exact ⟨hr.follows hl, .inl rfl⟩

theorem ddrStart_field (s : State) {α : Type} (g : State → α) (h : ∀ x : State, g (dropSda x) = g x) :
    g s.ddrStart = g s.settle := by
  unfold State.ddrStart
  split
  · exact h _
  · rfl

/-- The prologue's ends inside a DDR-class operation. -/
theorem ends_ddrPrologue (hr : s.Ready) (hf : s.mode = .sdr → s.SdrFree) (hc : i.opensHeader = true)
    (hst : Status.ibi ∈ i.statuses ∧ Status.nakDuringArbHdr ∈ i.statuses) (h0 : i.definedBytes 0 = 0)
    (h : s.ddrStart.mode = .sdr ∧ s.ddrStart.PrologueEnds v) : Ends i s.settle v := by
  obtain ⟨hm, h⟩ := h
  rw [ddrStart_mode] at hm
  rw [State.ddrStart, if_pos hm] at h
  exact ends_prologue hr (hf hm) hc hst h0 h

/-- No byte is pending where a DDR message is driven. -/
theorem noArb_of (hr : s.Ready) (hf : s.mode = .sdr → s.SdrFree) : s.settle.arbpV = false := by
  cases h : s.arbpV with
  | false => exact h
  | true => exact absurd (hf (hr.arb h)).noArb (by rw [h]; decide)

theorem ends_ddrWrite {a : BusAddr} {c : Byte} {fwr : Bool} {la : Nat} (hr : s.Ready) (hf : s.mode = .sdr → s.SdrFree)
    (hn : 2 * la ≤ s.par.txbufBytes) (h : s.ddrStart.DdrWriteEnds a c fwr la v) :
    Ends (.ddrWrite a c fwr la) s.settle v := by
  have hp := lawful_sizes hr.par
  have hb : s.ddrStart = s.settle ∨ s.ddrStart = dropSda s.settle := (ddr_start (L := false) hr (by simp)).2
  obtain ⟨r, w, hw, rfl⟩ := h
  have key : ∀ (ms : List CpCmd) (x : BitVec 5) (st : Status) (n : Nat), saneWidths ms → n < 65536 →
      st ∈ [Status.ok, .nakDdr, .ddrEarlyTermination] →
      Ends (.ddrWrite a c fwr la) s.settle (State.closed ((s.ddrStart.entered.play ms).withCrc x) fwr st n) := by
    intro ms x st n hs hn hst
    have hst1 : st ∈ (Instr.ddrWrite a c fwr la).statuses ∧ st ≠ .ibi ∧ st ≠ .paramOutOfRange := by
      simp only [List.mem_cons, List.not_mem_nil, or_false] at hst
      rcases hst with rfl | rfl | rfl <;> simp [Instr.statuses]
    obtain ⟨cs, he⟩ := ended_ddr (i := .ddrWrite a c fwr la) (u := s.settle) (base := s.ddrStart) (ms := ms) (c := x) (fwr := fwr)
      (st := st) (n := n) (bs := []) hb hr.prog hst1.1 hn hst1.2.2 hs rfl (Nat.zero_le _)
      (by simp only [modeRule, if_neg hst1.2.2, closeMode]; split <;> simp_all) (noArb_of hr hf) hst1.2.1
    refine ⟨st, n, cs, [], ?_⟩
    have h4 := (entered_frame s.ddrStart ms).2.2.2
    have e : (s.ddrStart.entered.play ms).withCrc x = { s.ddrStart.entered.play ms with
        crc := x, rxb := s.settle.rxb.writeList 0 []
        rxbValid := if ([] : List Byte) = [] then s.settle.rxbValid else ([] : List Byte).length } := by
      have h1 := h4.rxb.trans (ddrStart_field s State.rxb fun _ => rfl)
      have h2 := h4.valid.trans (ddrStart_field s State.rxbValid fun _ => rfl)
      rw [if_pos rfl, show s.settle.rxb.writeList 0 [] = s.settle.rxb from rfl, ← h1, ← h2]
      rfl
    rw [e]
    exact he
  have htail : ∀ b (x : BitVec 5), saneWidths (if b = true then [crcFrame x] else []) := by
    intro b x
    split <;> exact saneWidths_of rfl
  obtain ⟨-, rfl, rfl⟩ | ⟨k, hk, -, rfl, rfl⟩ := hw
  · rw [play_withCrc, State.commanded, play_withCrc, withCrc_withCrc, play_withCrc, withCrc_withCrc, play_play, play_play]
    refine key _ _ _ _ ?_ (by omega) (by simp)
    exact saneWidths_append (saneWidths_of rfl) (saneWidths_append (saneWidths_ddrWords _ _ _ _ _) (htail _ _))
  · rw [play_withCrc, State.commanded, play_withCrc, withCrc_withCrc, play_withCrc, withCrc_withCrc, play_play, play_play]
    refine key _ _ _ _ ?_ (by omega) (by split <;> simp)
    exact saneWidths_append (saneWidths_of rfl) (saneWidths_append (saneWidths_append (saneWidths_ddrWords _ _ _ _ _)
      (saneWidths_of rfl)) (htail _ _))

theorem ends_ddrRead {a : BusAddr} {c : Byte} {fwr : Bool} {lb : Nat} (hr : s.Ready) (hf : s.mode = .sdr → s.SdrFree)
    (hn : 2 * lb ≤ s.par.rxbufBytes) (h : s.ddrStart.DdrReadEnds a c fwr lb v) :
    Ends (.ddrRead a c fwr lb) s.settle v := by
  have hp := lawful_sizes hr.par
  have hb : s.ddrStart = s.settle ∨ s.ddrStart = dropSda s.settle := (ddr_start (L := false) hr (by simp)).2
  have key : ∀ (ms : List CpCmd) (x : BitVec 5) (st : Status) (n : Nat) (ans : Nat → Word32), saneWidths ms → n ≤ lb →
      st ∈ [Status.ok, .nakDdr, .ddrInvalidPreamble, .ddrParityWrong, .ddrCrcWrong] →
      Ends (.ddrRead a c fwr lb) s.settle
        (State.closed (((s.ddrStart.entered.play ms).stored 0 (rxBytes ans 0 n)).withCrc x) fwr st n) := by
    intro ms x st n ans hs hn' hst
    have hst1 : st ∈ (Instr.ddrRead a c fwr lb).statuses ∧ st ≠ .ibi ∧ st ≠ .paramOutOfRange := by
      simp only [List.mem_cons, List.not_mem_nil, or_false] at hst
      rcases hst with rfl | rfl | rfl | rfl | rfl <;> simp [Instr.statuses]
    have hlen : (rxBytes ans 0 n).length = 2 * n := by simp [rxBytes]
    obtain ⟨cs, he⟩ := ended_ddr (i := .ddrRead a c fwr lb) (u := s.settle) (base := s.ddrStart) (ms := ms) (c := x) (fwr := fwr)
      (st := st) (n := n) (bs := rxBytes ans 0 n) hb hr.prog hst1.1 (by omega) hst1.2.2 hs hlen
      (by rw [hlen]; show 2 * n ≤ s.par.rxbufBytes; omega)
      (by simp only [modeRule, if_neg hst1.2.2, closeMode]; split <;> simp_all) (noArb_of hr hf) hst1.2.1
    refine ⟨st, n, cs, rxBytes ans 0 n, ?_⟩
    have h4 := (entered_frame s.ddrStart ms).2.2.2
    have e : ((s.ddrStart.entered.play ms).stored 0 (rxBytes ans 0 n)).withCrc x = { s.ddrStart.entered.play ms with
        crc := x, rxb := s.settle.rxb.writeList 0 (rxBytes ans 0 n)
        rxbValid := if rxBytes ans 0 n = [] then s.settle.rxbValid else (rxBytes ans 0 n).length } := by
      have h1 := h4.rxb.trans (ddrStart_field s State.rxb fun _ => rfl)
      have h2 := h4.valid.trans (ddrStart_field s State.rxbValid fun _ => rfl)
      unfold State.stored
      rw [h1, h2, Nat.zero_add]
      rfl
    rw [e]
    exact he
  have htail : ∀ r b, saneWidths (termCmds b r) := by
    intro r b
    unfold termCmds
    split
    · split <;> exact saneWidths_of rfl
    · exact saneWidths_nil
  have hts : ∀ u r, r.st ∈ [Status.ok, .nakDdr, .ddrInvalidPreamble, .ddrParityWrong, .ddrCrcWrong] →
      termStatus u r ∈ [Status.ok, .nakDdr, .ddrInvalidPreamble, .ddrParityWrong, .ddrCrcWrong] := by
    intro u r h
    unfold termStatus
    split
    · simp
    · exact h
  have got : ∀ (r : ReadEnd) (w : State) (ans : Nat → Word32) (m : Nat) (more : List CpCmd) (y : BitVec 5),
      m ≤ lb → r.n = m → saneWidths more →
      r.st ∈ [Status.ok, .nakDdr, .ddrInvalidPreamble, .ddrParityWrong, .ddrCrcWrong] →
      w = (s.ddrStart.commanded a c true).rxGot ans 0 m more ∨
        w = ((s.ddrStart.commanded a c true).rxGot ans 0 m more).withCrc y →
      Ends (.ddrRead a c fwr lb) s.settle
        ((w.play (termCmds s.ddrStart.ddrCfg.crcEt r)).closed fwr (termStatus w r) r.n) := by
    intro r w ans m more y hm hrn hmore hst hw
    have : ∃ z, w = ((s.ddrStart.entered.play ([cmdFrame (cmdWord a c true)] ++ (rxCmdsFrom 0 m ++ more))).stored 0
        (rxBytes ans 0 m)).withCrc z := by
      rcases hw with rfl | rfl
      · rw [State.rxGot, State.commanded, play_withCrc, withCrc_stored, withCrc_withCrc, play_play]
        exact ⟨_, rfl⟩
      · rw [State.rxGot, State.commanded, play_withCrc, withCrc_stored, withCrc_withCrc, withCrc_withCrc, play_play]
        exact ⟨_, rfl⟩
    obtain ⟨z, hz⟩ := this
    have hst' := hts w r hst
    generalize termStatus w r = st' at hst'
    rw [hz, play_withCrc, play_stored, play_play, hrn]
    exact key _ _ _ _ _ (saneWidths_append (saneWidths_append (saneWidths_of rfl)
      (saneWidths_append (saneWidths_rx _ _) hmore)) (htail _ _)) hm hst'
  obtain ⟨r, w, hw, rfl⟩ := h
  rcases hw with ⟨-, rfl, rfl⟩ | ⟨-, m, hm, -, hrn, hw⟩
  · have := key ([cmdFrame (cmdWord a c true)] ++ [.dr 2]) (crc5Word crc5Init (cmdWord a c true)) .nakDdr 0
      (fun _ => 0) (saneWidths_of rfl) (by omega) (by simp)
    rw [show rxBytes (fun _ => 0) 0 0 = [] from rfl, stored_nil] at this
    rw [State.commanded, play_withCrc, play_withCrc, play_play, play_play]
    exact this
  · rw [Nat.zero_add] at hrn hw
    have hw2 : ∀ b, saneWidths (if b = true then [CpCmd.dr 2, .dr 18] else [.dr 12, .dr 8]) := by
      intro b
      split <;> exact saneWidths_of rfl
    rcases hw with ⟨-, h1, -, rfl⟩ | ⟨-, -, -, h1, -, rfl⟩ | ⟨-, -, -, -, h1, -, rfl⟩ | ⟨-, -, -, h1, -, rfl⟩
    · exact got r _ _ m [] 0 hm hrn saneWidths_nil (by simp [h1]) (.inl rfl)
    · exact got r _ _ m _ 0 hm hrn (saneWidths_of rfl) (by rw [h1]; split <;> simp) (.inl rfl)
    · exact got r _ _ m _ 0 hm hrn (saneWidths_of rfl) (by simp [h1]) (.inl rfl)
    · exact got r _ _ m _ _ hm hrn (by split <;> exact saneWidths_of rfl) (by simp [h1]) (.inr rfl)

/-- The configuration operations and TARGET_RESET. -/
theorem ends_targetReset (hr : s.Ready) :
    Ends .targetReset s.settle (State.finished { State.play (if s.settle.mode = Mode.ddr then s.settle.switched .sdr
      else s.settle) [.trst] with arbpV := false } .ok 0) := by
  refine ⟨.ok, 0, [.trst], [], ?_⟩
  have hm : (if s.settle.mode = Mode.ddr then s.settle.switched .sdr else s.settle).mode = .sdr ∧
      (if s.settle.mode = Mode.ddr then s.settle.switched .sdr else s.settle).cpProg = .sdr := by
    split
    · exact ⟨rfl, rfl⟩
    · rename_i h
      have h : s.mode ≠ .ddr := h
      cases e : s.mode with
      | ddr => exact absurd e h
      | sdr => exact ⟨e, hr.prog.trans e⟩
  have field : ∀ {α : Type} (g : State → α), (∀ x : State, g (x.switched .sdr) = g x) →
      g (if s.settle.mode = Mode.ddr then s.settle.switched .sdr else s.settle) = g s.settle := by
    intro α g h
    split
    · exact h _
    · rfl
  have hw : ∀ w, (if s.settle.mode = Mode.ddr then s.settle.switched .sdr else s.settle).sampleW = some w →
      s.settle.sampleW = some w := by
    intro w
    split
    · intro h; cases h
    · exact id
  have hans : (if s.settle.mode = Mode.ddr then s.settle.switched .sdr else s.settle).answer = s.settle.answer := by
    split <;> rfl
  generalize (if s.settle.mode = Mode.ddr then s.settle.switched .sdr else s.settle) = z at hm field hw hans
  refine Ended.mk (by simp [Instr.statuses]) (by omega) (fun _ => rfl) rfl rfl rfl ?_ ?_ ?_ ?_ ?_ ?_ ?_ ?_ ?_ ?_ ?_ ?_
    ?_ ?_ ?_ ?_ ?_ ?_ ?_ ?_ ?_ ?_ ?_ ?_ ?_ ?_
  · exact (play_trace z [.trst]).trans (by rw [field State.trace fun _ => rfl, hans])
  · exact (play_wire z [.trst]).trans (by rw [field State.wire fun _ => rfl])
  · exact (play_bus z [.trst]).trans rfl
  · exact fun k => (play_answer z [.trst] k).trans (by rw [hans])
  · exact fun _ => play_ddrCfg.trans (field State.ddrCfg fun _ => rfl)
  · exact fun _ => play_clkKhz.trans (field State.clkKhz fun _ => rfl)
  · exact .inl (play_clkKhz.trans (field State.clkKhz fun _ => rfl))
  · exact fun _ => play_driveMa.trans (field State.driveMa fun _ => rfl)
  · exact .inl (play_driveMa.trans (field State.driveMa fun _ => rfl))
  · exact play_sdrTab.trans (field State.sdrTab fun _ => rfl)
  · exact play_txb.trans (field State.txb fun _ => rfl)
  · exact play_desc0.trans (field State.desc0 fun _ => rfl)
  · exact play_desc1.trans (field State.desc1 fun _ => rfl)
  · exact play_par.trans (field State.par fun _ => rfl)
  · exact play_host.trans (field State.host fun _ => rfl)
  · exact (play_cpProg.trans hm.2).trans (play_mode.trans hm.1).symm
  · intro w h
    have : (z.play [.trst]).sampleW = some w := h
    rw [play_sampleW] at this
    exact .inl (hw w this)
  · exact play_rxb.trans (field State.rxb fun _ => rfl)
  · exact play_rxbValid.trans (field State.rxbValid fun _ => rfl)
  · rfl
  · exact Nat.zero_le _
  · exact play_mode.trans hm.1
  · intro _ h
    cases h
  · exact fun _ _ => .inr rfl
  · intro h
    cases h
  · intro _
    show (z.play [.trst]).bus = busRule (z.play [.trst]).mode .ok
    rw [play_mode, hm.1]
    rfl

/-- A configuration operation: `v` is the state with at most its register changed. -/
theorem ends_config {d : DdrCfg} {k : BitVec 14} {m : BitVec 4} {st : Status} (hr : s.Ready) (hst : st ∈ i.statuses)
    (h0 : i.definedBytes 0 = 0) (hmr : modeRule i s.mode s.mode st)
    (h1 : (∀ a e c, i ≠ .setDdrConfig a e c) → d = s.ddrCfg) (h2 : (∀ k, i ≠ .setClock k) → k = s.clkKhz)
    (h2' : k = s.clkKhz ∨ (clkMinKhz ≤ k.toNat ∧ k.toNat ≤ clkMaxKhz))
    (h3 : (∀ k, i ≠ .setDrive k) → m = s.driveMa) (h3' : m = s.driveMa ∨ driveLegal m.toNat = true) :
    Ends i s.settle (State.finished { s.settle with ddrCfg := d, clkKhz := k, driveMa := m } st 0) := by
  refine ⟨st, 0, [], [], Ended.mk hst (by omega) (fun _ => rfl) rfl rfl rfl ?_ ?_ rfl ?_ h1 h2 h2' h3 h3' rfl rfl rfl rfl rfl rfl
    hr.prog (fun w hw => .inl hw) rfl rfl h0.symm (Nat.zero_le _) hmr ?_ ?_ hr.arb (fun h => absurd rfl h)⟩
  · simp [entries]; rfl
  · simp; rfl
  · intro k
    rw [sampledIn_nil, Nat.zero_add]
    rfl
  · intro h h'
    exact absurd (h.symm.trans h') (by decide)
  · intro h h'
    exact absurd (h.symm.trans h') (by decide)

/-- Everything an operation from a ready state can do. -/
theorem runOf_post (i : Instr) (hr : s.Ready) (hl : L = true → s.cpBudget = none) :
    (runOf i s).Post L (fun _ _ => False) (Ends i s.settle) := by
  have hp := lawful_sizes hr.par
  have hf := hr.follows hl
  have ht : (dropSda s.settle).sdrTab = sdrTable := hr.table
  have st2 : ∀ {j : Instr}, j.sdrClass = true → j.isPoll = false →
      Status.ibi ∈ j.statuses ∧ Status.nakDuringArbHdr ∈ j.statuses := by
    intro j h h'
    cases j <;> simp [Instr.sdrClass, Instr.isPoll, Instr.statuses] at h h' ⊢
  cases i with
  | privateWrite a la =>
    refine sdrEntry_post hr hl _ _ rfl rfl (by simp [Instr.statuses]) fun hok hfree => ?_
    have hok : la ≤ s.par.txbufBytes := by simpa [txFits] using hok
    refine (privateWriteBody_post hf.dropSda hfree.mode ht a la hok).mono (fun _ _ h => h) fun v hv => ?_
    rcases hv with h | ⟨-, h | ⟨-, rfl⟩⟩
    · exact ends_prologue hr hfree rfl (st2 rfl rfl) rfl h
    · exact ends_addrNack hr hfree rfl (by simp [Instr.statuses]) rfl (saneWidths_of rfl) h
    · exact ends_plain hr hfree rfl (by simp [Instr.statuses]) (by omega) rfl (saneWidths_append (saneWidths_of rfl)
        (saneWidths_bytes _ _ _)) (by decide) (by decide) (by simp [Instr.ddrClass])
  | privateRead a lb =>
    refine sdrEntry_post hr hl _ _ rfl rfl (by simp [Instr.statuses]) fun hok hfree => ?_
    have hok : 1 ≤ lb ∧ lb ≤ s.par.rxbufBytes := by simpa [rxFits] using hok
    refine (privateReadBody_post hf.dropSda hfree.mode a lb hok.1 hok.2).mono (fun _ _ h => h) fun v hv => ?_
    rcases hv with h | ⟨-, h | ⟨-, h⟩⟩
    · exact ends_prologue hr hfree rfl (st2 rfl rfl) rfl h
    · exact ends_addrNack hr hfree rfl (by simp [Instr.statuses]) rfl (saneWidths_of rfl) h
    · exact ends_read hr hfree rfl (by simp [Instr.statuses]) (fun _ => rfl) (saneWidths_of rfl) rfl hok.2 h
  | privateWriteRead a la lb =>
    refine sdrEntry_post hr hl _ _ rfl rfl (by simp [Instr.statuses]) fun hok hfree => ?_
    have hok : la ≤ s.par.txbufBytes ∧ 1 ≤ lb ∧ lb ≤ s.par.rxbufBytes := by simpa [txFits, rxFits] using hok
    refine (privateWriteReadBody_post hf.dropSda hfree.mode ht a la lb hok.1 hok.2.1 hok.2.2).mono (fun _ _ h => h)
      fun v hv => ?_
    have hw := saneWidths_append (cs := headerCmds ++ [.restart, addrFrame a false]) (saneWidths_of rfl)
      (saneWidths_bytes s.txb 0 la)
    rcases hv with h | ⟨-, h | ⟨-, h | ⟨-, h⟩⟩⟩
    · exact ends_prologue hr hfree rfl (st2 rfl rfl) rfl h
    · exact ends_addrNack hr hfree rfl (by simp [Instr.statuses]) rfl (saneWidths_of rfl) h
    · exact ends_addrNack hr hfree rfl (by simp [Instr.statuses]) rfl hw h
    · exact ends_read hr hfree rfl (by simp [Instr.statuses]) (fun _ => rfl) (saneWidths_append hw (saneWidths_of rfl))
        rfl hok.2.2 h
  | cccBcastWrite la =>
    refine sdrEntry_post hr hl _ _ rfl rfl (by simp [Instr.statuses]) fun hok hfree => ?_
    have hok : 1 ≤ la ∧ la ≤ s.par.txbufBytes := by simpa [bcFits] using hok
    refine (cccBcastWriteBody_post hf.dropSda hfree.mode ht la hok.2).mono (fun _ _ h => h) fun v hv => ?_
    rcases hv with h | ⟨-, rfl⟩
    · exact ends_prologue hr hfree rfl (st2 rfl rfl) rfl h
    · exact ends_plain hr hfree rfl (by simp [Instr.statuses]) (by omega) rfl (saneWidths_append (saneWidths_of rfl)
        (saneWidths_bytes _ _ _)) (by decide) (by decide) (by simp [Instr.ddrClass])
  | cccDirectWrite a la lb =>
    refine sdrEntry_post hr hl _ _ rfl rfl (by simp [Instr.statuses]) fun hok hfree => ?_
    have hok : 1 ≤ la ∧ la + lb ≤ s.par.txbufBytes := by simpa [bcDirFits] using hok
    refine (cccDirectWriteBody_post hf.dropSda hfree.mode ht a la lb hok.2).mono (fun _ _ h => h) fun v hv => ?_
    have hw := saneWidths_append (cs := headerCmds) (saneWidths_of rfl) (saneWidths_bytes s.txb 0 la)
    rcases hv with h | ⟨-, h | ⟨-, rfl⟩⟩
    · exact ends_prologue hr hfree rfl (st2 rfl rfl) rfl h
    · exact ends_addrNack hr hfree rfl (by simp [Instr.statuses]) rfl hw h
    · exact ends_plain hr hfree rfl (by simp [Instr.statuses]) (by omega) rfl (saneWidths_append (saneWidths_append hw
        (saneWidths_of rfl)) (saneWidths_bytes _ _ _)) (by decide) (by decide) (by simp [Instr.ddrClass])
  | cccDirectRead a la lb =>
    refine sdrEntry_post hr hl _ _ rfl rfl (by simp [Instr.statuses]) fun hok hfree => ?_
    have hok : (1 ≤ la ∧ la ≤ s.par.txbufBytes) ∧ 1 ≤ lb ∧ lb ≤ s.par.rxbufBytes := by simpa [bcFits, rxFits] using hok
    refine (cccDirectReadBody_post hf.dropSda hfree.mode ht a la lb hok.1.2 hok.2.1 hok.2.2).mono (fun _ _ h => h)
      fun v hv => ?_
    have hw := saneWidths_append (cs := headerCmds) (saneWidths_of rfl) (saneWidths_bytes s.txb 0 la)
    rcases hv with h | ⟨-, h | ⟨-, h⟩⟩
    · exact ends_prologue hr hfree rfl (st2 rfl rfl) rfl h
    · exact ends_addrNack hr hfree rfl (by simp [Instr.statuses]) rfl hw h
    · exact ends_read hr hfree rfl (by simp [Instr.statuses]) (fun _ => rfl) (saneWidths_append hw (saneWidths_of rfl))
        rfl hok.2.2 h
  | entdaa a =>
    refine sdrEntry_post hr hl _ _ rfl rfl (by simp [Instr.statuses]) fun hok hfree => ?_
    refine (entdaaBody_post hf.dropSda hfree.mode ht a hp.2.2.2.2.1).mono (fun _ _ h => h) fun v hv => ?_
    rcases hv with h | ⟨-, h | ⟨-, rfl⟩⟩
    · exact ends_prologue hr hfree rfl (st2 rfl rfl) rfl h
    · exact ends_addrNack hr hfree rfl (by simp [Instr.statuses]) rfl (saneWidths_of rfl) h
    · refine ends_stored hr hfree rfl (by split <;> simp [Instr.statuses]) (by omega) rfl hp.2.2.2.2.1 ?_ (by split <;> decide) (by split <;> decide) rfl
      exact saneWidths_append (saneWidths_append (saneWidths_of rfl) (saneWidths_idFrames _ _)) (saneWidths_of rfl)
  | rstdaa =>
    refine sdrEntry_post hr hl _ _ rfl rfl (by simp [Instr.statuses]) fun hok hfree => ?_
    refine (rstdaaBody_post hf.dropSda hfree.mode ht).mono (fun _ _ h => h) fun v hv => ?_
    rcases hv with h | ⟨-, rfl⟩
    · exact ends_prologue hr hfree rfl (st2 rfl rfl) rfl h
    · exact ends_plain hr hfree rfl (by simp [Instr.statuses]) (by omega) rfl (saneWidths_of rfl)
        (by decide) (by decide) (by simp [Instr.ddrClass])
  | checkAck a =>
    refine sdrEntry_post hr hl _ _ rfl rfl (by simp [Instr.statuses]) fun hok hfree => ?_
    refine (checkAckBody_post hf.dropSda hfree.mode a).mono (fun _ _ h => h) fun v hv => ?_
    rcases hv with h | ⟨-, h | ⟨-, rfl⟩⟩
    · exact ends_prologue hr hfree rfl (st2 rfl rfl) rfl h
    · exact ends_addrNack hr hfree rfl (by simp [Instr.statuses]) rfl (saneWidths_of rfl) h
    · exact ends_plain hr hfree rfl (by simp [Instr.statuses]) (by omega) rfl (saneWidths_of rfl)
        (by decide) (by decide) (by simp [Instr.ddrClass])
  | arbHeaderOnly =>
    refine sdrEntry_post hr hl _ _ rfl rfl (by simp [Instr.statuses]) fun hok hfree => ?_
    refine (arbHeaderOnlyBody_post hf.dropSda hfree.mode).mono (fun _ _ h => h) fun v hv => ?_
    rcases hv with h | ⟨-, rfl⟩
    · exact ends_prologue hr hfree rfl (st2 rfl rfl) rfl h
    · exact ends_plain hr hfree rfl (by simp [Instr.statuses]) (by omega) rfl (saneWidths_of rfl)
        (by decide) (by decide) (by simp [Instr.ddrClass])
  | poll lb => exact poll_post hr hl lb
  | ddrWrite a c fwr la =>
    refine ddrEntry_post hr hl _ _ rfl rfl (by simp [Instr.statuses]) fun hok hfree => ?_
    have hok : 2 * la ≤ s.par.txbufBytes := by simpa [ddrTxFits] using hok
    have hpar : s.ddrStart.par = s.par := ddrStart_field s State.par fun _ => rfl
    refine (ddrWriteBody_post (ddr_start hr hl).1 ((ddrStart_field s State.sdrTab fun _ => rfl).trans hr.table) a c fwr la
      (by rw [hpar]; exact hok)).mono (fun _ _ h => h) fun v hv => ?_
    rcases hv with h | ⟨-, h⟩
    · exact ends_ddrPrologue hr hfree rfl (by simp [Instr.statuses]) rfl h
    · exact ends_ddrWrite hr hfree hok h
  | ddrRead a c fwr lb =>
    refine ddrEntry_post hr hl _ _ rfl rfl (by simp [Instr.statuses]) fun hok hfree => ?_
    have hok : 1 ≤ lb ∧ 2 * lb ≤ s.par.rxbufBytes := by simpa [ddrRxFits] using hok
    have hpar : s.ddrStart.par = s.par := ddrStart_field s State.par fun _ => rfl
    refine (ddrReadBody_post (ddr_start hr hl).1 ((ddrStart_field s State.sdrTab fun _ => rfl).trans hr.table) a c fwr lb
      hok.1 (by rw [hpar]; exact hok.2)).mono (fun _ _ h => h) fun v hv => ?_
    rcases hv with h | ⟨-, h⟩
    · exact ends_ddrPrologue hr hfree rfl (by simp [Instr.statuses]) rfl h
    · exact ends_ddrRead hr hfree hok.2 h
  | setDdrConfig ack et crcet =>
    exact finish_post (u := { s.settle with ddrCfg := ⟨ack, et, crcet⟩ }) _ _
      ⟨⟨hf.running.prog, hf.running.rspq, hf.running.live, hf.running.link, hf.running.pending⟩, rfl⟩
      ⟨hr.quiet.cmdq, hr.quiet.rspq, hr.quiet.atStart⟩
      (ends_config (k := s.clkKhz) (m := s.driveMa) hr (by simp [Instr.statuses]) rfl rfl (fun h => absurd rfl (h _ _ _))
        (fun _ => rfl) (.inl rfl) (fun _ => rfl) (.inl rfl))
  | setClock la =>
    show Run.Post L (if la < clkMinKhz ∨ clkMaxKhz < la then _ else _) _ _
    split
    · have he : Ends (.setClock la) s.settle (State.finished s.settle .paramOutOfRange 0) :=
        ends_config hr (by simp [Instr.statuses]) rfl rfl (fun _ => rfl) (fun _ => rfl) (.inl rfl) (fun _ => rfl) (.inl rfl)
      exact finish_post _ _ hf hr.quiet he
    · rename_i h
      have e : (BitVec.ofNat 14 la).toNat = la := by
        simp only [clkMaxKhz, clkMinKhz, not_or, Nat.not_lt] at h
        rw [BitVec.toNat_ofNat]
        omega
      have he : Ends (.setClock la) s.settle (State.finished { s.settle with clkKhz := BitVec.ofNat 14 la } .ok 0) :=
        ends_config hr (by simp [Instr.statuses]) rfl rfl (fun _ => rfl) (fun h => absurd rfl (h _))
          (.inr (by rw [e]; omega)) (fun _ => rfl) (.inl rfl)
      exact finish_post (u := { s.settle with clkKhz := BitVec.ofNat 14 la }) _ _
        ⟨⟨hf.running.prog, hf.running.rspq, hf.running.live, hf.running.link, hf.running.pending⟩, rfl⟩
        ⟨hr.quiet.cmdq, hr.quiet.rspq, hr.quiet.atStart⟩ he
  | setDrive la =>
    show Run.Post L (if driveLegal la then _ else _) _ _
    split
    · rename_i h
      have e : (BitVec.ofNat 4 la).toNat = la := by
        simp only [driveLegal, Bool.or_eq_true, decide_eq_true_eq] at h
        rw [BitVec.toNat_ofNat]
        omega
      have he : Ends (.setDrive la) s.settle (State.finished { s.settle with driveMa := BitVec.ofNat 4 la } .ok 0) :=
        ends_config hr (by simp [Instr.statuses]) rfl rfl (fun _ => rfl) (fun _ => rfl) (.inl rfl)
          (fun h => absurd rfl (h _)) (.inr (by rw [e]; exact h))
      exact finish_post (u := { s.settle with driveMa := BitVec.ofNat 4 la }) _ _
        ⟨⟨hf.running.prog, hf.running.rspq, hf.running.live, hf.running.link, hf.running.pending⟩, rfl⟩
        ⟨hr.quiet.cmdq, hr.quiet.rspq, hr.quiet.atStart⟩ he
    · have he : Ends (.setDrive la) s.settle (State.finished s.settle .paramOutOfRange 0) :=
        ends_config hr (by simp [Instr.statuses]) rfl rfl (fun _ => rfl) (fun _ => rfl) (.inl rfl) (fun _ => rfl) (.inl rfl)
      exact finish_post _ _ hf hr.quiet he
  | targetReset =>
    exact (targetResetBody_ends hf).mono (fun _ _ h => h) fun v hv => by rw [hv]; exact ends_targetReset hr

end all

end Sys2Proof.Machine
end

