-- ==== Sys2Proof/Laws/Within.lean ====
section
/-! SUPPORT. What every state inside an operation shares with the state it began in, wherever the operation gets stuck
(spec/60_exceptions.md R408): no register outside the operation's own work has changed, and the block is sound. -/

namespace Sys2Proof.Machine

/-- `t` is inside an operation that began in `s`, with MODE `m` and ARBP_V `v`. -/
structure State.Inside (s : State) (m : Mode) (v : Bool) (t : State) : Prop where
  busy : t.busy = s.busy
  host : t.host = s.host
  hostData : t.hostData = s.hostData
  desc0 : t.desc0 = s.desc0
  desc1 : t.desc1 = s.desc1
  res0 : t.res0 = s.res0
  res0Valid : t.res0Valid = s.res0Valid
  txb : t.txb = s.txb
  par : t.par = s.par
  clkKhz : t.clkKhz = s.clkKhz
  driveMa : t.driveMa = s.driveMa
  ddrCfg : t.ddrCfg = s.ddrCfg
  cpFates : t.cpFates = s.cpFates
  sound : t.Sound
  mode : t.mode = m
  arbpV : t.arbpV = v

/-- `t` is inside an operation that began in `s`. -/
def State.Within (s t : State) : Prop := ∃ m v, s.Inside m v t

/-- A piece of an operation that began in `s`: where it goes on, `Q` holds; where it is stuck, it is within. -/
def Run.Stays {α : Type} (s : State) (r : Run α) (Q : α → State → Prop) : Prop :=
  match r with
  | .ok a t => Q a t
  | .done _ => True
  | .stuck t => s.Within t
  | .fault _ => True

/-- It goes on inside, with MODE `m` and ARBP_V `v`. -/
abbrev Run.At {α : Type} (s : State) (m : Mode) (v : Bool) (r : Run α) : Prop :=
  r.Stays s fun _ t => s.Inside m v t

/-- It does not go on. -/
abbrev Run.Closes {α : Type} (s : State) (r : Run α) : Prop := r.Stays s fun _ _ => False

section within
variable {s t : State} {m : Mode} {v : Bool} {α β : Type}

theorem Run.Stays.bind {r : Run α} {k : α → State → Run β} {Q : α → State → Prop} {Q' : β → State → Prop}
    (h : r.Stays s Q) (hk : ∀ a t, Q a t → (k a t).Stays s Q') : (r.bind k).Stays s Q' := by
  cases r with
  | ok a t => exact hk a t h
  | done t => trivial
  | stuck t => exact h
  | fault f => trivial

theorem Run.Stays.mono {r : Run α} {Q Q' : α → State → Prop} (h : r.Stays s Q) (hq : ∀ a t, Q a t → Q' a t) :
    r.Stays s Q' := by
  cases r with
  | ok a t => exact hq a t h
  | done t => trivial
  | stuck t => exact h
  | fault f => trivial

theorem Run.Closes.any {r : Run α} {Q : α → State → Prop} (h : r.Closes s) : r.Stays s Q :=
  Run.Stays.mono h fun _ _ h => h.elim

theorem finish_closes (st : Status) (n : Nat) (t : State) : (finish st n t : Run α).Closes s := trivial

/-- The same on both sides of a choice. -/
theorem Run.Stays.ite {c : Prop} [Decidable c] {r q : Run α} {Q : α → State → Prop} (h : r.Stays s Q)
    (h' : q.Stays s Q) : (if c then r else q).Stays s Q := by
  split
  · exact h
  · exact h'

/-- The fields the queue operations work on can change freely, within the depths and the widths. -/
theorem State.Inside.queue (h : s.Inside m v t) {q : List CmdWord} {r : List Word32} {sw : Option Nat} {b : BusPhase}
    {w : List CpCmd} {tr : List TraceEntry} {ul bd : Nat} {at' : Bool} {cb : Option Nat} {cpp : List Nat}
    {bi : List Word32} (hq : q.length ≤ t.par.cqDepth) (hr : r.length ≤ t.par.rqDepth)
    (hw : ∀ w, sw = some w → 1 ≤ w ∧ w ≤ 32) :
    s.Inside m v { t with
      cmdq := q, rspq := r, sampleW := sw, bus := b, wire := w, trace := tr, uncheckedLeft := ul, cpAtStart := at'
      cpBudget := cb, cpPace := cpp, busIn := bi, busDraws := bd } :=
  ⟨h.busy, h.host, h.hostData, h.desc0, h.desc1, h.res0, h.res0Valid, h.txb, h.par, h.clkKhz, h.driveMa, h.ddrCfg,
    h.cpFates, ⟨h.sound.prog, h.sound.arb, h.sound.table, h.sound.clk, h.sound.drive, hw, h.sound.par, h.sound.txbWf,
      h.sound.rxbWf, h.sound.defined, hq, hr⟩, h.mode, h.arbpV⟩

/-- So can the CRC, the draws of SDA, and RXB within its size. -/
theorem State.Inside.data (h : s.Inside m v t) {c : BitVec 5} {x : Memory} {n d : Nat} {si : List Bool} (hx : x.wf)
    (hn : n ≤ t.par.rxbufBytes) :
    s.Inside m v { t with crc := c, rxb := x, rxbValid := n, sdaIn := si, sdaDraws := d } :=
  ⟨h.busy, h.host, h.hostData, h.desc0, h.desc1, h.res0, h.res0Valid, h.txb, h.par, h.clkKhz, h.driveMa, h.ddrCfg,
    h.cpFates, ⟨h.sound.prog, h.sound.arb, h.sound.table, h.sound.clk, h.sound.drive, h.sound.width, h.sound.par,
      h.sound.txbWf, hx, hn, h.sound.cmdFits, h.sound.rspFits⟩, h.mode, h.arbpV⟩

theorem State.Inside.setCrc (h : s.Inside m v t) (c : BitVec 5) : s.Inside m v { t with crc := c } :=
  h.data h.sound.rxbWf h.sound.defined

theorem State.Inside.dropSda (h : s.Inside m v t) : s.Inside m v (dropSda t) := h.data h.sound.rxbWf h.sound.defined

/-- An operation is inside itself where it begins. -/
theorem State.Sound.inside (h : s.Sound) : s.Inside s.mode s.arbpV s :=
  ⟨rfl, rfl, rfl, rfl, rfl, rfl, rfl, rfl, rfl, rfl, rfl, rfl, rfl, h, rfl, rfl⟩

/-! ### The coprocessor -/

theorem cpDrive_at (c : CpCmd) (h : s.Inside m v t) : (cpDrive c t).At s m v := by
  unfold cpDrive
  split
  · exact h.queue h.sound.cmdFits h.sound.rspFits h.sound.width
  · split
    · trivial
    · split
      · trivial
      · rename_i hr
        exact h.queue h.sound.cmdFits (by rw [List.length_append, List.length_singleton]; omega) h.sound.width

theorem cpTake_at (e : CmdWord) (h : s.Inside m v t) : (cpTake e t).At s m v := by
  unfold cpTake
  split
  · exact cpDrive_at _ h
  · exact h

theorem cpStep_at (h : s.Inside m v t) : (cpStep t).At s m v := by
  unfold cpStep
  split
  · exact h
  · rename_i e q hq
    have hf := h.sound.cmdFits
    rw [hq, List.length_cons] at hf
    split
    · exact ⟨m, v, h⟩
    · exact cpTake_at e (h.queue (by omega) h.sound.rspFits h.sound.width)
    · exact cpTake_at e (h.queue (by omega) h.sound.rspFits h.sound.width)

theorem cpRun_at (n : Nat) (h : s.Inside m v t) : (cpRun n t).At s m v := by
  induction n generalizing t with
  | zero => exact h
  | succ n ih => exact (cpStep_at h).bind fun _ _ h => ih h

theorem cpFree_at (n : Nat) (h : s.Inside m v t) : (cpFree n t).At s m v := by
  induction n generalizing t with
  | zero => exact h
  | succ n ih => exact Run.Stays.ite h ((cpStep_at h).bind fun _ _ h => ih h)

theorem cpAlong_at (h : s.Inside m v t) : (cpAlong t).At s m v := by
  unfold cpAlong
  split
  · exact h
  · exact cpFree_at _ (h.queue h.sound.cmdFits h.sound.rspFits h.sound.width)

/-- A step of the coprocessor takes one word where there is one. -/
theorem cpStep_cmdq {a : Unit} {t' : State} (h : cpStep t = .ok a t') : t'.cmdq = t.cmdq.tail := by
  have drive : ∀ (c : CpCmd) (x x' : State), cpDrive c x = .ok a x' → x'.cmdq = x.cmdq := by
    intro c x x' e
    unfold cpDrive at e
    split at e
    · cases e; rfl
    · split at e
      · cases e
      · split at e
        · cases e
        · cases e; rfl
  have take : ∀ (w : CmdWord) (x x' : State), cpTake w x = .ok a x' → x'.cmdq = x.cmdq := by
    intro w x x' e
    unfold cpTake at e
    split at e
    · exact drive _ _ _ e
    · cases e; rfl
  unfold cpStep at h
  split at h
  · rename_i e
    cases h
    rw [e]
    rfl
  · rename_i w q hq
    rw [hq]
    split at h
    · cases h
    · exact take _ _ _ h
    · exact take _ _ _ h

theorem cpRun_cmdq (n : Nat) {a : Unit} {t' : State} (h : cpRun n t = .ok a t') : t'.cmdq = t.cmdq.drop n := by
  induction n generalizing t with
  | zero => cases h; rfl
  | succ n ih =>
    unfold cpRun at h
    cases e : cpStep t with
    | ok b u =>
      rw [e] at h
      rw [ih h, cpStep_cmdq e, List.drop_tail]
    | done u => rw [e] at h; cases h
    | stuck u => rw [e] at h; cases h
    | fault f => rw [e] at h; cases h

/-- After the wait there is a free slot (R153). -/
theorem waitNotFull_at (h : s.Inside m v t) :
    (waitNotFull t).Stays s fun _ t => s.Inside m v t ∧ t.cmdq.length < t.par.cqDepth := by
  have hd : 4 ≤ t.par.cqDepth := by
    have := h.sound.par
    simp only [Params.lawful, Bool.and_eq_true, decide_eq_true_eq] at this
    omega
  unfold waitNotFull
  split
  · exact ⟨h, by assumption⟩
  · have hr := cpRun_at (t.cmdq.length + 1 - t.par.cqDepth) h
    cases e : cpRun (t.cmdq.length + 1 - t.par.cqDepth) t with
    | ok a t' =>
      rw [e] at hr
      have hp : t'.par = t.par := hr.par.trans h.par.symm
      have hf := h.sound.cmdFits
      exact ⟨hr, by rw [cpRun_cmdq _ e, List.length_drop, hp]; omega⟩
    | done u => trivial
    | stuck u =>
      rw [e] at hr
      exact hr
    | fault f => trivial

/-! ### The queue -/

theorem putWord_at (e : CmdWord) (h : s.Inside m v t) : (putWord e t).At s m v :=
  (cpAlong_at h).bind fun _ _ h => (waitNotFull_at h).bind fun _ _ h =>
    h.1.queue (by rw [List.length_append, List.length_singleton]; exact h.2) h.1.sound.rspFits h.1.sound.width

theorem putWords_at (es : List CmdWord) (h : s.Inside m v t) : (putWords es t).At s m v := by
  induction es generalizing t with
  | nil => exact h
  | cons e es ih => exact (putWord_at e h).bind fun _ _ h => ih h

theorem put_at (c : CpCmd) (h : s.Inside m v t) : (put c t).At s m v :=
  Run.Stays.ite (putWords_at _ h) trivial

theorem emit_at (c : CpCmd) (h : s.Inside m v t) : (emit c t).At s m v :=
  (put_at c h).bind fun _ _ h => h.queue h.sound.cmdFits h.sound.rspFits h.sound.width

theorem awaitResponse_at (n : Nat) (h : s.Inside m v t) : (awaitResponse n t).At s m v := by
  induction n generalizing t with
  | zero => exact h
  | succ n ih => exact Run.Stays.ite ((cpStep_at h).bind fun _ _ h => ih h) h

theorem popResponse_at (c : CpCmd) (w : Nat) (h : s.Inside m v t) : (popResponse c w t).At s m v := by
  unfold popResponse
  split
  · exact ⟨m, v, h⟩
  · rename_i r q hq
    have hf := h.sound.rspFits
    rw [hq, List.length_cons] at hf
    exact h.queue h.sound.cmdFits (by omega) h.sound.width

theorem xfer_at (c : CpCmd) (hc : ∀ w, c.width = some w → 1 ≤ w ∧ w ≤ 32) (h : s.Inside m v t) :
    (xfer c t).At s m v := by
  have hn : s.Inside m v (needWidth c t) := by
    unfold needWidth
    split
    · exact h
    · rename_i w hw
      split
      · exact h
      · exact h.queue h.sound.cmdFits h.sound.rspFits fun x e => by cases e; exact hc w hw
  exact (put_at c hn).bind fun _ _ h => (awaitResponse_at _ h).bind fun _ _ h => popResponse_at c _ h

theorem waitUntilQueueEmpty_at (h : s.Inside m v t) : (waitUntilQueueEmpty t).At s m v :=
  (cpRun_at _ h).bind fun _ _ h => h.queue h.sound.cmdFits h.sound.rspFits h.sound.width

theorem waitPcStart_at (h : s.Inside m v t) : (waitPcStart t).At s m v :=
  Run.Stays.ite ⟨m, v, h⟩ (h.queue h.sound.cmdFits h.sound.rspFits h.sound.width)

theorem drain_at (h : s.Inside m v t) : (drain t).At s m v :=
  (waitUntilQueueEmpty_at h).bind fun _ _ h => waitPcStart_at h

theorem switchProgram_at (p : Mode) (hp : v = true → p = .sdr) (h : s.Inside m v t) : (switchProgram p t).At s p v := by
  refine (drain_at h).bind fun _ t h => ?_
  unfold loadProgram
  split
  · exact ⟨h.busy, h.host, h.hostData, h.desc0, h.desc1, h.res0, h.res0Valid, h.txb, h.par, h.clkKhz, h.driveMa,
      h.ddrCfg, h.cpFates, ⟨rfl, fun e => hp (h.arbpV.symm.trans e), h.sound.table, h.sound.clk, h.sound.drive,
        (fun w e => nomatch e), h.sound.par, h.sound.txbWf, h.sound.rxbWf, h.sound.defined, h.sound.cmdFits,
        h.sound.rspFits⟩, rfl, h.arbpV⟩
  · trivial

/-! ### The buffers -/

theorem txbByte_at (i : Nat) (h : s.Inside m v t) : (txbByte i t).At s m v := Run.Stays.ite h trivial

theorem rxbByte_at (i : Nat) (b : Byte) (h : s.Inside m v t) : (rxbByte i b t).At s m v := by
  unfold rxbByte
  split
  · exact h.data (Memory.wf_write _ h.sound.rxbWf _ _) (by assumption)
  · trivial

theorem txbWord_at (i : Nat) (h : s.Inside m v t) : (txbWord i t).At s m v :=
  (txbByte_at _ h).bind fun _ _ h => (txbByte_at _ h).bind fun _ _ h => h

theorem rxbWord_at (i : Nat) (w : DdrWord) (h : s.Inside m v t) : (rxbWord i w t).At s m v :=
  (rxbByte_at _ _ h).bind fun _ _ h => rxbByte_at _ _ h

/-! ### The phases -/

theorem sdrStopFinish_closes (st : Status) (n : Nat) (h : s.Inside m v t) :
    (sdrStopFinish st n t : Run α).Closes s :=
  (emit_at _ h).bind fun _ _ h => (drain_at h).bind fun _ _ _ => finish_closes _ _ _

/-- Every sampling command of this form has a width SAMPLE_W can hold (R38). -/
theorem od_sane (n : Nat) (x : BitVec n) (h : 1 ≤ n ∧ n ≤ 32) :
    ∀ w, (CpCmd.od n x).width = some w → 1 ≤ w ∧ w ≤ 32 := by
  intro w e
  cases e
  exact h

theorem dr_sane (n : Nat) (h : 1 ≤ n ∧ n ≤ 32) : ∀ w, (CpCmd.dr n).width = some w → 1 ≤ w ∧ w ≤ 32 := by
  intro w e
  cases e
  exact h

theorem arbHeader_at (h : s.Inside .sdr v t) :
    (arbHeader t).Stays s fun a t => s.Inside .sdr (if a = .lost then true else v) t := by
  refine (xfer_at _ (od_sane _ _ (by decide)) h).bind fun s6 t h => ?_
  split
  · refine (xfer_at _ (od_sane _ _ (by decide)) h).bind fun r t h => ?_
    show s.Inside .sdr _ t
    rw [if_neg (by cases isAck r <;> simp)]
    exact h
  · refine (xfer_at _ (od_sane _ _ (by decide)) h).bind fun r t h => ?_
    exact ⟨h.busy, h.host, h.hostData, h.desc0, h.desc1, h.res0, h.res0Valid, h.txb, h.par, h.clkKhz, h.driveMa,
      h.ddrCfg, h.cpFates, ⟨h.sound.prog, fun _ => h.mode, h.sound.table, h.sound.clk, h.sound.drive, h.sound.width,
        h.sound.par, h.sound.txbWf, h.sound.rxbWf, h.sound.defined, h.sound.cmdFits, h.sound.rspFits⟩, h.mode, rfl⟩

theorem sdrPrologue_at (h : s.Inside .sdr v t) : (sdrPrologue t).At s .sdr v := by
  refine (emit_at _ h).bind fun _ t h => (arbHeader_at h).bind fun a t h => ?_
  cases a with
  | lost => exact (drain_at h).bind fun _ _ _ => (finish_closes _ _ _).any
  | nack => exact (sdrStopFinish_closes _ _ h).any
  | ack => exact h

theorem restartAddr_at (a : BusAddr) (rnw : Bool) (h : s.Inside m v t) : (restartAddr a rnw t).At s m v :=
  (emit_at _ h).bind fun _ _ h => Run.Stays.bind (Q := fun _ t => s.Inside m v t)
    ((xfer_at _ (od_sane _ _ (by decide)) h).bind fun _ _ h => h)
    fun _ _ h => Run.Stays.ite h (sdrStopFinish_closes _ _ h).any

theorem sdrWriteByte_at (b : Byte) (h : s.Inside m v t) : (sdrWriteByte b t).At s m v :=
  (emit_at _ h).bind fun _ _ h => emit_at _ h

theorem sdrWriteBytes_at (n i : Nat) (h : s.Inside m v t) : (sdrWriteBytes n i t).At s m v := by
  induction n generalizing i t with
  | zero => exact h
  | succ n ih => exact (txbByte_at _ h).bind fun _ _ h => (sdrWriteByte_at _ h).bind fun _ _ h => ih _ h

theorem sdrReadBytes_at (left base n : Nat) (h : s.Inside m v t) : (sdrReadBytes left base n t).At s m v := by
  induction left generalizing n t with
  | zero => exact h
  | succ k ih =>
    exact (xfer_at _ (fun w e => by cases e; decide) h).bind fun _ _ h => (rxbByte_at _ _ h).bind fun _ _ h =>
      Run.Stays.ite h (ih _ h)

theorem enterDdr_at (h : s.Inside m false t) : (enterDdr t).At s .ddr false := by
  unfold enterDdr
  rw [h.mode]
  cases m with
  | sdr =>
    exact (sdrPrologue_at h).bind fun _ _ h => (sdrWriteByte_at _ h).bind fun _ _ h => switchProgram_at _ (by simp) h
  | ddr => exact h

theorem ddrCommand_at (a : BusAddr) (c : Byte) (rnw : Bool) (h : s.Inside m v t) : (ddrCommand a c rnw t).At s m v :=
  emit_at _ (h.setCrc _)

theorem ddrFinalize_closes (fwr : Bool) (st : Status) (n : Nat) (h : s.Inside m v t) :
    (ddrFinalize fwr st n t).Closes s :=
  Run.Stays.ite ((emit_at _ h).bind fun _ _ h => (drain_at h).bind fun _ _ _ => finish_closes _ _ _)
    ((emit_at _ h).bind fun _ _ h => (switchProgram_at _ (fun _ => rfl) h).bind fun _ _ _ => finish_closes _ _ _)

theorem sdrEntry_closes (hs : s.Sound) (ok : Bool) {body : State → Run Unit}
    (hb : ∀ t, s.Inside .sdr false t → (body t).Closes s) : (sdrEntry ok body s).Closes s := by
  unfold sdrEntry
  split
  · trivial
  · rename_i hm
    have hm : s.mode = .sdr := by
      cases e : s.mode with
      | sdr => rfl
      | ddr => exact absurd e hm
    split
    · trivial
    · rename_i hp
      have ha : s.arbpV = false := by
        cases e : s.arbpV with
        | false => rfl
        | true => exact absurd (by simp [entryPending, e]) hp
      refine Run.Stays.ite trivial (hb _ ?_)
      have := hs.inside
      rw [hm, ha] at this
      rw [afterEntryPending, ha]
      exact this.dropSda

theorem ddrEntry_closes (hs : s.Sound) (ok : Bool) {body : State → Run Unit}
    (hb : ∀ m t, s.Inside m false t → (body t).Closes s) : (ddrEntry ok body s).Closes s := by
  unfold ddrEntry
  split
  · split
    · trivial
    · rename_i hp
      have ha : s.arbpV = false := by
        cases e : s.arbpV with
        | false => rfl
        | true => exact absurd (by simp [entryPending, e]) hp
      refine Run.Stays.ite trivial (hb s.mode _ ?_)
      have := hs.inside
      rw [ha] at this
      rw [afterEntryPending, ha]
      exact this.dropSda
  · rename_i hm
    have ha : s.arbpV = false := by
      cases e : s.arbpV with
      | false => rfl
      | true => exact absurd (hs.arb e) hm
    refine Run.Stays.ite trivial (hb s.mode _ ?_)
    have := hs.inside
    rwa [ha] at this

/-! ### The operations -/

theorem entdaaIdBytes_at (n i : Nat) (h : s.Inside m v t) : (entdaaIdBytes n i t).At s m v := by
  induction n generalizing i t with
  | zero => exact h
  | succ n ih =>
    refine (xfer_at _ ?_ h).bind fun _ _ h => (rxbByte_at _ _ h).bind fun _ _ h => ih _ h
    unfold idFrame
    split <;> exact od_sane _ _ (by decide)

theorem pollService_closes (lb : Nat) (b : Byte) (h : s.Inside .sdr v t) : (pollService lb b t).Closes s := by
  have h' : s.Inside .sdr false { t with arbpV := false } :=
    ⟨h.busy, h.host, h.hostData, h.desc0, h.desc1, h.res0, h.res0Valid, h.txb, h.par, h.clkKhz, h.driveMa, h.ddrCfg,
      h.cpFates, ⟨h.sound.prog, (fun e => nomatch e), h.sound.table, h.sound.clk, h.sound.drive, h.sound.width,
        h.sound.par, h.sound.txbWf, h.sound.rxbWf, h.sound.defined, h.sound.cmdFits, h.sound.rspFits⟩, h.mode, rfl⟩
  exact (rxbByte_at _ _ h').bind fun _ _ h => Run.Stays.ite
    ((xfer_at _ (od_sane _ _ (by decide)) h).bind fun _ _ h => (sdrReadBytes_at _ _ _ h).bind fun _ _ h =>
      sdrStopFinish_closes _ _ h)
    (Run.Stays.ite ((xfer_at _ (od_sane _ _ (by decide)) h).bind fun _ _ h => sdrStopFinish_closes _ _ h)
      ((xfer_at _ (od_sane _ _ (by decide)) h).bind fun _ _ h => sdrStopFinish_closes _ _ h))

theorem pollStartType_closes (lb : Nat) (h : s.Inside .sdr v t) : (pollStartType lb t).Closes s :=
  (emit_at _ h).bind fun _ _ h => (xfer_at _ (od_sane _ _ (by decide)) h).bind fun _ _ h => Run.Stays.ite
    ((xfer_at _ (od_sane _ _ (by decide)) h).bind fun _ _ h => sdrStopFinish_closes _ _ h)
    ((xfer_at _ (od_sane _ _ (by decide)) h).bind fun _ _ h => pollService_closes _ _ h)

theorem pollBody_closes (lb : Nat) (hs : s.Sound) : (pollBody lb s).Closes s := by
  unfold pollBody
  split
  · trivial
  · rename_i hm
    have h : s.Inside .sdr s.arbpV s := by
      have := hs.inside
      cases e : s.mode with
      | sdr => rwa [e] at this
      | ddr => exact absurd e hm
    exact Run.Stays.ite (Run.Stays.ite (pollService_closes _ _ h) trivial)
      (Run.Stays.ite trivial (Run.Stays.ite (pollStartType_closes _ h.dropSda) trivial))

theorem ddrWriteLoop_at (ack et : Bool) (left i : Nat) (h : s.Inside m v t) : (ddrWriteLoop ack et left i t).At s m v := by
  induction left generalizing i t with
  | zero => exact h
  | succ k ih =>
    exact (txbWord_at _ h).bind fun _ _ h => Run.Stays.ite
      ((xfer_at _ (fun w e => by cases e; decide) (h.setCrc _)).bind fun _ _ h => Run.Stays.ite (h.setCrc _)
        (Run.Stays.ite (h.setCrc _) ((emit_at _ h).bind fun _ _ h => ih _ h)))
      ((emit_at _ (h.setCrc _)).bind fun _ _ h => (emit_at _ h).bind fun _ _ h => ih _ h)

theorem ddrReadMore_at (left n : Nat) (h : s.Inside m v t) : (ddrReadMore left n t).At s m v := by
  induction left generalizing n t with
  | zero => exact h
  | succ k ih =>
    exact (xfer_at _ (dr_sane _ (by decide)) h).bind fun _ _ h => Run.Stays.ite
      ((xfer_at _ (dr_sane _ (by decide)) h).bind fun _ _ h => Run.Stays.ite
        ((rxbWord_at _ _ (h.setCrc _)).bind fun _ _ h => ih _ h) (h.setCrc _))
      (Run.Stays.ite h h)

theorem ddrReadLoop_at (lb : Nat) (h : s.Inside m v t) : (ddrReadLoop lb t).At s m v :=
  (xfer_at _ (dr_sane _ (by decide)) h).bind fun _ _ h => Run.Stays.ite h
    ((xfer_at _ (dr_sane _ (by decide)) h).bind fun _ _ h => Run.Stays.ite
      ((rxbWord_at _ _ (h.setCrc _)).bind fun _ _ h => ddrReadMore_at _ _ h) (h.setCrc _))

theorem ddrReadTerminate_at (r : ReadEnd) (h : s.Inside m v t) : (ddrReadTerminate r t).At s m v :=
  Run.Stays.ite ((emit_at _ h).bind fun _ _ h => Run.Stays.ite
    ((xfer_at _ (dr_sane _ (by decide)) h).bind fun _ _ h => h) h) h

theorem targetResetBody_closes (hs : s.Sound) : (targetResetBody s).Closes s := by
  have h := hs.inside
  exact Run.Stays.bind (Q := fun _ t => s.Within t)
    (Run.Stays.ite ((switchProgram_at _ (fun _ => rfl) h).mono fun _ _ h => ⟨_, _, h⟩) ⟨_, _, h⟩)
    fun _ _ ⟨_, _, h⟩ => (emit_at _ h).bind fun _ _ h => (drain_at h).bind fun _ _ _ => finish_closes _ _ _

/-- Every operation that is stuck is stuck inside itself. -/
theorem runOf_closes (i : Instr) (hs : s.Sound) : (runOf i s).Closes s := by
  cases i with
  | privateWrite a la =>
    exact sdrEntry_closes hs _ fun _ h => (sdrPrologue_at h).bind fun _ _ h => (restartAddr_at _ _ h).bind fun _ _ h =>
      (sdrWriteBytes_at _ _ h).bind fun _ _ h => sdrStopFinish_closes _ _ h
  | privateRead a lb =>
    exact sdrEntry_closes hs _ fun _ h => (sdrPrologue_at h).bind fun _ _ h => (restartAddr_at _ _ h).bind fun _ _ h =>
      (sdrReadBytes_at _ _ _ h).bind fun _ _ h => sdrStopFinish_closes _ _ h
  | privateWriteRead a la lb =>
    exact sdrEntry_closes hs _ fun _ h => (sdrPrologue_at h).bind fun _ _ h => (restartAddr_at _ _ h).bind fun _ _ h =>
      (sdrWriteBytes_at _ _ h).bind fun _ _ h => (restartAddr_at _ _ h).bind fun _ _ h =>
      (sdrReadBytes_at _ _ _ h).bind fun _ _ h => sdrStopFinish_closes _ _ h
  | cccBcastWrite la =>
    exact sdrEntry_closes hs _ fun _ h => (sdrPrologue_at h).bind fun _ _ h => (sdrWriteBytes_at _ _ h).bind fun _ _ h =>
      sdrStopFinish_closes _ _ h
  | cccDirectWrite a la lb =>
    exact sdrEntry_closes hs _ fun _ h => (sdrPrologue_at h).bind fun _ _ h => (sdrWriteBytes_at _ _ h).bind fun _ _ h =>
      (restartAddr_at _ _ h).bind fun _ _ h => (sdrWriteBytes_at _ _ h).bind fun _ _ h => sdrStopFinish_closes _ _ h
  | cccDirectRead a la lb =>
    exact sdrEntry_closes hs _ fun _ h => (sdrPrologue_at h).bind fun _ _ h => (sdrWriteBytes_at _ _ h).bind fun _ _ h =>
      (restartAddr_at _ _ h).bind fun _ _ h => (sdrReadBytes_at _ _ _ h).bind fun _ _ h => sdrStopFinish_closes _ _ h
  | entdaa a =>
    exact sdrEntry_closes hs _ fun _ h => (sdrPrologue_at h).bind fun _ _ h => (sdrWriteByte_at _ h).bind fun _ _ h =>
      (restartAddr_at _ _ h).bind fun _ _ h => (entdaaIdBytes_at _ _ h).bind fun _ _ h =>
      (xfer_at _ (od_sane _ _ (by decide)) h).bind fun _ _ h =>
      Run.Stays.ite (sdrStopFinish_closes _ _ h) (sdrStopFinish_closes _ _ h)
  | rstdaa =>
    exact sdrEntry_closes hs _ fun _ h => (sdrPrologue_at h).bind fun _ _ h => (sdrWriteByte_at _ h).bind fun _ _ h =>
      sdrStopFinish_closes _ _ h
  | checkAck a =>
    exact sdrEntry_closes hs _ fun _ h => (sdrPrologue_at h).bind fun _ _ h => (restartAddr_at _ _ h).bind fun _ _ h =>
      sdrStopFinish_closes _ _ h
  | arbHeaderOnly =>
    exact sdrEntry_closes hs _ fun _ h => (sdrPrologue_at h).bind fun _ _ h => sdrStopFinish_closes _ _ h
  | poll lb => exact pollBody_closes lb hs
  | ddrWrite a c fwr la =>
    exact ddrEntry_closes hs _ fun _ _ h => (enterDdr_at h).bind fun _ _ h => (ddrCommand_at _ _ _ h).bind fun _ _ h =>
      (ddrWriteLoop_at _ _ _ _ h).bind fun _ _ h => Run.Stays.bind (Q := fun _ t => s.Inside .ddr false t)
        (Run.Stays.ite (emit_at _ h) h) fun _ _ h => ddrFinalize_closes _ _ _ h
  | ddrRead a c fwr lb =>
    exact ddrEntry_closes hs _ fun _ _ h => (enterDdr_at h).bind fun _ _ h => (ddrCommand_at _ _ _ h).bind fun _ _ h =>
      (ddrReadLoop_at _ h).bind fun _ _ h => (ddrReadTerminate_at _ h).bind fun _ _ h => ddrFinalize_closes _ _ _ h
  | setDdrConfig ack et crcet => trivial
  | setClock la => exact Run.Stays.ite (finish_closes _ _ _) (finish_closes _ _ _)
  | setDrive la => exact Run.Stays.ite (finish_closes _ _ _) (finish_closes _ _ _)
  | targetReset => exact targetResetBody_closes hs

/-- The state in which an operation is stuck. -/
theorem stuckIn_within {i : Instr} (hs : s.Sound) (h : stuckIn i s = some t) : s.Within t := by
  have hc := runOf_closes i hs
  unfold stuckIn at h
  cases e : runOf i s with
  | ok a u => rw [e] at h; cases h
  | done u => rw [e] at h; cases h
  | stuck u =>
    rw [e] at h hc
    cases h
    exact hc
  | fault f => rw [e] at h; cases h

end within

end Sys2Proof.Machine
end

