-- ==== Sys2Proof/Laws/Result.lean ====
section
/-! SUPPORT. The result word's fields (spec/30_encoding.md R104), and what a next state of an operation gives: the
summary, and readiness for the next operation. -/

namespace Sys2Proof.Machine

theorem resWord_code (st : Status) (n : Nat) : (resWord st n).extractLsb' 0 4 = st.code := by
  unfold resWord
  ext i hi
  simp only [BitVec.getElem_extractLsb', BitVec.getLsbD_append, Nat.zero_add]
  simp [hi, BitVec.getLsbD_eq_getElem]

theorem resWord_zero (st : Status) (n : Nat) : (resWord st n).extractLsb' 4 12 = 0#12 := by
  unfold resWord
  ext i hi
  simp only [BitVec.getElem_extractLsb', BitVec.getLsbD_append]
  simp [show ¬ (4 + i < 4) by omega, show 4 + i - 4 = i by omega, hi]

theorem resWord_count (st : Status) {n : Nat} (h : n < 65536) : ((resWord st n).extractLsb' 16 16).toNat = n := by
  have : (resWord st n).extractLsb' 16 16 = BitVec.ofNat 16 n := by
    unfold resWord
    ext i hi
    simp only [BitVec.getElem_extractLsb', BitVec.getLsbD_append]
    simp [show ¬ (16 + i < 4) by omega, show ¬ (16 + i - 4 < 12) by omega, show 16 + i - 4 - 12 = i by omega]
    rw [BitVec.getLsbD_eq_getElem hi]
  rw [this, BitVec.toNat_ofNat]
  omega

theorem Status.code_inj {a b : Status} (h : a.code = b.code) : a = b := by
  cases a <;> cases b <;> first | rfl | exact absurd h (by decide)

/-- A result word determines its status and its count. -/
theorem resWord_inj {a b : Status} {n m : Nat} (hn : n < 65536) (hm : m < 65536) :
    resWord a n = resWord b m ↔ a = b ∧ n = m := by
  constructor
  · intro h
    refine ⟨Status.code_inj ?_, ?_⟩
    · rw [← resWord_code a n, ← resWord_code b m, h]
    · rw [← resWord_count a hn, ← resWord_count b hm, h]
  · rintro ⟨rfl, rfl⟩
    rfl

section exec
variable {i : Instr} {s t : State}

/-- A next state of an operation from a ready state. -/
theorem exec_next (hr : s.Ready) (h : exec i s = .next t) : Ends i s.settle t.settle ∧ t.Quiet := by
  rw [exec_run] at h
  exact Run.Post.outcome_of_next (runOf_post (L := false) i hr (by simp)) h

/-- With a live coprocessor there is a next state. -/
theorem exec_ends (h : s.Runs) : ∃ t, exec i s = .next t ∧ Ends i s.settle t.settle ∧ t.Quiet ∧ t.Live := by
  rw [exec_run]
  exact Run.Post.outcome (runOf_post (L := true) i h.ready fun _ => h.live)

/-- An operation from a ready state ends or is stuck. -/
theorem runOf_stuck (hr : s.Ready) : (∃ t, runOf i s = .done t) ∨ ∃ t, runOf i s = .stuck t := by
  have := runOf_post (L := false) i hr (by simp)
  cases h : runOf i s with
  | ok a s' =>
    rw [h] at this
    obtain ⟨u, -, hq⟩ := this
    exact hq.elim
  | done t => exact .inl ⟨t, rfl⟩
  | stuck t => exact .inr ⟨t, rfl⟩
  | fault f =>
    rw [h] at this
    exact this.elim

/-- An operation from a ready state has a next state or is stuck. -/
theorem exec_stuck (hr : s.Ready) : (∃ t, exec i s = .next t) ∨ exec i s = .fault .stuck := by
  rw [exec_run]
  obtain ⟨t, h⟩ | ⟨t, h⟩ := runOf_stuck (i := i) hr <;> rw [h]
  · exact .inl ⟨t, rfl⟩
  · exact .inr rfl

/-- An operation stuck in a state has no step of its own. -/
theorem exec_of_stuckIn (h : stuckIn i s = some t) : exec i s = .fault .stuck := by
  rw [exec_run]
  unfold stuckIn at h
  cases e : runOf i s with
  | ok a u => rw [e] at h; cases h
  | done u => rw [e] at h; cases h
  | stuck u => rfl
  | fault f => rw [e] at h; cases h

/-- From a ready state, one without a step is stuck in a state. -/
theorem stuckIn_of_exec (hr : s.Ready) (h : exec i s = .fault .stuck) : ∃ t, stuckIn i s = some t := by
  rw [exec_run] at h
  unfold stuckIn
  obtain ⟨t, e⟩ | ⟨t, e⟩ := runOf_stuck (i := i) hr
  · rw [e] at h
    cases h
  · rw [e]
    exact ⟨t, rfl⟩

/-- The submit of an operation that is not stuck is its meaning (R232). -/
theorem submit_exec (hd : decode s.desc0 s.desc1 = .ok i) (h : exec i (beginOp s) ≠ .fault .stuck) :
    submit s = exec i (beginOp s) := by
  unfold submit
  rw [hd]
  cases e : stuckIn i (beginOp s) with
  | none =>
    show leaveBusy (stuckIn i (beginOp s)) _ = _
    rw [e]
    rfl
  | some t => exact absurd (exec_of_stuckIn e) h

/-- The submit of one that is stuck leaves the state it is stuck in (R408). -/
theorem submit_stuck (hd : decode s.desc0 s.desc1 = .ok i) (h : stuckIn i (beginOp s) = some t) :
    submit s = .next t := by
  unfold submit
  rw [hd]
  show leaveBusy (stuckIn i (beginOp s)) _ = _
  rw [h]
  rfl

/-- Fields that only the host and the record of an operation touch do not matter for readiness. -/
theorem State.Ready.begin (h : s.Ready) (hs : List HostAct) (d0 d1 : Word32) :
    (beginOp { s with host := hs, desc0 := d0, desc1 := d1 }).Ready :=
  ⟨⟨h.prog, h.arb, h.table, h.clk, h.drive, h.width, h.par, h.txbWf, h.rxbWf, Nat.zero_le _, h.cmdFits, h.rspFits⟩,
    ⟨h.quiet.cmdq, h.quiet.rspq, h.quiet.atStart⟩⟩

/-- With BUSY = 0 the invariant makes the block ready. -/
theorem State.Inv.ready (h : s.Inv) (hb : s.busy = false) : s.Ready := ⟨h.sound, h.quiet hb⟩

/-- A restart leaves the block ready, whatever it was doing (R450 to R452). -/
theorem initialise_ready (h : s.par.lawful = true) : (initialise s).Ready := by
  have h' := h
  simp only [Params.lawful, Bool.and_eq_true, decide_eq_true_eq] at h'
  exact ⟨⟨rfl, (fun h => nomatch h), rfl, h'.1.1.2, h'.1.2, (fun _ h => nomatch h), h, Memory.wf_nil, Memory.wf_nil,
    Nat.zero_le _, Nat.zero_le _, Nat.zero_le _⟩, ⟨rfl, rfl, rfl⟩⟩

/-- The next state is ready for the next operation. -/
theorem ready_of (hr : s.Ready) (h : Ends i s.settle t.settle) (hq : t.Quiet) : t.Ready := by
  obtain ⟨st, n, cs, bs, h⟩ := h
  have hpar : t.par = s.par := h.par
  refine ⟨⟨h.prog, h.arbMode, h.sdrTab.trans hr.table, ?_, ?_, ?_, ?_, ?_, ?_, ?_, ?_, ?_⟩, hq⟩
  · rcases h.clkLegal with e | e
    · have e : t.clkKhz = s.clkKhz := e
      rw [e]
      exact hr.clk
    · exact e
  · rcases h.driveIsLegal with e | e
    · have e : t.driveMa = s.driveMa := e
      rw [e]
      exact hr.drive
    · exact e
  · intro w hw
    rcases h.width w hw with e | e
    · exact hr.width w e
    · exact e
  · rw [hpar]
    exact hr.par
  · have e : t.txb = s.txb := h.txb
    rw [e]
    exact hr.txbWf
  · have e : t.rxb = s.rxb.writeList 0 bs := h.rxb
    rw [e]
    exact Memory.wf_writeList _ hr.rxbWf _ _
  · have e2 : t.rxbValid = if bs = [] then s.rxbValid else bs.length := h.valid
    have e3 : bs.length ≤ s.par.rxbufBytes := h.fits
    rw [hpar, e2]
    split
    · exact hr.defined
    · exact e3
  · rw [hq.cmdq]
    exact Nat.zero_le _
  · rw [hq.rspq]
    exact Nat.zero_le _

end exec

end Sys2Proof.Machine
end

