-- ==== Sys2Proof/Laws/State.lean ====
section
/-! SUPPORT. What each named update of the state writes and leaves: one lemma per field and update. -/

namespace Sys2Proof.Machine

/-! ## Taking an answer of the bus (R5) -/

@[simp] theorem dropAnswer_mode (s : State) : (dropAnswer s).mode = s.mode := rfl
@[simp] theorem dropAnswer_arbpV (s : State) : (dropAnswer s).arbpV = s.arbpV := rfl
@[simp] theorem dropAnswer_arbpB (s : State) : (dropAnswer s).arbpB = s.arbpB := rfl
@[simp] theorem dropAnswer_ddrCfg (s : State) : (dropAnswer s).ddrCfg = s.ddrCfg := rfl
@[simp] theorem dropAnswer_clkKhz (s : State) : (dropAnswer s).clkKhz = s.clkKhz := rfl
@[simp] theorem dropAnswer_driveMa (s : State) : (dropAnswer s).driveMa = s.driveMa := rfl
@[simp] theorem dropAnswer_sdrTab (s : State) : (dropAnswer s).sdrTab = s.sdrTab := rfl
@[simp] theorem dropAnswer_sampleW (s : State) : (dropAnswer s).sampleW = s.sampleW := rfl
@[simp] theorem dropAnswer_crc (s : State) : (dropAnswer s).crc = s.crc := rfl
@[simp] theorem dropAnswer_busy (s : State) : (dropAnswer s).busy = s.busy := rfl
@[simp] theorem dropAnswer_desc0 (s : State) : (dropAnswer s).desc0 = s.desc0 := rfl
@[simp] theorem dropAnswer_desc1 (s : State) : (dropAnswer s).desc1 = s.desc1 := rfl
@[simp] theorem dropAnswer_res0 (s : State) : (dropAnswer s).res0 = s.res0 := rfl
@[simp] theorem dropAnswer_txb (s : State) : (dropAnswer s).txb = s.txb := rfl
@[simp] theorem dropAnswer_rxb (s : State) : (dropAnswer s).rxb = s.rxb := rfl
@[simp] theorem dropAnswer_cmdq (s : State) : (dropAnswer s).cmdq = s.cmdq := rfl
@[simp] theorem dropAnswer_rspq (s : State) : (dropAnswer s).rspq = s.rspq := rfl
@[simp] theorem dropAnswer_cpProg (s : State) : (dropAnswer s).cpProg = s.cpProg := rfl
@[simp] theorem dropAnswer_cpAtStart (s : State) : (dropAnswer s).cpAtStart = s.cpAtStart := rfl
@[simp] theorem dropAnswer_bus (s : State) : (dropAnswer s).bus = s.bus := rfl
@[simp] theorem dropAnswer_par (s : State) : (dropAnswer s).par = s.par := rfl
@[simp] theorem dropAnswer_res0Valid (s : State) : (dropAnswer s).res0Valid = s.res0Valid := rfl
@[simp] theorem dropAnswer_rxbValid (s : State) : (dropAnswer s).rxbValid = s.rxbValid := rfl
@[simp] theorem dropAnswer_uncheckedLeft (s : State) : (dropAnswer s).uncheckedLeft = s.uncheckedLeft := rfl
@[simp] theorem dropAnswer_trace (s : State) : (dropAnswer s).trace = s.trace := rfl
@[simp] theorem dropAnswer_wire (s : State) : (dropAnswer s).wire = s.wire := rfl
@[simp] theorem dropAnswer_host (s : State) : (dropAnswer s).host = s.host := rfl
@[simp] theorem dropAnswer_hostData (s : State) : (dropAnswer s).hostData = s.hostData := rfl
@[simp] theorem dropAnswer_sdaIn (s : State) : (dropAnswer s).sdaIn = s.sdaIn := rfl
@[simp] theorem dropAnswer_sdaDraws (s : State) : (dropAnswer s).sdaDraws = s.sdaDraws := rfl
@[simp] theorem dropAnswer_busIn (s : State) : (dropAnswer s).busIn = s.busIn.tail := rfl
@[simp] theorem dropAnswer_busDraws (s : State) :
    (dropAnswer s).busDraws = s.busDraws + if s.busIn = [] then 1 else 0 := rfl
@[simp] theorem dropAnswer_cpBudget (s : State) : (dropAnswer s).cpBudget = s.cpBudget := rfl
@[simp] theorem dropAnswer_cpReturns (s : State) : (dropAnswer s).cpReturns = s.cpReturns := rfl
@[simp] theorem dropAnswer_cpFates (s : State) : (dropAnswer s).cpFates = s.cpFates := rfl
@[simp] theorem dropAnswer_cpPace (s : State) : (dropAnswer s).cpPace = s.cpPace := rfl

/-! ## Taking a draw of SDA (R17) -/

@[simp] theorem dropSda_mode (s : State) : (dropSda s).mode = s.mode := rfl
@[simp] theorem dropSda_arbpV (s : State) : (dropSda s).arbpV = s.arbpV := rfl
@[simp] theorem dropSda_arbpB (s : State) : (dropSda s).arbpB = s.arbpB := rfl
@[simp] theorem dropSda_ddrCfg (s : State) : (dropSda s).ddrCfg = s.ddrCfg := rfl
@[simp] theorem dropSda_clkKhz (s : State) : (dropSda s).clkKhz = s.clkKhz := rfl
@[simp] theorem dropSda_driveMa (s : State) : (dropSda s).driveMa = s.driveMa := rfl
@[simp] theorem dropSda_sdrTab (s : State) : (dropSda s).sdrTab = s.sdrTab := rfl
@[simp] theorem dropSda_sampleW (s : State) : (dropSda s).sampleW = s.sampleW := rfl
@[simp] theorem dropSda_crc (s : State) : (dropSda s).crc = s.crc := rfl
@[simp] theorem dropSda_busy (s : State) : (dropSda s).busy = s.busy := rfl
@[simp] theorem dropSda_desc0 (s : State) : (dropSda s).desc0 = s.desc0 := rfl
@[simp] theorem dropSda_desc1 (s : State) : (dropSda s).desc1 = s.desc1 := rfl
@[simp] theorem dropSda_res0 (s : State) : (dropSda s).res0 = s.res0 := rfl
@[simp] theorem dropSda_txb (s : State) : (dropSda s).txb = s.txb := rfl
@[simp] theorem dropSda_rxb (s : State) : (dropSda s).rxb = s.rxb := rfl
@[simp] theorem dropSda_cmdq (s : State) : (dropSda s).cmdq = s.cmdq := rfl
@[simp] theorem dropSda_rspq (s : State) : (dropSda s).rspq = s.rspq := rfl
@[simp] theorem dropSda_cpProg (s : State) : (dropSda s).cpProg = s.cpProg := rfl
@[simp] theorem dropSda_cpAtStart (s : State) : (dropSda s).cpAtStart = s.cpAtStart := rfl
@[simp] theorem dropSda_bus (s : State) : (dropSda s).bus = s.bus := rfl
@[simp] theorem dropSda_par (s : State) : (dropSda s).par = s.par := rfl
@[simp] theorem dropSda_res0Valid (s : State) : (dropSda s).res0Valid = s.res0Valid := rfl
@[simp] theorem dropSda_rxbValid (s : State) : (dropSda s).rxbValid = s.rxbValid := rfl
@[simp] theorem dropSda_uncheckedLeft (s : State) : (dropSda s).uncheckedLeft = s.uncheckedLeft := rfl
@[simp] theorem dropSda_trace (s : State) : (dropSda s).trace = s.trace := rfl
@[simp] theorem dropSda_wire (s : State) : (dropSda s).wire = s.wire := rfl
@[simp] theorem dropSda_host (s : State) : (dropSda s).host = s.host := rfl
@[simp] theorem dropSda_hostData (s : State) : (dropSda s).hostData = s.hostData := rfl
@[simp] theorem dropSda_sdaIn (s : State) : (dropSda s).sdaIn = s.sdaIn.tail := rfl
@[simp] theorem dropSda_sdaDraws (s : State) :
    (dropSda s).sdaDraws = s.sdaDraws + if s.sdaIn = [] then 1 else 0 := rfl
@[simp] theorem dropSda_busIn (s : State) : (dropSda s).busIn = s.busIn := rfl
@[simp] theorem dropSda_busDraws (s : State) : (dropSda s).busDraws = s.busDraws := rfl
@[simp] theorem dropSda_cpBudget (s : State) : (dropSda s).cpBudget = s.cpBudget := rfl
@[simp] theorem dropSda_cpReturns (s : State) : (dropSda s).cpReturns = s.cpReturns := rfl
@[simp] theorem dropSda_cpFates (s : State) : (dropSda s).cpFates = s.cpFates := rfl
@[simp] theorem dropSda_cpPace (s : State) : (dropSda s).cpPace = s.cpPace := rfl

/-! ## `set_sample_width(n)` (R155) -/

@[simp] theorem setSampleWidth_mode (s : State) (n : Nat) : (setSampleWidth n s).mode = s.mode := rfl
@[simp] theorem setSampleWidth_arbpV (s : State) (n : Nat) : (setSampleWidth n s).arbpV = s.arbpV := rfl
@[simp] theorem setSampleWidth_arbpB (s : State) (n : Nat) : (setSampleWidth n s).arbpB = s.arbpB := rfl
@[simp] theorem setSampleWidth_ddrCfg (s : State) (n : Nat) : (setSampleWidth n s).ddrCfg = s.ddrCfg := rfl
@[simp] theorem setSampleWidth_clkKhz (s : State) (n : Nat) : (setSampleWidth n s).clkKhz = s.clkKhz := rfl
@[simp] theorem setSampleWidth_driveMa (s : State) (n : Nat) : (setSampleWidth n s).driveMa = s.driveMa := rfl
@[simp] theorem setSampleWidth_sdrTab (s : State) (n : Nat) : (setSampleWidth n s).sdrTab = s.sdrTab := rfl
@[simp] theorem setSampleWidth_sampleW (s : State) (n : Nat) : (setSampleWidth n s).sampleW = some n := rfl
@[simp] theorem setSampleWidth_crc (s : State) (n : Nat) : (setSampleWidth n s).crc = s.crc := rfl
@[simp] theorem setSampleWidth_busy (s : State) (n : Nat) : (setSampleWidth n s).busy = s.busy := rfl
@[simp] theorem setSampleWidth_desc0 (s : State) (n : Nat) : (setSampleWidth n s).desc0 = s.desc0 := rfl
@[simp] theorem setSampleWidth_desc1 (s : State) (n : Nat) : (setSampleWidth n s).desc1 = s.desc1 := rfl
@[simp] theorem setSampleWidth_res0 (s : State) (n : Nat) : (setSampleWidth n s).res0 = s.res0 := rfl
@[simp] theorem setSampleWidth_txb (s : State) (n : Nat) : (setSampleWidth n s).txb = s.txb := rfl
@[simp] theorem setSampleWidth_rxb (s : State) (n : Nat) : (setSampleWidth n s).rxb = s.rxb := rfl
@[simp] theorem setSampleWidth_cmdq (s : State) (n : Nat) : (setSampleWidth n s).cmdq = s.cmdq := rfl
@[simp] theorem setSampleWidth_rspq (s : State) (n : Nat) : (setSampleWidth n s).rspq = s.rspq := rfl
@[simp] theorem setSampleWidth_cpProg (s : State) (n : Nat) : (setSampleWidth n s).cpProg = s.cpProg := rfl
@[simp] theorem setSampleWidth_cpAtStart (s : State) (n : Nat) : (setSampleWidth n s).cpAtStart = s.cpAtStart := rfl
@[simp] theorem setSampleWidth_bus (s : State) (n : Nat) : (setSampleWidth n s).bus = s.bus := rfl
@[simp] theorem setSampleWidth_par (s : State) (n : Nat) : (setSampleWidth n s).par = s.par := rfl
@[simp] theorem setSampleWidth_res0Valid (s : State) (n : Nat) : (setSampleWidth n s).res0Valid = s.res0Valid := rfl
@[simp] theorem setSampleWidth_rxbValid (s : State) (n : Nat) : (setSampleWidth n s).rxbValid = s.rxbValid := rfl
@[simp] theorem setSampleWidth_uncheckedLeft (s : State) (n : Nat) : (setSampleWidth n s).uncheckedLeft = 0 := rfl
@[simp] theorem setSampleWidth_trace (s : State) (n : Nat) : (setSampleWidth n s).trace = s.trace := rfl
@[simp] theorem setSampleWidth_wire (s : State) (n : Nat) : (setSampleWidth n s).wire = s.wire := rfl
@[simp] theorem setSampleWidth_host (s : State) (n : Nat) : (setSampleWidth n s).host = s.host := rfl
@[simp] theorem setSampleWidth_hostData (s : State) (n : Nat) : (setSampleWidth n s).hostData = s.hostData := rfl
@[simp] theorem setSampleWidth_sdaIn (s : State) (n : Nat) : (setSampleWidth n s).sdaIn = s.sdaIn := rfl
@[simp] theorem setSampleWidth_sdaDraws (s : State) (n : Nat) : (setSampleWidth n s).sdaDraws = s.sdaDraws := rfl
@[simp] theorem setSampleWidth_busIn (s : State) (n : Nat) : (setSampleWidth n s).busIn = s.busIn := rfl
@[simp] theorem setSampleWidth_busDraws (s : State) (n : Nat) : (setSampleWidth n s).busDraws = s.busDraws := rfl
@[simp] theorem setSampleWidth_cpBudget (s : State) (n : Nat) : (setSampleWidth n s).cpBudget = s.cpBudget := rfl
@[simp] theorem setSampleWidth_cpReturns (s : State) (n : Nat) : (setSampleWidth n s).cpReturns = s.cpReturns := rfl
@[simp] theorem setSampleWidth_cpFates (s : State) (n : Nat) : (setSampleWidth n s).cpFates = s.cpFates := rfl
@[simp] theorem setSampleWidth_cpPace (s : State) (n : Nat) : (setSampleWidth n s).cpPace = s.cpPace := rfl

/-! ## The submit (R232) -/

@[simp] theorem beginOp_mode (s : State) : (beginOp s).mode = s.mode := rfl
@[simp] theorem beginOp_arbpV (s : State) : (beginOp s).arbpV = s.arbpV := rfl
@[simp] theorem beginOp_arbpB (s : State) : (beginOp s).arbpB = s.arbpB := rfl
@[simp] theorem beginOp_ddrCfg (s : State) : (beginOp s).ddrCfg = s.ddrCfg := rfl
@[simp] theorem beginOp_clkKhz (s : State) : (beginOp s).clkKhz = s.clkKhz := rfl
@[simp] theorem beginOp_driveMa (s : State) : (beginOp s).driveMa = s.driveMa := rfl
@[simp] theorem beginOp_sdrTab (s : State) : (beginOp s).sdrTab = s.sdrTab := rfl
@[simp] theorem beginOp_sampleW (s : State) : (beginOp s).sampleW = s.sampleW := rfl
@[simp] theorem beginOp_crc (s : State) : (beginOp s).crc = s.crc := rfl
@[simp] theorem beginOp_busy (s : State) : (beginOp s).busy = true := rfl
@[simp] theorem beginOp_desc0 (s : State) : (beginOp s).desc0 = s.desc0 := rfl
@[simp] theorem beginOp_desc1 (s : State) : (beginOp s).desc1 = s.desc1 := rfl
@[simp] theorem beginOp_res0 (s : State) : (beginOp s).res0 = s.res0 := rfl
@[simp] theorem beginOp_txb (s : State) : (beginOp s).txb = s.txb := rfl
@[simp] theorem beginOp_rxb (s : State) : (beginOp s).rxb = s.rxb := rfl
@[simp] theorem beginOp_cmdq (s : State) : (beginOp s).cmdq = s.cmdq := rfl
@[simp] theorem beginOp_rspq (s : State) : (beginOp s).rspq = s.rspq := rfl
@[simp] theorem beginOp_cpProg (s : State) : (beginOp s).cpProg = s.cpProg := rfl
@[simp] theorem beginOp_cpAtStart (s : State) : (beginOp s).cpAtStart = s.cpAtStart := rfl
@[simp] theorem beginOp_bus (s : State) : (beginOp s).bus = s.bus := rfl
@[simp] theorem beginOp_par (s : State) : (beginOp s).par = s.par := rfl
@[simp] theorem beginOp_res0Valid (s : State) : (beginOp s).res0Valid = s.res0Valid := rfl
@[simp] theorem beginOp_rxbValid (s : State) : (beginOp s).rxbValid = 0 := rfl
@[simp] theorem beginOp_uncheckedLeft (s : State) : (beginOp s).uncheckedLeft = 0 := rfl
@[simp] theorem beginOp_trace (s : State) : (beginOp s).trace = [] := rfl
@[simp] theorem beginOp_wire (s : State) : (beginOp s).wire = [] := rfl
@[simp] theorem beginOp_host (s : State) : (beginOp s).host = s.host := rfl
@[simp] theorem beginOp_hostData (s : State) : (beginOp s).hostData = s.hostData := rfl
@[simp] theorem beginOp_sdaIn (s : State) : (beginOp s).sdaIn = s.sdaIn := rfl
@[simp] theorem beginOp_sdaDraws (s : State) : (beginOp s).sdaDraws = s.sdaDraws := rfl
@[simp] theorem beginOp_busIn (s : State) : (beginOp s).busIn = s.busIn := rfl
@[simp] theorem beginOp_busDraws (s : State) : (beginOp s).busDraws = s.busDraws := rfl
@[simp] theorem beginOp_cpBudget (s : State) : (beginOp s).cpBudget = s.cpBudget := rfl
@[simp] theorem beginOp_cpReturns (s : State) : (beginOp s).cpReturns = s.cpReturns := rfl
@[simp] theorem beginOp_cpFates (s : State) : (beginOp s).cpFates = s.cpFates := rfl
@[simp] theorem beginOp_cpPace (s : State) : (beginOp s).cpPace = s.cpPace := rfl

/-! ## The trace (R6) -/

@[simp] theorem traced_mode (s : State) (c : CpCmd) : (traced c s).mode = s.mode := rfl
@[simp] theorem traced_arbpV (s : State) (c : CpCmd) : (traced c s).arbpV = s.arbpV := rfl
@[simp] theorem traced_arbpB (s : State) (c : CpCmd) : (traced c s).arbpB = s.arbpB := rfl
@[simp] theorem traced_ddrCfg (s : State) (c : CpCmd) : (traced c s).ddrCfg = s.ddrCfg := rfl
@[simp] theorem traced_clkKhz (s : State) (c : CpCmd) : (traced c s).clkKhz = s.clkKhz := rfl
@[simp] theorem traced_driveMa (s : State) (c : CpCmd) : (traced c s).driveMa = s.driveMa := rfl
@[simp] theorem traced_sdrTab (s : State) (c : CpCmd) : (traced c s).sdrTab = s.sdrTab := rfl
@[simp] theorem traced_sampleW (s : State) (c : CpCmd) : (traced c s).sampleW = s.sampleW := rfl
@[simp] theorem traced_crc (s : State) (c : CpCmd) : (traced c s).crc = s.crc := rfl
@[simp] theorem traced_busy (s : State) (c : CpCmd) : (traced c s).busy = s.busy := rfl
@[simp] theorem traced_desc0 (s : State) (c : CpCmd) : (traced c s).desc0 = s.desc0 := rfl
@[simp] theorem traced_desc1 (s : State) (c : CpCmd) : (traced c s).desc1 = s.desc1 := rfl
@[simp] theorem traced_res0 (s : State) (c : CpCmd) : (traced c s).res0 = s.res0 := rfl
@[simp] theorem traced_txb (s : State) (c : CpCmd) : (traced c s).txb = s.txb := rfl
@[simp] theorem traced_rxb (s : State) (c : CpCmd) : (traced c s).rxb = s.rxb := rfl
@[simp] theorem traced_cmdq (s : State) (c : CpCmd) : (traced c s).cmdq = s.cmdq := rfl
@[simp] theorem traced_rspq (s : State) (c : CpCmd) : (traced c s).rspq = s.rspq := rfl
@[simp] theorem traced_cpProg (s : State) (c : CpCmd) : (traced c s).cpProg = s.cpProg := rfl
@[simp] theorem traced_cpAtStart (s : State) (c : CpCmd) : (traced c s).cpAtStart = s.cpAtStart := rfl
@[simp] theorem traced_bus (s : State) (c : CpCmd) : (traced c s).bus = s.bus := rfl
@[simp] theorem traced_par (s : State) (c : CpCmd) : (traced c s).par = s.par := rfl
@[simp] theorem traced_res0Valid (s : State) (c : CpCmd) : (traced c s).res0Valid = s.res0Valid := rfl
@[simp] theorem traced_rxbValid (s : State) (c : CpCmd) : (traced c s).rxbValid = s.rxbValid := rfl
@[simp] theorem traced_uncheckedLeft (s : State) (c : CpCmd) : (traced c s).uncheckedLeft = s.uncheckedLeft := rfl
@[simp] theorem traced_trace (s : State) (c : CpCmd) : (traced c s).trace = s.trace ++ [sent c] := rfl
@[simp] theorem traced_wire (s : State) (c : CpCmd) : (traced c s).wire = s.wire := rfl
@[simp] theorem traced_host (s : State) (c : CpCmd) : (traced c s).host = s.host := rfl
@[simp] theorem traced_hostData (s : State) (c : CpCmd) : (traced c s).hostData = s.hostData := rfl
@[simp] theorem traced_sdaIn (s : State) (c : CpCmd) : (traced c s).sdaIn = s.sdaIn := rfl
@[simp] theorem traced_sdaDraws (s : State) (c : CpCmd) : (traced c s).sdaDraws = s.sdaDraws := rfl
@[simp] theorem traced_busIn (s : State) (c : CpCmd) : (traced c s).busIn = s.busIn := rfl
@[simp] theorem traced_busDraws (s : State) (c : CpCmd) : (traced c s).busDraws = s.busDraws := rfl
@[simp] theorem traced_cpBudget (s : State) (c : CpCmd) : (traced c s).cpBudget = s.cpBudget := rfl
@[simp] theorem traced_cpReturns (s : State) (c : CpCmd) : (traced c s).cpReturns = s.cpReturns := rfl
@[simp] theorem traced_cpFates (s : State) (c : CpCmd) : (traced c s).cpFates = s.cpFates := rfl
@[simp] theorem traced_cpPace (s : State) (c : CpCmd) : (traced c s).cpPace = s.cpPace := rfl

/-! ## `finish(S, n)` (R18) -/

@[simp] theorem finished_mode (s : State) (st : Status) (n : Nat) : (s.finished st n).mode = s.mode := rfl
@[simp] theorem finished_arbpV (s : State) (st : Status) (n : Nat) : (s.finished st n).arbpV = s.arbpV := rfl
@[simp] theorem finished_arbpB (s : State) (st : Status) (n : Nat) : (s.finished st n).arbpB = s.arbpB := rfl
@[simp] theorem finished_ddrCfg (s : State) (st : Status) (n : Nat) : (s.finished st n).ddrCfg = s.ddrCfg := rfl
@[simp] theorem finished_clkKhz (s : State) (st : Status) (n : Nat) : (s.finished st n).clkKhz = s.clkKhz := rfl
@[simp] theorem finished_driveMa (s : State) (st : Status) (n : Nat) : (s.finished st n).driveMa = s.driveMa := rfl
@[simp] theorem finished_sdrTab (s : State) (st : Status) (n : Nat) : (s.finished st n).sdrTab = s.sdrTab := rfl
@[simp] theorem finished_sampleW (s : State) (st : Status) (n : Nat) : (s.finished st n).sampleW = s.sampleW := rfl
@[simp] theorem finished_crc (s : State) (st : Status) (n : Nat) : (s.finished st n).crc = s.crc := rfl
@[simp] theorem finished_busy (s : State) (st : Status) (n : Nat) : (s.finished st n).busy = false := rfl
@[simp] theorem finished_desc0 (s : State) (st : Status) (n : Nat) : (s.finished st n).desc0 = s.desc0 := rfl
@[simp] theorem finished_desc1 (s : State) (st : Status) (n : Nat) : (s.finished st n).desc1 = s.desc1 := rfl
@[simp] theorem finished_res0 (s : State) (st : Status) (n : Nat) : (s.finished st n).res0 = resWord st n := rfl
@[simp] theorem finished_txb (s : State) (st : Status) (n : Nat) : (s.finished st n).txb = s.txb := rfl
@[simp] theorem finished_rxb (s : State) (st : Status) (n : Nat) : (s.finished st n).rxb = s.rxb := rfl
@[simp] theorem finished_cmdq (s : State) (st : Status) (n : Nat) : (s.finished st n).cmdq = s.cmdq := rfl
@[simp] theorem finished_rspq (s : State) (st : Status) (n : Nat) : (s.finished st n).rspq = s.rspq := rfl
@[simp] theorem finished_cpProg (s : State) (st : Status) (n : Nat) : (s.finished st n).cpProg = s.cpProg := rfl
@[simp] theorem finished_cpAtStart (s : State) (st : Status) (n : Nat) :
    (s.finished st n).cpAtStart = s.cpAtStart := rfl
@[simp] theorem finished_bus (s : State) (st : Status) (n : Nat) : (s.finished st n).bus = s.bus := rfl
@[simp] theorem finished_par (s : State) (st : Status) (n : Nat) : (s.finished st n).par = s.par := rfl
@[simp] theorem finished_res0Valid (s : State) (st : Status) (n : Nat) : (s.finished st n).res0Valid = true := rfl
@[simp] theorem finished_rxbValid (s : State) (st : Status) (n : Nat) : (s.finished st n).rxbValid = s.rxbValid := rfl
@[simp] theorem finished_uncheckedLeft (s : State) (st : Status) (n : Nat) :
    (s.finished st n).uncheckedLeft = s.uncheckedLeft := rfl
@[simp] theorem finished_trace (s : State) (st : Status) (n : Nat) : (s.finished st n).trace = s.trace := rfl
@[simp] theorem finished_wire (s : State) (st : Status) (n : Nat) : (s.finished st n).wire = s.wire := rfl
@[simp] theorem finished_host (s : State) (st : Status) (n : Nat) : (s.finished st n).host = s.host := rfl
@[simp] theorem finished_hostData (s : State) (st : Status) (n : Nat) : (s.finished st n).hostData = s.hostData := rfl
@[simp] theorem finished_sdaIn (s : State) (st : Status) (n : Nat) : (s.finished st n).sdaIn = s.sdaIn := rfl
@[simp] theorem finished_sdaDraws (s : State) (st : Status) (n : Nat) : (s.finished st n).sdaDraws = s.sdaDraws := rfl
@[simp] theorem finished_busIn (s : State) (st : Status) (n : Nat) : (s.finished st n).busIn = s.busIn := rfl
@[simp] theorem finished_busDraws (s : State) (st : Status) (n : Nat) : (s.finished st n).busDraws = s.busDraws := rfl
@[simp] theorem finished_cpBudget (s : State) (st : Status) (n : Nat) : (s.finished st n).cpBudget = s.cpBudget := rfl
@[simp] theorem finished_cpReturns (s : State) (st : Status) (n : Nat) : (s.finished st n).cpReturns = s.cpReturns := rfl
@[simp] theorem finished_cpFates (s : State) (st : Status) (n : Nat) : (s.finished st n).cpFates = s.cpFates := rfl
@[simp] theorem finished_cpPace (s : State) (st : Status) (n : Nat) : (s.finished st n).cpPace = s.cpPace := rfl

/-! ## Placing a descriptor (R42) -/

@[simp] theorem placeDescriptor_mode (s : State) (d0 d1 : Word32) : (placeDescriptor d0 d1 s).mode = s.mode := rfl
@[simp] theorem placeDescriptor_arbpV (s : State) (d0 d1 : Word32) : (placeDescriptor d0 d1 s).arbpV = s.arbpV := rfl
@[simp] theorem placeDescriptor_arbpB (s : State) (d0 d1 : Word32) : (placeDescriptor d0 d1 s).arbpB = s.arbpB := rfl
@[simp] theorem placeDescriptor_ddrCfg (s : State) (d0 d1 : Word32) :
    (placeDescriptor d0 d1 s).ddrCfg = s.ddrCfg := rfl
@[simp] theorem placeDescriptor_clkKhz (s : State) (d0 d1 : Word32) :
    (placeDescriptor d0 d1 s).clkKhz = s.clkKhz := rfl
@[simp] theorem placeDescriptor_driveMa (s : State) (d0 d1 : Word32) :
    (placeDescriptor d0 d1 s).driveMa = s.driveMa := rfl
@[simp] theorem placeDescriptor_sdrTab (s : State) (d0 d1 : Word32) :
    (placeDescriptor d0 d1 s).sdrTab = s.sdrTab := rfl
@[simp] theorem placeDescriptor_sampleW (s : State) (d0 d1 : Word32) :
    (placeDescriptor d0 d1 s).sampleW = s.sampleW := rfl
@[simp] theorem placeDescriptor_crc (s : State) (d0 d1 : Word32) : (placeDescriptor d0 d1 s).crc = s.crc := rfl
@[simp] theorem placeDescriptor_busy (s : State) (d0 d1 : Word32) : (placeDescriptor d0 d1 s).busy = false := rfl
@[simp] theorem placeDescriptor_desc0 (s : State) (d0 d1 : Word32) : (placeDescriptor d0 d1 s).desc0 = d0 := rfl
@[simp] theorem placeDescriptor_desc1 (s : State) (d0 d1 : Word32) : (placeDescriptor d0 d1 s).desc1 = s.desc1 := rfl
@[simp] theorem placeDescriptor_res0 (s : State) (d0 d1 : Word32) : (placeDescriptor d0 d1 s).res0 = s.res0 := rfl
@[simp] theorem placeDescriptor_txb (s : State) (d0 d1 : Word32) : (placeDescriptor d0 d1 s).txb = s.txb := rfl
@[simp] theorem placeDescriptor_rxb (s : State) (d0 d1 : Word32) : (placeDescriptor d0 d1 s).rxb = s.rxb := rfl
@[simp] theorem placeDescriptor_cmdq (s : State) (d0 d1 : Word32) : (placeDescriptor d0 d1 s).cmdq = s.cmdq := rfl
@[simp] theorem placeDescriptor_rspq (s : State) (d0 d1 : Word32) : (placeDescriptor d0 d1 s).rspq = s.rspq := rfl
@[simp] theorem placeDescriptor_cpProg (s : State) (d0 d1 : Word32) :
    (placeDescriptor d0 d1 s).cpProg = s.cpProg := rfl
@[simp] theorem placeDescriptor_cpAtStart (s : State) (d0 d1 : Word32) :
    (placeDescriptor d0 d1 s).cpAtStart = s.cpAtStart := rfl
@[simp] theorem placeDescriptor_bus (s : State) (d0 d1 : Word32) : (placeDescriptor d0 d1 s).bus = s.bus := rfl
@[simp] theorem placeDescriptor_par (s : State) (d0 d1 : Word32) : (placeDescriptor d0 d1 s).par = s.par := rfl
@[simp] theorem placeDescriptor_res0Valid (s : State) (d0 d1 : Word32) :
    (placeDescriptor d0 d1 s).res0Valid = s.res0Valid := rfl
@[simp] theorem placeDescriptor_rxbValid (s : State) (d0 d1 : Word32) :
    (placeDescriptor d0 d1 s).rxbValid = s.rxbValid := rfl
@[simp] theorem placeDescriptor_uncheckedLeft (s : State) (d0 d1 : Word32) :
    (placeDescriptor d0 d1 s).uncheckedLeft = s.uncheckedLeft := rfl
@[simp] theorem placeDescriptor_trace (s : State) (d0 d1 : Word32) : (placeDescriptor d0 d1 s).trace = s.trace := rfl
@[simp] theorem placeDescriptor_wire (s : State) (d0 d1 : Word32) : (placeDescriptor d0 d1 s).wire = s.wire := rfl
@[simp] theorem placeDescriptor_host (s : State) (d0 d1 : Word32) :
    (placeDescriptor d0 d1 s).host = .writeDesc1 d1 :: s.host := rfl
@[simp] theorem placeDescriptor_hostData (s : State) (d0 d1 : Word32) :
    (placeDescriptor d0 d1 s).hostData = s.hostData := rfl
@[simp] theorem placeDescriptor_sdaIn (s : State) (d0 d1 : Word32) : (placeDescriptor d0 d1 s).sdaIn = s.sdaIn := rfl
@[simp] theorem placeDescriptor_sdaDraws (s : State) (d0 d1 : Word32) :
    (placeDescriptor d0 d1 s).sdaDraws = s.sdaDraws := rfl
@[simp] theorem placeDescriptor_busIn (s : State) (d0 d1 : Word32) : (placeDescriptor d0 d1 s).busIn = s.busIn := rfl
@[simp] theorem placeDescriptor_busDraws (s : State) (d0 d1 : Word32) :
    (placeDescriptor d0 d1 s).busDraws = s.busDraws := rfl
@[simp] theorem placeDescriptor_cpBudget (s : State) (d0 d1 : Word32) :
    (placeDescriptor d0 d1 s).cpBudget = s.cpBudget := rfl
@[simp] theorem placeDescriptor_cpReturns (s : State) (d0 d1 : Word32) :
    (placeDescriptor d0 d1 s).cpReturns = s.cpReturns := rfl
@[simp] theorem placeDescriptor_cpFates (s : State) (d0 d1 : Word32) :
    (placeDescriptor d0 d1 s).cpFates = s.cpFates := rfl
@[simp] theorem placeDescriptor_cpPace (s : State) (d0 d1 : Word32) :
    (placeDescriptor d0 d1 s).cpPace = s.cpPace := rfl

/-! ## Initialisation (R450 to R452) -/

@[simp] theorem initialise_mode (s : State) : (initialise s).mode = .sdr := rfl
@[simp] theorem initialise_arbpV (s : State) : (initialise s).arbpV = false := rfl
@[simp] theorem initialise_arbpB (s : State) : (initialise s).arbpB = 0#8 := rfl
@[simp] theorem initialise_ddrCfg (s : State) :
    (initialise s).ddrCfg = { ackEn := false, etEn := false, crcEt := false } := rfl
@[simp] theorem initialise_clkKhz (s : State) : (initialise s).clkKhz = s.par.clkResetKhz := rfl
@[simp] theorem initialise_driveMa (s : State) : (initialise s).driveMa = s.par.driveResetMa := rfl
@[simp] theorem initialise_sdrTab (s : State) : (initialise s).sdrTab = sdrTable := rfl
@[simp] theorem initialise_sampleW (s : State) : (initialise s).sampleW = none := rfl
@[simp] theorem initialise_crc (s : State) : (initialise s).crc = 0#5 := rfl
@[simp] theorem initialise_busy (s : State) : (initialise s).busy = false := rfl
@[simp] theorem initialise_desc0 (s : State) : (initialise s).desc0 = 0#32 := rfl
@[simp] theorem initialise_desc1 (s : State) : (initialise s).desc1 = 0#32 := rfl
@[simp] theorem initialise_res0 (s : State) : (initialise s).res0 = 0#32 := rfl
@[simp] theorem initialise_txb (s : State) : (initialise s).txb = [] := rfl
@[simp] theorem initialise_rxb (s : State) : (initialise s).rxb = [] := rfl
@[simp] theorem initialise_cmdq (s : State) : (initialise s).cmdq = [] := rfl
@[simp] theorem initialise_rspq (s : State) : (initialise s).rspq = [] := rfl
@[simp] theorem initialise_cpProg (s : State) : (initialise s).cpProg = .sdr := rfl
@[simp] theorem initialise_cpAtStart (s : State) : (initialise s).cpAtStart = true := rfl
@[simp] theorem initialise_bus (s : State) : (initialise s).bus = .unknown := rfl
@[simp] theorem initialise_par (s : State) : (initialise s).par = s.par := rfl
@[simp] theorem initialise_res0Valid (s : State) : (initialise s).res0Valid = false := rfl
@[simp] theorem initialise_rxbValid (s : State) : (initialise s).rxbValid = 0 := rfl
@[simp] theorem initialise_uncheckedLeft (s : State) : (initialise s).uncheckedLeft = 0 := rfl
@[simp] theorem initialise_trace (s : State) : (initialise s).trace = [] := rfl
@[simp] theorem initialise_wire (s : State) : (initialise s).wire = [] := rfl
@[simp] theorem initialise_host (s : State) : (initialise s).host = s.host := rfl
@[simp] theorem initialise_hostData (s : State) : (initialise s).hostData = s.hostData := rfl
@[simp] theorem initialise_sdaIn (s : State) : (initialise s).sdaIn = s.sdaIn := rfl
@[simp] theorem initialise_sdaDraws (s : State) : (initialise s).sdaDraws = s.sdaDraws := rfl
@[simp] theorem initialise_busIn (s : State) : (initialise s).busIn = s.busIn := rfl
@[simp] theorem initialise_busDraws (s : State) : (initialise s).busDraws = s.busDraws := rfl
@[simp] theorem initialise_cpBudget (s : State) : (initialise s).cpBudget = s.nextFate.budget := rfl
@[simp] theorem initialise_cpReturns (s : State) : (initialise s).cpReturns = s.nextFate.returns := rfl
@[simp] theorem initialise_cpFates (s : State) : (initialise s).cpFates = s.cpFates.tail := rfl
@[simp] theorem initialise_cpPace (s : State) : (initialise s).cpPace = s.cpPace := rfl

/-- A restart forgets all of the block's own state: two states of one implementation differ afterwards only in the inputs
still to come, so it does not matter where in an operation the restart comes (R450). -/
theorem initialise_forgets (s t : State) (h : t.par = s.par) :
    initialise t = { initialise s with
      host := t.host, hostData := t.hostData, sdaIn := t.sdaIn, sdaDraws := t.sdaDraws, busIn := t.busIn,
      busDraws := t.busDraws, cpBudget := t.nextFate.budget, cpReturns := t.nextFate.returns,
      cpFates := t.cpFates.tail, cpPace := t.cpPace } := by
  unfold initialise
  rw [h]

end Sys2Proof.Machine
end

