-- ==== Sys2Proof/Tests/Slice0.lean ====
section
/-! SUPPORT. Small tests of one step each, their expected values from spec/95_test_vectors.md and from the tables of
spec/30_encoding.md, and for each statement with hypotheses a named state and operands that meet them. -/

set_option maxRecDepth 100000

namespace Sys2Proof.Tests

open Sys2Proof Sys2Proof.Machine

/-! ## Well-formedness: each length check refuses a length of 65536 (R101) -/

theorem test_wf_privateWrite : (Instr.privateWrite 0x08 65536).wf = false := by decide
theorem test_wf_privateRead : (Instr.privateRead 0x08 65536).wf = false := by decide
theorem test_wf_privateWriteRead_write : (Instr.privateWriteRead 0x08 65536 1).wf = false := by decide
theorem test_wf_privateWriteRead_read : (Instr.privateWriteRead 0x08 1 65536).wf = false := by decide
theorem test_wf_cccBcastWrite : (Instr.cccBcastWrite 65536).wf = false := by decide
theorem test_wf_cccDirectWrite_bcast : (Instr.cccDirectWrite 0x08 65536 1).wf = false := by decide
theorem test_wf_cccDirectWrite_direct : (Instr.cccDirectWrite 0x08 1 65536).wf = false := by decide
theorem test_wf_cccDirectRead_bcast : (Instr.cccDirectRead 0x08 65536 1).wf = false := by decide
theorem test_wf_cccDirectRead_read : (Instr.cccDirectRead 0x08 1 65536).wf = false := by decide
theorem test_wf_poll : (Instr.poll 65536).wf = false := by decide
theorem test_wf_ddrWrite : (Instr.ddrWrite 0x08 0x20 true 65536).wf = false := by decide
theorem test_wf_ddrRead : (Instr.ddrRead 0x08 0x20 true 65536).wf = false := by decide
theorem test_wf_setClock : (Instr.setClock 65536).wf = false := by decide
theorem test_wf_setDrive : (Instr.setDrive 65536).wf = false := by decide
theorem test_wf_longest : (Instr.cccDirectRead 0x08 65535 65535).wf = true := by decide

/-! ## Decoding: words written out field by field from R100 to R102 and R105

`DESC0` is RSV1(5) F2 F1 F0 CMD(8) RSV0(1) ADDR(7) OP(8), and `DESC1` is LEN_B(16) LEN_A(16). -/

theorem test_decode_privateWrite :
    decode 0b00000_0_0_0_00000000_0_1110000_00000001 0b0000000000000000_0000000000000010 =
      .ok (.privateWrite 0x70 2) := by decide
theorem test_decode_privateRead :
    decode 0b00000_0_0_0_00000000_0_0110000_00000010 0b0000000000000101_0000000000000000 =
      .ok (.privateRead 0x30 5) := by decide
theorem test_decode_privateWriteRead :
    decode 0b00000_0_0_0_00000000_0_0110000_00000011 0b0000000000000010_0000000000000001 =
      .ok (.privateWriteRead 0x30 1 2) := by decide
theorem test_decode_cccBcastWrite :
    decode 0b00000_0_0_0_00000000_0_1111111_00010000 0b1111111111111111_0000000000000001 =
      .ok (.cccBcastWrite 1) := by decide
theorem test_decode_cccDirectWrite :
    decode 0b00000_0_0_0_00000000_0_0110000_00010001 0b0000000000000101_0000000000111100 =
      .ok (.cccDirectWrite 0x30 60 5) := by decide
theorem test_decode_cccDirectRead :
    decode 0b00000_0_0_0_00000000_0_0110000_00010010 0b0000000000000110_0000000000000001 =
      .ok (.cccDirectRead 0x30 1 6) := by decide
theorem test_decode_entdaa :
    decode 0b00000_0_0_0_00000000_0_1010000_00010011 0b0000000000000000_0000000000000000 =
      .ok (.entdaa 0x50) := by decide
theorem test_decode_rstdaa :
    decode 0b00000_1_1_1_11111111_0_1111111_00010100 0b1111111111111111_1111111111111111 = .ok .rstdaa := by decide
theorem test_decode_checkAck :
    decode 0b00000_0_0_0_00000000_0_0001001_00100000 0b0000000000000000_0000000000000000 =
      .ok (.checkAck 0x09) := by decide
theorem test_decode_arbHeaderOnly :
    decode 0b00000_0_0_0_00000000_0_0000000_00100001 0b0000000000000000_0000000000000000 =
      .ok .arbHeaderOnly := by decide
theorem test_decode_poll :
    decode 0b00000_0_0_0_00000000_0_0000000_00100010 0b0000000000000100_0000000000000000 = .ok (.poll 4) := by decide
theorem test_decode_ddrWrite :
    decode 0b00000_0_0_1_00100000_0_0001000_00110000 0b0000000000000000_0000000000000010 =
      .ok (.ddrWrite 0x08 0x20 true 2) := by decide
theorem test_decode_ddrRead :
    decode 0b00000_1_1_0_10100000_0_0001000_00110001 0b1000000000000000_0000000000000010 =
      .ok (.ddrRead 0x08 0xA0 false 32768) := by decide
theorem test_decode_setDdrConfig :
    decode 0b00000_0_1_1_00000000_0_0000000_01000000 0b0000000000000000_0000000000000000 =
      .ok (.setDdrConfig true true false) := by decide
theorem test_decode_setClock :
    decode 0b00000_0_0_0_00000000_0_0000000_01000001 0b0000000000000000_0011000011010100 =
      .ok (.setClock 12500) := by decide
theorem test_decode_setDrive :
    decode 0b00000_0_0_0_00000000_0_0000000_01000010 0b0000000000000000_0000000000001100 =
      .ok (.setDrive 12) := by decide
theorem test_decode_targetReset :
    decode 0b00000_0_0_0_00000000_0_0000000_01000011 0b0000000000000000_0000000000000000 =
      .ok .targetReset := by decide
theorem test_decode_reserved15 :
    decode 0b00000_0_0_0_00000000_1_0000000_00100000 0 = .error .reservedBit15 := by decide
theorem test_decode_reserved27 :
    decode 0b00001_0_0_0_00000000_0_0000000_00100001 0 = .error .reservedBits31to27 := by decide
theorem test_decode_opcode : decode 0b00000_0_0_0_00000000_0_0000000_00000101 0 = .error .undefinedOpcode := by decide
theorem test_decodeTableWord_operands_zero : decodeTableWord 32 0x00003003 = some (.privateWriteRead 0x30 0 0) := by
  decide
theorem test_decodeTableWord_desc1 : decodeTableWord 64 0x0002000100003003 = some (.privateWriteRead 0x30 1 2) := by
  decide

/-! ## CRC, parity and frames: V-CRC, V-PAR, V-T and V-DAB of spec/95_test_vectors.md -/

theorem test_crc5Tab : crc5Tab 0x01 = 0x28 ∧ crc5Tab 0x42 = 0x68 ∧ crc5Tab 0xFF = 0xA0 := by decide
theorem test_crc5Word : crc5Word 0x1F 0x2011 = 0x1D ∧ crc5Word 0x0A 0xA5A5 = 0x17 := by decide
theorem test_crc5_message : crc5Word (crc5Word (crc5Word 0x1F 0x2011) 0x1234) 0xABCD = 0x08 := by decide
theorem test_ddrFrame : ddrFrame 0xBEEF = 0b101111101110111100 ∧ ddrFrame 0x0102 = 0b000000010000001010 := by decide
theorem test_adjust : adjust 0x1234 = 0x1235 ∧ adjust 0x0001 = 0x0000 ∧ adjust 0xFFFF = 0xFFFF := by decide
theorem test_cmdFrame_read : cmdFrame (cmdWord 0x2A 0x7F true) = .dw 20 0b01111111110101010101 := by decide
theorem test_cmdFrame_write : cmdFrame (cmdWord 0x08 0xA0 false) = .dw 20 0b01001000000001000111 := by decide
theorem test_sdrByte : byteCmds 0xA5 = [.pp 6 0b101001, .pp 3 0b011] ∧ byteCmds 0x80 = [.pp 6 0b100000, .pp 3 0b000] := by
  decide
theorem test_dab : dab 0x50 = 0xA1 := by decide

/-! ## One submit each -/

/-- A machine of 64-byte buffers between two operations: its mode, DDR flags and pending byte, the levels of SDA and the
answers of the bus to come, and the bytes of TXB. -/
def small (m : Mode) (cfg : DdrCfg) (arb : Option Byte) (sda : List Bool) (bus : List Word32) (tx : List Byte) : State :=
  { State.reset with
    par := ⟨4, 1, 64, 64, 1000, 4, false, [], []⟩
    clkKhz := 1000
    driveMa := 4
    mode := m
    cpProg := m
    ddrCfg := cfg
    arbpV := arb.isSome
    arbpB := arb.getD 0
    sdaIn := sda
    busIn := bus
    txb := Memory.writeList [] 0 tx }

/-- The state after the host has submitted a descriptor. -/
def submitted (d0 d1 : Word32) (s : State) : Option State :=
  match step { s with desc0 := d0, host := [.writeDesc1 d1] } with
  | .next t => some t
  | .fault _ => none
  | .refused _ => none

/-- What a test looks at. -/
structure Summary where
  res0 : Word32
  rxb  : List Byte
  mode : Mode
  arb  : Bool
  cmds : List CpCmd
  deriving DecidableEq, Repr

/-- What a test looks at, of a state. -/
def summary (o : Option State) : Option Summary :=
  o.map fun t => ⟨t.res0, (List.range t.rxbValid).map t.rxb.read, t.mode, t.arbpV, t.wire⟩

/-- V-SDR-1 of spec/95_test_vectors.md: two bytes to 0x70 (R240). -/
theorem test_privateWrite :
    summary (submitted 0x00007001 0x00000002 (small .sdr ⟨false,false,false⟩ none [true]
        [0b111111, 0b000, 0b111000000] [0x13, 0x04])) = some ⟨0x00020000, [], .sdr, false,
        [.start, .od 6 0b111111, .od 3 0b001, .restart, .od 9 0b111000001, .pp 6 0b000100, .pp 3 0b110,
         .pp 6 0b000001, .pp 3 0b000, .stop]⟩ := by decide

/-- V-SDR-4 of spec/95_test_vectors.md: the header is lost (R172). -/
theorem test_privateWrite_lost :
    summary (submitted 0x00007001 0x00000001 (small .sdr ⟨false,false,false⟩ none [true]
        [0b010101, 0b01] [0x13])) = some ⟨0x00000001, [], .sdr, true,
        [.start, .od 6 0b111111, .od 2 0b11]⟩ := by decide

/-- V-SDR-7 of spec/95_test_vectors.md: the target ends the read at the third of five bytes (R177). -/
theorem test_privateRead :
    summary (submitted 0x00003002 0x00050000 (small .sdr ⟨false,false,false⟩ none [true]
        [0b111111, 0b000, 0b011000010, 0b101000011, 0b101100101, 0b110000110] [])) = some ⟨0x00030000, [0xA1, 0xB2, 0xC3], .sdr, false,
        [.start, .od 6 0b111111, .od 3 0b001, .restart, .od 9 0b011000011, .rdb true, .rdb true, .rdb true,
         .stop]⟩ := by decide

/-- V-SDR-8 of spec/95_test_vectors.md: the one wanted byte (R177). -/
theorem test_privateRead_last :
    summary (submitted 0x00003002 0x00010000 (small .sdr ⟨false,false,false⟩ none [true]
        [0b111111, 0b000, 0b011000010, 0b010110100] [])) = some ⟨0x00010000, [0x5A], .sdr, false,
        [.start, .od 6 0b111111, .od 3 0b001, .restart, .od 9 0b011000011, .rdb false, .stop]⟩ := by decide

/-- V-SDR-11 of spec/95_test_vectors.md: RESTART between, no STOP (R242). -/
theorem test_privateWriteRead :
    summary (submitted 0x00003003 0x00020001 (small .sdr ⟨false,false,false⟩ none [true]
        [0b111111, 0b000, 0b011000000, 0b011000010, 0b000000011, 0b000000101] [0x10])) = some ⟨0x00020000, [0x01, 0x02], .sdr, false,
        [.start, .od 6 0b111111, .od 3 0b001, .restart, .od 9 0b011000001, .pp 6 0b000100, .pp 3 0b000,
         .restart, .od 9 0b011000011, .rdb true, .rdb false, .stop]⟩ := by decide

/-- V-SDR-12 of spec/95_test_vectors.md: the second address phase is NACKed (R242). -/
theorem test_privateWriteRead_nack :
    summary (submitted 0x00003003 0x00020001 (small .sdr ⟨false,false,false⟩ none [true]
        [0b111111, 0b000, 0b011000000, 0b011000011] [0x10])) = some ⟨0x00000003, [], .sdr, false,
        [.start, .od 6 0b111111, .od 3 0b001, .restart, .od 9 0b011000001, .pp 6 0b000100, .pp 3 0b000,
         .restart, .od 9 0b011000011, .stop]⟩ := by decide

/-- V-SDR-14 of spec/95_test_vectors.md: RSTDAA as a broadcast (R245). -/
theorem test_cccBcastWrite :
    summary (submitted 0x00000010 0x00000001 (small .sdr ⟨false,false,false⟩ none [true]
        [0b111111, 0b000] [0x06])) = some ⟨0x00010000, [], .sdr, false,
        [.start, .od 6 0b111111, .od 3 0b001, .pp 6 0b000001, .pp 3 0b101, .stop]⟩ := by decide

/-- V-SDR-16 of spec/95_test_vectors.md: a length of 0 (R231). -/
theorem test_cccBcastWrite_empty :
    summary (submitted 0x00000010 0x00000000 (small .sdr ⟨false,false,false⟩ none [true]
        [] [])) = some ⟨0x00000004, [], .sdr, false,
        []⟩ := by decide

/-- V-SDR-17 of spec/95_test_vectors.md: one broadcast and one direct byte (R246). -/
theorem test_cccDirectWrite :
    summary (submitted 0x00003011 0x00010001 (small .sdr ⟨false,false,false⟩ none [true]
        [0b111111, 0b000, 0b011000000] [0x9A, 0x01])) = some ⟨0x00010000, [], .sdr, false,
        [.start, .od 6 0b111111, .od 3 0b001, .pp 6 0b100110, .pp 3 0b101, .restart, .od 9 0b011000001,
         .pp 6 0b000000, .pp 3 0b010, .stop]⟩ := by decide

/-- V-ENC-5 of spec/95_test_vectors.md: 60 + 5 bytes do not fit 64 (R231). -/
theorem test_cccDirectWrite_length :
    summary (submitted 0x00003011 0x0005003C (small .sdr ⟨false,false,false⟩ none [true]
        [] [])) = some ⟨0x00000004, [], .sdr, false,
        []⟩ := by decide

/-- V-SDR-18 of spec/95_test_vectors.md: six bytes back (R247). -/
theorem test_cccDirectRead :
    summary (submitted 0x00003012 0x00060001 (small .sdr ⟨false,false,false⟩ none [true]
        [0b111111, 0b000, 0b011000010, 0b000000011, 0b000000101, 0b000000111, 0b000001001, 0b000001011, 0b000001100] [0x8D])) = some ⟨0x00060000, [0x01, 0x02, 0x03, 0x04, 0x05, 0x06], .sdr, false,
        [.start, .od 6 0b111111, .od 3 0b001, .pp 6 0b100011, .pp 3 0b011, .restart, .od 9 0b011000011,
         .rdb true, .rdb true, .rdb true, .rdb true, .rdb true, .rdb false, .stop]⟩ := by decide

/-- V-SDR-19 of spec/95_test_vectors.md: eight ID bytes, then the address with its parity (R250). -/
theorem test_entdaa :
    summary (submitted 0x00005013 0x00000000 (small .sdr ⟨false,false,false⟩ none [true]
        [0b111111, 0b000, 0b111111010, 0b00000001, 0b00100011, 0b01000101, 0b01100111, 0b10001001, 0b10101011, 0b11001101, 0b11101111, 0b101000010] [])) = some ⟨0x00080000, [0x01, 0x23, 0x45, 0x67, 0x89, 0xAB, 0xCD, 0xEF], .sdr, false,
        [.start, .od 6 0b111111, .od 3 0b001, .pp 6 0b000001, .pp 3 0b110, .restart, .od 9 0b111111011,
         .od 8 0b11111111, .od 8 0b11111111, .od 8 0b11111111, .od 8 0b11111111, .od 8 0b11111111,
         .od 8 0b11111111, .od 8 0b11111111, .od 8 0b11111111, .od 9 0b101000011, .stop]⟩ := by decide

/-- V-SDR-20 of spec/95_test_vectors.md: no target takes part (R250). -/
theorem test_entdaa_none :
    summary (submitted 0x00005013 0x00000000 (small .sdr ⟨false,false,false⟩ none [true]
        [0b111111, 0b000, 0b111111011] [])) = some ⟨0x00000003, [], .sdr, false,
        [.start, .od 6 0b111111, .od 3 0b001, .pp 6 0b000001, .pp 3 0b110, .restart, .od 9 0b111111011, .stop]⟩ := by decide

/-- V-SDR-15 of spec/95_test_vectors.md: code 06 (R251). -/
theorem test_rstdaa :
    summary (submitted 0x00000014 0x00000000 (small .sdr ⟨false,false,false⟩ none [true]
        [0b111111, 0b000] [])) = some ⟨0x00000000, [], .sdr, false,
        [.start, .od 6 0b111111, .od 3 0b001, .pp 6 0b000001, .pp 3 0b101, .stop]⟩ := by decide

/-- V-SDR-22 of spec/95_test_vectors.md: ACK (R255). -/
theorem test_checkAck :
    summary (submitted 0x00000820 0x00000000 (small .sdr ⟨false,false,false⟩ none [true]
        [0b111111, 0b000, 0b000100000] [])) = some ⟨0x00000000, [], .sdr, false,
        [.start, .od 6 0b111111, .od 3 0b001, .restart, .od 9 0b000100001, .stop]⟩ := by decide

/-- V-SDR-23 of spec/95_test_vectors.md: NACK (R255). -/
theorem test_checkAck_nack :
    summary (submitted 0x00000920 0x00000000 (small .sdr ⟨false,false,false⟩ none [true]
        [0b111111, 0b000, 0b000100101] [])) = some ⟨0x00000003, [], .sdr, false,
        [.start, .od 6 0b111111, .od 3 0b001, .restart, .od 9 0b000100101, .stop]⟩ := by decide

/-- V-SDR-24 of spec/95_test_vectors.md: NACK (R256). -/
theorem test_arbHeaderOnly :
    summary (submitted 0x00000021 0x00000000 (small .sdr ⟨false,false,false⟩ none [true]
        [0b111111, 0b001] [])) = some ⟨0x00000002, [], .sdr, false,
        [.start, .od 6 0b111111, .od 3 0b001, .stop]⟩ := by decide

/-- V-SDR-26 of spec/95_test_vectors.md: the pending byte, then two payload bytes (R262). -/
theorem test_poll :
    summary (submitted 0x00000022 0x00040000 (small .sdr ⟨false,false,false⟩ (some 0x55) [true]
        [0b0, 0b101010101, 0b101110110] [])) = some ⟨0x00030000, [0x55, 0xAA, 0xBB], .sdr, false,
        [.od 1 0b0, .rdb true, .rdb true, .stop]⟩ := by decide

/-- V-SDR-28 of spec/95_test_vectors.md: a Hot-Join request of start type (R262). -/
theorem test_poll_hotJoin :
    summary (submitted 0x00000022 0x00040000 (small .sdr ⟨false,false,false⟩ none [false]
        [0b000001, 0b00, 0b0] [])) = some ⟨0x00010000, [0x04], .sdr, false,
        [.start, .od 6 0b111111, .od 2 0b11, .od 1 0b0, .stop]⟩ := by decide

/-- V-DDR-4 of spec/95_test_vectors.md: early termination with the CRC put back (R311, R312). -/
theorem test_ddrWrite :
    summary (submitted 0x00200830 0x00000002 (small .sdr ⟨true,true,true⟩ none [true]
        [0b111111, 0b000, 0b0, 0b0] [0x12, 0x34, 0xAB, 0xCD])) = some ⟨0x00010007, [], .sdr, false,
        [.start, .od 6 0b111111, .od 3 0b001, .pp 6 0b001000, .pp 3 0b000, .dw 20 0b01001000000001000111,
         .dpre, .dw 18 0b000100100011010000, .dpre, .dw 11 0b10110000111, .hexit]⟩ := by decide

/-- P2.2 of spec/95_test_vectors.md: F0 keeps HDR-DDR mode (R330). -/
theorem test_ddrWrite_chain :
    summary (submitted 0x01200830 0x00000002 (small .sdr ⟨true,true,false⟩ none [true]
        [0b111111, 0b000, 0b0, 0b1] [0x12, 0x34, 0xAB, 0xCD])) = some ⟨0x00020000, [], .ddr, false,
        [.start, .od 6 0b111111, .od 3 0b001, .pp 6 0b001000, .pp 3 0b000, .dw 20 0b01001000000001000111,
         .dpre, .dw 18 0b000100100011010000, .dpre, .dw 18 0b101010111100110101, .dw 11 0b10110010001,
         .hrestart]⟩ := by decide

/-- V-DDR-8 of spec/95_test_vectors.md: two words and a CRC word (R321). -/
theorem test_ddrRead :
    summary (submitted 0x00200831 0x00040000 (small .sdr ⟨false,false,false⟩ none [true]
        [0b111111, 0b000, 0b00, 0b101111101110111100, 0b110000000100, 0b00001010, 0b011011011111] [])) = some ⟨0x00020000, [0xBE, 0xEF, 0x01, 0x02], .sdr, false,
        [.start, .od 6 0b111111, .od 3 0b001, .pp 6 0b001000, .pp 3 0b000, .dw 20 0b01101000000001000101,
         .dr 2, .dr 18, .dr 12, .dr 8, .dr 12, .hexit]⟩ := by decide

/-- V-DDR-11 of spec/95_test_vectors.md: a wrong trailing CRC (R322). -/
theorem test_ddrRead_trailing :
    summary (submitted 0x00200831 0x00010000 (small .sdr ⟨false,false,true⟩ none [true]
        [0b111111, 0b000, 0b00, 0b101111101110111100, 0b1011011101] [])) = some ⟨0x0001000A, [0xBE, 0xEF], .sdr, false,
        [.start, .od 6 0b111111, .od 3 0b001, .pp 6 0b001000, .pp 3 0b000, .dw 20 0b01101000000001000101,
         .dr 2, .dr 18, .dw 2 0b10, .dr 10, .hexit]⟩ := by decide

/-- V-CFG-1 of spec/95_test_vectors.md: two flags (R350). -/
theorem test_setDdrConfig :
    summary (submitted 0x03000040 0x00000000 (small .sdr ⟨false,false,false⟩ none [true]
        [] [])) = some ⟨0x00000000, [], .sdr, false,
        []⟩ := by decide

/-- V-CFG-2 of spec/95_test_vectors.md: 48 kHz (R351). -/
theorem test_setClock_low :
    summary (submitted 0x00000041 0x00000030 (small .sdr ⟨true,true,false⟩ none [true]
        [] [])) = some ⟨0x00000004, [], .sdr, false,
        []⟩ := by decide

/-- V-CFG-4 of spec/95_test_vectors.md: 12500 kHz (R351). -/
theorem test_setClock :
    summary (submitted 0x00000041 0x000030D4 (small .sdr ⟨true,true,false⟩ none [true]
        [] [])) = some ⟨0x00000000, [], .sdr, false,
        []⟩ := by decide

/-- V-CFG-D6 of spec/95_test_vectors.md: 12 mA (R352). -/
theorem test_setDrive :
    summary (submitted 0x00000042 0x0000000C (small .sdr ⟨true,true,false⟩ none [true]
        [] [])) = some ⟨0x00000000, [], .sdr, false,
        []⟩ := by decide

/-- V-CFG-D7 of spec/95_test_vectors.md: 16 mA (R352). -/
theorem test_setDrive_bad :
    summary (submitted 0x00000042 0x00000010 (small .sdr ⟨true,true,false⟩ none [true]
        [] [])) = some ⟨0x00000004, [], .sdr, false,
        []⟩ := by decide

/-- V-CFG-6 of spec/95_test_vectors.md: the pending byte is discarded (R353). -/
theorem test_targetReset :
    summary (submitted 0x00000043 0x00000000 (small .sdr ⟨false,false,false⟩ (some 0x55) [true]
        [] [])) = some ⟨0x00000000, [], .sdr, false,
        [.trst]⟩ := by decide

/-- V-CFG-7 of spec/95_test_vectors.md: from HDR-DDR mode, with no HEXIT (R353). -/
theorem test_targetReset_ddr :
    summary (submitted 0x00000043 0x00000000 (small .ddr ⟨false,false,false⟩ none [true]
        [] [])) = some ⟨0x00000000, [], .sdr, false,
        [.trst]⟩ := by decide

/-! ## Witnesses: for each statement with hypotheses, a state and operands that meet them -/

theorem small_params (m : Mode) (cfg : DdrCfg) (arb : Option Byte) (sda : List Bool) (bus : List Word32)
    (tx : List Byte) : (small m cfg arb sda bus tx).par.lawful = true := by
  show Params.lawful ⟨4, 1, 64, 64, 1000, 4, false, [], []⟩ = true
  decide

theorem small_clk : clkMinKhz ≤ (1000#14).toNat ∧ (1000#14).toNat ≤ clkMaxKhz := by decide

theorem small_drive : driveLegal (4#4).toNat = true := by decide

theorem small_runs (m : Mode) (cfg : DdrCfg) (arb : Option Byte) (sda : List Bool) (bus : List Word32) (tx : List Byte)
    (h : arb.isSome = true → m = .sdr) : (small m cfg arb sda bus tx).Runs :=
  ⟨⟨⟨rfl, h, rfl, small_clk, small_drive, (fun _ hw => nomatch hw), small_params _ _ _ _ _ _,
    Memory.wf_writeList _ Memory.wf_nil _ _, Memory.wf_nil, Nat.zero_le _, Nat.zero_le _, Nat.zero_le _⟩,
    ⟨rfl, rfl, rfl⟩⟩, rfl⟩

/-- A free bus in SDR mode, with the given answers. -/
def free (bus : List Word32) (tx : List Byte) : State := small .sdr ⟨false, false, false⟩ none [true] bus tx

theorem free_runs (bus : List Word32) (tx : List Byte) : (free bus tx).Runs :=
  small_runs _ _ _ _ _ _ (fun h => nomatch h)

/-- Such a machine with accesses of the host to come, and a coprocessor of any fate. -/
theorem free_ready (d0 : Word32) (h : List HostAct) (b : Option Nat) (r : Bool) (bus : List Word32) :
    State.Ready { free bus [] with desc0 := d0, host := h, cpBudget := b, cpReturns := r } :=
  ⟨⟨rfl, (fun h => nomatch h), rfl, small_clk, small_drive, (fun _ hw => nomatch hw),
    small_params .sdr ⟨false, false, false⟩ none [true] bus [], Memory.wf_nil, Memory.wf_nil, Nat.zero_le _, Nat.zero_le _, Nat.zero_le _⟩, ⟨rfl, rfl, rfl⟩⟩

theorem free_free (bus : List Word32) (tx : List Byte) : (free bus tx).SdrFree := ⟨rfl, rfl, rfl⟩

theorem small_headerAck (m : Mode) (cfg : DdrCfg) (arb : Option Byte) (sda : List Bool) (bus : List Word32)
    (tx : List Byte) : (small m cfg arb sda (0x3F :: 0 :: bus) tx).HeaderAck :=
  ⟨show arbWon 0x3F = true by decide, show isAck 0 = true by decide⟩

theorem free_headerAck (bus : List Word32) (tx : List Byte) : (free (0x3F :: 0 :: bus) tx).HeaderAck :=
  ⟨show arbWon 0x3F = true by decide, show isAck 0 = true by decide⟩

/-! ### Encoding and the host port -/

theorem witness_DecodeOfEncode : (Instr.cccDirectWrite 0x7F 65535 65535).wf = true ∧ (Instr.setClock 65535).wf = true := by
  decide

theorem witness_DecodeAcceptsTheTable : ∃ i, decode 0x07FF7F30 0xFFFFFFFF = .ok i := ⟨_, rfl⟩

theorem witness_IllegalDescriptorEnds :
    let s := { free [] [] with desc0 := 0xF8000001, host := [.writeDesc1 0] }
    s.busy = false ∧ s.host = .writeDesc1 0 :: [] ∧ s.desc0.extractLsb' 27 5 ≠ 0#5 := by
  refine ⟨rfl, rfl, by decide⟩

theorem witness_IllegalDescriptorEnds_bit15 :
    let s := { free [] [] with desc0 := 0x00008001, host := [.writeDesc1 0] }
    s.busy = false ∧ s.host = .writeDesc1 0 :: [] ∧ s.desc0.getLsbD 15 = true := by
  refine ⟨rfl, rfl, by decide⟩

theorem witness_IllegalDescriptorEnds_opcode :
    let s := { free [] [] with desc0 := 0x00000044, host := [.writeDesc1 0] }
    s.busy = false ∧ s.host = .writeDesc1 0 :: [] ∧ (s.desc0.extractLsb' 0 8).toNat ∉ [0x01, 0x02, 0x03, 0x10, 0x11,
      0x12, 0x13, 0x14, 0x20, 0x21, 0x22, 0x30, 0x31, 0x40, 0x41, 0x42, 0x43] := by
  refine ⟨rfl, rfl, by decide⟩

theorem witness_StepRunsTheDecodedOperation :
    let s := { free [0x3F, 0] [] with desc0 := 0x00000021, host := [.writeDesc1 0] }
    s.busy = false ∧ s.host = .writeDesc1 0 :: [] ∧ decode s.desc0 0 = .ok .arbHeaderOnly ∧
      exec .arbHeaderOnly (beginOp { s with host := [], desc1 := 0 }) ≠ .fault .stuck := by
  refine ⟨rfl, rfl, by decide, fun h => ?_⟩
  cases h

/-- ARB_HEADER_ONLY submitted to a block whose coprocessor takes nothing. -/
def hungSubmit (rest : List HostAct) : State :=
  { free [] [] with desc0 := 0x00000021, host := .writeDesc1 0 :: rest, cpBudget := some 0, cpReturns := true }

theorem witness_StepRunsTheDecodedOperation_stuck : (hungSubmit []).Inv ∧ (hungSubmit []).busy = false ∧
    decode (hungSubmit []).desc0 0 = .ok .arbHeaderOnly ∧
    exec .arbHeaderOnly (beginOp { hungSubmit [] with host := [], desc1 := 0 }) = .fault .stuck :=
  ⟨⟨(free_ready _ _ _ _ _).toSound, fun _ => ⟨rfl, rfl, rfl⟩⟩, rfl, by decide, rfl⟩

theorem witness_HostAccessWhileBusy (a : HostAct) :
    let s := { free [] [] with busy := true, host := [a] }
    s.busy = true ∧ s.host = a :: [] := ⟨rfl, rfl⟩

theorem witness_HostWritesAndWaits :
    (free [] []).host = [] ∧ (free [] []).busy = false ∧ { free [] [] with busy := true }.busy = true ∧ (free [] [1]).txb.wf ∧ 64 ≤ 64 ∧
      63 < (free [] []).par.txbufBytes ∧ (free [] []).par.txbufBytes ≤ 64 :=
  ⟨rfl, rfl, rfl, Memory.wf_writeList _ Memory.wf_nil _ _, by decide, by decide, by decide⟩

theorem witness_HostReads :
    let s := { free [] [] with res0Valid := true, rxbValid := 64, host := [.readRxb 63] }
    s.busy = false ∧ s.host = .readRxb 63 :: [] ∧ s.res0Valid = true ∧ 63 < s.par.rxbufBytes ∧ 63 < s.rxbValid ∧
      s.par.rxbufBytes ≤ 64 ∧ (free [] []).res0Valid = false ∧ (free [] []).rxbValid ≤ 0 := by
  refine ⟨rfl, rfl, rfl, by decide, by decide, by decide, rfl, by decide⟩

theorem witness_RestartInitialises :
    let s := { small .ddr ⟨true, true, true⟩ none [] [] [] with busy := true, host := [.restart] }
    s.host = .restart :: [] ∧ s.cpFates = [] := ⟨rfl, rfl⟩

/-! ### Whole-machine rules -/

theorem witness_StepKeepsInv : ∃ s t : State, s.Inv ∧ s.host = [.readBusy] ∧ step s = .next t :=
  ⟨{ free [] [] with host := [.readBusy] }, _, ⟨(free_ready _ _ none true _).toSound, fun _ => ⟨rfl, rfl, rfl⟩⟩, rfl, rfl⟩

/-- The step of a submit that is stuck. -/
theorem witness_StepKeepsInv_stuck : ∃ t : State, (hungSubmit []).Inv ∧ step (hungSubmit []) = .next t ∧ t.busy = true :=
  ⟨_, ⟨(free_ready _ _ _ _ _).toSound, fun _ => ⟨rfl, rfl, rfl⟩⟩, rfl, rfl⟩

theorem witness_EveryOperationEnds : (small .ddr ⟨true, true, true⟩ none [] [] []).Runs ∧
    (small .sdr ⟨false, false, false⟩ (some 0x55) [] [] []).Runs :=
  ⟨small_runs _ _ _ _ _ _ (fun h => nomatch h), small_runs _ _ _ _ _ _ fun _ => rfl⟩

/-- A free bus with a coprocessor that runs nothing. -/
def hung : State := { free [] [] with cpBudget := some 0 }

theorem witness_OnlyAHungCoprocessorStops : hung.Ready ∧ hung.SdrFree ∧ hung.cpBudget = some 0 :=
  ⟨free_ready _ _ _ _ _, ⟨rfl, rfl, rfl⟩, rfl⟩

theorem witness_OnlyAHungCoprocessorStops_return :
    let s := { free [] [] with cpBudget := some (cmdWords (free [] []).par .trst).length, cpReturns := false }
    s.Ready ∧ s.mode = .sdr ∧ s.cpBudget = some (cmdWords s.par .trst).length ∧ s.cpReturns = false :=
  ⟨free_ready _ _ _ _ _, rfl, rfl, rfl⟩

theorem witness_OnlyAHungCoprocessorStops_restart : (hungSubmit [.restart]).Inv ∧
    (hungSubmit [.restart]).busy = false ∧ (hungSubmit [.restart]).host = .writeDesc1 0 :: .restart :: [] ∧
    decode (hungSubmit [.restart]).desc0 0 = .ok .arbHeaderOnly ∧
    exec .arbHeaderOnly (beginOp { hungSubmit [.restart] with host := .restart :: [], desc1 := 0 }) = .fault .stuck :=
  ⟨⟨(free_ready _ _ _ _ _).toSound, fun _ => ⟨rfl, rfl, rfl⟩⟩, rfl, rfl, by decide, rfl⟩

/-- The hypotheses of the statements about a next state of an operation: a ready state with no RXB byte placed and a
next state; every operation has one, by `exec_ends`. -/
theorem witness_next (i : Instr) : ∃ s t : State, s.Ready ∧ s.rxbValid = 0 ∧ s.Runs ∧ exec i s = .next t :=
  ⟨free [] [], (exec_ends (i := i) (free_runs [] [])).choose, (free_runs [] []).ready, rfl, free_runs [] [],
    (exec_ends (i := i) (free_runs [] [])).choose_spec.1⟩

theorem witness_ResultWord : ∃ s t : State, s.Ready ∧ s.rxbValid = 0 ∧ exec (.poll 4) s = .next t :=
  ⟨free [] [], _, (free_runs [] []).ready, rfl, rfl⟩

theorem witness_TraceIsTheWire : ∃ s t : State, s.Ready ∧ exec .targetReset s = .next t :=
  ⟨free [] [], _, (free_runs [] []).ready, rfl⟩

theorem witness_DepthAndPaceDoNotMatter :
    ∃ (s t : State) (cq rq : Nat), s.Runs ∧ 4 ≤ cq ∧ 1 ≤ rq ∧ exec .targetReset s = .next t :=
  ⟨free [] [], _, 4, 1, free_runs [] [], by decide, by decide, rfl⟩

theorem witness_ModeAfter : ∃ s t : State, s.Ready ∧ exec (.ddrWrite 0x08 0x20 true 33) s = .next t ∧
    t.res0 = resWord .paramOutOfRange 0 :=
  ⟨free [] [], _, (free_runs [] []).ready, rfl, rfl⟩

theorem witness_ModeAfter_ok : ∃ s t : State, s.Ready ∧ exec (.ddrWrite 0x08 0x20 true 0) s = .next t ∧
    t.res0.extractLsb' 0 4 = Status.ok.code :=
  ⟨free [0x3F, 0] [], _, (free_runs _ _).ready, rfl, by decide⟩

theorem witness_PendingByteChanges_set : ∃ s t : State, s.Ready ∧ exec .arbHeaderOnly s = .next t ∧
    s.arbpV = false ∧ t.arbpV = true :=
  ⟨free [0, 0] [], _, (free_runs _ _).ready, rfl, rfl, by decide⟩

theorem witness_PendingByteChanges_clear : ∃ s t : State, s.Ready ∧ exec .targetReset s = .next t ∧
    s.arbpV = true ∧ t.arbpV = false :=
  ⟨small .sdr ⟨false, false, false⟩ (some 0x55) [] [] [], _, (small_runs _ _ _ _ _ _ fun _ => rfl).ready, rfl, rfl, rfl⟩

theorem witness_ConfigurationKept : ∃ s t : State, s.Ready ∧ exec (.setClock 49) s = .next t :=
  ⟨free [] [], _, (free_runs [] []).ready, rfl⟩

theorem witness_RxbOutsideTheResult : ∃ s t : State, s.Ready ∧ exec (.poll 1) s = .next t ∧
    (Instr.poll 1).definedBytes (t.res0.extractLsb' 16 16).toNat ≤ 0 :=
  ⟨free [] [], _, (free_runs [] []).ready, rfl, by decide⟩

theorem witness_BusAfter : ∃ s t : State, s.Ready ∧ exec .targetReset s = .next t ∧ t.wire ≠ s.wire :=
  ⟨free [] [], _, (free_runs [] []).ready, rfl, by decide⟩

/-! ### Table, buffers and queues -/

theorem witness_SdrTableEntries : (free [] []).Ready := (free_runs [] []).ready

theorem witness_BufferLaws : Memory.wf [(3, 0x01), (65534, 0xFF)] ∧ Memory.wf [] := by decide

theorem witness_AdjustMakesPa0One : pa0 0xFFFF = true ∧ pa0 0x1234 = false ∧ pa1 0x1234 = false ∧ pa1 0x0002 = true := by
  decide

/-- A queue with one slot left, holding one whole command and one of two words. -/
def queued : State :=
  { free [] [] with cmdq := [⟨.start, 0x1, true⟩, ⟨.restart, 0x2, false⟩, ⟨.restart, 0x3, true⟩] }

theorem witness_PutKeepsOrder : queued.Live ∧ 4 ≤ queued.par.cqDepth ∧ queued.cmdq.length ≤ queued.par.cqDepth ∧
    (∀ e ∈ queued.cmdq, e.last = true → e.cmd.width = none) ∧ CpCmd.stop.program = queued.cpProg := by
  refine ⟨rfl, by decide, by decide, by decide, rfl⟩

theorem witness_XferGivesTheAnswer : queued.Live ∧ queued.cpProg = queued.mode ∧ queued.rspq = [] ∧
    queued.par.lawful = true ∧ (∀ e ∈ queued.cmdq, e.last = true → e.cmd.width = none) ∧
    (CpCmd.rdb true).program = queued.mode ∧ (CpCmd.rdb true).width = some 9 := by
  refine ⟨rfl, rfl, rfl, by decide, by decide, rfl, rfl⟩

theorem witness_ProgramFaults : (free [] []).Quiet ∧ ¬ queued.Quiet ∧ CpCmd.hexit.program ≠ (free [] []).cpProg :=
  ⟨⟨rfl, rfl, rfl⟩, (fun h => absurd h.cmdq (by decide)), by decide⟩

theorem witness_DrainCompletes : queued.Live ∧ queued.rspq = [] ∧
    ∀ e ∈ queued.cmdq, e.last = true → e.cmd.width = none := by
  refine ⟨rfl, rfl, by decide⟩

theorem witness_UncheckedPuts_allowance : (free [] []).uncheckedLeft = 0 ∧
    ({ free [] [] with uncheckedLeft := 4 }.uncheckedLeft = 3 + 1) ∧
    (free [] []).cmdq.length < (free [] []).par.cqDepth ∧
    (free [] []).par.cqDepth ≤ (queued.cmdq ++ [(⟨.stop, 0x4, true⟩ : CmdWord)]).length := by
  refine ⟨rfl, rfl, by decide, by decide⟩

theorem witness_UncheckedPuts_trace : queued.Live ∧ queued.rspq = [] ∧ queued.par.lawful = true ∧
    (∀ e ∈ queued.cmdq, e.last = true → e.cmd.width = none) ∧ queued.cpProg = queued.mode ∧
    CpCmd.stop.program = queued.cpProg ∧ CpCmd.stop.width = none ∧ (cmdWords queued.par .stop).length ≤ 4 ∧
    ∃ t, waitUntilQueueEmpty queued = .ok () t := by
  refine ⟨rfl, rfl, by decide, by decide, rfl, rfl, rfl, by decide, _, rfl⟩

theorem witness_UncheckedPuts_ends : (∃ t, putWord ⟨.stop, 0x4, true⟩ queued = .ok () t) ∧
    (∃ r t, popResponse ackFrame 1 { free [] [] with rspq := [0] } = .ok r t) ∧
    (∃ t, waitPcStart (free [] []) = .ok () t) ∧ ∃ t, loadProgram .ddr (free [] []) = .ok () t :=
  ⟨⟨_, rfl⟩, ⟨_, _, rfl⟩, ⟨_, rfl⟩, ⟨_, rfl⟩⟩

/-! ### Entry checks and the prologue -/

theorem witness_SdrOperationInDdrMode : (Instr.poll 1).sdrClass = true ∧
    (small .ddr ⟨false, false, false⟩ none [] [] []).mode = .ddr := ⟨rfl, rfl⟩

theorem witness_PendingInterruptRefuses : (Instr.ddrRead 0x08 0x20 false 0).opensHeader = true ∧
    (small .sdr ⟨false, false, false⟩ (some 0x55) [] [] []).arbpV = true ∧
    (small .sdr ⟨false, false, false⟩ none [false] [] []).arbpV = false ∧
    (small .sdr ⟨false, false, false⟩ none [false] [] []).sda = false := ⟨rfl, rfl, rfl, rfl⟩

theorem witness_LengthRefuses_sdr : (Instr.cccDirectWrite 0x08 60 5).lengthsOk (free [] []).par = false ∧
    (Instr.cccDirectWrite 0x08 60 5).sdrClass = true ∧ (Instr.cccDirectWrite 0x08 60 5).isPoll = false ∧
    (free [] []).SdrFree := ⟨rfl, rfl, rfl, free_free [] []⟩

theorem witness_LengthRefuses_poll : (Instr.poll 64).lengthsOk (free [] []).par = false ∧ (Instr.poll 64).isPoll = true ∧
    (small .sdr ⟨false, false, false⟩ (some 0x55) [] [] []).arbpV = true ∧
    (small .sdr ⟨false, false, false⟩ none [false] [] []).arbpV = false ∧
    (small .sdr ⟨false, false, false⟩ none [false] [] []).sda = false := ⟨rfl, rfl, rfl, rfl, rfl⟩

theorem witness_LengthRefuses_ddr : (Instr.ddrWrite 0x08 0x20 true 33).lengthsOk (free [] []).par = false ∧
    (Instr.ddrRead 0x08 0x20 true 0).lengthsOk (free [] []).par = false ∧
    (Instr.ddrRead 0x08 0x20 true 0).ddrClass = true ∧ (free [] []).SdrFree ∧
    (small .ddr ⟨false, false, false⟩ none [] [] []).mode = .ddr := ⟨rfl, rfl, rfl, free_free [] [], rfl⟩

theorem witness_HeaderFails_lost : (Instr.ddrWrite 0x08 0x20 true 32).opensHeader = true ∧ (free [0x1F] []).Runs ∧
    (free [0x1F] []).SdrFree ∧ (Instr.ddrWrite 0x08 0x20 true 32).lengthsOk (free [0x1F] []).par = true ∧
    arbWon ((free [0x1F] []).answer 0) = false := ⟨rfl, free_runs _ _, free_free _ _, rfl, rfl⟩

theorem witness_HeaderFails_nack : arbWon ((free [0x3F, 1] []).answer 0) = true ∧
    isAck ((free [0x3F, 1] []).answer 1) = false ∧ (free [0x3F, 1] []).Runs ∧ (free [0x3F, 1] []).SdrFree :=
  ⟨rfl, rfl, free_runs _ _, free_free _ _⟩

theorem witness_AddressNacked_first : (Instr.entdaa 0x08).firstAddr (free [0x3F, 0, 1] []).txb =
      some (byteCmds cccEntdaa, bcastAddr, true) ∧
    (free [0x3F, 0, 1] []).Runs ∧ (free [0x3F, 0, 1] []).SdrFree ∧
    (Instr.entdaa 0x08).lengthsOk (free [0x3F, 0, 1] []).par = true ∧ (free [0x3F, 0, 1] []).HeaderAck ∧
    isAck ((free [0x3F, 0, 1] []).answer 2) = false :=
  ⟨rfl, free_runs _ _, free_free _ _, rfl, free_headerAck _ _, rfl⟩

theorem witness_AddressNacked_second : (free [0x3F, 0, 0, 1] []).Runs ∧ (free [0x3F, 0, 0, 1] []).SdrFree ∧
    64 ≤ (free [0x3F, 0, 0, 1] []).par.txbufBytes ∧ 64 ≤ (free [0x3F, 0, 0, 1] []).par.rxbufBytes ∧
    (free [0x3F, 0, 0, 1] []).HeaderAck ∧ isAck ((free [0x3F, 0, 0, 1] []).answer 2) = true ∧
    isAck ((free [0x3F, 0, 0, 1] []).answer 3) = false :=
  ⟨free_runs _ _, free_free _ _, by decide, by decide, free_headerAck _ _, rfl, rfl⟩

/-! ### SDR transfers -/

theorem witness_PrivateWriteCompletes : (free [0x3F, 0, 0] []).Runs ∧ (free [0x3F, 0, 0] []).SdrFree ∧
    64 ≤ (free [0x3F, 0, 0] []).par.txbufBytes ∧ (free [0x3F, 0, 0] []).HeaderAck ∧
    isAck ((free [0x3F, 0, 0] []).answer 2) = true :=
  ⟨free_runs _ _, free_free _ _, by decide, free_headerAck _ _, rfl⟩

/-- A read of one byte out of one, and of two out of 64 with T = 0 on the second. -/
theorem witness_PrivateReadCompletes : (free [0x3F, 0, 0, 1] []).ReadEnds 3 1 1 ∧
    (free [0x3F, 0, 0, 1, 0] []).ReadEnds 3 2 64 ∧ (free [0x3F, 0, 0, 1] []).Runs ∧ (free [0x3F, 0, 0, 1] []).SdrFree ∧
    (free [0x3F, 0, 0, 1] []).HeaderAck ∧ isAck ((free [0x3F, 0, 0, 1] []).answer 2) = true := by
  refine ⟨⟨by decide, by decide, fun k hk => absurd hk (by omega), .inl rfl⟩, ⟨by decide, by decide, fun k hk => ?_,
    .inr rfl⟩, free_runs _ _, free_free _ _, free_headerAck _ _, rfl⟩
  obtain rfl : k = 0 := by omega
  rfl

theorem witness_PrivateWriteReadCompletes : (free [0x3F, 0, 0, 0, 0] []).ReadEnds 4 1 64 ∧
    (free [0x3F, 0, 0, 0, 0] []).Runs ∧ (free [0x3F, 0, 0, 0, 0] []).SdrFree ∧ (free [0x3F, 0, 0, 0, 0] []).HeaderAck ∧
    isAck ((free [0x3F, 0, 0, 0, 0] []).answer 2) = true ∧ isAck ((free [0x3F, 0, 0, 0, 0] []).answer 3) = true :=
  ⟨⟨by decide, by decide, fun k hk => absurd hk (by omega), .inr rfl⟩, free_runs _ _, free_free _ _,
    free_headerAck _ _, rfl, rfl⟩

theorem witness_EveryReadEnds : (free [0x3F, 0, 0, 0, 0] []).Runs ∧ (free [0x3F, 0, 0, 0, 0] []).SdrFree ∧
    (free [0x3F, 0, 0, 0, 0] []).HeaderAck ∧ 64 ≤ (free [0x3F, 0, 0, 0, 0] []).par.rxbufBytes ∧
    isAck ((free [0x3F, 0, 0, 0, 0] []).answer 2) = true ∧ isAck ((free [0x3F, 0, 0, 0, 0] []).answer 3) = true ∧
    64 ≤ (free [0x3F, 0, 0, 0, 0] []).par.txbufBytes :=
  ⟨free_runs _ _, free_free _ _, free_headerAck _ _, by decide, rfl, rfl, by decide⟩

theorem witness_EveryReadEnds_poll :
    let s := small .sdr ⟨false, false, false⟩ (some 0x55) [] [0, 0] []
    s.Runs ∧ 63 + 1 ≤ s.par.rxbufBytes ∧ s.PollTakes [] 0x55 ∧ (0x55#8).getLsbD 0 = true :=
  ⟨small_runs _ _ _ _ _ _ fun _ => rfl, by decide, ⟨rfl, .inl ⟨rfl, rfl, rfl⟩⟩, rfl⟩

theorem witness_CccBcastWriteCompletes : (free [0x3F, 0] []).Runs ∧ (free [0x3F, 0] []).SdrFree ∧ 1 ≤ 64 ∧
    64 ≤ (free [0x3F, 0] []).par.txbufBytes ∧ (free [0x3F, 0] []).HeaderAck :=
  ⟨free_runs _ _, free_free _ _, by decide, by decide, free_headerAck _ _⟩

theorem witness_CccDirectWriteCompletes : 60 + 4 ≤ (free [0x3F, 0, 0] []).par.txbufBytes ∧
    (free [0x3F, 0, 0] []).Runs ∧ (free [0x3F, 0, 0] []).SdrFree ∧ (free [0x3F, 0, 0] []).HeaderAck ∧
    isAck ((free [0x3F, 0, 0] []).answer 2) = true :=
  ⟨by decide, free_runs _ _, free_free _ _, free_headerAck _ _, rfl⟩

theorem witness_CccDirectReadCompletes : (free [0x3F, 0, 0, 0] []).ReadEnds 3 1 64 ∧
    (free [0x3F, 0, 0, 0] []).Runs ∧ (free [0x3F, 0, 0, 0] []).SdrFree ∧ (free [0x3F, 0, 0, 0] []).HeaderAck ∧
    isAck ((free [0x3F, 0, 0, 0] []).answer 2) = true :=
  ⟨⟨by decide, by decide, fun k hk => absurd hk (by omega), .inr rfl⟩, free_runs _ _, free_free _ _,
    free_headerAck _ _, rfl⟩

theorem witness_EntdaaCompletes : (free [0x3F, 0, 0] []).Runs ∧ (free [0x3F, 0, 0] []).SdrFree ∧
    (free [0x3F, 0, 0] []).HeaderAck ∧ isAck ((free [0x3F, 0, 0] []).answer 2) = true :=
  ⟨free_runs _ _, free_free _ _, free_headerAck _ _, rfl⟩

theorem witness_ProbesComplete : (free [0x3F, 0, 0] []).Runs ∧ (free [0x3F, 0, 0] []).SdrFree ∧
    (free [0x3F, 0, 0] []).HeaderAck ∧ isAck ((free [0x3F, 0, 0] []).answer 2) = true :=
  ⟨free_runs _ _, free_free _ _, free_headerAck _ _, rfl⟩

theorem witness_RstdaaIsABroadcast : (free [] [0x06]).Runs ∧ (free [] [0x06]).txb.read 0 = 0x06#8 :=
  ⟨free_runs _ _, rfl⟩

/-! ### POLL -/

theorem witness_PollServicesIbi_pending :
    let s := small .sdr ⟨false, false, false⟩ (some 0x55) [] [0, 0] []
    s.Runs ∧ 63 + 1 ≤ s.par.rxbufBytes ∧ s.PollTakes [] 0x55 ∧ (0x55#8).getLsbD 0 = true ∧ s.ReadEnds 1 1 63 :=
  ⟨small_runs _ _ _ _ _ _ fun _ => rfl, by decide, ⟨rfl, .inl ⟨rfl, rfl, rfl⟩⟩, rfl,
    ⟨by decide, by decide, fun k hk => absurd hk (by omega), .inr rfl⟩⟩

theorem witness_PollServicesIbi_start :
    let s := small .sdr ⟨false, false, false⟩ none [false] [0x15, 1, 0, 0] []
    s.Runs ∧ s.PollTakes lostCmds 0x55 ∧ s.ReadEnds (sampledIn lostCmds + 1) 1 1 :=
  ⟨small_runs _ _ _ _ _ _ (fun h => nomatch h), ⟨rfl, .inr ⟨rfl, rfl, rfl, rfl, by decide⟩⟩,
    ⟨by decide, by decide, fun k hk => absurd hk (by omega), .inl rfl⟩⟩

theorem witness_PollServicesOthers :
    let s := small .sdr ⟨false, false, false⟩ (some 0x04) [] [0] []
    s.Runs ∧ s.PollTakes [] 0x04 ∧ (0x04#8).getLsbD 0 = false ∧ (0x04#8).extractLsb' 1 7 = 0x02#7 ∧
      (0x60#8).getLsbD 0 = false ∧ (0x60#8).extractLsb' 1 7 ≠ 0x02#7 :=
  ⟨small_runs _ _ _ _ _ _ fun _ => rfl, ⟨rfl, .inl ⟨rfl, rfl, rfl⟩⟩, by decide, by decide, by decide, by decide⟩

theorem witness_PollFindsNothing :
    let s := small .sdr ⟨false, false, false⟩ none [false] [0x3F, 0] []
    (free [] []).SdrFree ∧ s.Runs ∧ s.mode = .sdr ∧ s.arbpV = false ∧ s.sda = false ∧ 63 + 1 ≤ s.par.rxbufBytes ∧
      arbWon (s.answer 0) = true :=
  ⟨free_free _ _, small_runs _ _ _ _ _ _ (fun h => nomatch h), rfl, rfl, rfl, by decide, rfl⟩

/-! ### HDR-DDR -/

/-- HDR-DDR mode with every flag set, and the given answers. -/
def ddr (bus : List Word32) : State := small .ddr ⟨true, true, true⟩ none [] bus []

theorem ddr_runs (bus : List Word32) : (ddr bus).Runs := small_runs _ _ _ _ _ _ (fun h => nomatch h)

theorem ddr_enters (bus : List Word32) : (ddr bus).EntersDdr := fun h => nomatch h

theorem free_enters (bus : List Word32) (tx : List Byte) : (free (0x3F :: 0 :: bus) tx).EntersDdr :=
  fun _ => ⟨free_free _ _, free_headerAck _ _⟩

theorem witness_DdrWriteCompletes : (ddr [0, 1]).Runs ∧ (ddr [0, 1]).EntersDdr ∧
    2 * 32 ≤ (ddr [0, 1]).par.txbufBytes ∧
    (ddr [0, 1]).DdrGoes (ddr [0, 1]).ddrCfg.ackEn (ddr [0, 1]).ddrCfg.etEn 0 (ddr [0, 1]).enterAnswers 2 := by
  refine ⟨ddr_runs _, ddr_enters _, by decide, fun k hk _ => ?_⟩
  obtain rfl | rfl : k = 0 ∨ k = 1 := by omega
  · decide
  · decide

theorem witness_DdrWriteCompletes_sdr : (free [0x3F, 0] []).Runs ∧ (free [0x3F, 0] []).EntersDdr ∧
    (free [0x3F, 0] []).DdrGoes (free [0x3F, 0] []).ddrCfg.ackEn (free [0x3F, 0] []).ddrCfg.etEn 0
      (free [0x3F, 0] []).enterAnswers 32 := by
  refine ⟨free_runs _ _, free_enters _ _, fun k _ h => ?_⟩
  simp [free, small, ddrAsks] at h

theorem witness_DdrWriteStops_nack : (ddr [1]).Runs ∧ (ddr [1]).EntersDdr ∧
    (ddr [1]).DdrStops (ddr [1]).ddrCfg.ackEn (ddr [1]).ddrCfg.etEn 0 (ddr [1]).enterAnswers 0 :=
  ⟨ddr_runs _, ddr_enters _, ⟨fun k hk => absurd hk (by omega), rfl, by decide⟩⟩

theorem witness_DdrWriteStops_early : (ddr [0, 0]).Runs ∧
    (ddr [0, 0]).DdrStops (ddr [0, 0]).ddrCfg.ackEn (ddr [0, 0]).ddrCfg.etEn 0 (ddr [0, 0]).enterAnswers 1 := by
  refine ⟨ddr_runs _, ⟨fun k hk _ => ?_, rfl, by decide⟩⟩
  obtain rfl : k = 0 := by omega
  decide

theorem witness_DdrReadNacked : (ddr [1]).Runs ∧ (ddr [1]).EntersDdr ∧ 2 * 32 ≤ (ddr [1]).par.rxbufBytes ∧
    ((ddr [1]).answer (ddr [1]).enterAnswers).getLsbD 0 = true := ⟨ddr_runs _, ddr_enters _, by decide, rfl⟩

/-- One word 0xBEEF that arrives intact, in the answers of V-DDR-7. -/
theorem witness_intact (bus : List Word32) :
    rxIntact (fun k => (ddr (0b00 :: 0b101111101110111100 :: bus)).answer k) 1 := by
  intro k hk
  obtain rfl : k = 0 := by omega
  exact ⟨show (0b00#32).getLsbD 0 = false by decide,
    show rxParityOk ((0b101111101110111100#32).extractLsb' 0 18) = true by decide⟩

theorem witness_DdrReadEndsWithCrc :
    let s := ddr [0b00, 0b101111101110111100, 0b011011011100]
    s.Runs ∧ s.EntersDdr ∧ 1 < 32 ∧ 2 * 32 ≤ s.par.rxbufBytes ∧ rxIntact s.answer 1 ∧
      (s.answer (2 * 1)).extractLsb' 10 2 = 0b01#2 :=
  ⟨ddr_runs _, ddr_enters _, by decide, by decide, witness_intact _, by decide⟩

theorem witness_DdrReadFills :
    let s := ddr [0b00, 0b101111101110111100, 0b1101110001]
    s.Runs ∧ s.EntersDdr ∧ 2 * 1 ≤ s.par.rxbufBytes ∧ rxIntact s.answer 1 :=
  ⟨ddr_runs _, ddr_enters _, by decide, witness_intact _⟩

theorem witness_DdrReadFails_preamble :
    let s := ddr [0b00, 0b101111101110111100, 0b100000000000]
    s.Runs ∧ s.EntersDdr ∧ 1 < 32 ∧ rxIntact s.answer 1 ∧ (s.answer (2 * 1)).getLsbD 10 = false :=
  ⟨ddr_runs _, ddr_enters _, by decide, witness_intact _, by decide⟩

theorem witness_DdrReadFails_parity :
    let s := ddr [0b00, 0b101111101110111101]
    s.Runs ∧ s.EntersDdr ∧ rxIntact s.answer 0 ∧ rxComes s.answer 0 ∧
      (rxBits s.answer 0).extractLsb' 0 2 ≠ parityPair (rxData s.answer 0) :=
  ⟨ddr_runs _, ddr_enters _, fun k hk => absurd hk (by omega), rfl, by decide⟩

theorem witness_TargetResetCompletes : (ddr []).Runs := ddr_runs []

/-! ### What lies between the engine and the coprocessor: two-word commands, a response code that is not the identity -/

/-- A machine whose STOP takes three words and whose header commands take six and two, and whose response words 0 and 1 of
width 3 stand for each other's samples. -/
def coded (bus : List Word32) : State :=
  { free bus [] with
    par := ⟨4, 1, 64, 64, 1000, 4, false, [⟨.stop, 1, [2, 3]⟩, ⟨arbFrame6, 4, [5, 6, 7, 8, 9]⟩, ⟨arbFrame3, 10, [11]⟩],
      [⟨0, 3, 1⟩, ⟨1, 3, 0⟩]⟩ }

theorem test_coded_lawful : (coded []).par.lawful = true := by decide

/-- V-SDR-24 again: the words change neither the commands nor the result (R152, R154). -/
theorem test_coded_result :
    summary (submitted 0x00000021 0 (coded [0x3F, 1])) =
      some ⟨0x00000002, [], .sdr, false, [.start, .od 6 0b111111, .od 3 0b001, .stop]⟩ := by decide

/-- The words of STOP enter CMDQ one by one, and the word that completes it comes last (R153). -/
theorem test_coded_put :
    (match put .stop (coded []) with | .ok _ t => t.cmdqWords | _ => []) = [1, 2, 3] ∧
    (match put .stop (coded []) with | .ok _ t => completes (t.cmdq.take 2) | _ => [.stop]) = [] := by decide

/-- The sample 1 of width 3 comes as the response word 0 (R154). -/
theorem test_coded_response : respWord (coded []).par.respRows 3 1 = 0 ∧ respDecode (coded []).par.respRows 0 3 = 1 := by
  decide

/-- `xfer` by unchecked puts traces the response like `xfer` (R161). -/
theorem test_unchecked_xfer :
    (match waitUntilQueueEmpty { free [5] [] with sampleW := some 3 } with
      | .ok _ t => (match xferUnchecked arbFrame3 t with | .ok r u => some (r, u.trace) | _ => none)
      | _ => none) = some (5, [⟨arbFrame3, some 5⟩]) := by decide

/-- A put after `wait_pc_start` is not directly after the wait (R460). -/
theorem test_unchecked_late :
    (match waitUntilQueueEmpty (free [] []) with
      | .ok _ t => (match waitPcStart t with | .ok _ u => putUnchecked .stop u | r => r)
      | r => r) = .fault .uncheckedPut := by decide

/-! ### A stuck operation and the restart (R408, R450) -/

/-- Some steps of the block. -/
def steps (n : Nat) (s : State) : Option State :=
  match n with
  | 0 => some s
  | k + 1 =>
    match step s with
    | .next t => steps k t
    | .fault _ => none
    | .refused _ => none

/-- The submit leaves BUSY = 1, which the host can read. -/
theorem test_stuck_busy : (steps 2 (hungSubmit [.readBusy])).map (fun t => (t.busy, t.hostData)) =
    some (true, some 1) := by decide

/-- With nothing more to come the stuck block has no step. -/
theorem test_stuck_no_step : (steps 1 (hungSubmit [])).bind (steps 1) = none := by decide

/-- A restart ends it, posts no status, and the block waits. -/
theorem test_stuck_restart : (steps 3 (hungSubmit [.restart])).map (fun t => (t.busy, t.res0Valid, t.cmdq, t.trace)) =
    some (false, false, [], []) := by decide

end Sys2Proof.Tests
end

section
namespace Sys2Proof.Machine

/-- A buffer in canonical form lists exactly the bytes that are not the fill byte, each at the index that reads it. -/
theorem Memory.mem_iff_read {m : Memory} (hm : m.wf) (c : Host.Cell) :
    c ∈ m ↔ c.2 ≠ Memory.fill ∧ m.read c.1 = c.2 := by
  induction m with
  | nil => simp [Memory.read, eq_comm]
  | cons d m ih =>
    obtain ⟨k, x⟩ := d
    obtain ⟨i, b⟩ := c
    obtain ⟨hrise, hfill⟩ := hm
    obtain ⟨hbelow, hrest⟩ := List.pairwise_cons.1 hrise
    obtain ⟨hx, htail⟩ := List.forall_mem_cons.1 hfill
    have ih := ih ⟨hrest, htail⟩
    obtain rfl | e := eq_or_ne i k
    · have hhead : ((i, b) : Host.Cell) ∉ m := fun h => Nat.lt_irrefl i (hbelow _ h)
      simp only [List.mem_cons, hhead, or_false, Memory.read, if_true, Prod.mk.injEq, true_and]
      exact ⟨fun h => ⟨h ▸ hx, h.symm⟩, fun h => h.2.symm⟩
    · simpa [Memory.read, e] using ih

/-- Buffers in canonical form that read alike at every index are the same data (R70). -/
theorem Memory.eq_of_read_eq {m m' : Memory} (hm : m.wf) (hm' : m'.wf) (h : ∀ k, m.read k = m'.read k) : m = m' := by
  have : Std.Irrefl fun x y : Host.Cell => x.1 < y.1 := ⟨fun x => Nat.lt_irrefl x.1⟩
  have : Std.Antisymm fun x y : Host.Cell => x.1 < y.1 := ⟨fun _ _ h h' => absurd h' h.asymm⟩
  refine hm.1.eq_of_mem_iff hm'.1 fun c => ?_
  rw [Memory.mem_iff_read hm, Memory.mem_iff_read hm', h]

/-- Settles O28: reads after a write and the canonical form are the buffer's laws, and a canonical buffer is determined
by what it reads. -/
theorem bufferLaws : Obligations.BufferLaws := by
  intro m m' a b hm hm'
  refine ⟨Memory.wf_write m hm a b, ?_, fun k hk => ?_, Memory.eq_of_read_eq hm hm'⟩
  · rw [Memory.read_write m hm, if_pos rfl]
  · rw [Memory.read_write m hm, if_neg hk]

/-- An operation that ended has posted its result and freed the block (R18). -/
theorem Ends.posted {i : Instr} {u v : State} (h : Ends i u v) : v.busy = false ∧ v.res0Valid = true := by
  obtain ⟨st, n, cs, bs, h⟩ := h
  exact ⟨h.busy, h.res0Valid⟩

/-- Settles O13: from a ready state with a live coprocessor an operation comes to one of its ends (`exec_ends`), and
every end is ready for the next operation (`ready_of`). -/
theorem everyOperationEnds : Obligations.EveryOperationEnds := by
  intro i s hs
  obtain ⟨t, hnext, hends, hquiet, hlive⟩ := exec_ends (i := i) hs
  obtain ⟨hbusy, hvalid⟩ := hends.posted
  exact ⟨t, hnext, ready_of hs.ready hends hquiet, hlive, hbusy, hvalid⟩

end Sys2Proof.Machine
end

section
namespace Sys2Proof.Machine

/-! ## Where a context register lies in its container (R31, R32, R34 to R36) -/

theorem State.ctx0_fields (s : State) :
    (s.ctx0.getLsbD 0 = true ↔ s.mode = .ddr) ∧ s.ctx0.extractLsb' 1 31 = 0#31 := by
  unfold State.ctx0
  cases s.mode <;> decide

theorem State.ctx1_fields (s : State) :
    s.ctx1.extractLsb' 0 8 = s.arbpB ∧ s.ctx1.getLsbD 8 = s.arbpV ∧ s.ctx1.extractLsb' 9 23 = 0#23 := by
  unfold State.ctx1
  refine ⟨BitVec.extractLsb'_append_eq_right, ?_, ?_⟩
  · simp only [BitVec.getLsbD_append]
    simp
  · rw [BitVec.extractLsb'_append_eq_of_le (by decide)]
    exact BitVec.extractLsb'_append_eq_left

theorem State.ctx2_flags (s : State) :
    s.ctx2.getLsbD 0 = s.ddrCfg.ackEn ∧ s.ctx2.getLsbD 1 = s.ddrCfg.etEn ∧ s.ctx2.getLsbD 2 = s.ddrCfg.crcEt := by
  unfold State.ctx2
  simp only [BitVec.getLsbD_append]
  simp

theorem State.ctx2_reserved (s : State) : s.ctx2.extractLsb' 3 29 = 0#29 := by
  unfold State.ctx2
  rw [BitVec.extractLsb'_append_eq_of_le (by decide), BitVec.extractLsb'_append_eq_of_le (by decide)]
  exact BitVec.extractLsb'_append_eq_left

theorem State.ctx3_fields (s : State) : s.ctx3.extractLsb' 0 14 = s.clkKhz ∧ s.ctx3.extractLsb' 14 18 = 0#18 :=
  ⟨BitVec.extractLsb'_append_eq_right, BitVec.extractLsb'_append_eq_left⟩

theorem State.ctx4_fields (s : State) : s.ctx4.extractLsb' 0 4 = s.driveMa ∧ s.ctx4.extractLsb' 4 28 = 0#28 :=
  ⟨BitVec.extractLsb'_append_eq_right, BitVec.extractLsb'_append_eq_left⟩

/-- Settles O60: the fields of the five containers, one register after another. -/
theorem contextContainers : Obligations.ContextContainers := by
  intro s
  obtain ⟨mode, zero0⟩ := s.ctx0_fields
  obtain ⟨byte, valid, zero1⟩ := s.ctx1_fields
  obtain ⟨ackEn, etEn, crcEt⟩ := s.ctx2_flags
  obtain ⟨clk, zero3⟩ := s.ctx3_fields
  obtain ⟨drive, zero4⟩ := s.ctx4_fields
  exact ⟨mode, zero0, byte, valid, zero1, ackEn, etEn, crcEt, s.ctx2_reserved, clk, zero3, drive, zero4⟩

/-! ## When a host access has a next state, and which (R41 to R45, R87) -/

section accesses
variable {s t : State}

theorem step_of_noHost (h : s.host = []) : step s = noAccess s := by
  unfold step
  rw [h]

theorem step_of_host {a : HostAct} {rest : List HostAct} (h : s.host = a :: rest) :
    step s = hostStep a { s with host := rest } := by
  unfold step
  rw [h]

theorem noAccess_next_iff : noAccess s = .next t ↔ s.busy = false ∧ s = t := by
  unfold noAccess
  cases s.busy <;> simp

theorem hostWriteDesc0_next_iff {w : Word32} :
    hostWriteDesc0 w s = .next t ↔ s.busy = false ∧ { s with desc0 := w } = t := by
  unfold hostWriteDesc0
  cases s.busy <;> simp

theorem hostWriteDesc1_next_iff {w : Word32} :
    hostWriteDesc1 w s = .next t ↔ s.busy = false ∧ submit { s with desc1 := w } = .next t := by
  unfold hostWriteDesc1
  cases s.busy <;> simp

theorem hostWriteTxb_next_iff {i : Nat} {b : Byte} :
    hostWriteTxb i b s = .next t ↔
      s.busy = false ∧ i < s.par.txbufBytes ∧ { s with txb := s.txb.write i b } = t := by
  unfold hostWriteTxb
  by_cases hi : i < s.par.txbufBytes <;> cases s.busy <;> simp [hi]

theorem hostReadRes0_next_iff :
    hostReadRes0 s = .next t ↔
      s.busy = false ∧ s.res0Valid = true ∧ { s with hostData := some s.res0 } = t := by
  unfold hostReadRes0
  by_cases hv : s.res0Valid <;> cases s.busy <;> simp [hv]

theorem hostReadRxb_next_iff {i : Nat} :
    hostReadRxb i s = .next t ↔ s.busy = false ∧ i < s.par.rxbufBytes ∧ i < s.rxbValid ∧
      { s with hostData := some ((s.rxb.read i).setWidth 32) } = t := by
  unfold hostReadRxb
  by_cases hi : i < s.par.rxbufBytes
  · by_cases hv : i < s.rxbValid <;> cases s.busy <;> simp [Nat.not_le.2 hi, hi, hv]
  · cases s.busy <;> simp [Nat.not_lt.1 hi, hi]

theorem hostReadBusy_eq (s : State) :
    hostReadBusy s = .next { s with hostData := some (if s.busy then 1#32 else 0#32) } := by
  unfold hostReadBusy
  cases s.busy <;> rfl

end accesses

/-- Settles O7: an idle block takes each of these accesses as its own equation says, and a write of TXB follows the
laws of a buffer. -/
theorem hostWritesAndWaits : Obligations.HostWritesAndWaits := by
  refine ⟨fun s hs => ⟨fun hb => ?_, fun hb => ?_⟩,
    fun s rest hb hwf => ⟨fun w hs => ?_, fun i b hs => ⟨fun hi => ?_, fun hi => ?_⟩⟩⟩
  · rw [step_of_noHost hs]
    exact noAccess_next_iff.2 ⟨hb, rfl⟩
  · simp [step_of_noHost hs, noAccess, hb]
  · rw [step_of_host hs]
    exact hostWriteDesc0_next_iff.2 ⟨hb, rfl⟩
  · simp [step_of_host hs, hostStep, hostWriteTxb, hb, Nat.not_lt.2 hi]
  · refine ⟨s.txb.write i b, ?_, Memory.wf_write _ hwf i b, ?_, fun k hk => ?_⟩
    · rw [step_of_host hs]
      exact hostWriteTxb_next_iff.2 ⟨hb, hi, rfl⟩
    · rw [Memory.read_write _ hwf, if_pos rfl]
    · rw [Memory.read_write _ hwf, if_neg hk]

/-- Settles O8: a read takes the value its equation says, and stops outside what the last result defines. -/
theorem hostReads : Obligations.HostReads := by
  refine fun s rest => ⟨fun hs => ?_, fun hb => ⟨fun hs => ⟨fun hv => ?_, fun hv => ?_⟩,
    fun i hs => ⟨fun hi => ?_, fun hi hv => ?_, fun hi hv => ?_⟩⟩⟩
  · rw [step_of_host hs]
    exact hostReadBusy_eq _
  · rw [step_of_host hs]
    exact hostReadRes0_next_iff.2 ⟨hb, hv, rfl⟩
  · simp [step_of_host hs, hostStep, hostReadRes0, hb, hv]
  · simp [step_of_host hs, hostStep, hostReadRxb, hb, hi]
  · simp [step_of_host hs, hostStep, hostReadRxb, hb, Nat.not_le.2 hi, Nat.not_lt.2 hv]
  · rw [step_of_host hs]
    exact hostReadRxb_next_iff.2 ⟨hb, hi, hv, rfl⟩

/-! ## Reading the status off the result word (R104, R107) -/

section result
variable {i : Instr} {u v : State} {st : Status} {n : Nat} {cs : List CpCmd} {bs : List Byte}

/-- Bits 3:0 of the result name the status the operation ended with. -/
theorem Ended.code_iff (h : Ended i u v st n cs bs) (a : Status) : v.res0.extractLsb' 0 4 = a.code ↔ st = a := by
  rw [h.res0, resWord_code]
  exact ⟨Status.code_inj, congrArg Status.code⟩

/-- ParamOutOfRange and Ibi come with count 0, so either status alone fixes the whole result word. -/
theorem Ended.res0_iff {a : Status} (h : Ended i u v st n cs bs) (ha : a = .paramOutOfRange ∨ a = .ibi) :
    v.res0 = resWord a 0 ↔ st = a := by
  rw [h.res0, resWord_inj h.count (by decide), and_iff_left_of_imp]
  rintro rfl
  exact h.zero ha

/-- The rule for MODE after a DDR operation, in terms of the result word (R331). -/
theorem Ended.ddrMode {fwr : Bool} (h : Ended i u v st n cs bs)
    (hrule : if st = .paramOutOfRange then v.mode = u.mode else (v.mode = .ddr ↔ fwr = true ∧ st = .ok)) :
    if v.res0 = resWord .paramOutOfRange 0 then v.mode = u.mode
    else (v.mode = .ddr ↔ fwr = true ∧ v.res0.extractLsb' 0 4 = Status.ok.code) := by
  simpa only [h.res0_iff (.inl rfl), h.code_iff] using hrule

end result

/-- Settles O18: the summary's rule for MODE, its status read off RES0. -/
theorem modeAfter : Obligations.ModeAfter := by
  intro i s t hr h
  obtain ⟨⟨st, n, cs, bs, hended⟩, -⟩ := exec_next hr h
  have hmode := hended.mode
  cases i with
  | ddrWrite addr cmd fwr la => exact hended.ddrMode hmode
  | ddrRead addr cmd fwr lb => exact hended.ddrMode hmode
  | _ => exact hmode

/-- Settles O19: the summary says which operations and which status set or clear the pending byte. -/
theorem pendingByteChanges : Obligations.PendingByteChanges := by
  intro i s t hr h
  obtain ⟨⟨st, n, cs, bs, hended⟩, -⟩ := exec_next hr h
  refine ⟨fun hs ht => ?_, hended.arbClear⟩
  obtain ⟨hopens, hst, -⟩ := hended.arbSet hs ht
  exact ⟨hopens, (hended.res0_iff (.inr rfl)).2 hst⟩

/-- Settles O20: the frame of the summary, register by register. -/
theorem configurationKept : Obligations.ConfigurationKept := by
  intro i s t hr h
  obtain ⟨⟨st, n, cs, bs, hended⟩, -⟩ := exec_next hr h
  exact ⟨hended.ddrCfg, hended.clkKhz, hended.driveMa, hended.desc0, hended.desc1, hended.txb, hended.sdrTab, hended.par⟩

/-! ## The invariant of the block, access by access -/

section invariant
variable {i : Instr} {s t : State}

theorem State.Ready.inv (h : s.Ready) : s.Inv := ⟨h.toSound, fun _ => h.quiet⟩

theorem State.Ready.finished (h : s.Ready) (st : Status) (n : Nat) : (s.finished st n).Ready :=
  ⟨⟨h.prog, h.arb, h.table, h.clk, h.drive, h.width, h.par, h.txbWf, h.rxbWf, h.defined, h.cmdFits, h.rspFits⟩,
    ⟨h.quiet.cmdq, h.quiet.rspq, h.quiet.atStart⟩⟩

/-- What the host writes itself does not matter for the invariant, as long as TXB is in canonical form. -/
theorem State.Inv.hostFields (h : s.Inv) {m : Memory} (hm : m.wf) (acts : List HostAct) (data : Option Word32)
    (d0 d1 : Word32) : { s with host := acts, hostData := data, desc0 := d0, desc1 := d1, txb := m }.Inv := by
  obtain ⟨⟨prog, arb, table, clk, drive, width, par, -, rxbWf, defined, cmdFits, rspFits⟩, quiet⟩ := h
  exact ⟨⟨prog, arb, table, clk, drive, width, par, hm, rxbWf, defined, cmdFits, rspFits⟩,
    fun hb => ⟨(quiet hb).cmdq, (quiet hb).rspq, (quiet hb).atStart⟩⟩

theorem exec_ready (hr : s.Ready) (h : exec i s = .next t) : t.Ready := by
  obtain ⟨hends, hquiet⟩ := exec_next hr h
  exact ready_of hr hends hquiet

/-- An operation that is stuck still has BUSY = 1, so the block need not be quiet there (R408). -/
theorem stuckIn_inv (hs : s.Sound) (hb : s.busy = true) (h : stuckIn i s = some t) : t.Inv := by
  obtain ⟨m, v, hin⟩ := stuckIn_within hs h
  exact ⟨hin.sound, fun hfree => by simp [hin.busy, hb] at hfree⟩

/-- The submit of a descriptor that is no operation ends at once (R108). -/
theorem submit_illegal {e : Reject} (hd : decode s.desc0 s.desc1 = .error e) :
    submit s = .next ((beginOp s).finished .paramOutOfRange 0) := by
  unfold submit
  rw [hd]
  rfl

/-- What a submit can do: run an operation to its end, leave it stuck, or end an illegal descriptor. -/
theorem submit_cases (hr : s.Ready) (h : submit s = .next t) :
    (∃ i, decode s.desc0 s.desc1 = .ok i ∧ exec i (beginOp s) = .next t) ∨
    (∃ i, decode s.desc0 s.desc1 = .ok i ∧ stuckIn i (beginOp s) = some t) ∨
    (∃ e, decode s.desc0 s.desc1 = .error e ∧ (beginOp s).finished .paramOutOfRange 0 = t) := by
  cases hd : decode s.desc0 s.desc1 with
  | error e => exact .inr (.inr ⟨e, rfl, by simpa [submit_illegal hd] using h⟩)
  | ok i =>
    by_cases hx : exec i (beginOp s) = .fault .stuck
    · obtain ⟨u, hu⟩ := stuckIn_of_exec (hr.begin s.host s.desc0 s.desc1) hx
      obtain rfl : u = t := by simpa [submit_stuck hd hu] using h
      exact .inr (.inl ⟨i, rfl, hu⟩)
    · exact .inl ⟨i, rfl, submit_exec hd hx ▸ h⟩

theorem submit_inv (hr : s.Ready) (h : submit s = .next t) : t.Inv := by
  have hbegin : (beginOp s).Ready := hr.begin s.host s.desc0 s.desc1
  obtain ⟨i, -, hexec⟩ | ⟨i, -, hstuck⟩ | ⟨e, -, rfl⟩ := submit_cases hr h
  · exact (exec_ready hbegin hexec).inv
  · exact stuckIn_inv hbegin.toSound rfl hstuck
  · exact (hbegin.finished _ _).inv

theorem hostStep_inv {a : HostAct} (hi : s.Inv) (h : hostStep a s = .next t) : t.Inv := by
  have htxb := hi.sound.txbWf
  cases a with
  | writeDesc0 w =>
    obtain ⟨-, rfl⟩ := hostWriteDesc0_next_iff.1 h
    exact hi.hostFields htxb _ _ _ _
  | writeDesc1 w =>
    obtain ⟨hb, h⟩ := hostWriteDesc1_next_iff.1 h
    exact submit_inv ((hi.hostFields htxb _ _ _ w).ready hb) h
  | writeTxb i b =>
    obtain ⟨-, -, rfl⟩ := hostWriteTxb_next_iff.1 h
    exact hi.hostFields (Memory.wf_write _ htxb i b) _ _ _ _
  | readRes0 =>
    obtain ⟨-, -, rfl⟩ := hostReadRes0_next_iff.1 h
    exact hi.hostFields htxb _ _ _ _
  | readRxb i =>
    obtain ⟨-, -, -, rfl⟩ := hostReadRxb_next_iff.1 h
    exact hi.hostFields htxb _ _ _ _
  | readBusy =>
    cases h
    exact hi.hostFields htxb _ _ _ _
  | restart =>
    cases h
    exact (initialise_ready hi.sound.par).inv

end invariant

/-- Settles O12: with no access to come nothing changes, and otherwise the access taken keeps the invariant; a submit
does because an operation that ends leaves the block ready and one that is stuck leaves it sound with BUSY = 1. -/
theorem stepKeepsInv : Obligations.StepKeepsInv := by
  intro s t hi h
  cases hs : s.host with
  | nil =>
    obtain ⟨-, rfl⟩ := noAccess_next_iff.1 (step_of_noHost hs ▸ h)
    exact hi
  | cons a rest =>
    exact hostStep_inv (hi.hostFields hi.sound.txbWf rest _ _ _) (step_of_host hs ▸ h)

end Sys2Proof.Machine
end

section
namespace Sys2Proof.Machine

/-! ## What an operation stores in RXB (R45, R76) -/

section stored
variable {i : Instr} {u v : State} {st : Status} {n : Nat} {cs : List CpCmd} {bs : List Byte}

/-- Bits 31:16 of the result hold the count the operation ended with. -/
theorem Ended.resCount (h : Ended i u v st n cs bs) : (v.res0.extractLsb' 16 16).toNat = n := by
  rw [h.res0, resWord_count st h.count]

/-- The bytes stored lie at the indices that the count defines, from 0 up, so RXB keeps every byte beyond them. -/
theorem Ended.rxb_read_beyond (h : Ended i u v st n cs bs) (hwf : u.rxb.wf) {k : Nat} (hk : i.definedBytes n ≤ k) :
    v.rxb.read k = u.rxb.read k := by
  have hlen : bs.length ≤ k := h.bytes.trans_le hk
  rw [h.rxb, Memory.read_writeList _ hwf, dif_neg (by omega)]

end stored

/-- Settles O21: the summary's stored bytes are as many as the count read off RES0 defines. -/
theorem rxbOutsideTheResult : Obligations.RxbOutsideTheResult := by
  intro i s t hr h k hk
  obtain ⟨⟨st, n, cs, bs, hended⟩, -⟩ := exec_next hr h
  have hcount : (t.res0.extractLsb' 16 16).toNat = n := hended.resCount
  rw [hcount] at hk
  exact hended.rxb_read_beyond hr.rxbWf hk

/-! ## The host's accesses while BUSY = 1 (R87) -/

section busy
variable {s : State}

theorem hostWriteDesc0_of_busy (hb : s.busy = true) (w : Word32) :
    hostWriteDesc0 w s = .refused .hostWriteWhileBusy := if_pos hb

theorem hostWriteDesc1_of_busy (hb : s.busy = true) (w : Word32) :
    hostWriteDesc1 w s = .refused .hostWriteWhileBusy := if_pos hb

theorem hostWriteTxb_of_busy (hb : s.busy = true) (i : Nat) (b : Byte) :
    hostWriteTxb i b s = .refused .hostWriteWhileBusy := if_pos hb

theorem hostReadRes0_of_busy (hb : s.busy = true) : hostReadRes0 s = .fault .hostReadWhileBusy := if_pos hb

theorem hostReadRxb_of_busy (hb : s.busy = true) (i : Nat) :
    hostReadRxb i s = .fault .hostReadWhileBusy := if_pos hb

end busy

/-- Settles O6: the step is the access taken from the host's list, and each of the five stops at BUSY = 1. -/
theorem hostAccessWhileBusy : Obligations.HostAccessWhileBusy := by
  intro s rest hb
  have hb' : { s with host := rest }.busy = true := hb
  refine ⟨fun w hs => ?_, fun w hs => ?_, fun i b hs => ?_, fun hs => ?_, fun i hs => ?_⟩
  · exact (step_of_host hs).trans (hostWriteDesc0_of_busy hb' w)
  · exact (step_of_host hs).trans (hostWriteDesc1_of_busy hb' w)
  · exact (step_of_host hs).trans (hostWriteTxb_of_busy hb' i b)
  · exact (step_of_host hs).trans (hostReadRes0_of_busy hb')
  · exact (step_of_host hs).trans (hostReadRxb_of_busy hb' i)

end Sys2Proof.Machine
end

section
namespace Sys2Proof

/-! ## What the decoder reads of an assembled descriptor (R100, R101) -/

@[simp] theorem opField_desc0Of (op : Byte) (a : BusAddr) (c : Byte) (f0 f1 f2 : Bool) :
    opField (desc0Of op a c f0 f1 f2) = op := (Laws.desc0Of_fields op a c f0 f1 f2).2.2

@[simp] theorem addrField_desc0Of (op : Byte) (a : BusAddr) (c : Byte) (f0 f1 f2 : Bool) :
    addrField (desc0Of op a c f0 f1 f2) = a := by
  unfold addrField desc0Of
  rw [BitVec.extractLsb'_append_eq_of_le (by decide)]
  exact BitVec.extractLsb'_append_eq_right

@[simp] theorem cmdField_desc0Of (op : Byte) (a : BusAddr) (c : Byte) (f0 f1 f2 : Bool) :
    cmdField (desc0Of op a c f0 f1 f2) = c := by
  unfold cmdField desc0Of
  rw [BitVec.extractLsb'_append_eq_of_le (by decide), BitVec.extractLsb'_append_eq_of_le (by decide),
    BitVec.extractLsb'_append_eq_of_le (by decide)]
  exact BitVec.extractLsb'_append_eq_right

@[simp] theorem flags_desc0Of (op : Byte) (a : BusAddr) (c : Byte) (f0 f1 f2 : Bool) :
    (desc0Of op a c f0 f1 f2)[24] = f0 ∧ (desc0Of op a c f0 f1 f2)[25] = f1 ∧
      (desc0Of op a c f0 f1 f2)[26] = f2 := by
  unfold desc0Of
  simp only [← BitVec.getLsbD_eq_getElem, BitVec.getLsbD_append]
  simp

theorem lenA_desc1Of {la : Nat} (h : fitsLen la = true) (lb : Nat) : lenA (desc1Of la lb) = la := by
  have hfield : (desc1Of la lb).extractLsb' 0 16 = BitVec.ofNat 16 la := BitVec.extractLsb'_append_eq_right
  unfold lenA
  rw [hfield, BitVec.toNat_ofNat]
  exact Nat.mod_eq_of_lt (of_decide_eq_true h)

theorem lenB_desc1Of (la : Nat) {lb : Nat} (h : fitsLen lb = true) : lenB (desc1Of la lb) = lb := by
  have hfield : (desc1Of la lb).extractLsb' 16 16 = BitVec.ofNat 16 lb := BitVec.extractLsb'_append_eq_left
  unfold lenB
  rw [hfield, BitVec.toNat_ofNat]
  exact Nat.mod_eq_of_lt (of_decide_eq_true h)

/-! ## What the decoder accepts (R102, R105, R108) -/

theorem decode_ok_iff {d0 d1 : Word32} {i : Instr} :
    decode d0 d1 = .ok i ↔ d0.getLsbD 15 = false ∧ rsv1Field d0 = 0#5 ∧ decodeOp d0 d1 = some i := by
  unfold decode
  cases d0.getLsbD 15 with
  | true => simp
  | false =>
    by_cases hrsv : rsv1Field d0 = 0#5
    · cases decodeOp d0 d1 <;> simp [hrsv]
    · simp [hrsv]

/-- The reserved bits of an encoding are 0 (R100). -/
theorem encode_reserved (i : Instr) : (encode i).1.getLsbD 15 = false ∧ rsv1Field (encode i).1 = 0#5 := by
  have h : Laws.EncodeReserved.Statement i := by cases i <;> exact Laws.desc0Of_fields _ _ _ _ _ _
  obtain ⟨h15, hrsv, -⟩ := h
  exact ⟨h15, hrsv⟩

/-- The opcode of an encoding selects the constructor again, and the fields that constructor has come back. -/
theorem decodeOp_encode {i : Instr} (h : i.wf = true) : decodeOp (encode i).1 (encode i).2 = some i := by
  cases i with
  | entdaa | rstdaa | checkAck | arbHeaderOnly | setDdrConfig | targetReset => simp [decodeOp, encode]
  | privateWrite | cccBcastWrite | ddrWrite | setClock | setDrive => simp [decodeOp, encode, lenA_desc1Of h]
  | privateRead | poll | ddrRead => simp [decodeOp, encode, lenB_desc1Of _ h]
  | privateWriteRead | cccDirectWrite | cccDirectRead =>
    obtain ⟨hla, hlb⟩ := Bool.and_eq_true_iff.1 h
    simp [decodeOp, encode, lenA_desc1Of hla, lenB_desc1Of _ hlb]

/-- Settles O1: the reserved bits of an encoding are 0 and its fields are the operands. -/
theorem decodeOfEncode : Obligations.DecodeOfEncode := by
  intro i hwf
  obtain ⟨h15, hrsv⟩ := encode_reserved i
  exact decode_ok_iff.2 ⟨h15, hrsv, decodeOp_encode hwf⟩

/-- The opcodes of the table (R105). -/
abbrev definedOpcodes : List Nat :=
  [0x01, 0x02, 0x03, 0x10, 0x11, 0x12, 0x13, 0x14, 0x20, 0x21, 0x22, 0x30, 0x31, 0x40, 0x41, 0x42, 0x43]

theorem decodeOp_isSome_iff {d0 d1 : Word32} :
    (∃ i, decodeOp d0 d1 = some i) ↔ (opField d0).toNat ∈ definedOpcodes := by
  unfold decodeOp
  split
  case h_18 => simp_all
  all_goals simp [*]

/-- A descriptor is an operation exactly when its reserved bits are 0 and its opcode is in the table. -/
theorem decode_accepts_iff {d0 d1 : Word32} :
    (∃ i, decode d0 d1 = .ok i) ↔
      d0.getLsbD 15 = false ∧ rsv1Field d0 = 0#5 ∧ (opField d0).toNat ∈ definedOpcodes := by
  simp only [decode_ok_iff, exists_and_left, decodeOp_isSome_iff]

theorem fitsLen_lenA (d1 : Word32) : fitsLen (lenA d1) = true := decide_eq_true (BitVec.isLt _)

theorem fitsLen_lenB (d1 : Word32) : fitsLen (lenB d1) = true := decide_eq_true (BitVec.isLt _)

/-- The lengths of a decoded operation come from 16-bit fields. -/
theorem decodeOp_wf {d0 d1 : Word32} {i : Instr} (h : decodeOp d0 d1 = some i) : i.wf = true := by
  unfold decodeOp at h
  split at h <;> cases h <;> simp only [Instr.wf, fitsLen_lenA, fitsLen_lenB, Bool.and_self]

theorem decodeOp_opcode {d0 d1 : Word32} {i : Instr} (h : decodeOp d0 d1 = some i) : i.opcode = opField d0 := by
  unfold decodeOp at h
  split at h <;> cases h <;> exact BitVec.eq_of_toNat_eq (by rename_i hop; rw [hop]; rfl)

/-- Settles O2: the accepted descriptors are the table's, and the opcode's row reads its operands from the words. -/
theorem decodeAcceptsTheTable : Obligations.DecodeAcceptsTheTable := by
  refine fun d0 d1 => ⟨decode_accepts_iff, fun i h => ?_⟩
  obtain ⟨-, -, hop⟩ := decode_ok_iff.1 h
  refine ⟨decodeOp_wf hop, decodeOp_opcode hop, ?_⟩
  unfold decodeOp at hop
  split at hop <;> cases hop <;> simp only [addrField, cmdField, lenA, lenB, and_self]

/-- Settles O3: the decoder evaluated on each pair of words. -/
theorem writtenOutWordsDecode : Obligations.WrittenOutWordsDecode := by
  unfold Obligations.WrittenOutWordsDecode
  decide

end Sys2Proof
end

section
namespace Sys2Proof.Machine

/-! ## Illegal descriptors and the result word (R104, R108) -/

/-- Settles O4: a descriptor outside the table has no operation, so its submit ends at once. -/
theorem illegalDescriptorEnds : Obligations.IllegalDescriptorEnds := by
  intro s w rest hb hs hbad
  have hillegal : ¬ ∃ i, decode s.desc0 w = .ok i := by
    rw [decode_accepts_iff]
    rintro ⟨h15, hrsv, hop⟩
    rcases hbad with h | h | h
    · exact absurd (h15.symm.trans h) (by decide)
    · exact h hrsv
    · exact h hop
  rw [step_of_host hs]
  refine hostWriteDesc1_next_iff.2 ⟨hb, ?_⟩
  cases hd : decode s.desc0 w with
  | ok i => exact absurd ⟨i, hd⟩ hillegal
  | error e => exact submit_illegal hd

/-- Settles O15: the summary's status, count and stored bytes, and the fields of the result word. -/
theorem resultWord : Obligations.ResultWord := by
  intro i s t hr h0 h
  obtain ⟨⟨st, n, cs, bs, hended⟩, -⟩ := exec_next hr h
  have hres : t.res0 = resWord st n := hended.res0
  have hvalid : t.rxbValid = bs.length := by
    have hv : t.rxbValid = if bs = [] then s.rxbValid else bs.length := hended.valid
    rw [hv, h0]
    cases bs <;> rfl
  refine ⟨st, n, hended.status, hended.count, hres, ?_, ?_, hended.resCount, hvalid.trans hended.bytes⟩
  · rw [hres, resWord_code]
  · rw [hres, resWord_zero]

/-! ## A header that does not go through (R140, R173) -/

section header
variable {i : Instr} {s t v : State}

theorem Run.bind_assoc {α β γ : Type} (r : Run α) (k : α → State → Run β) (l : β → State → Run γ) :
    (r.bind k).bind l = r.bind fun a s => (k a s).bind l := by
  cases r <;> rfl

/-- A DDR-class operation that starts in SDR mode and passes its entry check. -/
theorem ddrEntry_sdrFree (hf : s.SdrFree) (ok : Bool) (body : State → Run Unit) (hk : ok = true) :
    ddrEntry ok body s = body (dropSda s) := by
  rw [ddrEntry_free (fun _ => hf) ok body hk, if_pos hf.mode]

/-- Entering HDR-DDR from SDR mode starts with the prologue (R303). -/
theorem enterDdr_bind_eq (hm : s.mode = .sdr) (k : Unit → State → Run Unit) :
    ∃ k', (enterDdr s).bind k = (sdrPrologue s).bind k' := by
  unfold enterDdr
  rw [if_pos hm, Run.bind_assoc]
  exact ⟨_, rfl⟩

/-- An operation that opens with the header runs the prologue first, its entry check passed (R173, R230, R300). -/
theorem runOf_eq_prologue_bind (hf : s.SdrFree) (hc : i.opensHeader = true) (hl : i.lengthsOk s.par = true) :
    ∃ k, runOf i s = (sdrPrologue (dropSda s)).bind k := by
  cases i with
  | privateWrite | privateRead | cccBcastWrite | cccDirectWrite | entdaa | rstdaa | checkAck | arbHeaderOnly =>
    exact ⟨_, sdrEntry_free hf _ _ hl⟩
  | privateWriteRead | cccDirectRead =>
    exact ⟨_, sdrEntry_free hf _ _ (by simpa [Instr.lengthsOk, txFits, bcFits, rxFits, and_assoc] using hl)⟩
  | ddrWrite | ddrRead =>
    exact (enterDdr_bind_eq (s := dropSda s) hf.mode _).imp fun _ hk => (ddrEntry_sdrFree hf _ _ hl).trans hk
  | poll | setDdrConfig | setClock | setDrive | targetReset => cases hc

/-- Where the header is not both won and ACKed, the prologue ends the operation, whatever comes after it. -/
theorem exec_of_not_headerAck (hs : s.Runs) (hf : s.SdrFree) (hc : i.opensHeader = true)
    (hl : i.lengthsOk s.par = true) (hno : ¬ s.HeaderAck) :
    ∃ t v, exec i s = .next t ∧ (dropSda s.settle).PrologueEnds v ∧ t.SettlesTo v := by
  obtain ⟨k, hk⟩ := runOf_eq_prologue_bind hf hc hl
  rw [exec_run, hk]
  refine outcome_settles ((sdrPrologue_post hs.follows.dropSda hf.mode).bind (fun _ hv => hv) fun _ _ _ _ hv => ?_)
  exact absurd ⟨hv.1.won, hv.1.ack⟩ hno

end header

/-- Settles O37: the prologue's two ends are a lost header and a NACKed one. -/
theorem headerFails : Obligations.HeaderFails := by
  intro i s hc hs hf hl
  refine ⟨fun hlost => ?_, fun hwon hnack => ?_⟩
  · obtain ⟨t, v, hnext, ⟨-, rfl⟩ | ⟨hwon, -⟩, ht⟩ :=
      exec_of_not_headerAck hs hf hc hl fun ha => absurd (hlost.symm.trans ha.won) (by decide)
    · obtain ⟨hends, hrxb, hv, hb⟩ := lost_ends hs.ready ht
      exact ⟨t, hnext, hends, hrxb, hv, hb, hends.drove.bus⟩
    · exact absurd (hlost.symm.trans hwon) (by decide)
  · obtain ⟨t, v, hnext, ⟨hlost, -⟩ | ⟨-, -, rfl⟩, ht⟩ :=
      exec_of_not_headerAck hs hf hc hl fun ha => absurd (hnack.symm.trans ha.ack) (by decide)
    · exact absurd (hlost.symm.trans hwon) (by decide)
    · obtain ⟨hends, hrxb, harb⟩ := plain_ends hs.ready ht
      exact ⟨t, hnext, hends, hrxb, harb, hends.drove.bus⟩

/-! ## RSTDAA beside the broadcast of its code (R111, R251) -/

section rstdaa
variable {s t t' u v v' : State}

/-- An SDR-class operation refused for the mode or a pending byte is refused whatever its lengths and its body. -/
theorem sdrEntry_of_not_free (hf : ¬ s.SdrFree) (ok ok' : Bool) (body body' : State → Run Unit) :
    sdrEntry ok body s = sdrEntry ok' body' s := by
  unfold sdrEntry
  by_cases hm : s.mode = .ddr
  · rw [if_pos hm, if_pos hm]
  by_cases hp : entryPending s = true
  · rw [if_neg hm, if_pos hp, if_neg hm, if_pos hp]
  · obtain ⟨harb, hsda⟩ : s.arbpV = false ∧ s.sda = true := by simpa [entryPending] using hp
    have hsdr : s.mode = .sdr := by
      cases e : s.mode with
      | sdr => rfl
      | ddr => exact absurd e hm
    exact absurd ⟨hsdr, harb, hsda⟩ hf

/-- The prologue has one end for each pair of answers. -/
theorem State.PrologueEnds.unique (h : u.PrologueEnds v) (h' : u.PrologueEnds v') : v = v' := by
  obtain ⟨hl, rfl⟩ | ⟨hw, -, rfl⟩ := h <;> obtain ⟨hl', rfl⟩ | ⟨hw', -, rfl⟩ := h'
  · rfl
  · exact absurd (hl.symm.trans hw') (by decide)
  · exact absurd (hl'.symm.trans hw) (by decide)
  · rfl

/-- Two operations end alike: the same bus trace, pending flag and status. Their counts may differ. -/
structure SameEnd (t t' : State) : Prop where
  trace : t.trace = t'.trace
  wire : t.wire = t'.wire
  arbpV : t.arbpV = t'.arbpV
  code : t.res0.extractLsb' 0 4 = t'.res0.extractLsb' 0 4

theorem SameEnd.refl (t : State) : SameEnd t t := ⟨rfl, rfl, rfl, rfl⟩

theorem SameEnd.finished (u : State) (st : Status) (n m : Nat) : SameEnd (u.finished st n) (u.finished st m) :=
  ⟨rfl, rfl, rfl, (resWord_code st n).trans (resWord_code st m).symm⟩

/-- Settling changes nothing of how an operation ended. -/
theorem SameEnd.of_settles (h : t.SettlesTo v) (h' : t'.SettlesTo v') (hv : SameEnd v v') : SameEnd t t' := by
  obtain rfl := h.eq
  obtain rfl := h'.eq
  exact ⟨hv.trace, hv.wire, hv.arbpV, hv.code⟩

theorem bytesCmds_one (m : Memory) (i : Nat) : bytesCmds m i 1 = byteCmds (m.read i) := by
  simp [bytesCmds]

/-- Past the entry check the two prologues end alike, and after an ACKed header the two drive the same commands. -/
theorem rstdaa_sameEnd_of_free (hs : s.Runs) (hf : s.SdrFree) (htxb : s.txb.read 0 = cccRstdaa) :
    ∃ t t', exec .rstdaa s = .next t ∧ exec (.cccBcastWrite 1) s = .next t' ∧ SameEnd t t' := by
  obtain ⟨-, -, hfits, -⟩ := lawful_sizes hs.ready.par
  have htab : (dropSda s.settle).sdrTab = sdrTable := hs.ready.table
  have hcode : bytesCmds (dropSda s.settle).txb 0 1 = byteCmds cccRstdaa :=
    (bytesCmds_one _ 0).trans (congrArg byteCmds htxb)
  obtain ⟨t, v, hnext, hv, ht⟩ := outcome_settles (rstdaaBody_post hs.follows.dropSda hf.mode htab)
  obtain ⟨t', v', hnext', hv', ht'⟩ :=
    outcome_settles (cccBcastWriteBody_post hs.follows.dropSda hf.mode htab 1 hfits)
  refine ⟨t, t', ?_, ?_, SameEnd.of_settles ht ht' ?_⟩
  · exact (congrArg Run.outcome (sdrEntry_free hf _ _ rfl)).trans hnext
  · exact (congrArg Run.outcome (sdrEntry_free hf _ _ (decide_eq_true ⟨Nat.le_refl 1, hfits⟩))).trans hnext'
  · rw [hcode] at hv'
    obtain hp | ⟨hack, rfl⟩ := hv <;> obtain hp' | ⟨hack', rfl⟩ := hv'
    · exact hp.unique hp' ▸ SameEnd.refl v
    · exact (not_prologueEnds hack' hp).elim
    · exact (not_prologueEnds hack hp').elim
    · exact SameEnd.finished _ _ _ _

end rstdaa

/-- Settles O48: a refused entry check does not look at the operation, and past it the two drive the same commands. -/
theorem rstdaaIsABroadcast : Obligations.RstdaaIsABroadcast := by
  intro s hs htxb
  by_cases hf : s.SdrFree
  · obtain ⟨t, t', hnext, hnext', hsame⟩ := rstdaa_sameEnd_of_free hs hf htxb
    exact ⟨t, t', hnext, hnext', hsame.trace, hsame.wire, hsame.arbpV, hsame.code⟩
  · obtain ⟨t, hnext, -⟩ := exec_ends (i := .rstdaa) hs
    have hrefused : exec (.cccBcastWrite 1) s = exec .rstdaa s :=
      congrArg Run.outcome (sdrEntry_of_not_free hf _ _ _ _)
    exact ⟨t, t, hnext, hrefused.trans hnext, rfl, rfl, rfl, rfl⟩

end Sys2Proof.Machine
end

section
namespace Sys2Proof.Machine

/-! ## The commands an operation drove (R6, R82, R151) -/

/-- Settles O16: the summary's commands, with their trace, their bus commands and the answers they used. -/
theorem traceIsTheWire : Obligations.TraceIsTheWire := by
  intro i s t hr h
  obtain ⟨⟨st, n, cs, bs, hended⟩, hquiet⟩ := exec_next hr h
  have hs := hr.quiet.settle
  refine ⟨cs, State.SettlesTo.drove ⟨rfl, hquiet⟩ hended.trace ?_ ?_ hended.answer⟩
  · rw [hended.wire, hs]
  · rw [hended.bus, hs]

/-! ## Loads and commands at the wrong point (R133, R156) -/

theorem loadProgram_of_quiet {s : State} (h : s.Quiet) (p : Mode) :
    loadProgram p s = .ok () { s with cpProg := p, sampleW := none, uncheckedLeft := 0 } := by
  obtain ⟨hcmdq, hrspq, hstart⟩ := h
  simp [loadProgram, hcmdq, hrspq, hstart]

theorem loadProgram_of_not_quiet {s : State} (h : ¬ s.Quiet) (p : Mode) :
    loadProgram p s = .fault .loadInFlight :=
  if_neg fun ⟨hcmdq, hrspq, hstart⟩ => h ⟨hcmdq, hrspq, hstart⟩

@[simp] theorem needWidth_cpProg (c : CpCmd) (s : State) : (needWidth c s).cpProg = s.cpProg := by
  unfold needWidth
  cases c.width with
  | none => rfl
  | some w => exact apply_ite State.cpProg _ _ _ |>.trans (ite_self _)

/-- Settles O31: a load looks at the two FIFOs and the start address, and every put looks at the program first. -/
theorem programFaults : Obligations.ProgramFaults := by
  refine fun s => ⟨fun p => ⟨fun h => loadProgram_of_quiet h p, fun h => loadProgram_of_not_quiet h p⟩,
    fun c hc => ⟨?_, ?_, if_neg hc⟩⟩
  · rw [emit, put_wrong hc, Run.bind]
  · rw [xfer, put_wrong (by rwa [needWidth_cpProg]), Run.bind]

/-! ## A pending interrupt at entry (R178, R230, R300) -/

section pending
variable {s : State} {i : Instr}

theorem sdrEntry_of_pending (hm : s.mode = .sdr) (hp : entryPending s = true) (ok : Bool) (body : State → Run Unit) :
    sdrEntry ok body s = .done ((afterEntryPending s).finished .ibi 0) := by
  rw [sdrEntry, if_neg (by simp [hm]), if_pos hp]
  rfl

theorem ddrEntry_of_pending (hm : s.mode = .sdr) (hp : entryPending s = true) (ok : Bool) (body : State → Run Unit) :
    ddrEntry ok body s = .done ((afterEntryPending s).finished .ibi 0) := by
  rw [ddrEntry, if_pos hm, if_pos hp]
  rfl

/-- The entry check of an operation that opens with the header looks at nothing of the operation (R178). -/
theorem exec_of_pending (hc : i.opensHeader = true) (hm : s.mode = .sdr) (hp : entryPending s = true) :
    exec i s = .next ((afterEntryPending s).finished .ibi 0) := by
  rw [exec_run]
  cases i with
  | privateWrite | privateRead | privateWriteRead | cccBcastWrite | cccDirectWrite | cccDirectRead | entdaa | rstdaa
  | checkAck | arbHeaderOnly => exact congrArg Run.outcome (sdrEntry_of_pending hm hp _ _)
  | ddrWrite | ddrRead => exact congrArg Run.outcome (ddrEntry_of_pending hm hp _ _)
  | poll | setDdrConfig | setClock | setDrive | targetReset => cases hc

end pending

/-- Settles O35: both causes are pending at entry, and only the sense of SDA uses a draw. -/
theorem pendingInterruptRefuses : Obligations.PendingInterruptRefuses := by
  refine fun i s hc hm => ⟨fun hv => ?_, fun hv hsda => ?_⟩
  · rw [exec_of_pending hc hm (by simp [entryPending, hv]), afterEntryPending, if_pos hv]
  · rw [exec_of_pending hc hm (by simp [entryPending, hsda]), afterEntryPending, if_neg (by simp [hv])]

end Sys2Proof.Machine
end

section
namespace Sys2Proof.Machine

/-! ## Words put behind the queue (R150, R153)

Outside an operation nothing is known of RSPQ or of the parameters, so `State.Running` does not hold there. What a put and
a wait do to the queue needs a live coprocessor only. -/

section fed
variable {s t u : State} {c : CpCmd} {e : CmdWord} {es fs q : List CmdWord}

/-- The queue holds no whole command that would be sampled (R154). -/
abbrev Unsampled (q : List CmdWord) : Prop := ∀ e ∈ q, e.last = true → e.cmd.width = none

/-- `t` is `s` after the words `es` were put, the coprocessor having taken the oldest words meanwhile and driven the
commands they complete. -/
structure State.Fed (s : State) (es : List CmdWord) (t : State) : Prop where
  live : t.Live
  par : t.par = s.par
  mode : t.mode = s.mode
  cpProg : t.cpProg = s.cpProg
  sampleW : t.sampleW = s.sampleW
  trace : t.trace = s.trace
  rspq : t.rspq = s.rspq
  words : ∃ taken, s.cmdq ++ es = taken ++ t.cmdq ∧ t.wire = s.wire ++ completes taken

theorem State.Live.fed (h : s.Live) : s.Fed [] s := ⟨h, rfl, rfl, rfl, rfl, rfl, rfl, [], by simp, by simp⟩

theorem State.Fed.trans (h : s.Fed es t) (h' : t.Fed fs u) : s.Fed (es ++ fs) u := by
  obtain ⟨a, ha, hwire⟩ := h.words
  obtain ⟨b, hb, hwire'⟩ := h'.words
  refine ⟨h'.live, h'.par.trans h.par, h'.mode.trans h.mode, h'.cpProg.trans h.cpProg, h'.sampleW.trans h.sampleW,
    h'.trace.trans h.trace, h'.rspq.trans h.rspq, a ++ b, ?_, ?_⟩
  · rw [← List.append_assoc, ha, List.append_assoc, hb, List.append_assoc]
  · rw [hwire', hwire, completes_append, List.append_assoc]

/-- The allowance of unchecked puts is no part of it. -/
theorem State.Fed.allow (h : s.Fed es t) (n : Nat) : s.Fed es { t with uncheckedLeft := n } :=
  ⟨h.live, h.par, h.mode, h.cpProg, h.sampleW, h.trace, h.rspq, h.words⟩

/-- Nor is the pace the coprocessor had. -/
theorem State.Fed.ofPace {p : List Nat} (h : State.Fed { s with cpPace := p } es t) : s.Fed es t :=
  ⟨h.live, h.par, h.mode, h.cpProg, h.sampleW, h.trace, h.rspq, h.words⟩

/-- A word put next goes behind what is queued. -/
theorem State.Fed.push (h : s.Fed [] t) (e : CmdWord) :
    s.Fed [e] { t with cmdq := t.cmdq ++ [e], uncheckedLeft := 0 } := by
  obtain ⟨taken, hwords, hwire⟩ := h.words
  refine ⟨h.live, h.par, h.mode, h.cpProg, h.sampleW, h.trace, h.rspq, taken, ?_, hwire⟩
  rw [← List.append_assoc, ← hwords, List.append_nil]

/-- What is still queued was queued or put. -/
theorem State.Fed.unsampled (h : s.Fed es t) (hs : Unsampled (s.cmdq ++ es)) : Unsampled t.cmdq := by
  obtain ⟨taken, hwords, -⟩ := h.words
  intro e he
  exact hs e (by rw [hwords]; exact List.mem_append_right _ he)

/-- Driven and queued commands together are those driven and queued before, and then those put. -/
theorem State.Fed.commands (h : s.Fed es t) :
    t.wire ++ completes t.cmdq = s.wire ++ completes s.cmdq ++ completes es := by
  obtain ⟨taken, hwords, hwire⟩ := h.words
  rw [hwire, List.append_assoc, List.append_assoc, ← completes_append, ← completes_append, ← hwords]

/-- A live coprocessor takes a word that completes no sampling command. -/
theorem cpStep_fed (h : s.Live) (hq : s.cmdq = e :: q) (he : e.last = true → e.cmd.width = none) :
    ∃ t, cpStep s = .ok () t ∧ s.Fed [] t ∧ t.cmdq = q := by
  obtain ⟨-, -, hL⟩ | ⟨b, hb, hstep⟩ := cpStep_takes (L := true) (fun _ => h) hq
  · cases hL
  · refine ⟨_, hstep.trans (cpTake_none he _), ?_⟩
    unfold State.taken
    cases hl : e.last <;>
      exact ⟨⟨hb rfl, rfl, rfl, rfl, rfl, rfl, rfl, [e], by simp [hq], by simp [completes, hl]⟩, rfl⟩

theorem cpRun_fed (n : Nat) (h : s.Live) (hs : Unsampled s.cmdq) :
    ∃ t, cpRun n s = .ok () t ∧ s.Fed [] t ∧ t.cmdq = s.cmdq.drop n := by
  induction n generalizing s with
  | zero => exact ⟨s, rfl, h.fed, rfl⟩
  | succ n ih =>
    cases hq : s.cmdq with
    | nil =>
      obtain ⟨t, hrun, hfed, hcmdq⟩ := ih h hs
      have hidle : cpStep s = .ok () s := by rw [cpStep, hq]
      exact ⟨t, by rw [cpRun, hidle]; exact hrun, hfed, by simp [hcmdq, hq]⟩
    | cons e q =>
      obtain ⟨hhead, htail⟩ := List.forall_mem_cons.1 (hq ▸ hs)
      obtain ⟨t, hstep, hfed, rfl⟩ := cpStep_fed h hq hhead
      obtain ⟨u, hrun, hfed', hcmdq⟩ := ih hfed.live htail
      exact ⟨u, by rw [cpRun, hstep]; exact hrun, hfed.trans hfed', hcmdq⟩

/-- A live coprocessor's own progress is that of the same number of steps waited for. -/
theorem cpFree_eq_cpRun (n : Nat) (h : s.Live) (hs : Unsampled s.cmdq) : cpFree n s = cpRun n s := by
  induction n generalizing s with
  | zero => rfl
  | succ n ih =>
    rw [cpFree, cpRun, if_neg (by simp [h])]
    cases hq : s.cmdq with
    | nil =>
      have hidle : cpStep s = .ok () s := by rw [cpStep, hq]
      rw [hidle]
      exact ih h hs
    | cons e q =>
      obtain ⟨hhead, htail⟩ := List.forall_mem_cons.1 (hq ▸ hs)
      obtain ⟨t, hstep, hfed, rfl⟩ := cpStep_fed h hq hhead
      rw [hstep]
      exact ih hfed.live htail

theorem cpAlong_fed (h : s.Live) (hs : Unsampled s.cmdq) :
    ∃ t, cpAlong s = .ok () t ∧ s.Fed [] t ∧ t.cmdq.length ≤ s.cmdq.length := by
  unfold cpAlong
  cases s.cpPace with
  | nil => exact ⟨s, rfl, h.fed, Nat.le_refl _⟩
  | cons n p =>
    obtain ⟨t, hrun, hfed, hcmdq⟩ := cpRun_fed (s := { s with cpPace := p }) n h hs
    refine ⟨t, (cpFree_eq_cpRun (s := { s with cpPace := p }) n h hs).trans hrun, hfed.ofPace, ?_⟩
    rw [hcmdq, List.length_drop]
    exact Nat.sub_le _ _

theorem waitNotFull_fed (h : s.Live) (hs : Unsampled s.cmdq) (hd : 4 ≤ s.par.cqDepth)
    (hf : s.cmdq.length ≤ s.par.cqDepth) :
    ∃ t, waitNotFull s = .ok () t ∧ s.Fed [] t ∧ t.cmdq.length < s.par.cqDepth := by
  unfold waitNotFull
  split
  · exact ⟨s, rfl, h.fed, by assumption⟩
  · obtain ⟨t, hrun, hfed, hcmdq⟩ := cpRun_fed (s.cmdq.length + 1 - s.par.cqDepth) h hs
    exact ⟨t, hrun, hfed, by rw [hcmdq, List.length_drop]; omega⟩

/-- `put` of one word: the word is the last one queued (R153). -/
theorem putWord_fed (e : CmdWord) (h : s.Live) (hs : Unsampled s.cmdq) (hd : 4 ≤ s.par.cqDepth)
    (hf : s.cmdq.length ≤ s.par.cqDepth) :
    ∃ t, putWord e s = .ok () t ∧ s.Fed [e] t ∧ t.cmdq.length ≤ s.par.cqDepth ∧ t.cmdq ≠ [] := by
  obtain ⟨t, halong, hfed, hlen⟩ := cpAlong_fed h hs
  obtain ⟨u, hwait, hfed', hroom⟩ := waitNotFull_fed hfed.live (hfed.unsampled (by simpa using hs))
    (by rwa [hfed.par]) (by rw [hfed.par]; omega)
  rw [hfed.par] at hroom
  exact ⟨_, by rw [putWord, halong, Run.bind, hwait, Run.bind], (hfed.trans hfed').push e, by simpa using hroom,
    by simp⟩

theorem putWords_fed (es : List CmdWord) (h : s.Live) (hs : Unsampled (s.cmdq ++ es)) (hd : 4 ≤ s.par.cqDepth)
    (hf : s.cmdq.length ≤ s.par.cqDepth) :
    ∃ t, putWords es s = .ok () t ∧ s.Fed es t ∧ t.cmdq.length ≤ s.par.cqDepth := by
  induction es generalizing s with
  | nil => exact ⟨s, rfl, h.fed, hf⟩
  | cons e es ih =>
    have hs' : Unsampled (s.cmdq ++ [e] ++ es) := by simpa using hs
    obtain ⟨t, hput, hfed, hfits, -⟩ := putWord_fed e h (fun d hd => hs d (List.mem_append_left _ hd)) hd hf
    have ht : Unsampled (t.cmdq ++ es) := by
      obtain ⟨taken, hwords, -⟩ := hfed.words
      rw [hwords, List.append_assoc] at hs'
      exact fun d hd => hs' d (List.mem_append_right _ hd)
    rw [← hfed.par] at hd hfits
    obtain ⟨u, hputs, hfed', hfits'⟩ := ih hfed.live ht hd hfits
    exact ⟨u, by rw [putWords, hput]; exact hputs, hfed.trans hfed', hfed.par ▸ hfits'⟩

/-- `put` of a command: the coprocessor cannot take its last word meanwhile, so the command itself may be a sampling
one (R153). -/
theorem put_fed (h : s.Live) (hs : Unsampled s.cmdq) (hd : 4 ≤ s.par.cqDepth) (hf : s.cmdq.length ≤ s.par.cqDepth)
    (hc : c.program = s.cpProg) :
    ∃ t, put c s = .ok () t ∧ s.Fed (cmdWords s.par c) t ∧ t.cmdq.length ≤ s.par.cqDepth ∧ t.cmdq ≠ [] := by
  obtain ⟨x, xs, hx⟩ := cpEncode_cons Config.cpEncodePlain s.par.encodeRows c
  obtain ⟨es, w, hw, hl⟩ := tagWords_split c x xs
  have hes : Unsampled (s.cmdq ++ es) := by
    intro e he hlast
    rcases List.mem_append.1 he with he | he
    · exact hs e he hlast
    · simp [hl e he] at hlast
  obtain ⟨t, hputs, hfed, hfits⟩ := putWords_fed es h hes hd hf
  rw [← hfed.par] at hd hfits
  obtain ⟨u, hput, hfed', hfits', hne⟩ := putWord_fed ⟨c, w, true⟩ hfed.live (hfed.unsampled hes) hd hfits
  have hwords : cmdWords s.par c = es ++ [⟨c, w, true⟩] := by rw [cmdWords, hx, hw]
  refine ⟨u, ?_, hwords ▸ hfed.trans hfed', hfed.par ▸ hfits', hne⟩
  rw [put, if_pos hc, hwords, putWords_append, hputs, Run.bind, putWords, hput, Run.bind, putWords]

end fed

/-- Settles O29: the words taken are the first of those queued and put. -/
theorem putKeepsOrder : Obligations.PutKeepsOrder := by
  intro s c hl hd hf hs hc
  obtain ⟨t, hput, hfed, hfits, hne⟩ := put_fed hl hs hd hf hc
  obtain ⟨taken, hwords, hwire⟩ := hfed.words
  refine ⟨tagWords_words _ _, t, taken.length, hput, hfits, hne, ?_, ?_, hfed.rspq⟩
  · rw [hwords, List.drop_left]
  · rw [hwords, List.take_left, hwire]

/-! ## Waiting for the coprocessor (R154, R157 to R159) -/

section waits
variable {s t : State}

theorem waitUntilQueueEmpty_fed (h : s.Live) (hs : Unsampled s.cmdq) :
    ∃ t, waitUntilQueueEmpty s = .ok () t ∧ s.Fed [] t := by
  obtain ⟨t, hrun, hfed, -⟩ := cpRun_fed s.cmdq.length h hs
  exact ⟨_, by rw [waitUntilQueueEmpty, hrun, Run.bind], hfed.allow uncheckedBatch⟩

/-- A piece that goes on after another went on with the value and the state that one gave. -/
theorem Run.bind_eq_ok {α β : Type} {r : Run α} {k : α → State → Run β} {b : β} :
    r.bind k = .ok b t ↔ ∃ a s, r = .ok a s ∧ k a s = .ok b t := by
  cases r <;> simp [Run.bind]

/-- The wait ends with the queue empty and four unchecked puts allowed (R159, R161). -/
theorem waitUntilQueueEmpty_ok (h : waitUntilQueueEmpty s = .ok () t) : t.uncheckedLeft = 4 ∧ t.cmdq = [] := by
  obtain ⟨_, u, hrun, hu⟩ := Run.bind_eq_ok.1 h
  cases hu
  exact ⟨rfl, by simpa using cpRun_cmdq _ hrun⟩

theorem waitPcStart_of_live (h : s.Live) :
    waitPcStart s = .ok () { s with cpAtStart := true, uncheckedLeft := 0 } :=
  if_neg (by simp [h])

end waits

/-- Settles O32: the wait empties the queue, and a live coprocessor then returns to its start address. -/
theorem drainCompletes : Obligations.DrainCompletes := by
  intro s hl hrspq hs
  obtain ⟨t, hwait, hfed⟩ := waitUntilQueueEmpty_fed hl hs
  obtain ⟨-, hempty⟩ := waitUntilQueueEmpty_ok hwait
  have hwire := hfed.commands
  rw [hempty, completes_nil, List.append_nil, List.append_nil] at hwire
  exact ⟨{ t with cpAtStart := true, uncheckedLeft := 0 },
    by rw [drain, hwait, Run.bind, waitPcStart_of_live hfed.live], ⟨hempty, hfed.rspq.trans hrspq, rfl⟩,
    hwire, hfed.mode, hfed.sampleW⟩

/-! ## The response of a sampling command (R154) -/

section response
variable {L : Bool} {s t : State} {c : CpCmd} {e : CmdWord} {q : List CmdWord}

/-- Only the last queued word can bring a response, so the wait for it takes every word. -/
theorem awaitResponse_empties (h : s.Live) (hrspq : s.rspq = []) (hq : s.cmdq = q ++ [e]) (hs : Unsampled q)
    (ht : awaitResponse (q.length + 1) s = .ok () t) : t.cmdq = [] := by
  induction q generalizing s with
  | nil =>
    rw [List.length_nil, awaitResponse, if_pos hrspq] at ht
    obtain ⟨_, u, hstep, hu⟩ := Run.bind_eq_ok.1 ht
    cases hu
    rw [cpStep_cmdq hstep, hq]
    rfl
  | cons d q ih =>
    obtain ⟨hhead, htail⟩ := List.forall_mem_cons.1 hs
    obtain ⟨u, hstep, hfed, hcmdq⟩ := cpStep_fed h hq hhead
    rw [List.length_cons, awaitResponse, if_pos hrspq, hstep] at ht
    exact ih hfed.live (hfed.rspq.trans hrspq) hcmdq htail ht

theorem popResponse_cmdq {w : Nat} {r : Word32} (h : popResponse c w s = .ok r t) : t.cmdq = s.cmdq := by
  unfold popResponse at h
  split at h <;> cases h
  rfl

theorem State.Running.needWidth (h : s.Running L) (c : CpCmd) : (needWidth c s).Running L := by
  unfold Machine.needWidth
  cases c.width with
  | none => exact h
  | some w =>
    by_cases e : s.sampleW = some w
    · simp only [if_pos e]
      exact h
    · simp only [if_neg e]
      exact ⟨h.prog, h.rspq, h.live, h.link, h.pending⟩

/-- After an `xfer` nothing is queued: its own command was the last one (R154). -/
theorem xfer_empties {r : Word32} (h : s.Running true) (hc : c.program = s.cpProg) (ht : xfer c s = .ok r t) :
    t.cmdq = [] := by
  obtain ⟨-, hL⟩ | ⟨s', hput, s1, x, hwaited, rfl⟩ :=
      put_running (h.needWidth c) (hc.trans (needWidth_cpProg c s).symm)
  · cases hL
  · rw [xfer, hput, Run.bind, collect] at ht
    obtain ⟨_, u, hawait, hpop⟩ := Run.bind_eq_ok.1 ht
    rw [popResponse_cmdq hpop]
    have hrun := hwaited.running
    exact awaitResponse_empties (s := { s1 with cmdq := s1.cmdq ++ [⟨c, x, true⟩], uncheckedLeft := 0 })
      (hrun.live rfl) hrun.rspq rfl hrun.pending (by simpa using hawait)

end response

/-- The queue's rules inside an operation hold wherever no response is outstanding and none is to come. -/
theorem running_of_unsampled {s : State} (hl : s.Live) (hp : s.cpProg = s.mode) (hrspq : s.rspq = [])
    (hpar : s.par.lawful = true) (hs : Unsampled s.cmdq) : s.Running true := by
  simp only [Params.lawful, Bool.and_eq_true, decide_eq_true_eq] at hpar
  exact ⟨hp, hrspq, fun _ => hl, ⟨by omega, hpar.2⟩, hs⟩

/-- Settles O30: `xfer` plays its command on the settled state, and leaves nothing queued. -/
theorem xferGivesTheAnswer : Obligations.XferGivesTheAnswer := by
  intro s c w hl hp hrspq hpar hs hc hw
  have hrun := running_of_unsampled hl hp hrspq hpar hs
  have hgoes := xfer_goes ⟨hrun, rfl⟩ (u := s.settle) hc hw
  cases hx : xfer c s with
  | ok r t =>
    rw [hx] at hgoes
    obtain ⟨u, hfollows, rfl, rfl⟩ := hgoes
    have hempty := xfer_empties hrun (hc.trans hp.symm) hx
    have hsettle := hfollows.settle
    have hwire := congrArg State.wire hsettle
    simp only [State.settle, hempty, completes_nil, List.append_nil] at hwire
    exact ⟨t, rfl, congrArg State.sampleW hsettle, hfollows.running.rspq, hempty, hwire, congrArg State.trace hsettle,
      fun k => (hfollows.answer k).trans ((answer_dropAnswer s k).trans (by rw [Nat.add_comm]))⟩
  | done t => rw [hx] at hgoes; exact hgoes.2.1.elim
  | stuck t => rw [hx] at hgoes; cases hgoes
  | fault f => rw [hx] at hgoes; exact hgoes.elim

/-! ## Unchecked puts (R161, R460) -/

section unchecked
variable {s t : State} {c : CpCmd} {e : CmdWord}

theorem putWordUnchecked_of_spent (h : s.uncheckedLeft = 0) : putWordUnchecked e s = .fault .uncheckedPut := by
  rw [putWordUnchecked, h]

theorem putWordUnchecked_of_full (h : s.par.cqDepth ≤ s.cmdq.length) :
    putWordUnchecked e s = .fault .uncheckedPut := by
  unfold putWordUnchecked
  cases s.uncheckedLeft with
  | zero => rfl
  | succ k => exact if_pos h

theorem putWordUnchecked_of_room {k : Nat} (h : s.uncheckedLeft = k + 1) (hf : s.cmdq.length < s.par.cqDepth) :
    putWordUnchecked e s = .ok () { s with cmdq := s.cmdq ++ [e], uncheckedLeft := k } := by
  simp only [putWordUnchecked, h]
  exact if_neg (Nat.not_le.2 hf)

/-- Unchecked puts within the allowance and the room append their words. -/
theorem putWordsUnchecked_of_room {es : List CmdWord} (h : es.length ≤ s.uncheckedLeft)
    (hf : s.cmdq.length + es.length ≤ s.par.cqDepth) :
    putWordsUnchecked es s =
      .ok () { s with cmdq := s.cmdq ++ es, uncheckedLeft := s.uncheckedLeft - es.length } := by
  induction es generalizing s with
  | nil => simp [putWordsUnchecked]
  | cons e es ih =>
    rw [List.length_cons] at h hf
    obtain ⟨k, hk⟩ : ∃ k, s.uncheckedLeft = k + 1 := ⟨s.uncheckedLeft - 1, by omega⟩
    rw [putWordsUnchecked, putWordUnchecked_of_room hk (by omega), Run.bind, ih]
    · simp [hk]
    · show es.length ≤ k
      omega
    · simp only [List.length_append, List.length_singleton]
      omega

/-- Directly after the wait, a command of at most four words goes into the empty queue by unchecked puts. -/
theorem emitUnchecked_after_wait (hl : t.uncheckedLeft = 4) (hq : t.cmdq = []) (hd : 4 ≤ t.par.cqDepth)
    (hc : c.program = t.cpProg) (hn : (cmdWords t.par c).length ≤ 4) :
    emitUnchecked c t = .ok ()
      (traced c { t with cmdq := cmdWords t.par c, uncheckedLeft := 4 - (cmdWords t.par c).length }) := by
  have hput := putWordsUnchecked_of_room (s := t) (es := cmdWords t.par c) (by omega)
    (by rw [hq, List.length_nil]; omega)
  rw [emitUnchecked, putUnchecked, if_pos hc, hput, Run.bind, hq, hl, List.nil_append]

theorem putWord_ends_allowance (h : putWord e s = .ok () t) : t.uncheckedLeft = 0 := by
  obtain ⟨_, _, -, h⟩ := Run.bind_eq_ok.1 h
  obtain ⟨_, _, -, h⟩ := Run.bind_eq_ok.1 h
  cases h
  rfl

theorem popResponse_ends_allowance {w : Nat} {r : Word32} (h : popResponse c w s = .ok r t) : t.uncheckedLeft = 0 := by
  unfold popResponse at h
  split at h <;> cases h
  rfl

theorem waitPcStart_ends_allowance (h : waitPcStart s = .ok () t) : t.uncheckedLeft = 0 := by
  unfold waitPcStart at h
  split at h <;> cases h
  rfl

theorem loadProgram_ends_allowance {p : Mode} (h : loadProgram p s = .ok () t) : t.uncheckedLeft = 0 := by
  unfold loadProgram at h
  split at h <;> cases h
  rfl

/-- After the wait the unchecked puts and the ordinary ones of a command that is not sampled give the same trace and,
driven or still queued, the same commands. -/
theorem emitUnchecked_agrees (h : s.Live) (hs : Unsampled s.cmdq) (hpar : s.par.lawful = true)
    (hc : c.program = s.cpProg) (hn : (cmdWords s.par c).length ≤ 4) (ht : waitUntilQueueEmpty s = .ok () t) :
    ∃ u u', emitUnchecked c t = .ok () u ∧ emit c t = .ok () u' ∧ u.trace = u'.trace ∧
      u.wire ++ completes u.cmdq = u'.wire ++ completes u'.cmdq ∧ u.rspq = u'.rspq := by
  obtain ⟨t', hwait, hfed⟩ := waitUntilQueueEmpty_fed h hs
  obtain rfl : t' = t := by simpa [hwait] using ht
  obtain ⟨hleft, hempty⟩ := waitUntilQueueEmpty_ok ht
  obtain ⟨hdepth, -⟩ := lawful_sizes hpar
  rw [← hfed.par] at hdepth hn
  rw [← hfed.cpProg] at hc
  obtain ⟨u', hput, hput', -⟩ := put_fed hfed.live (by simp [Unsampled, hempty]) hdepth (by simp [hempty]) hc
  refine ⟨_, traced c u', emitUnchecked_after_wait hleft hempty hdepth hc hn, by rw [emit, hput, Run.bind], ?_, ?_, ?_⟩
  · simp only [traced_trace, hput'.trace]
  · simp only [traced_wire, traced_cmdq, hput'.commands, hempty, completes_nil, List.append_nil]
  · simp only [traced_rspq, hput'.rspq]

end unchecked

/-- Settles O33: a put by its allowance and its room, the two ways to emit after the wait, and the actions that end the
allowance. -/
theorem uncheckedPuts : Obligations.UncheckedPuts := by
  intro s
  refine ⟨fun e h => putWordUnchecked_of_spent h, fun e h => putWordUnchecked_of_full h,
    fun e k h hf => putWordUnchecked_of_room h hf, fun t h => waitUntilQueueEmpty_ok h, ?_,
    fun e t h => putWord_ends_allowance h, fun c w r t h => popResponse_ends_allowance h,
    fun t h => waitPcStart_ends_allowance h, fun p t h => loadProgram_ends_allowance h, fun n => rfl, rfl⟩
  intro c t hl _ hpar hs _ hc _ hn ht
  exact emitUnchecked_agrees hl hs hpar hc hn ht

end Sys2Proof.Machine
end

section
namespace Sys2Proof.Machine

/-! ## An address phase that is NACKed (R174) -/

section address
variable {L : Bool} {i : Instr} {s t u v : State} {cs : List CpCmd} {a : BusAddr} {rnw : Bool}

/-- The ends of a body whose first address phase comes after the header and the commands `cs`: in the prologue, at the
address, or past it. -/
def State.FirstAddrEnds (u : State) (cs : List CpCmd) (a : BusAddr) (rnw : Bool) (v : State) : Prop :=
  u.PrologueEnds v ∨ u.AddrNack (headerCmds ++ cs) a rnw v ∨ isAck (u.answer 2) = true

/-- What a body does past its first address does not matter here. -/
theorem Run.Post.firstAddr {r : Run Unit} {D : State → Prop}
    (h : r.Post L (fun _ _ => False) fun v => u.PrologueEnds v ∨ (u.HeaderAck ∧
      (u.AddrNack (headerCmds ++ cs) a rnw v ∨ (isAck (u.answer 2) = true ∧ D v)))) :
    r.Post L (fun _ _ => False) (u.FirstAddrEnds cs a rnw) :=
  h.mono (fun _ _ h => h) fun _ hv => hv.imp id fun ⟨_, haddr⟩ => haddr.imp id And.left

/-- An operation that has an address phase reaches it from a free bus (R240 to R255). -/
theorem runOf_firstAddr (hs : s.Runs) (hf : s.SdrFree) (hi : i.firstAddr s.txb = some (cs, a, rnw))
    (hl : i.lengthsOk s.par = true) :
    (runOf i s).Post true (fun _ _ => False) ((dropSda s.settle).FirstAddrEnds cs a rnw) := by
  have hb := hs.follows.dropSda
  have ht : (dropSda s.settle).sdrTab = sdrTable := hs.ready.table
  obtain ⟨-, -, -, -, hrx, -⟩ := lawful_sizes hs.ready.par
  have entered : ∀ {ok : Bool} {body : State → Run Unit}, ok = true →
      (body (dropSda s)).Post true (fun _ _ => False) ((dropSda s.settle).FirstAddrEnds cs a rnw) →
      (sdrEntry ok body s).Post true (fun _ _ => False) ((dropSda s.settle).FirstAddrEnds cs a rnw) :=
    fun hok h => (sdrEntry_free hf _ _ hok).symm ▸ h
  cases i with
  | privateWrite a la =>
    cases hi
    exact entered hl (privateWriteBody_post hb hf.mode ht a la (of_decide_eq_true hl)).firstAddr
  | privateRead a lb =>
    cases hi
    obtain ⟨h1, h2⟩ := of_decide_eq_true hl
    exact entered hl (privateReadBody_post hb hf.mode a lb h1 h2).firstAddr
  | privateWriteRead a la lb =>
    cases hi
    obtain ⟨h1, h2, h3⟩ := of_decide_eq_true hl
    exact entered (by simp [txFits, rxFits, h1, h2, h3])
      (privateWriteReadBody_post hb hf.mode ht a la lb h1 h2 h3).firstAddr
  | cccDirectWrite a la lb =>
    cases hi
    exact entered hl (cccDirectWriteBody_post hb hf.mode ht a la lb (of_decide_eq_true hl).2).firstAddr
  | cccDirectRead a la lb =>
    cases hi
    obtain ⟨h0, h1, h2, h3⟩ := of_decide_eq_true hl
    exact entered (by simp [bcFits, rxFits, h0, h1, h2, h3])
      (cccDirectReadBody_post hb hf.mode ht a la lb h1 h2 h3).firstAddr
  | entdaa a =>
    cases hi
    exact entered rfl (entdaaBody_post hb hf.mode ht a hrx).firstAddr
  | checkAck a =>
    cases hi
    exact entered rfl (checkAckBody_post hb hf.mode a).firstAddr
  | cccBcastWrite | rstdaa | arbHeaderOnly | poll | ddrWrite | ddrRead | setDdrConfig | setClock | setDrive
  | targetReset => cases hi

/-- The end at a NACKed address, in the terms of the statements. -/
theorem addrNack_ends (hr : s.Ready) (h : (dropSda s.settle).AddrNack cs a rnw v) (ht : t.SettlesTo v) :
    s.SdrEnds t (cs ++ [CpCmd.restart, addrFrame a rnw, .stop]) .nakDuringSdrAddr 0 ∧ s.RxbSame t ∧ s.ArbSame t := by
  obtain ⟨-, rfl⟩ := h
  exact plain_ends hr ht

/-- An ACKed header does not end the operation. -/
theorem State.HeaderAck.not_ends (h : s.HeaderAck) : ¬ (dropSda s.settle).PrologueEnds v :=
  not_prologueEnds ⟨h.won, h.ack⟩

end address

/-- What PRIVATE_WRITE_READ can do once its header and its first address are ACKed (R242). -/
theorem privateWriteRead_ends {s : State} (hs : s.Runs) (hf : s.SdrFree) (a : BusAddr) {la lb : Nat}
    (hla : la ≤ s.par.txbufBytes) (h1 : 1 ≤ lb) (hlb : lb ≤ s.par.rxbufBytes) (hack : s.HeaderAck)
    (haddr : isAck (s.answer 2) = true) :
    ∃ t v, exec (.privateWriteRead a la lb) s = .next t ∧ t.SettlesTo v ∧
      ((dropSda s.settle).AddrNack (headerCmds ++ [.restart, addrFrame a false] ++ bytesCmds s.txb 0 la) a true v ∨
        (isAck (s.answer 3) = true ∧ (dropSda s.settle).ReadStops (headerCmds ++ [.restart, addrFrame a false] ++
          bytesCmds s.txb 0 la ++ [.restart, addrFrame a true]) lb 0 v)) := by
  have ht : (dropSda s.settle).sdrTab = sdrTable := hs.ready.table
  obtain ⟨t, v, hnext, hv, hsettles⟩ :=
    outcome_settles (privateWriteReadBody_post hs.follows.dropSda hf.mode ht a la lb hla h1 hlb)
  refine ⟨t, v, ?_, hsettles, ?_⟩
  · rw [exec_run]
    exact (congrArg Run.outcome (sdrEntry_free hf _ _ (by simp [txFits, rxFits, hla, h1, hlb]))).trans hnext
  · obtain hp | ⟨-, ⟨hnack, -⟩ | ⟨-, h⟩⟩ := hv
    · exact (hack.not_ends hp).elim
    · exact absurd (hnack.symm.trans haddr) (by decide)
    · exact h

/-- Settles O38: past an ACKed header only the NACKed address is left as an end. -/
theorem addressNacked : Obligations.AddressNacked := by
  refine ⟨fun i s cs a rnw hi hs hf hl hack hnack => ?_, fun s a la lb hs hf hla h1 hlb hack haddr hnack => ?_⟩
  · obtain ⟨t, v, hnext, hv, hsettles⟩ := outcome_settles (runOf_firstAddr hs hf hi hl)
    obtain hp | haddr | haddr := hv
    · exact (hack.not_ends hp).elim
    · exact ⟨t, (exec_run i s).trans hnext, addrNack_ends hs.ready haddr hsettles⟩
    · exact absurd (hnack.symm.trans haddr) (by decide)
  · obtain ⟨t, v, hnext, hsettles, hend | ⟨haddr', -⟩⟩ := privateWriteRead_ends hs hf a hla h1 hlb hack haddr
    · exact ⟨t, hnext, addrNack_ends hs.ready hend hsettles⟩
    · exact absurd (hnack.symm.trans haddr') (by decide)

/-! ## A read that is acknowledged (R177) -/

section reads
variable {s t v base : State} {cs : List CpCmd} {b : Byte} {lb : Nat}

/-- An SDR read ended at the one length at which its answers, counted from those of the commands before it, end it. -/
theorem readStops_result (hr : s.Ready) (h : (dropSda s.settle).ReadStops cs lb 0 v) (ht : t.SettlesTo v) :
    ∃ n, t.res0 = resWord .ok n ∧ t.rxbValid = n ∧ s.ReadEnds (sampledIn cs) n lb ∧
      ∀ m, s.ReadEnds (sampledIn cs) m lb → m = n := by
  have ⟨n, hn, _⟩ := h
  have hread : s.ReadEnds (sampledIn cs) n lb := ⟨hn.pos, hn.le, hn.continues, hn.ends⟩
  obtain ⟨hends, hholds, -⟩ := readStops_ends hr hread h ht
  exact ⟨n, hends.finished.res0, hholds.valid, hread, fun m hm => hm.unique hread⟩

/-- So did the payload of an interrupt that POLL served; the arbitration byte counts too (R262). -/
theorem pollServes_result (hb : base = s.settle ∨ base = dropSda s.settle) (hdir : b.getLsbD 0 = true)
    (h : base.PollServes cs lb b v) (ht : t.SettlesTo v) :
    ∃ n, t.res0 = resWord .ok (1 + n) ∧ t.rxbValid = 1 + n ∧ s.ReadEnds (sampledIn cs + 1) n lb ∧
      ∀ m, s.ReadEnds (sampledIn cs + 1) m lb → m = n := by
  obtain ⟨-, n, hn, rfl⟩ | ⟨hno, -⟩ := h
  · have hread : s.ReadEnds (sampledIn cs + 1) n lb := by
      obtain rfl | rfl := hb <;> exact ⟨hn.pos, hn.le, hn.continues, hn.ends⟩
    have hlen : (base.readList (sampledIn cs + 1) n).length = n := readList_length _ _ _
    have hne : base.readList (sampledIn cs + 1) n ≠ [] := List.ne_nil_of_length_pos (by rw [hlen]; exact hn.pos)
    refine ⟨n, ht.finished.res0, (congrArg State.rxbValid ht.eq).symm.trans ?_, hread, fun m hm => hm.unique hread⟩
    rw [finished_rxbValid, State.stored, if_neg hne, hlen]
  · exact absurd (hno.symm.trans hdir) (by decide)

theorem privateRead_result (hs : s.Runs) (hf : s.SdrFree) (a : BusAddr) (h1 : 1 ≤ lb) (hlb : lb ≤ s.par.rxbufBytes)
    (hack : s.HeaderAck) (haddr : isAck (s.answer 2) = true) :
    ∃ n t, exec (.privateRead a lb) s = .next t ∧ t.res0 = resWord .ok n ∧ t.rxbValid = n ∧ s.ReadEnds 3 n lb ∧
      ∀ m, s.ReadEnds 3 m lb → m = n := by
  obtain ⟨t, v, hnext, hv, hsettles⟩ :=
    outcome_settles (privateReadBody_post hs.follows.dropSda hf.mode a lb h1 hlb)
  obtain hp | ⟨-, ⟨hnack, -⟩ | ⟨-, hstops⟩⟩ := hv
  · exact (hack.not_ends hp).elim
  · exact absurd (hnack.symm.trans haddr) (by decide)
  · obtain ⟨n, hres⟩ := readStops_result hs.ready hstops hsettles
    exact ⟨n, t, (congrArg Run.outcome (sdrEntry_free hf _ _ (decide_eq_true ⟨h1, hlb⟩))).trans hnext, hres⟩

theorem privateWriteRead_result (hs : s.Runs) (hf : s.SdrFree) (a : BusAddr) {la : Nat} (hla : la ≤ s.par.txbufBytes)
    (h1 : 1 ≤ lb) (hlb : lb ≤ s.par.rxbufBytes) (hack : s.HeaderAck) (haddr : isAck (s.answer 2) = true)
    (haddr' : isAck (s.answer 3) = true) :
    ∃ n t, exec (.privateWriteRead a la lb) s = .next t ∧ t.res0 = resWord .ok n ∧ t.rxbValid = n ∧
      s.ReadEnds 4 n lb ∧ ∀ m, s.ReadEnds 4 m lb → m = n := by
  obtain ⟨t, v, hnext, hsettles, ⟨hnack, -⟩ | ⟨-, hstops⟩⟩ := privateWriteRead_ends hs hf a hla h1 hlb hack haddr
  · rw [sampledIn_append, sampledIn_bytesCmds] at hnack
    exact absurd (hnack.symm.trans haddr') (by decide)
  · obtain ⟨n, hres⟩ := readStops_result hs.ready hstops hsettles
    rw [sampledIn_append, sampledIn_append, sampledIn_bytesCmds] at hres
    exact ⟨n, t, hnext, hres⟩

theorem cccDirectRead_result (hs : s.Runs) (hf : s.SdrFree) (a : BusAddr) {la : Nat} (h0 : 1 ≤ la)
    (hla : la ≤ s.par.txbufBytes) (h1 : 1 ≤ lb) (hlb : lb ≤ s.par.rxbufBytes) (hack : s.HeaderAck)
    (haddr : isAck (s.answer 2) = true) :
    ∃ n t, exec (.cccDirectRead a la lb) s = .next t ∧ t.res0 = resWord .ok n ∧ t.rxbValid = n ∧
      s.ReadEnds 3 n lb ∧ ∀ m, s.ReadEnds 3 m lb → m = n := by
  have htab : (dropSda s.settle).sdrTab = sdrTable := hs.ready.table
  obtain ⟨t, v, hnext, hv, hsettles⟩ :=
    outcome_settles (cccDirectReadBody_post hs.follows.dropSda hf.mode htab a la lb hla h1 hlb)
  obtain hp | ⟨-, ⟨hnack, -⟩ | ⟨-, hstops⟩⟩ := hv
  · exact (hack.not_ends hp).elim
  · rw [sampledIn_append, sampledIn_bytesCmds] at hnack
    exact absurd (hnack.symm.trans haddr) (by decide)
  · obtain ⟨n, hres⟩ := readStops_result hs.ready hstops hsettles
    rw [sampledIn_append, sampledIn_append, sampledIn_bytesCmds] at hres
    refine ⟨n, t, ?_, hres⟩
    exact (congrArg Run.outcome (sdrEntry_free hf _ _ (by simp [bcFits, rxFits, h0, hla, h1, hlb]))).trans hnext

/-- POLL with a length that fits serves the byte it takes (R262). -/
theorem pollBody_serves (hs : s.Runs) (h1 : 1 ≤ lb) (hlb : lb + 1 ≤ s.par.rxbufBytes) (htakes : s.PollTakes cs b) :
    ∃ base, (base = s.settle ∨ base = dropSda s.settle) ∧
      (pollBody lb s).Post true (fun _ _ => False) (base.PollServes cs lb b) := by
  obtain ⟨hm, ⟨hv, rfl, rfl⟩ | ⟨hv, hsda, hlost, rfl, rfl⟩⟩ := htakes
  all_goals
    have hfits : pollFits s.par lb = true := decide_eq_true ⟨h1, hlb⟩
    have hsdr : ¬ s.mode = .ddr := by simp [hm]
  · refine ⟨s.settle, .inl rfl, ?_⟩
    rw [pollBody, if_neg hsdr, if_pos hv, if_pos hfits]
    exact pollService_post (cs := []) hs.follows hm lb s.arbpB h1 hlb
  · refine ⟨dropSda s.settle, .inr rfl, ?_⟩
    rw [pollBody, if_neg hsdr, if_neg (by simp [hv]), if_neg (by simp [hsda]), if_pos hfits]
    refine (pollStartType_post hs.follows.dropSda hm lb h1 hlb).mono (fun _ _ h => h) fun v hend => ?_
    obtain ⟨hwon, -⟩ | ⟨-, hserves⟩ := hend
    · exact absurd (hlost.symm.trans hwon) (by decide)
    · exact hserves

theorem poll_result (hs : s.Runs) (h1 : 1 ≤ lb) (hlb : lb + 1 ≤ s.par.rxbufBytes) (htakes : s.PollTakes cs b)
    (hdir : b.getLsbD 0 = true) :
    ∃ n t, exec (.poll lb) s = .next t ∧ t.res0 = resWord .ok (1 + n) ∧ t.rxbValid = 1 + n ∧
      s.ReadEnds (sampledIn cs + 1) n lb ∧ ∀ m, s.ReadEnds (sampledIn cs + 1) m lb → m = n := by
  obtain ⟨base, hbase, hpost⟩ := pollBody_serves hs h1 hlb htakes
  obtain ⟨t, v, hnext, hserves, hsettles⟩ := outcome_settles hpost
  obtain ⟨n, hres⟩ := pollServes_result hbase hdir hserves hsettles
  exact ⟨n, t, hnext, hres⟩

end reads

/-- Settles O42: past its acknowledgements each of the four can only read to the one end of its answers. -/
theorem everyReadEnds : Obligations.EveryReadEnds := by
  refine ⟨fun s a la lb hs hf hack h1 hlb haddr => ⟨?_, fun hla haddr' => ?_, fun h0 hla => ?_⟩,
    fun s lb cs b hs h1 hlb htakes hdir => poll_result hs h1 hlb htakes hdir⟩
  · exact privateRead_result hs hf a h1 hlb hack haddr
  · exact privateWriteRead_result hs hf a hla h1 hlb hack haddr haddr'
  · exact cccDirectRead_result hs hf a h0 hla h1 hlb hack haddr

end Sys2Proof.Machine
end

section
namespace Sys2Proof.Machine

/-! ## The operations on machines of other depths and paces (R152) -/

section alike
variable {cq rq : Nat} {s s' : State}

/-- A length check, like anything the parameters fix but for the depths, is the same on both. -/
theorem State.Alike.params (h : s.Alike cq rq s') {γ : Type} (g : Params → γ)
    (hg : ∀ p : Params, g { p with cqDepth := cq, rqDepth := rq } = g p) : g s'.par = g s.par :=
  h.same (fun x => g x.par) (fun _ => rfl) fun x => hg x.par

theorem State.Alike.foldCrc (w : DdrWord) (h : s.Alike cq rq s') :
    State.Alike cq rq { s with crc := crc5Word s.crc w } { s' with crc := crc5Word s'.crc w } :=
  h.crc ▸ h.setCrc _

theorem State.Alike.clearArb (h : s.Alike cq rq s') :
    State.Alike cq rq { s with arbpV := false } { s' with arbpV := false } :=
  h.change (fun x => { x with arbpV := false }) (fun _ => rfl) (fun _ => rfl)
    (fun _ hx => ⟨hx.prog, hx.rspq, hx.live, hx.link, hx.pending⟩) fun _ => rfl

theorem State.Alike.ddrCfg (h : s.Alike cq rq s') : s'.ddrCfg = s.ddrCfg :=
  h.same (fun x => x.ddrCfg) (fun _ => rfl) fun _ => rfl

/-! ### SDR transfers -/

theorem privateWriteBody_alike (a : BusAddr) (la : Nat) (h : s.Alike cq rq s') :
    (privateWriteBody a la s).Alike cq rq (privateWriteBody a la s') :=
  (sdrPrologue_alike h).bind fun _ _ _ h => (restartAddr_alike a false h).bind fun _ _ _ h =>
    (sdrWriteBytes_alike la 0 h).bind fun _ _ _ h => sdrStopFinish_alike _ _ h

theorem privateReadBody_alike (a : BusAddr) (lb : Nat) (h : s.Alike cq rq s') :
    (privateReadBody a lb s).Alike cq rq (privateReadBody a lb s') :=
  (sdrPrologue_alike h).bind fun _ _ _ h => (restartAddr_alike a true h).bind fun _ _ _ h =>
    (sdrReadBytes_alike lb 0 0 h).bind fun n _ _ h => sdrStopFinish_alike _ n h

theorem privateWriteReadBody_alike (a : BusAddr) (la lb : Nat) (h : s.Alike cq rq s') :
    (privateWriteReadBody a la lb s).Alike cq rq (privateWriteReadBody a la lb s') :=
  (sdrPrologue_alike h).bind fun _ _ _ h => (restartAddr_alike a false h).bind fun _ _ _ h =>
    (sdrWriteBytes_alike la 0 h).bind fun _ _ _ h => (restartAddr_alike a true h).bind fun _ _ _ h =>
      (sdrReadBytes_alike lb 0 0 h).bind fun n _ _ h => sdrStopFinish_alike _ n h

theorem cccBcastWriteBody_alike (la : Nat) (h : s.Alike cq rq s') :
    (cccBcastWriteBody la s).Alike cq rq (cccBcastWriteBody la s') :=
  (sdrPrologue_alike h).bind fun _ _ _ h => (sdrWriteBytes_alike la 0 h).bind fun _ _ _ h =>
    sdrStopFinish_alike _ _ h

theorem cccDirectWriteBody_alike (a : BusAddr) (la lb : Nat) (h : s.Alike cq rq s') :
    (cccDirectWriteBody a la lb s).Alike cq rq (cccDirectWriteBody a la lb s') :=
  (sdrPrologue_alike h).bind fun _ _ _ h => (sdrWriteBytes_alike la 0 h).bind fun _ _ _ h =>
    (restartAddr_alike a false h).bind fun _ _ _ h => (sdrWriteBytes_alike lb la h).bind fun _ _ _ h =>
      sdrStopFinish_alike _ _ h

theorem cccDirectReadBody_alike (a : BusAddr) (la lb : Nat) (h : s.Alike cq rq s') :
    (cccDirectReadBody a la lb s).Alike cq rq (cccDirectReadBody a la lb s') :=
  (sdrPrologue_alike h).bind fun _ _ _ h => (sdrWriteBytes_alike la 0 h).bind fun _ _ _ h =>
    (restartAddr_alike a true h).bind fun _ _ _ h => (sdrReadBytes_alike lb 0 0 h).bind fun n _ _ h =>
      sdrStopFinish_alike _ n h

theorem entdaaIdBytes_alike (n i : Nat) (h : s.Alike cq rq s') :
    (entdaaIdBytes n i s).Alike cq rq (entdaaIdBytes n i s') := by
  induction n generalizing i s s' with
  | zero => exact ⟨rfl, h⟩
  | succ n ih =>
    rw [entdaaIdBytes, entdaaIdBytes, h.params (fun p => p.entdaaIdAckBit) fun _ => rfl]
    refine (xfer_alike (idFrame_width _) h).bind fun r _ _ h => ?_
    rw [h.params (fun p => p.entdaaIdAckBit) fun _ => rfl]
    exact (rxbByte_alike i _ h).bind fun _ _ _ h => ih (i + 1) h

theorem entdaaBody_alike (a : BusAddr) (h : s.Alike cq rq s') :
    (entdaaBody a s).Alike cq rq (entdaaBody a s') :=
  (sdrPrologue_alike h).bind fun _ _ _ h => (sdrWriteByte_alike _ h).bind fun _ _ _ h =>
    (restartAddr_alike _ true h).bind fun _ _ _ h => (entdaaIdBytes_alike 8 0 h).bind fun _ _ _ h =>
      (xfer_alike rfl h).bind fun _ _ _ h => Run.Alike.ite Iff.rfl (sdrStopFinish_alike _ _ h) (sdrStopFinish_alike _ _ h)

theorem rstdaaBody_alike (h : s.Alike cq rq s') : (rstdaaBody s).Alike cq rq (rstdaaBody s') :=
  (sdrPrologue_alike h).bind fun _ _ _ h => (sdrWriteByte_alike _ h).bind fun _ _ _ h => sdrStopFinish_alike _ _ h

theorem checkAckBody_alike (a : BusAddr) (h : s.Alike cq rq s') :
    (checkAckBody a s).Alike cq rq (checkAckBody a s') :=
  (sdrPrologue_alike h).bind fun _ _ _ h => (restartAddr_alike a false h).bind fun _ _ _ h =>
    sdrStopFinish_alike _ _ h

theorem arbHeaderOnlyBody_alike (h : s.Alike cq rq s') :
    (arbHeaderOnlyBody s).Alike cq rq (arbHeaderOnlyBody s') :=
  (sdrPrologue_alike h).bind fun _ _ _ h => sdrStopFinish_alike _ _ h

/-! ### POLL -/

theorem pollService_alike (lb : Nat) (b : Byte) (h : s.Alike cq rq s') :
    (pollService lb b s).Alike cq rq (pollService lb b s') :=
  (rxbByte_alike 0 b h.clearArb).bind fun _ _ _ h =>
    Run.Alike.ite Iff.rfl
      ((xfer_alike rfl h).bind fun _ _ _ h => (sdrReadBytes_alike lb 1 0 h).bind fun n _ _ h =>
        sdrStopFinish_alike _ (1 + n) h)
      (Run.Alike.ite Iff.rfl ((xfer_alike rfl h).bind fun _ _ _ h => sdrStopFinish_alike _ _ h)
        ((xfer_alike rfl h).bind fun _ _ _ h => sdrStopFinish_alike _ _ h))

theorem pollStartType_alike (lb : Nat) (h : s.Alike cq rq s') :
    (pollStartType lb s).Alike cq rq (pollStartType lb s') :=
  (emit_alike rfl h).bind fun _ _ _ h => (xfer_alike rfl h).bind fun s6 _ _ h =>
    Run.Alike.ite Iff.rfl ((xfer_alike rfl h).bind fun _ _ _ h => sdrStopFinish_alike _ _ h)
      ((xfer_alike rfl h).bind fun s2 _ _ h => pollService_alike lb (arbByte s6 s2) h)

theorem pollBody_alike (lb : Nat) (h : s.Alike cq rq s') : (pollBody lb s).Alike cq rq (pollBody lb s') := by
  have hv : s'.arbpV = s.arbpV := h.same (fun x => x.arbpV) (fun _ => rfl) fun _ => rfl
  have hb : s'.arbpB = s.arbpB := h.same (fun x => x.arbpB) (fun _ => rfl) fun _ => rfl
  have hsda : s'.sda = s.sda := h.same State.sda (fun _ => rfl) fun _ => rfl
  rw [pollBody, pollBody, h.mode, hv, hb, hsda, h.params (pollFits · lb) fun _ => rfl]
  exact Run.Alike.ite Iff.rfl (finish_alike _ _ h)
    (Run.Alike.ite Iff.rfl (Run.Alike.ite Iff.rfl (pollService_alike lb _ h) (finish_alike _ _ h))
      (Run.Alike.ite Iff.rfl (finish_alike _ _ h.dropSda)
        (Run.Alike.ite Iff.rfl (pollStartType_alike lb h.dropSda) (finish_alike _ _ h.dropSda))))

/-! ### HDR-DDR messages -/

theorem txbWord_alike (i : Nat) (h : s.Alike cq rq s') : (txbWord i s).Alike cq rq (txbWord i s') :=
  (txbByte_alike _ h).bind fun _ _ _ h => (txbByte_alike _ h).bind fun _ _ _ h => ⟨rfl, h⟩

theorem rxbWord_alike (i : Nat) (w : DdrWord) (h : s.Alike cq rq s') : (rxbWord i w s).Alike cq rq (rxbWord i w s') :=
  (rxbByte_alike _ _ h).bind fun _ _ _ h => rxbByte_alike _ _ h

theorem ddrWriteLoop_alike (ack et : Bool) (left i : Nat) (h : s.Alike cq rq s') :
    (ddrWriteLoop ack et left i s).Alike cq rq (ddrWriteLoop ack et left i s') := by
  induction left generalizing i s s' with
  | zero => exact ⟨rfl, h⟩
  | succ k ih =>
    refine (txbWord_alike i h).bind fun w s s' h => Run.Alike.ite Iff.rfl ?_ ?_
    · refine (xfer_alike rfl (h.foldCrc w)).bind fun b _ _ g => ?_
      rw [h.crc]
      exact Run.Alike.ite Iff.rfl ⟨rfl, g.setCrc _⟩ (Run.Alike.ite Iff.rfl ⟨rfl, g.setCrc _⟩
        ((emit_alike rfl g).bind fun _ _ _ g => ih (i + 1) g))
    · exact (emit_alike rfl (h.foldCrc w)).bind fun _ _ _ g => (emit_alike rfl g).bind fun _ _ _ g => ih (i + 1) g

theorem ddrWriteBody_alike (a : BusAddr) (c : Byte) (fwr : Bool) (la : Nat) (h : s.Alike cq rq s') :
    (ddrWriteBody a c fwr la s).Alike cq rq (ddrWriteBody a c fwr la s') :=
  (enterDdr_alike h).bind fun _ _ _ h => (ddrCommand_alike a c false h).bind fun _ _ _ h => by
    rw [h.ddrCfg]
    refine (ddrWriteLoop_alike _ _ la 0 h).bind fun r _ _ h => ?_
    rw [h.ddrCfg, h.crc]
    exact Run.Alike.bind (Run.Alike.ite Iff.rfl (emit_alike rfl h) ⟨rfl, h⟩) fun _ _ _ h =>
      ddrFinalize_alike fwr r.1 r.2 h

theorem ddrReadMore_alike (left n : Nat) (h : s.Alike cq rq s') :
    (ddrReadMore left n s).Alike cq rq (ddrReadMore left n s') := by
  induction left generalizing n s s' with
  | zero => exact ⟨rfl, h⟩
  | succ k ih =>
    refine (xfer_alike rfl h).bind fun c s s' h => Run.Alike.ite Iff.rfl ?_ (Run.Alike.ite Iff.rfl ⟨?_, h⟩ ⟨rfl, h⟩)
    · exact (xfer_alike rfl h).bind fun e _ _ h =>
        Run.Alike.ite Iff.rfl ((rxbWord_alike n _ (h.foldCrc _)).bind fun _ _ _ h => ih (n + 1) h)
          ⟨rfl, h.foldCrc _⟩
    · rw [h.crc]

theorem ddrReadLoop_alike (lb : Nat) (h : s.Alike cq rq s') : (ddrReadLoop lb s).Alike cq rq (ddrReadLoop lb s') :=
  (xfer_alike rfl h).bind fun _ _ _ h => Run.Alike.ite Iff.rfl ⟨rfl, h⟩
    ((xfer_alike rfl h).bind fun _ _ _ h =>
      Run.Alike.ite Iff.rfl ((rxbWord_alike 0 _ (h.foldCrc _)).bind fun _ _ _ h => ddrReadMore_alike (lb - 1) 1 h)
        ⟨rfl, h.foldCrc _⟩)

theorem ddrReadTerminate_alike (r : ReadEnd) (h : s.Alike cq rq s') :
    (ddrReadTerminate r s).Alike cq rq (ddrReadTerminate r s') :=
  Run.Alike.ite Iff.rfl
    ((emit_alike rfl h).bind fun _ _ _ h => by
      rw [h.ddrCfg]
      exact Run.Alike.ite Iff.rfl ((xfer_alike rfl h).bind fun _ _ _ h => ⟨by rw [h.crc], h⟩) ⟨rfl, h⟩)
    ⟨rfl, h⟩

theorem ddrReadBody_alike (a : BusAddr) (c : Byte) (fwr : Bool) (lb : Nat) (h : s.Alike cq rq s') :
    (ddrReadBody a c fwr lb s).Alike cq rq (ddrReadBody a c fwr lb s') :=
  (enterDdr_alike h).bind fun _ _ _ h => (ddrCommand_alike a c true h).bind fun _ _ _ h =>
    (ddrReadLoop_alike lb h).bind fun r _ _ h => (ddrReadTerminate_alike r h).bind fun st _ _ h =>
      ddrFinalize_alike fwr st r.n h

/-! ### Configuration and target reset -/

theorem targetResetBody_alike (h : s.Alike cq rq s') : (targetResetBody s).Alike cq rq (targetResetBody s') := by
  rw [targetResetBody, targetResetBody, h.mode]
  exact Run.Alike.bind (Run.Alike.ite Iff.rfl (switchProgram_alike _ h) ⟨rfl, h⟩) fun _ _ _ h =>
    (emit_alike rfl h).bind fun _ _ _ h => (drain_alike h).bind fun _ _ _ h => finish_alike _ _ h.clearArb

/-- The same change of the configuration registers on both. -/
theorem State.Alike.configure (d : DdrCfg → DdrCfg) (k : BitVec 14 → BitVec 14) (m : BitVec 4 → BitVec 4)
    (h : s.Alike cq rq s') :
    State.Alike cq rq { s with ddrCfg := d s.ddrCfg, clkKhz := k s.clkKhz, driveMa := m s.driveMa }
      { s' with ddrCfg := d s'.ddrCfg, clkKhz := k s'.clkKhz, driveMa := m s'.driveMa } :=
  h.change (fun x => { x with ddrCfg := d x.ddrCfg, clkKhz := k x.clkKhz, driveMa := m x.driveMa }) (fun _ => rfl)
    (fun _ => rfl) (fun _ hx => ⟨hx.prog, hx.rspq, hx.live, hx.link, hx.pending⟩) fun _ => rfl

/-- An SDR-class operation whose length check looks at the buffer sizes only. -/
theorem checkedSdr_alike (ok : Params → Bool) {body : State → Run Unit} (h : s.Alike cq rq s')
    (hok : ∀ p : Params, ok { p with cqDepth := cq, rqDepth := rq } = ok p)
    (hb : ∀ s s', s.Alike cq rq s' → (body s).Alike cq rq (body s')) :
    (sdrEntry (ok s.par) body s).Alike cq rq (sdrEntry (ok s'.par) body s') :=
  h.params ok hok ▸ sdrEntry_alike _ h hb

/-- And a DDR-class one. -/
theorem checkedDdr_alike (ok : Params → Bool) {body : State → Run Unit} (h : s.Alike cq rq s')
    (hok : ∀ p : Params, ok { p with cqDepth := cq, rqDepth := rq } = ok p)
    (hb : ∀ s s', s.Alike cq rq s' → (body s).Alike cq rq (body s')) :
    (ddrEntry (ok s.par) body s).Alike cq rq (ddrEntry (ok s'.par) body s') :=
  h.params ok hok ▸ ddrEntry_alike _ h hb

/-- Every operation does the same on both. -/
theorem runOf_alike (i : Instr) (h : s.Alike cq rq s') : (runOf i s).Alike cq rq (runOf i s') := by
  cases i with
  | privateWrite a la => exact checkedSdr_alike (txFits · la) h (fun _ => rfl) fun _ _ => privateWriteBody_alike a la
  | privateRead a lb => exact checkedSdr_alike (rxFits · lb) h (fun _ => rfl) fun _ _ => privateReadBody_alike a lb
  | privateWriteRead a la lb =>
    exact checkedSdr_alike (fun p => txFits p la && rxFits p lb) h (fun _ => rfl) fun _ _ =>
      privateWriteReadBody_alike a la lb
  | cccBcastWrite la => exact checkedSdr_alike (bcFits · la) h (fun _ => rfl) fun _ _ => cccBcastWriteBody_alike la
  | cccDirectWrite a la lb =>
    exact checkedSdr_alike (bcDirFits · la lb) h (fun _ => rfl) fun _ _ => cccDirectWriteBody_alike a la lb
  | cccDirectRead a la lb =>
    exact checkedSdr_alike (fun p => bcFits p la && rxFits p lb) h (fun _ => rfl) fun _ _ =>
      cccDirectReadBody_alike a la lb
  | entdaa a => exact checkedSdr_alike (fun _ => true) h (fun _ => rfl) fun _ _ => entdaaBody_alike a
  | rstdaa => exact checkedSdr_alike (fun _ => true) h (fun _ => rfl) fun _ _ => rstdaaBody_alike
  | checkAck a => exact checkedSdr_alike (fun _ => true) h (fun _ => rfl) fun _ _ => checkAckBody_alike a
  | arbHeaderOnly => exact checkedSdr_alike (fun _ => true) h (fun _ => rfl) fun _ _ => arbHeaderOnlyBody_alike
  | poll lb => exact pollBody_alike lb h
  | ddrWrite a c fwr la =>
    exact checkedDdr_alike (ddrTxFits · la) h (fun _ => rfl) fun _ _ =>
      ddrWriteBody_alike a c fwr la
  | ddrRead a c fwr lb =>
    exact checkedDdr_alike (ddrRxFits · lb) h (fun _ => rfl) fun _ _ =>
      ddrReadBody_alike a c fwr lb
  | setDdrConfig ack et crcet => exact finish_alike _ _ (h.configure (fun _ => ⟨ack, et, crcet⟩) id id)
  | setClock la =>
    exact Run.Alike.ite Iff.rfl (finish_alike _ _ h) (finish_alike _ _ (h.configure id (fun _ => BitVec.ofNat 14 la) id))
  | setDrive la =>
    exact Run.Alike.ite Iff.rfl (finish_alike _ _ (h.configure id id fun _ => BitVec.ofNat 4 la)) (finish_alike _ _ h)
  | targetReset => exact targetResetBody_alike h

end alike

section depths
variable {i : Instr} {s t t' : State} {cq rq : Nat} {pace : List Nat}

/-- The same block with other FIFO depths and another coprocessor's pace. -/
def State.onMachine (s : State) (cq rq : Nat) (pace : List Nat) : State :=
  { s.withDepths cq rq with cpPace := pace }

theorem lawful_withDepths {p : Params} (h : p.lawful = true) (hcq : 4 ≤ cq) (hrq : 1 ≤ rq) :
    { p with cqDepth := cq, rqDepth := rq }.lawful = true := by
  simp only [Params.lawful, Bool.and_eq_true, decide_eq_true_eq] at h ⊢
  obtain ⟨⟨⟨⟨⟨-, htxb⟩, hrxb⟩, hclk⟩, hdrive⟩, hresp⟩ := h
  exact ⟨⟨⟨⟨⟨⟨hcq, hrq⟩, htxb⟩, hrxb⟩, hclk⟩, hdrive⟩, hresp⟩

/-- It is between two operations as well, the depths being lawful. -/
theorem State.Runs.onMachine (hs : s.Runs) (hcq : 4 ≤ cq) (hrq : 1 ≤ rq) : (s.onMachine cq rq pace).Runs := by
  obtain ⟨⟨⟨prog, arb, table, clk, drive, width, par, txbWf, rxbWf, defined, -, -⟩, hquiet⟩, hlive⟩ := hs
  refine ⟨⟨⟨prog, arb, table, clk, drive, width, ?_, txbWf, rxbWf, defined, ?_, ?_⟩,
    ⟨hquiet.cmdq, hquiet.rspq, hquiet.atStart⟩⟩, hlive⟩
  · exact lawful_withDepths par hcq hrq
  · show s.cmdq.length ≤ cq
    simp [hquiet.cmdq]
  · show s.rspq.length ≤ rq
    simp [hquiet.rspq]

theorem State.Runs.alike (hs : s.Runs) (hcq : 4 ≤ cq) (hrq : 1 ≤ rq) : s.Alike cq rq (s.onMachine cq rq pace) :=
  ⟨hs.follows.running, (hs.onMachine hcq hrq).follows.running, rfl, hs.ready.table⟩

/-- An operation that runs comes to a `finish`. -/
theorem runOf_done (hs : s.Runs) : ∃ t, runOf i s = .done t ∧ t.Quiet ∧ t.Live := by
  have hpost := runOf_post (L := true) i hs.ready fun _ => hs.live
  obtain ⟨t, hrun⟩ | ⟨t, hrun⟩ := runOf_stuck (i := i) hs.ready <;> rw [hrun] at hpost
  · exact ⟨t, hrun, hpost.1, hpost.2.2 rfl⟩
  · cases hpost

/-- A quiet state with a live coprocessor is its settled state with its own pace and allowance. -/
theorem State.Quiet.eq_settle (h : t.Quiet) (hl : t.Live) :
    { t.settle with cpPace := t.cpPace, uncheckedLeft := t.uncheckedLeft } = t := by
  rw [h.settle, ← show t.cpBudget = none from hl]

/-- Ends that settle alike are equal but for the depths, the pace and the allowance. -/
theorem eq_of_settle_withDepths (h : t.Quiet) (hl : t.Live) (h' : t'.Quiet) (hl' : t'.Live)
    (hs : t'.settle = t.settle.withDepths cq rq) :
    { t' with par := t.par, cpPace := t.cpPace, uncheckedLeft := t.uncheckedLeft } = t :=
  calc { t' with par := t.par, cpPace := t.cpPace, uncheckedLeft := t.uncheckedLeft }
    _ = { t'.settle with par := t.par, cpPace := t.cpPace, uncheckedLeft := t.uncheckedLeft } :=
      congrArg (fun x : State => { x with par := t.par, cpPace := t.cpPace, uncheckedLeft := t.uncheckedLeft })
        (h'.eq_settle hl').symm
    _ = { t.settle with cpPace := t.cpPace, uncheckedLeft := t.uncheckedLeft } := by rw [hs]; rfl
    _ = t := h.eq_settle hl

end depths

/-- Settles O17: both machines run the operation alike to its `finish`. -/
theorem depthAndPaceDoNotMatter : Obligations.DepthAndPaceDoNotMatter := by
  intro i s t cq rq pace hs hcq hrq hnext
  obtain ⟨u, hrun, hquiet, hlive⟩ := runOf_done (i := i) hs
  obtain ⟨t', hrun', hquiet', hlive'⟩ := runOf_done (i := i) (hs.onMachine (pace := pace) hcq hrq)
  have halike := runOf_alike i (hs.alike (pace := pace) hcq hrq)
  rw [exec_run, hrun] at hnext
  rw [hrun, hrun'] at halike
  cases hnext
  exact ⟨t', (exec_run i _).trans (congrArg Run.outcome hrun'),
    eq_of_settle_withDepths hquiet hlive hquiet' hlive' halike⟩

end Sys2Proof.Machine
end

section
namespace Sys2Proof.Machine

/-! ## The table-driven CRC (R200, R203) -/

/-- The container holds the register in its high five bits. -/
@[simp] theorem crc5Container_high (c : BitVec 5) : (crc5Container c).extractLsb' 3 5 = c :=
  BitVec.extractLsb'_append_eq_left

@[simp] theorem crc5Container_low (c : BitVec 5) : (crc5Container c).extractLsb' 0 3 = 0#3 :=
  BitVec.extractLsb'_append_eq_right

@[simp] theorem crc5Container_top (c : BitVec 5) : (crc5Container c).getLsbD 7 = c.getLsbD 4 :=
  BitVec.getLsbD_append

theorem crc5Container_xor (c d : BitVec 5) : crc5Container (c ^^^ d) = crc5Container c ^^^ crc5Container d :=
  (BitVec.xor_append (x₁ := c) (x₂ := d) (y₁ := 0#3) (y₂ := 0#3)).symm

theorem crc5Container_shiftLeft (c : BitVec 5) : crc5Container (c <<< 1) = crc5Container c <<< 1 := by
  revert c
  decide

/-- A shift of the container with data XORed into it is a division step by the top data bit; the other data bits move
up. -/
theorem crc5TabShift_container_xor (c : BitVec 5) (y : Byte) :
    crc5TabShift (crc5Container c ^^^ y) = crc5Container (crc5Bit c (y.getLsbD 7)) ^^^ y <<< 1 := by
  have hpoly : crc5Container crc5Poly = 0x28#8 := rfl
  unfold crc5TabShift crc5Bit
  rw [BitVec.getLsbD_xor, crc5Container_top, BitVec.shiftLeft_xor_distrib, ← crc5Container_shiftLeft]
  split
  · rw [crc5Container_xor, hpoly, BitVec.xor_assoc, BitVec.xor_assoc, BitVec.xor_comm (y <<< 1)]
  · rfl

/-- `k` shifts of the container fold the low `k` bits of a word, when the XOR has put them at the container's top. -/
theorem crc5TabShifts_container_xor (k : Nat) (hk : k ≤ 8) (c : BitVec 5) (w : DdrWord) :
    crc5TabShifts k (crc5Container c ^^^ w.extractLsb' 0 8 <<< (8 - k)) = crc5Container (crc5Bits k c w) := by
  induction k generalizing c with
  | zero =>
    rw [BitVec.shiftLeft_eq_zero (by decide), BitVec.xor_zero]
    rfl
  | succ j ih =>
    have htop : (w.extractLsb' 0 8 <<< (8 - (j + 1))).getLsbD 7 = w.getLsbD j := by
      have hpos : ¬ 7 < 8 - (j + 1) := by omega
      have hbit : 7 - (8 - (j + 1)) = j := by omega
      have hlow : j < 8 := hk
      simp only [BitVec.getLsbD_shiftLeft, BitVec.getLsbD_extractLsb', hpos, hbit, hlow, Nat.zero_add]
      rfl
    have hshift : w.extractLsb' 0 8 <<< (8 - (j + 1)) <<< 1 = w.extractLsb' 0 8 <<< (8 - j) := by
      rw [← BitVec.shiftLeft_add, show 8 - (j + 1) + 1 = 8 - j by omega]
    rw [crc5TabShifts, crc5TabShift_container_xor, htop, hshift]
    exact ih (by omega) _

/-- One look-up of the table folds the low byte of a word. -/
theorem crc5Tab_container_xor (c : BitVec 5) (w : DdrWord) :
    crc5Tab (crc5Container c ^^^ w.extractLsb' 0 8) = crc5Container (crc5Bits 8 c w) := by
  have h := crc5TabShifts_container_xor 8 (Nat.le_refl 8) c w
  rwa [Nat.sub_self, BitVec.shiftLeft_zero] at h

/-- Every table entry is the container of a register value. -/
theorem crc5Tab_eq_container (x : Byte) : crc5Tab x = crc5Container (crc5Bits 8 0#5 (x.setWidth 16)) := by
  have hx : (x.setWidth 16).extractLsb' 0 8 = x := by
    ext i hi
    rw [BitVec.getElem_extractLsb', Nat.zero_add, BitVec.getLsbD_setWidth, decide_eq_true (by omega), Bool.true_and,
      BitVec.getLsbD_eq_getElem]
  have h := crc5Tab_container_xor 0#5 (x.setWidth 16)
  rwa [hx, show crc5Container 0#5 = 0#8 from rfl, BitVec.zero_xor] at h

/-- The high `m` of `m + n` bits are folded first. -/
theorem crc5Bits_add (m n : Nat) (c : BitVec 5) (w : DdrWord) :
    crc5Bits (m + n) c w = crc5Bits n (crc5Bits m c (w >>> n)) w := by
  induction m generalizing c with
  | zero => rw [Nat.zero_add, crc5Bits]
  | succ j ih =>
    rw [Nat.succ_add, crc5Bits, ih, crc5Bits, BitVec.getLsbD_ushiftRight, Nat.add_comm n j]

/-- Settles O23: each look-up of the table is eight steps of the division, for the high byte and then for the low one,
and what it gives is a container. -/
theorem crcTableIsBitwise : Obligations.CrcTableIsBitwise := by
  refine ⟨fun c w => ?_, fun x => ?_⟩
  · have hhigh : w.extractLsb' 8 8 = (w >>> 8).extractLsb' 0 8 := by
      ext
      simp
    simp only [crc5WordTab, hhigh, crc5Tab_container_xor, crc5Container_high]
    exact (crc5Bits_add 8 8 c w).symm
  · rw [crc5Tab_eq_container, crc5Container_low]

end Sys2Proof.Machine
end

section
namespace Sys2Proof.Machine

/-! ## Parities as counts of ones (R210 to R215) -/

theorem ones_succ (n v : Nat) : ones (n + 1) v = ones n v + (v.testBit n).toNat := by
  unfold ones
  rw [List.range_succ, List.countP_append, List.countP_singleton, Bool.toNat, Bool.cond_eq_ite]

/-- The XOR of the bits tells whether the number of ones is odd. -/
theorem xorBits_eq (n : Nat) (v : BitVec n) : xorBits n v = decide (ones n v.toNat % 2 = 1) := by
  have hfold : ∀ k, (List.range k).foldl (fun acc j => acc ^^ v.getLsbD j) false =
      decide (ones k v.toNat % 2 = 1) := by
    intro k
    induction k with
    | zero => rfl
    | succ k ih =>
      rw [List.range_succ, List.foldl_concat, ih, ones_succ, BitVec.testBit_toNat]
      cases v.getLsbD k with
      | false => exact Bool.xor_false _
      | true => rcases Nat.mod_two_eq_zero_or_one (ones k v.toNat) with h | h <;> simp [Nat.add_mod, h]
  exact hfold n

/-- A bit appended below adds itself to the ones. -/
theorem ones_append_ofBool {n : Nat} (v : BitVec n) (p : Bool) :
    ones (n + 1) (v ++ BitVec.ofBool p).toNat = ones n v.toNat + p.toNat := by
  have hlow : (v ++ BitVec.ofBool p).toNat.testBit 0 = p := by
    rw [BitVec.testBit_toNat, BitVec.getLsbD_append]
    simp
  have hhigh : ∀ k, (v ++ BitVec.ofBool p).toNat.testBit (k + 1) = v.toNat.testBit k := by
    intro k
    rw [BitVec.testBit_toNat, BitVec.testBit_toNat, BitVec.getLsbD_append]
    simp
  unfold ones
  rw [List.range_succ_eq_map, List.countP_cons, List.countP_map, hlow, ← Bool.cond_eq_ite, ← Bool.toNat]
  simp only [Function.comp_def, Nat.succ_eq_add_one, hhigh]

/-- Any bits with the complement of their XOR below them hold an odd number of ones. -/
theorem ones_append_not_xorBits {n : Nat} (v : BitVec n) :
    ones (n + 1) (v ++ BitVec.ofBool (!xorBits n v)).toNat % 2 = 1 := by
  rw [ones_append_ofBool, xorBits_eq]
  rcases Nat.mod_two_eq_zero_or_one (ones n v.toNat) with h | h <;> simp [Nat.add_mod, h]

theorem pa1_eq_xorBits (w : DdrWord) : pa1 w = xorBits 16 (w &&& 0xAAAA#16) := by
  simp [pa1, xorBits, List.range_succ, Bool.xor_comm]

theorem pa0_eq_not_xorBits (w : DdrWord) : pa0 w = !xorBits 16 (w &&& 0x5555#16) := by
  simp [pa0, xorBits, List.range_succ, Bool.xor_comm]

theorem pa1_iff_ones (w : DdrWord) : pa1 w = true ↔ ones 16 (w &&& 0xAAAA#16).toNat % 2 = 1 := by
  rw [pa1_eq_xorBits, xorBits_eq, decide_eq_true_iff]

theorem pa0_iff_ones (w : DdrWord) : pa0 w = true ↔ ones 16 (w &&& 0x5555#16).toNat % 2 = 0 := by
  rw [pa0_eq_not_xorBits, xorBits_eq, Bool.not_eq_true', decide_eq_false_iff_not, Nat.mod_two_not_eq_one]

/-! ## The parity adjust (R211) -/

theorem pa0_xor_one (w : DdrWord) : pa0 (w ^^^ 1#16) = !pa0 w := by
  simp [pa0]

theorem pa1_xor_one (w : DdrWord) : pa1 (w ^^^ 1#16) = pa1 w := by
  simp [pa1]

theorem getLsbD_xor_one {k : Nat} (hk : 1 ≤ k) (w : DdrWord) : (w ^^^ 1#16).getLsbD k = w.getLsbD k := by
  have hone : (1#16).getLsbD k = false := by
    simp
    omega
  rw [BitVec.getLsbD_xor, hone, Bool.xor_false]

/-- What `adjust` does, by PA0 of its argument. -/
theorem adjust_cases (w : DdrWord) : pa0 w = true ∧ adjust w = w ∨ pa0 w = false ∧ adjust w = w ^^^ 1#16 := by
  unfold adjust
  cases pa0 w <;> simp

theorem adjust_of_pa0 {w : DdrWord} (h : pa0 w = true) : adjust w = w := by
  simp [adjust, h]

@[simp] theorem pa0_adjust (w : DdrWord) : pa0 (adjust w) = true := by
  obtain ⟨h, e⟩ | ⟨h, e⟩ := adjust_cases w
  · rw [e, h]
  · rw [e, pa0_xor_one, h, Bool.not_false]

@[simp] theorem pa1_adjust (w : DdrWord) : pa1 (adjust w) = pa1 w := by
  obtain ⟨-, e⟩ | ⟨-, e⟩ := adjust_cases w
  · rw [e]
  · rw [e, pa1_xor_one]

theorem getLsbD_adjust {k : Nat} (hk : 1 ≤ k) (w : DdrWord) : (adjust w).getLsbD k = w.getLsbD k := by
  obtain ⟨-, e⟩ | ⟨-, e⟩ := adjust_cases w
  · rw [e]
  · rw [e, getLsbD_xor_one hk]

/-- A field above bit 0 is not touched. -/
theorem extractLsb'_adjust {i : Nat} (hi : 1 ≤ i) (n : Nat) (w : DdrWord) :
    (adjust w).extractLsb' i n = w.extractLsb' i n := by
  ext k hk
  rw [BitVec.getElem_extractLsb', BitVec.getElem_extractLsb', getLsbD_adjust (Nat.le_add_right_of_le hi)]

/-- Settles O24: each parity is the XOR of the word under its mask, and `adjust` flips bit 0, of an even position, where
PA0 is 0. -/
theorem adjustMakesPa0One : Obligations.AdjustMakesPa0One := fun w =>
  ⟨pa1_iff_ones w, pa0_iff_ones w, (pa0_iff_ones _).1 (pa0_adjust w), pa0_adjust w, pa1_adjust w, adjust_of_pa0,
    fun _ hk => getLsbD_adjust hk w⟩

/-- Settles O25: the T-bit and the address parity are the complemented XOR of the bits above them. -/
theorem oddParity : Obligations.OddParity :=
  ⟨ones_append_not_xorBits, fun a => ⟨ones_append_not_xorBits a, BitVec.extractLsb'_append_eq_left⟩⟩

/-! ## The DDR command word (R212, R213) -/

/-- The command byte: the direction above the low seven bits of the command. -/
theorem cmdByte_fields (c : Byte) (rnw : Bool) :
    (if rnw then c ||| 0x80#8 else c &&& 0x7F#8).getLsbD 7 = rnw ∧
      (if rnw then c ||| 0x80#8 else c &&& 0x7F#8).extractLsb' 0 7 = c.extractLsb' 0 7 := by
  cases rnw with
  | false =>
    refine ⟨by simp, ?_⟩
    show (c &&& 0x7F#8).extractLsb' 0 7 = c.extractLsb' 0 7
    rw [BitVec.extractLsb'_and]
    exact BitVec.and_allOnes
  | true =>
    refine ⟨by simp, ?_⟩
    show (c ||| 0x80#8).extractLsb' 0 7 = c.extractLsb' 0 7
    rw [BitVec.extractLsb'_or]
    exact BitVec.or_zero

/-- The command word's fields lie above the bit `adjust` may flip. -/
theorem adjust_append_fields (x : Byte) (a : BusAddr) :
    (adjust (x ++ a ++ 0#1)).getLsbD 15 = x.getLsbD 7 ∧
      (adjust (x ++ a ++ 0#1)).extractLsb' 8 7 = x.extractLsb' 0 7 ∧
      (adjust (x ++ a ++ 0#1)).extractLsb' 1 7 = a := by
  refine ⟨?_, ?_, ?_⟩
  · rw [getLsbD_adjust (by decide), BitVec.getLsbD_append, BitVec.getLsbD_append]
    rfl
  · rw [extractLsb'_adjust (by decide), BitVec.extractLsb'_append_eq_of_le (by decide),
      BitVec.extractLsb'_append_eq_of_le (by decide)]
  · rw [extractLsb'_adjust (by decide), BitVec.extractLsb'_append_eq_of_le (by decide)]
    exact BitVec.extractLsb'_append_eq_right

/-- The frame, flat: preamble, word, PA1, PA0 (R144). -/
theorem cmdFrame_eq (w : DdrWord) :
    cmdFrame w = .dw 20 (0b01#2 ++ w ++ BitVec.ofBool (pa1 w) ++ BitVec.ofBool (pa0 w)) := by
  unfold cmdFrame ddrFrame parityPair
  rw [BitVec.append_assoc, BitVec.append_assoc]
  rfl

/-- Settles O26: the word is an adjusted one, so its fields are those of the command byte and the address, and the frame
ends with its parity pair, of which PA0 is 1. -/
theorem commandWordFields : Obligations.CommandWordFields := by
  intro a c rnw
  obtain ⟨htop, hlow⟩ := cmdByte_fields c rnw
  obtain ⟨hdir, hcmd, haddr⟩ := adjust_append_fields (if rnw then c ||| 0x80#8 else c &&& 0x7F#8) a
  have hpa0 : pa0 (cmdWord a c rnw) = true := pa0_adjust _
  refine ⟨hdir.trans htop, hcmd.trans hlow, haddr, hpa0, ?_⟩
  rw [cmdFrame_eq, hpa0]
  rfl

end Sys2Proof.Machine
end

section
namespace Sys2Proof.Machine

/-! ## The SDR table (R220) -/

theorem sdrTabEntry_even (b : Byte) : sdrTabEntry (2 * b.toNat) = sdrByteHi b := by
  rw [sdrTabEntry, if_pos (by omega), show 2 * b.toNat / 2 = b.toNat by omega, BitVec.ofNat_toNat,
    BitVec.setWidth_eq]

theorem sdrTabEntry_odd (b : Byte) : sdrTabEntry (2 * b.toNat + 1) = sdrByteLo b := by
  rw [sdrTabEntry, if_neg (by omega), show (2 * b.toNat + 1) / 2 = b.toNat by omega, BitVec.ofNat_toNat,
    BitVec.setWidth_eq]

/-- Settles O27: a ready state holds the table as initialisation built it. -/
theorem sdrTableEntries : Obligations.SdrTableEntries := by
  intro s b hs
  simp only [hs.table, sdrTable_getElem]
  exact ⟨sdrTabEntry_even b, sdrTabEntry_odd b⟩

end Sys2Proof.Machine
end

section
namespace Sys2Proof.Machine

/-! ## Refusals at entry: DDR mode and lengths (R230, R231, R262, R300, R301) -/

section refusals
variable {s : State} {i : Instr} {lb : Nat}

theorem sdrEntry_of_ddr (hm : s.mode = .ddr) (ok : Bool) (body : State → Run Unit) :
    sdrEntry ok body s = .done (s.finished .paramOutOfRange 0) :=
  if_pos hm

theorem pollBody_of_ddr (hm : s.mode = .ddr) : pollBody lb s = .done (s.finished .paramOutOfRange 0) :=
  if_pos hm

/-- POLL with a byte pending looks at its length next (R262). -/
theorem pollBody_of_pending (hm : s.mode = .sdr) (hv : s.arbpV = true) :
    pollBody lb s = if pollFits s.par lb then pollService lb s.arbpB s else finish .paramOutOfRange 0 s := by
  rw [pollBody, if_neg (by simp [hm]), if_pos hv]

/-- POLL with SDA low senses it, and looks at its length next (R262). -/
theorem pollBody_of_sdaLow (hm : s.mode = .sdr) (hv : s.arbpV = false) (hsda : s.sda = false) :
    pollBody lb s = if pollFits s.par lb then pollStartType lb (dropSda s)
      else finish .paramOutOfRange 0 (dropSda s) := by
  rw [pollBody, if_neg (by simp [hm]), if_neg (by simp [hv]), if_neg (by simp [hsda])]

/-- POLL on a free bus does not look at its length (R262). -/
theorem pollBody_of_free (hf : s.SdrFree) : pollBody lb s = .done ((dropSda s).finished .noIbi 0) := by
  rw [pollBody, if_neg (by simp [hf.mode]), if_neg (by simp [hf.noArb]), if_pos hf.sdaHigh]
  rfl

theorem sdrEntry_of_length (hf : s.SdrFree) {ok : Bool} (hl : ok = false) (body : State → Run Unit) :
    sdrEntry ok body s = .done ((dropSda s).finished .paramOutOfRange 0) := by
  rw [sdrEntry, if_neg (by simp [hf.mode]), if_neg (by simp [entryPending, hf.noArb, hf.sdaHigh]), if_pos hl,
    afterEntryPending, if_neg (by simp [hf.noArb])]
  rfl

theorem ddrEntry_of_length (hf : s.mode = .sdr → s.SdrFree) {ok : Bool} (hl : ok = false) (body : State → Run Unit) :
    ddrEntry ok body s = .done ((if s.mode = .sdr then dropSda s else s).finished .paramOutOfRange 0) := by
  by_cases hm : s.mode = .sdr
  · have hf := hf hm
    rw [ddrEntry, if_pos hm, if_neg (by simp [entryPending, hf.noArb, hf.sdaHigh]), if_pos hl,
      afterEntryPending, if_neg (by simp [hf.noArb]), if_pos hm]
    rfl
  · rw [ddrEntry, if_neg hm, if_pos hl, if_neg hm]
    rfl

/-- The model's length checks refuse what the statements' own ones do (R231). -/
theorem runOf_sdr_of_length (hf : s.SdrFree) (hc : i.sdrClass = true) (hp : i.isPoll = false)
    (hl : i.lengthsOk s.par = false) : runOf i s = .done ((dropSda s).finished .paramOutOfRange 0) := by
  cases i with
  | privateWrite | privateRead | cccBcastWrite | cccDirectWrite => exact sdrEntry_of_length hf hl _
  | privateWriteRead | cccDirectRead =>
    refine sdrEntry_of_length hf (Eq.trans ?_ hl) _
    simp [Instr.lengthsOk, txFits, bcFits, rxFits, Bool.and_assoc]
  | entdaa | rstdaa | checkAck | arbHeaderOnly => cases hl
  | poll => cases hp
  | ddrWrite | ddrRead | setDdrConfig | setClock | setDrive | targetReset => cases hc

theorem runOf_ddr_of_length (hf : s.mode = .sdr → s.SdrFree) (hc : i.ddrClass = true)
    (hl : i.lengthsOk s.par = false) :
    runOf i s = .done ((if s.mode = .sdr then dropSda s else s).finished .paramOutOfRange 0) := by
  cases i with
  | ddrWrite | ddrRead => exact ddrEntry_of_length hf hl _
  | privateWrite | privateRead | privateWriteRead | cccBcastWrite | cccDirectWrite | cccDirectRead | entdaa | rstdaa
  | checkAck | arbHeaderOnly | poll | setDdrConfig | setClock | setDrive | targetReset => cases hc

theorem exec_of_done {t : State} (h : runOf i s = .done t) : exec i s = .next t := by
  rw [exec_run, h]
  rfl

end refusals

/-- Settles O34: the mode is the first thing the entry check and POLL look at. -/
theorem sdrOperationInDdrMode : Obligations.SdrOperationInDdrMode := by
  intro i s hc hm
  cases i with
  | privateWrite | privateRead | privateWriteRead | cccBcastWrite | cccDirectWrite | cccDirectRead | entdaa | rstdaa
  | checkAck | arbHeaderOnly => exact exec_of_done (sdrEntry_of_ddr hm _ _)
  | poll => exact exec_of_done (pollBody_of_ddr hm)
  | ddrWrite | ddrRead | setDdrConfig | setClock | setDrive | targetReset => cases hc

/-- Settles O36: the length is looked at last, before the body runs; each class has its own entry check. -/
theorem lengthRefuses : Obligations.LengthRefuses := by
  refine fun i s hl => ⟨fun hc hp hf => exec_of_done (runOf_sdr_of_length hf hc hp hl), fun hp hm => ?_,
    fun hc hf => ?_, fun hc hm => ?_⟩
  · cases i with
    | poll lb =>
      have hfits : ¬ pollFits s.par lb = true := ne_true_of_eq_false hl
      refine ⟨fun hv => exec_of_done ?_, fun hv hsda => exec_of_done ?_⟩
      · exact (pollBody_of_pending hm hv).trans (if_neg hfits)
      · exact (pollBody_of_sdaLow hm hv hsda).trans (if_neg hfits)
    | privateWrite | privateRead | privateWriteRead | cccBcastWrite | cccDirectWrite | cccDirectRead | entdaa | rstdaa
    | checkAck | arbHeaderOnly | ddrWrite | ddrRead | setDdrConfig | setClock | setDrive | targetReset => cases hp
  · exact exec_of_done ((runOf_ddr_of_length (fun _ => hf) hc hl).trans (by rw [if_pos hf.mode]))
  · have hsdr : ¬ s.mode = .sdr := by simp [hm]
    exact exec_of_done ((runOf_ddr_of_length (fun h => absurd h hsdr) hc hl).trans (by rw [if_neg hsdr]))

/-! ## The submit (R232, R408) -/

/-- Settles O5: the access is taken from the host's list and the words decoded; a stuck operation has not left the frame
of `State.Within`. -/
theorem stepRunsTheDecodedOperation : Obligations.StepRunsTheDecodedOperation := by
  intro s w rest i hb hs hd
  have hstep : step s = submit { s with host := rest, desc1 := w } :=
    (step_of_host hs).trans (if_neg (ne_true_of_eq_false hb))
  refine ⟨fun hx => hstep.trans (submit_exec hd hx), fun hi hx => ?_⟩
  have hbegin := (hi.ready hb).begin rest s.desc0 w
  obtain ⟨u, hu⟩ := stuckIn_of_exec hbegin hx
  obtain ⟨m, v, hin⟩ := stuckIn_within hbegin.toSound hu
  exact ⟨u, hstep.trans (submit_stuck hd hu), hin.busy, hin.host, hin.desc0, hin.desc1, hin.res0, hin.res0Valid, hin.par⟩

end Sys2Proof.Machine
end

section
namespace Sys2Proof.Machine

/-! ## SDR transfers that complete (R240 to R256) -/

section transfers
variable {i : Instr} {s t v : State} {cs : List CpCmd} {a : BusAddr} {rnw : Bool} {body : State → Run Unit}
  {D : State → Prop} {j n max : Nat}

/-- An SDR-class operation that passes its entry check and whose header is ACKed comes to an end of its body past the
header. -/
theorem exec_of_headerAck (hack : s.HeaderAck) (hrun : runOf i s = body (dropSda s))
    (hpost : (body (dropSda s)).Post true (fun _ _ => False) fun v =>
      (dropSda s.settle).PrologueEnds v ∨ ((dropSda s.settle).HeaderAck ∧ D v)) :
    ∃ t v, exec i s = .next t ∧ D v ∧ t.SettlesTo v := by
  obtain ⟨t, v, hnext, hp | ⟨-, hv⟩, ht⟩ := outcome_settles hpost
  · exact (hack.not_ends hp).elim
  · exact ⟨t, v, by rw [exec_run, hrun, hnext], hv, ht⟩

/-- Where the first address is ACKed too, it is an end past the address. -/
theorem exec_of_addressAck (hack : s.HeaderAck) (haddr : isAck (s.answer 2) = true) (hcs : sampledIn cs = 2)
    (hrun : runOf i s = body (dropSda s))
    (hpost : (body (dropSda s)).Post true (fun _ _ => False) fun v =>
      (dropSda s.settle).PrologueEnds v ∨ ((dropSda s.settle).HeaderAck ∧
        ((dropSda s.settle).AddrNack cs a rnw v ∨ (isAck ((dropSda s.settle).answer 2) = true ∧ D v)))) :
    ∃ t v, exec i s = .next t ∧ D v ∧ t.SettlesTo v := by
  obtain ⟨t, v, hnext, hnack | ⟨-, hv⟩, ht⟩ := exec_of_headerAck hack hrun hpost
  · exact (not_addrNack (by rw [hcs]; exact haddr) hnack).elim
  · exact ⟨t, v, hnext, hv, ht⟩

/-- `readStops_ends` with the answers counted from `j`. -/
theorem readStops_ends_at (hr : s.Ready) (hcs : sampledIn cs = j) (hE : s.ReadEnds j n max)
    (h : (dropSda s.settle).ReadStops cs max 0 v) (ht : t.SettlesTo v) :
    s.SdrEnds t (cs ++ readCmds n max ++ [.stop]) .ok n ∧ s.RxbHolds t n (fun k => readByte (s.answer (j + k))) ∧
      s.ArbSame t := by
  subst hcs
  exact readStops_ends hr hE h ht

theorem sampledIn_header_bytes (m : Memory) (i n : Nat) : sampledIn (headerCmds ++ bytesCmds m i n) = 2 := by
  simp

end transfers

/-- Settles O39: past the ACKed address the body writes and stops. -/
theorem privateWriteCompletes : Obligations.PrivateWriteCompletes := by
  intro s a la hs hf hla hack haddr
  obtain ⟨t, v, hnext, rfl, ht⟩ := exec_of_addressAck (i := .privateWrite a la) hack haddr rfl
    (sdrEntry_free hf _ _ (decide_eq_true hla))
    (privateWriteBody_post hs.follows.dropSda hf.mode hs.ready.table a la hla)
  exact ⟨t, hnext, plain_ends hs.ready ht⟩

/-- Settles O40: past the ACKed address the body reads to the one end of its answers. -/
theorem privateReadCompletes : Obligations.PrivateReadCompletes := by
  intro s a lb n hs hf h1 hlb hack haddr hread
  obtain ⟨t, v, hnext, hstops, ht⟩ := exec_of_addressAck (i := .privateRead a lb) hack haddr rfl
    (sdrEntry_free hf _ _ (decide_eq_true ⟨h1, hlb⟩)) (privateReadBody_post hs.follows.dropSda hf.mode a lb h1 hlb)
  exact ⟨t, hnext, readStops_ends_at hs.ready rfl hread hstops ht⟩

/-- Settles O41: past both ACKed addresses only the read is left. -/
theorem privateWriteReadCompletes : Obligations.PrivateWriteReadCompletes := by
  intro s a la lb n hs hf hla h1 hlb hack haddr haddr' hread
  obtain ⟨t, v, hnext, ht, hnack | ⟨-, hstops⟩⟩ := privateWriteRead_ends hs hf a hla h1 hlb hack haddr
  · refine (not_addrNack ?_ hnack).elim
    rw [sampledIn_append, sampledIn_bytesCmds]
    exact haddr'
  · refine ⟨t, hnext, readStops_ends_at hs.ready ?_ hread hstops ht⟩
    rw [sampledIn_append, sampledIn_append, sampledIn_bytesCmds]
    rfl

/-- Settles O43: past the ACKed header the body has one end. -/
theorem cccBcastWriteCompletes : Obligations.CccBcastWriteCompletes := by
  intro s la hs hf h1 hla hack
  obtain ⟨t, v, hnext, rfl, ht⟩ := exec_of_headerAck (i := .cccBcastWrite la) hack
    (sdrEntry_free hf _ _ (decide_eq_true ⟨h1, hla⟩))
    (cccBcastWriteBody_post hs.follows.dropSda hf.mode hs.ready.table la hla)
  exact ⟨t, hnext, plain_ends hs.ready ht⟩

/-- Settles O44: the broadcast bytes use no answer, so the address has the same one as after the header. -/
theorem cccDirectWriteCompletes : Obligations.CccDirectWriteCompletes := by
  intro s a la lb hs hf h1 hlen hack haddr
  obtain ⟨t, v, hnext, rfl, ht⟩ := exec_of_addressAck (i := .cccDirectWrite a la lb) hack haddr
    (sampledIn_header_bytes _ _ _) (sdrEntry_free hf _ _ (decide_eq_true ⟨h1, hlen⟩))
    (cccDirectWriteBody_post hs.follows.dropSda hf.mode hs.ready.table a la lb hlen)
  exact ⟨t, hnext, plain_ends hs.ready ht⟩

/-- Settles O45: up to the address as CCC_DIRECT_WRITE, and after it as PRIVATE_READ. -/
theorem cccDirectReadCompletes : Obligations.CccDirectReadCompletes := by
  intro s a la lb n hs hf h0 hla h1 hlb hack haddr hread
  obtain ⟨t, v, hnext, hstops, ht⟩ := exec_of_addressAck (i := .cccDirectRead a la lb) hack haddr
    (sampledIn_header_bytes _ _ _) (sdrEntry_free hf _ _ (by simp [bcFits, rxFits, h0, hla, h1, hlb]))
    (cccDirectReadBody_post hs.follows.dropSda hf.mode hs.ready.table a la lb hla h1 hlb)
  refine ⟨t, hnext, readStops_ends_at hs.ready ?_ hread hstops ht⟩
  rw [sampledIn_append, sampledIn_header_bytes]
  rfl

/-- Settles O46: past the ACKed 7E/R the body stores the eight ID bytes, whatever the answer to the address. -/
theorem entdaaCompletes : Obligations.EntdaaCompletes := by
  intro s a hs hf hack haddr
  obtain ⟨-, -, -, -, hrx, -⟩ := lawful_sizes hs.ready.par
  obtain ⟨t, v, hnext, rfl, ht⟩ := exec_of_addressAck (i := .entdaa a) hack haddr rfl (sdrEntry_free hf _ _ rfl)
    (entdaaBody_post hs.follows.dropSda hf.mode hs.ready.table a hrx)
  obtain ⟨hends, hrxb, hvalid, harb⟩ := stored_ends hs.ready ht
  refine ⟨t, hnext, hends, rxbHolds_of hs.ready rfl (by decide) (fun k hk => ?_) hrxb hvalid, harb⟩
  simp only [State.idList, List.getElem_map, List.getElem_range]
  rfl

/-- Settles O47: each of the three bodies has one end past its ACKs. -/
theorem probesComplete : Obligations.ProbesComplete := by
  refine fun s hs hf hack => ⟨?_, ?_, fun a haddr => ?_⟩
  · obtain ⟨t, v, hnext, rfl, ht⟩ := exec_of_headerAck (i := .rstdaa) hack (sdrEntry_free hf _ _ rfl)
      (rstdaaBody_post hs.follows.dropSda hf.mode hs.ready.table)
    exact ⟨t, hnext, plain_ends hs.ready ht⟩
  · obtain ⟨t, v, hnext, rfl, ht⟩ := exec_of_headerAck (i := .arbHeaderOnly) hack (sdrEntry_free hf _ _ rfl)
      (arbHeaderOnlyBody_post hs.follows.dropSda hf.mode)
    exact ⟨t, hnext, plain_ends hs.ready ht⟩
  · obtain ⟨t, v, hnext, rfl, ht⟩ := exec_of_addressAck (i := .checkAck a) hack haddr rfl (sdrEntry_free hf _ _ rfl)
      (checkAckBody_post hs.follows.dropSda hf.mode a)
    exact ⟨t, hnext, plain_ends hs.ready ht⟩

end Sys2Proof.Machine
end

section
namespace Sys2Proof.Machine

/-! ## POLL that completes (R262) -/

section poll
variable {s t v : State} {cs : List CpCmd} {bs : List Byte} {b : Byte} {st : Status} {lb m n : Nat} {f : Nat → Byte}

/-- A state whose draws of SDA, after one sense, are those POLL leaves: POLL with a byte pending senses nothing (R178),
which is one sense where one draw more was to come. -/
def State.pollSensing (s : State) : State := if s.arbpV then { s with sdaIn := true :: s.sdaIn } else s

theorem pollSensing_of_pending (hv : s.arbpV = true) : s.pollSensing = { s with sdaIn := true :: s.sdaIn } := if_pos hv

theorem pollSensing_of_none (hv : s.arbpV = false) : s.pollSensing = s := if_neg (by simp [hv])

theorem pollSensing_field {α : Type} (g : State → α) (h : ∀ l, g { s with sdaIn := l } = g s) :
    g s.pollSensing = g s := by
  unfold State.pollSensing
  split
  · exact h _
  · rfl

theorem dropSda_pollSensing (s : State) : dropSda s.pollSensing = afterEntryPending s := by
  unfold State.pollSensing afterEntryPending
  split <;> rfl

theorem State.Ready.pollSensing (h : s.Ready) : s.pollSensing.Ready := by
  unfold State.pollSensing
  split
  · exact ⟨⟨h.prog, h.arb, h.table, h.clk, h.drive, h.width, h.par, h.txbWf, h.rxbWf, h.defined, h.cmdFits, h.rspFits⟩,
      ⟨h.quiet.cmdq, h.quiet.rspq, h.quiet.atStart⟩⟩
  · exact h

/-- With no byte pending POLL ends as an operation that senses SDA once. -/
theorem State.SdrEnds.pollEnds_of_none (hv : s.arbpV = false) (h : s.SdrEnds t cs st n) : s.PollEnds t cs st n :=
  ⟨h.finished, h.drove, h.width, h.frame, fun _ => h.sensed, fun hp => absurd (hp.symm.trans hv) (by decide)⟩

theorem State.SdrEnds.pollEnds (h : s.pollSensing.SdrEnds t cs st n) : s.PollEnds t cs st n := by
  cases hv : s.arbpV with
  | false => exact (pollSensing_of_none hv ▸ h).pollEnds_of_none hv
  | true =>
    rw [pollSensing_of_pending hv] at h
    obtain ⟨finished, drove, width, frame, sensed⟩ := h
    exact ⟨finished, ⟨drove.trace, drove.wire, drove.bus, drove.used⟩, width,
      ⟨frame.mode, frame.ddrCfg, frame.clkKhz, frame.driveMa, frame.sdrTab, frame.crc, frame.desc0, frame.desc1,
        frame.txb, frame.cpProg, frame.par, frame.host, frame.hostData⟩,
      fun hno => absurd (hno.symm.trans hv) (by decide), fun _ => ⟨sensed.sdaIn, sensed.sdaDraws⟩⟩

/-- The settled state in which POLL takes its byte. -/
def State.pollStart (s : State) : State := (afterEntryPending s).settle

theorem pollStart_of_pending (hv : s.arbpV = true) : s.pollStart = s.settle := by
  rw [State.pollStart, afterEntryPending, if_pos hv]

theorem pollStart_of_none (hv : s.arbpV = false) : s.pollStart = dropSda s.settle := by
  rw [State.pollStart, afterEntryPending, if_neg (by simp [hv])]
  rfl

@[simp] theorem pollStart_answer (s : State) (k : Nat) : s.pollStart.answer k = s.answer k := by
  unfold State.pollStart afterEntryPending
  split <;> rfl

/-- Taking the byte and driving commands do not meet. -/
theorem play_polled (u : State) (b : Byte) (cs : List CpCmd) :
    (u.polled b).play cs = { u.play cs with arbpV := false }.stored 0 [b] := by
  rw [State.polled, play_stored, play_clearArb]

/-- The arbitration byte and the payload behind it lie in RXB from index 0 (R262). -/
theorem play_polled_stored (u : State) (b : Byte) (cs : List CpCmd) (bs : List Byte) :
    ((u.polled b).play cs).stored 1 bs = { u.play cs with arbpV := false }.stored 0 (b :: bs) := by
  rw [play_polled]
  exact stored_stored _ 0 [b] bs

/-- The end of an operation that cleared the pending byte and stored `bs`, from its settled state. -/
theorem cleared_ends (hr : s.Ready)
    (h : t.SettlesTo (({ (dropSda s.settle).play cs with arbpV := false }.stored 0 bs).finished st n)) :
    s.SdrEnds t cs st n ∧ t.rxb = s.rxb.writeList 0 bs ∧
      t.rxbValid = (if bs = [] then s.rxbValid else 0 + bs.length) ∧ t.arbpV = false ∧ t.arbpB = s.arbpB := by
  obtain ⟨hends, hrxb, hvalid, hv, hb⟩ := sdrEnds_of (cs := cs) (m := ((dropSda s.settle).play cs).rxb.writeList 0 bs)
    (k := if bs = [] then ((dropSda s.settle).play cs).rxbValid else 0 + bs.length) (v := false)
    (b := ((dropSda s.settle).play cs).arbpB) hr h
  rw [play_rxb] at hrxb
  rw [play_rxbValid] at hvalid
  exact ⟨hends, hrxb, hvalid, hv, hb.trans play_arbpB⟩

/-- The end of POLL that took a byte and stored `bs`, from its settled state. -/
theorem polled_ends (hr : s.Ready) (hl : bs.length = m) (h1 : 1 ≤ m) (hf : ∀ k (h : k < bs.length), bs[k] = f k)
    (h : t.SettlesTo (({ s.pollStart.play cs with arbpV := false }.stored 0 bs).finished st n)) :
    s.PollEnds t cs st n ∧ s.RxbHolds t m f ∧ t.arbpV = false ∧ t.arbpB = s.arbpB := by
  have hstart : s.pollStart = dropSda s.pollSensing.settle := by rw [State.pollStart, ← dropSda_pollSensing]; rfl
  rw [hstart] at h
  obtain ⟨hends, hrxb, hvalid, hv, hb⟩ := cleared_ends hr.pollSensing h
  rw [pollSensing_field State.rxb fun _ => rfl] at hrxb
  rw [pollSensing_field State.rxbValid fun _ => rfl] at hvalid
  rw [pollSensing_field State.arbpB fun _ => rfl] at hb
  exact ⟨hends.pollEnds, rxbHolds_of hr hl h1 hf hrxb hvalid, hv, hb⟩

/-- A read ends by the answers alone (R177). -/
theorem State.ReadEnds.congr {u : State} {j max : Nat} (hans : ∀ k, u.answer k = s.answer k)
    (h : u.ReadEnds j n max) : s.ReadEnds j n max :=
  ⟨h.pos, h.le, fun k hk => hans _ ▸ h.continues k hk, h.ends.imp id fun e => hans _ ▸ e⟩

/-- POLL with a length that fits serves the byte it takes (`pollBody_serves`), with SDA sensed only where no byte was
pending (R178, R262). -/
theorem exec_poll_serves (hs : s.Runs) (h1 : 1 ≤ lb) (hlb : lb + 1 ≤ s.par.rxbufBytes) (htakes : s.PollTakes cs b) :
    ∃ t v, exec (.poll lb) s = .next t ∧ s.pollStart.PollServes cs lb b v ∧ t.SettlesTo v := by
  have hfits : pollFits s.par lb = true := decide_eq_true ⟨h1, hlb⟩
  obtain ⟨hm, ⟨hv, rfl, rfl⟩ | ⟨hv, hsda, hlost, rfl, rfl⟩⟩ := htakes
  · rw [exec_run, runOf, runPoll, pollBody_of_pending hm hv, if_pos hfits, pollStart_of_pending hv]
    exact outcome_settles (pollService_post (cs := []) hs.follows hm lb s.arbpB h1 hlb)
  · rw [exec_run, runOf, runPoll, pollBody_of_sdaLow hm hv hsda, if_pos hfits, pollStart_of_none hv]
    obtain ⟨t, v, hnext, ⟨hwon, -⟩ | ⟨-, hserves⟩, ht⟩ :=
      outcome_settles (pollStartType_post hs.follows.dropSda hm lb h1 hlb)
    · exact absurd (hlost.symm.trans hwon) (by decide)
    · exact ⟨t, v, hnext, hserves, ht⟩

end poll

/-- Settles O49: the direction bit leaves the read as the only service, with the one length of its answers. -/
theorem pollServicesIbi : Obligations.PollServicesIbi := by
  intro s lb n cs b hs h1 hlb htakes hdir hread
  obtain ⟨t, v, hnext, ⟨-, k, hk, rfl⟩ | ⟨hno, -⟩, ht⟩ := exec_poll_serves hs h1 hlb htakes
  · obtain rfl := (hk.congr (pollStart_answer s)).unique hread
    have hlen : (b :: s.pollStart.readList (sampledIn cs + 1) k).length = 1 + k := by
      rw [List.length_cons, readList_length, Nat.add_comm]
    rw [play_polled_stored] at ht
    refine ⟨t, hnext, polled_ends hs.ready hlen (by omega) (fun j hj => ?_) ht⟩
    cases j with
    | zero => rfl
    | succ j => simp [State.readList, Nat.add_assoc, Nat.add_comm 1 j]
  · exact absurd (hno.symm.trans hdir) (by decide)

/-- Settles O50: the direction bit leaves the answer to a request without payload. -/
theorem pollServicesOthers : Obligations.PollServicesOthers := by
  intro s lb cs b hs h1 hlb htakes hdir
  obtain ⟨t, v, hnext, ⟨hyes, -⟩ | ⟨-, rfl⟩, ht⟩ := exec_poll_serves hs h1 hlb htakes
  · exact absurd (hyes.symm.trans hdir) (by decide)
  · rw [play_polled] at ht
    refine ⟨t, hnext, polled_ends hs.ready rfl (Nat.le_refl 1) (fun k hk => ?_) ht⟩
    simp

/-- Settles O51: on a free bus nothing is driven, and a won header is a spurious request. -/
theorem pollFindsNothing : Obligations.PollFindsNothing := by
  refine fun s lb => ⟨fun hf => exec_of_done (pollBody_of_free hf), fun hs hm hv hsda h1 hlb hwon => ?_⟩
  have hfits : pollFits s.par lb = true := decide_eq_true ⟨h1, hlb⟩
  rw [exec_run, runOf, runPoll, pollBody_of_sdaLow hm hv hsda, if_pos hfits]
  obtain ⟨t, v, hnext, ⟨-, rfl⟩ | ⟨hlost, -⟩, ht⟩ :=
    outcome_settles (pollStartType_post hs.follows.dropSda hm lb h1 hlb)
  · obtain ⟨hends, hrxb, harb⟩ := plain_ends hs.ready ht
    exact ⟨t, hnext, hends.pollEnds_of_none hv, hrxb, harb⟩
  · exact absurd (hlost.symm.trans hwon) (by decide)

end Sys2Proof.Machine
end

section
namespace Sys2Proof.Machine

/-! ## HDR-DDR messages that start (R300, R303, R304) -/

section message
variable {i : Instr} {s t v : State} {body : State → Run Unit} {D : State → Prop} {ok fwr : Bool} {st : Status}

/-- A DDR-class operation that passes its entry check and, from SDR mode, has its header ACKed comes to an end of its
message. -/
theorem exec_of_entersDdr (he : s.EntersDdr) (hok : ok = true) (hrun : runOf i s = ddrEntry ok body s)
    (hpost : (body (if s.mode = .sdr then dropSda s else s)).Post true (fun _ _ => False) fun v =>
      (s.ddrStart.mode = .sdr ∧ s.ddrStart.PrologueEnds v) ∨ ((s.ddrStart.mode = .sdr → s.ddrStart.HeaderAck) ∧ D v)) :
    ∃ t v, exec i s = .next t ∧ D v ∧ t.SettlesTo v := by
  obtain ⟨t, v, hnext, hp | ⟨-, hv⟩, ht⟩ := outcome_settles hpost
  · exact (not_prologue he hp).elim
  · exact ⟨t, v, by rw [exec_run, hrun, exec_ddr he hok, hnext], hv, ht⟩

theorem exec_ddrWrite_ends (hs : s.Runs) (he : s.EntersDdr) (a : BusAddr) (c : Byte) (fwr : Bool) {la : Nat}
    (hla : 2 * la ≤ s.par.txbufBytes) :
    ∃ t v, exec (.ddrWrite a c fwr la) s = .next t ∧ s.ddrStart.DdrWriteEnds a c fwr la v ∧ t.SettlesTo v := by
  obtain ⟨htab, hpar, -⟩ := start_ddr hs
  exact exec_of_entersDdr he (decide_eq_true hla) rfl
    (ddrWriteBody_post (ddrStart_follows hs) htab a c fwr la (hpar ▸ hla))

theorem exec_ddrRead_ends (hs : s.Runs) (he : s.EntersDdr) (a : BusAddr) (c : Byte) (fwr : Bool) {lb : Nat}
    (h1 : 1 ≤ lb) (hlb : 2 * lb ≤ s.par.rxbufBytes) :
    ∃ t v, exec (.ddrRead a c fwr lb) s = .next t ∧ s.ddrStart.DdrReadEnds a c fwr lb v ∧ t.SettlesTo v := by
  obtain ⟨htab, hpar, -⟩ := start_ddr hs
  exact exec_of_entersDdr he (decide_eq_true ⟨h1, hlb⟩) rfl
    (ddrReadBody_post (ddrStart_follows hs) htab a c fwr lb h1 (hpar ▸ hlb))

/-- Only an Ok message can leave the bus in HDR-DDR (R330). -/
theorem closeCmd_of_ne_ok (h : st ≠ .ok) (fwr : Bool) : closeCmd fwr st = .hexit := if_neg fun hc => h hc.2

theorem closeMode_of_ne_ok (h : st ≠ .ok) (fwr : Bool) : closeMode fwr st = .sdr := if_neg fun hc => h hc.2

end message

/-! ## DDR_WRITE (R310 to R312) -/

/-- The status with which the target stops a write at word `n` (R311). -/
abbrev stopStatus (n : Nat) : Status := if n = 0 then .nakDdr else .ddrEarlyTermination

theorem stopStatus_ne_ok (n : Nat) : stopStatus n ≠ .ok := by
  unfold stopStatus
  split <;> decide

/-- The CRC word closes over the command word and the words sent (R146, R201). -/
theorem crcFrame_message (u : State) (m : Memory) (a : BusAddr) (c : Byte) (n : Nat) :
    crcFrame (crcThrough m (u.commanded a c false).crc 0 n) = crcWordCmd (txCrc m (cmdWord a c false) n) := rfl

/-- The CRC word behind a stopped write (R312). -/
theorem crcCmds_of_stop (crcEt : Bool) (n : Nat) (x : BitVec 5) :
    (if ddrSendsCrc crcEt (stopStatus n) then [crcWordCmd x] else []) = stopCrcCmds crcEt n x := by
  cases n <;> cases crcEt <;> rfl

/-- Settles O52: the target's answers leave the loop that sends every word, and an Ok message has its CRC word. -/
theorem ddrWriteCompletes : Obligations.DdrWriteCompletes := by
  intro s a c fwr la hs he hla hgoes
  obtain ⟨-, -, htxb, hcfg, -⟩ := start_ddr hs
  obtain ⟨t, v, hnext, ⟨r, w, hwrote, rfl⟩, ht⟩ := exec_ddrWrite_ends hs he a c fwr hla
  rw [hcfg] at hwrote ht
  obtain ⟨-, rfl, rfl⟩ | ⟨k, hk, hstops, -⟩ := hwrote
  · rw [commanded_txb, htxb, Nat.zero_add, play_withCrc, play_play, withCrc_crc, crcFrame_message] at ht
    refine ⟨t, hnext, ?_⟩
    simpa [ddrSendsCrc] using write_ends hs ht
  · exact (goes_stops hgoes hk ((stops_iff hs ..).1 hstops)).elim

/-- Settles O53: the target stops the words at one word only. -/
theorem ddrWriteStops : Obligations.DdrWriteStops := by
  intro s a c fwr la n hs he hla hn hstops
  obtain ⟨-, -, htxb, hcfg, -⟩ := start_ddr hs
  obtain ⟨t, v, hnext, ⟨r, w, hwrote, rfl⟩, ht⟩ := exec_ddrWrite_ends hs he a c fwr hla
  rw [hcfg] at hwrote ht
  obtain ⟨hgoes, -⟩ | ⟨k, -, hstops', rfl, rfl⟩ := hwrote
  · exact (goes_stops ((goes_iff hs ..).1 hgoes) hn hstops).elim
  · obtain rfl := stops_unique ((stops_iff hs ..).1 hstops') hstops
    rw [commanded_txb, htxb, Nat.zero_add, play_withCrc, play_play, withCrc_crc, crcFrame_message,
      crcCmds_of_stop] at ht
    have hends := write_ends hs ht
    rw [closeCmd_of_ne_ok (stopStatus_ne_ok k), closeMode_of_ne_ok (stopStatus_ne_ok k)] at hends
    refine ⟨t, hnext, ?_⟩
    simpa [List.append_assoc] using hends

/-! ## Where DDR_READ stops (R321) -/

section read
variable {s t u w : State} {a : BusAddr} {c : Byte} {fwr : Bool} {lb m n : Nat} {x : Nat → Word32} {r : ReadEnd}

/-- How the read loop begun in `u` ends once `n` words are stored, with what it says and where it leaves off (R321). -/
inductive State.DdrStopsRead (u : State) (x : Nat → Word32) (lb n : Nat) : ReadEnd → State → Prop
  | full (hn : n = lb) : u.DdrStopsRead x lb n ⟨.ok, n, false⟩ (u.rxGot x 0 n [])
  | crcWord (hn : n < lb) (hpos : 0 < n) (hpre : (x (2 * n)).extractLsb' 10 2 = 0b01#2) :
    u.DdrStopsRead x lb n ⟨if rxCrc (x (2 * n)) = rxCrcFrom x u.crc 0 n then .ok else .ddrCrcWrong, n, true⟩
      (u.rxGot x 0 n [.dr 12])
  | preamble (hn : n < lb) (hpos : 0 < n) (hdata : (x (2 * n)).extractLsb' 10 2 ≠ 0b11#2)
    (hcrc : (x (2 * n)).extractLsb' 10 2 ≠ 0b01#2) :
    u.DdrStopsRead x lb n ⟨.ddrInvalidPreamble, n, false⟩ (u.rxGot x 0 n [.dr 12])
  | parity (hn : n < lb) (hcomes : rxComes x n) (hbad : rxParityOk (rxBits x n) = false) :
    u.DdrStopsRead x lb n ⟨.ddrParityWrong, n, false⟩
      ((u.rxGot x 0 n (if n = 0 then [.dr 2, .dr 18] else [.dr 12, .dr 8])).withCrc
        (crc5Word (rxCrcFrom x u.crc 0 n) (rxData x n)))

/-- The cases of `got_at`, by name. -/
theorem ddrStopsRead_of_got (hx : ∀ k, x k = s.answer (s.enterAnswers + k))
    (hg : (s.ddrStart.commanded a c true).DdrGot (s.ddrStart.commanded a c true).answer 0 lb r w) :
    ∃ m, rxIntact x m ∧ (s.ddrStart.commanded a c true).DdrStopsRead x lb m r w := by
  obtain ⟨m, -, hint, hn, hend⟩ := got_at hx hg
  refine ⟨m, hint, ?_⟩
  obtain ⟨st, k, seen⟩ := r
  obtain rfl : k = m := hn
  obtain ⟨hm, hst, hseen, rfl⟩ | ⟨hm, hpos, hpre, hst, hseen, rfl⟩ | ⟨hm, hpos, hdata, hcrc, hst, hseen, rfl⟩ |
    ⟨hm, hcomes, hbad, hst, hseen, rfl⟩ := hend <;> cases hst <;> cases hseen
  · exact .full hm
  · exact .crcWord hm hpos hpre
  · exact .preamble hm hpos hdata hcrc
  · exact .parity hm hcomes hbad

/-- A read does not go on past word `n`: the buffer is full, no word is announced, or its parity is wrong. -/
def RxEnds (x : Nat → Word32) (lb n : Nat) : Prop := n = lb ∨ ¬ rxComes x n ∨ rxParityOk (rxBits x n) = false

theorem not_rxComes_of_preamble (hpos : 0 < n) (h : (x (2 * n)).extractLsb' 10 2 ≠ 0b11#2) : ¬ rxComes x n :=
  fun hc => h ((comes_pos hpos).1 hc)

theorem not_rxComes_of_crcWord (hpos : 0 < n) (h : (x (2 * n)).extractLsb' 10 2 = 0b01#2) : ¬ rxComes x n :=
  not_rxComes_of_preamble hpos (by rw [h]; decide)

theorem State.DdrStopsRead.le (h : u.DdrStopsRead x lb n r w) : n ≤ lb := by
  cases h <;> omega

theorem State.DdrStopsRead.rxEnds (h : u.DdrStopsRead x lb n r w) : RxEnds x lb n := by
  cases h with
  | full hn => exact .inl hn
  | crcWord _ hpos hpre => exact .inr (.inl (not_rxComes_of_crcWord hpos hpre))
  | preamble _ hpos hdata _ => exact .inr (.inl (not_rxComes_of_preamble hpos hdata))
  | parity _ _ hbad => exact .inr (.inr hbad)

/-- Intact words are read up to the one where the read ends. -/
theorem RxEnds.intact_le (h : RxEnds x lb m) (hn : n ≤ lb) (hint : rxIntact x n) : n ≤ m := by
  by_contra hlt
  have hm : m < n := by omega
  exact h.elim (fun e => by omega) (intact_not hint hm)

/-- DDR_READ stops at the one word where its answers end it. -/
theorem exec_ddrRead_stops (hs : s.Runs) (he : s.EntersDdr) (a : BusAddr) (c : Byte) (fwr : Bool) (h1 : 1 ≤ lb)
    (hlb : 2 * lb ≤ s.par.rxbufBytes) (hx : ∀ k, x k = s.answer (s.enterAnswers + k)) (hack : rxComes x 0) (hn : n ≤ lb)
    (hint : rxIntact x n) (hend : RxEnds x lb n) :
    ∃ t r w, exec (.ddrRead a c fwr lb) s = .next t ∧ (s.ddrStart.commanded a c true).DdrStopsRead x lb n r w ∧
      t.SettlesTo ((w.play (termCmds s.ddrCfg.crcEt r)).closed fwr (termStatus w r) r.n) := by
  obtain ⟨-, -, -, hcfg, -⟩ := start_ddr hs
  obtain ⟨t, v, hnext, ⟨r, w, ⟨hnack, -⟩ | ⟨-, hgot⟩, rfl⟩, ht⟩ := exec_ddrRead_ends hs he a c fwr h1 hlb
  · rw [commanded_answer, ← hx] at hnack
    exact absurd (hnack.symm.trans hack) (by decide)
  · obtain ⟨m, hintm, hstops⟩ := ddrStopsRead_of_got hx hgot
    obtain rfl : m = n := Nat.le_antisymm (hend.intact_le hstops.le hintm) (hstops.rxEnds.intact_le hn hint)
    exact ⟨t, r, w, hnext, hstops, hcfg ▸ ht⟩

/-! ### What ends the message (R320, R322, R323) -/

theorem termCmds_of_seen (crcEt : Bool) (st : Status) (n : Nat) : termCmds crcEt ⟨st, n, true⟩ = [] :=
  if_neg fun ⟨_, hseen⟩ => nomatch hseen

theorem termCmds_of_nack (crcEt : Bool) (n : Nat) : termCmds crcEt ⟨.nakDdr, n, false⟩ = [] :=
  if_neg fun ⟨hst, _⟩ => hst rfl

theorem termCmds_of_not_seen (crcEt : Bool) {st : Status} (hst : st ≠ .nakDdr) (n : Nat) :
    termCmds crcEt ⟨st, n, false⟩ = ddrTermCmds crcEt := if_pos ⟨hst, rfl⟩

/-- A trailing CRC is judged only where none came and the words were good. -/
theorem termStatus_eq_st (u : State) {st : Status} (h : st ≠ .ok) (n : Nat) (seen : Bool) :
    termStatus u ⟨st, n, seen⟩ = st := if_neg fun ⟨hst, _⟩ => h hst

theorem termStatus_of_seen (u : State) (st : Status) (n : Nat) : termStatus u ⟨st, n, true⟩ = st :=
  if_neg fun ⟨_, hseen, _⟩ => nomatch hseen

/-- Two answers are used for each word read (R147). -/
theorem sampledIn_rxCmdsFrom (n m : Nat) : sampledIn (rxCmdsFrom n m) = 2 * m := by
  induction m generalizing n with
  | zero => rfl
  | succ m ih =>
    rw [rxCmdsFrom_succ, sampledIn_append, ih]
    split <;> simp [sampledIn, CpCmd.width] <;> omega

theorem rxGot_answer (u : State) (x : Nat → Word32) (n k : Nat) :
    (u.rxGot x 0 n []).answer k = u.answer (2 * n + k) := by
  unfold State.rxGot
  rw [withCrc_answer, stored_answer, play_answer, List.append_nil, sampledIn_rxCmdsFrom]

theorem rxGot_ddrCfg (u : State) (x : Nat → Word32) (n : Nat) (more : List CpCmd) :
    (u.rxGot x 0 n more).ddrCfg = u.ddrCfg := play_ddrCfg

/-- With no word read yet nothing is stored and the CRC is as it was. -/
theorem rxGot_zero (u : State) (x : Nat → Word32) (more : List CpCmd) : u.rxGot x 0 0 more = u.play more := by
  have hcrc : (u.play more).withCrc u.crc = u.play more := by rw [← play_withCrc, withCrc_self]
  simpa [State.rxGot, rxCmdsFrom, rxBytes, rxCrcFrom] using hcrc

/-- The CRC of a message starts with its command word (R202, R304). -/
theorem commanded_crc (u : State) (a : BusAddr) (c : Byte) (rnw : Bool) :
    (u.commanded a c rnw).crc = crc5Word 0x1F#5 (cmdWord a c rnw) := rfl

/-- Where a received CRC lies (R147). -/
theorem rxCrc_eq (x : Word32) : rxCrc x = x.extractLsb' 0 5 := rfl

/-- Reading word `n` behind the words before it. -/
theorem ddrRxCmds_succ (n : Nat) :
    ddrRxCmds (n + 1) = ddrRxCmds n ++ if n = 0 then [CpCmd.dr 2, .dr 18] else [CpCmd.dr 12, .dr 8] := by
  simp [ddrRxCmds, List.range_succ]

/-- A full buffer leaves the trailing CRC to judge, where the target sends one (R322). -/
theorem termStatus_of_full (hs : s.Runs) (hx : ∀ k, x k = s.answer (s.enterAnswers + k)) :
    termStatus ((s.ddrStart.commanded a c true).rxGot x 0 n []) ⟨.ok, n, false⟩ =
      if s.ddrCfg.crcEt = true ∧
          (x (2 * n)).extractLsb' 0 5 ≠ rxCrcThrough x (crc5Word 0x1F#5 (cmdWord a c true)) n then .ddrCrcWrong
      else .ok := by
  obtain ⟨-, -, -, hcfg, -⟩ := start_ddr hs
  have hcrc : ((s.ddrStart.commanded a c true).rxGot x 0 n []).crc =
      rxCrcThrough x (crc5Word 0x1F#5 (cmdWord a c true)) n := rxCrcFrom_zero x _ n
  simp only [termStatus, rxGot_ddrCfg, commanded_ddrCfg, hcfg, rxGot_answer, commanded_answer, ← hx, Nat.add_zero,
    rxCrc_eq, hcrc, true_and]

/-- A preamble whose first slot is low announces neither a word nor a CRC word (R321). -/
theorem preamble_undefined {y : Word32} (h : y.getLsbD 10 = false) :
    y.extractLsb' 10 2 ≠ 0b11#2 ∧ y.extractLsb' 10 2 ≠ 0b01#2 := by
  have hbit : (y.extractLsb' 10 2).getLsbD 0 = false := by simpa using h
  constructor <;> intro e <;> rw [e] at hbit <;> exact absurd hbit (by decide)

/-- RXB and its count with the bytes of the first `n` received words stored, none of them where `n` is 0 (R72, R76). -/
structure State.RxbStored (s t : State) (x : Nat → Word32) (n : Nat) : Prop where
  rxb : t.rxb = s.rxb.writeList 0 (rxBytes x 0 n)
  valid : t.rxbValid = if rxBytes x 0 n = [] then s.rxbValid else 0 + (rxBytes x 0 n).length

theorem State.RxbStored.same (h : s.RxbStored t x 0) : s.RxbSame t := ⟨h.rxb, h.valid⟩

theorem State.RxbStored.holds (hs : s.Runs) (h1 : 1 ≤ n) (h : s.RxbStored t x n) :
    s.RxbHolds t (2 * n) (wordsByte (rxData x)) := rxHolds hs h1 h.rxb h.valid

/-- What RXB reads then, whether or not a word was stored. -/
theorem State.RxbStored.read (hs : s.Runs) (h : s.RxbStored t x n) :
    (∀ k, k < 2 * n → t.rxb.read k = wordsByte (rxData x) k) ∧ ∀ k, 2 * n ≤ k → t.rxb.read k = s.rxb.read k := by
  have hlen : (rxBytes x 0 n).length = 2 * n := by simp [rxBytes]
  refine ⟨fun k hk => ?_, fun k hk => ?_⟩
  · rw [h.rxb, Memory.read_writeList _ hs.ready.rxbWf, dif_pos (by omega)]
    simp [rxBytes]
  · rw [h.rxb, Memory.read_writeList _ hs.ready.rxbWf, dif_neg (by omega)]

/-- `rxGot_ends` where the CRC is that of the words stored. -/
theorem words_end {more more' : List CpCmd} {st : Status} {k : Nat} (hs : s.Runs)
    (ht : t.SettlesTo ((((s.ddrStart.commanded a c true).rxGot x 0 n more).play more').closed fwr st k)) :
    s.DdrEnds t ([cmdFrame (cmdWord a c true)] ++ ddrRxCmds n ++ more ++ more' ++ [closeCmd fwr st]) st k
        (closeMode fwr st) ∧ s.RxbStored t x n := by
  rw [← withCrc_self (State.rxGot ..)] at ht
  obtain ⟨hends, hrxb, hvalid⟩ := rxGot_ends hs ht
  exact ⟨hends, hrxb, hvalid⟩

/-- The end of a read that failed behind `n` good words: the trailing CRC is not judged (R323). -/
theorem failed_ends {more : List CpCmd} {y : BitVec 5} {st : Status} (hs : s.Runs) (hok : st ≠ .ok)
    (hnack : st ≠ .nakDdr)
    (ht : t.SettlesTo (((((s.ddrStart.commanded a c true).rxGot x 0 n more).withCrc y).play
      (termCmds s.ddrCfg.crcEt ⟨st, n, false⟩)).closed fwr (termStatus w ⟨st, n, false⟩) n)) :
    s.DdrEnds t ([cmdFrame (cmdWord a c true)] ++ ddrRxCmds n ++ more ++ ddrTermCmds s.ddrCfg.crcEt ++ [.hexit]) st n
        .sdr ∧ s.RxbStored t x n := by
  rw [termCmds_of_not_seen _ hnack, termStatus_eq_st _ hok] at ht
  obtain ⟨hends, hrxb, hvalid⟩ := rxGot_ends hs ht
  rw [closeCmd_of_ne_ok hok, closeMode_of_ne_ok hok] at hends
  exact ⟨hends, hrxb, hvalid⟩

end read

/-! ## DDR_READ (R320 to R323) -/

/-- Settles O54: the message ends behind the NACK with nothing stored. -/
theorem ddrReadNacked : Obligations.DdrReadNacked := by
  intro s a c fwr lb hs he h1 hlb hnack
  obtain ⟨t, v, hnext, ⟨r, w, ⟨-, rfl, rfl⟩ | ⟨hack, -⟩, rfl⟩, ht⟩ := exec_ddrRead_ends hs he a c fwr h1 hlb
  · rw [← rxGot_zero (s.ddrStart.commanded a c true) s.answer, termCmds_of_nack,
      termStatus_eq_st _ (by decide)] at ht
    obtain ⟨hends, hrxb⟩ := words_end hs ht
    rw [closeCmd_of_ne_ok (by decide), closeMode_of_ne_ok (by decide)] at hends
    exact ⟨t, hnext, hends, hrxb.same⟩
  · rw [commanded_answer, Nat.add_zero] at hack
    exact absurd (hack.symm.trans hnack) (by decide)

/-- Settles O55: preamble 01 makes the CRC word the one end, and no termination follows it. -/
theorem ddrReadEndsWithCrc : Obligations.DdrReadEndsWithCrc := by
  intro s a c fwr lb n x st hs he h1 hn hlb hx hint hpre hst
  have hno : ¬ rxComes x n := not_rxComes_of_crcWord h1 hpre
  obtain ⟨t, r, w, hnext, hstops, ht⟩ :=
    exec_ddrRead_stops hs he a c fwr (by omega) hlb hx (hint 0 h1).1 hn.le hint (.inr (.inl hno))
  cases hstops with
  | full hfull => omega
  | preamble _ _ _ hcrc => exact absurd hpre hcrc
  | parity _ hcomes _ => exact absurd hcomes hno
  | crcWord =>
    rw [termCmds_of_seen, termStatus_of_seen, rxCrcFrom_zero, commanded_crc, rxCrc_eq, ← hst] at ht
    obtain ⟨hends, hrxb⟩ := words_end hs ht
    exact ⟨t, hnext, by simpa [List.append_assoc] using hends, hrxb.holds hs h1⟩

/-- Settles O56: with the buffer full the controller terminates, and a trailing CRC is judged. -/
theorem ddrReadFills : Obligations.DdrReadFills := by
  intro s a c fwr lb x st hs he h1 hlb hx hint hst
  obtain ⟨t, r, w, hnext, hstops, ht⟩ :=
    exec_ddrRead_stops hs he a c fwr h1 hlb hx (hint 0 h1).1 le_rfl hint (.inl rfl)
  cases hstops with
  | crcWord hlt | preamble hlt | parity hlt => exact absurd hlt (Nat.lt_irrefl _)
  | full =>
    rw [termCmds_of_not_seen _ (by decide), termStatus_of_full hs hx, ← hst] at ht
    obtain ⟨hends, hrxb⟩ := words_end hs ht
    exact ⟨t, hnext, by simpa [List.append_assoc] using hends, hrxb.holds hs h1⟩

/-- Settles O57: the bad word is the one end, its status is no Ok, and so no CRC is judged. -/
theorem ddrReadFails : Obligations.DdrReadFails := by
  intro s a c fwr lb n x hs he hn hlb hx hint
  refine ⟨fun h1 hbit => ?_, fun hcomes hbad => ?_⟩
  · obtain ⟨hdata, hcrc⟩ := preamble_undefined hbit
    obtain ⟨t, r, w, hnext, hstops, ht⟩ := exec_ddrRead_stops hs he a c fwr (by omega) hlb hx (hint 0 h1).1 hn.le hint
      (.inr (.inl (not_rxComes_of_preamble h1 hdata)))
    cases hstops with
    | full hfull => omega
    | crcWord _ _ hpre => exact absurd hpre hcrc
    | parity _ hcomes _ => exact absurd hcomes (not_rxComes_of_preamble h1 hdata)
    | preamble =>
      obtain ⟨hends, hrxb⟩ := failed_ends hs (by decide) (by decide) ht
      exact ⟨t, hnext, hends, hrxb.holds hs h1⟩
  · have hparity : rxParityOk (rxBits x n) = false := decide_eq_false hbad
    have hack : rxComes x 0 := by
      obtain rfl | hpos := Nat.eq_zero_or_pos n
      · exact hcomes
      · exact (hint 0 hpos).1
    obtain ⟨t, r, w, hnext, hstops, ht⟩ := exec_ddrRead_stops hs he a c fwr (by omega) hlb hx hack hn.le hint
      (.inr (.inr hparity))
    cases hstops with
    | full hfull => omega
    | crcWord _ hpos hpre => exact absurd hcomes (not_rxComes_of_crcWord hpos hpre)
    | preamble _ hpos hdata _ => exact absurd hcomes (not_rxComes_of_preamble hpos hdata)
    | parity =>
      obtain ⟨hends, hrxb⟩ := failed_ends hs (by decide) (by decide) ht
      rw [ddrRxCmds_succ, ← List.append_assoc]
      exact ⟨t, hnext, hends, hrxb.read hs⟩

end Sys2Proof.Machine
end

section
namespace Sys2Proof.Machine

/-! ## TARGET_RESET (R353) -/

section targetReset
variable {s t v : State}

/-- A state is the one it settles to, but for the pace, the budget and the allowance of unchecked puts. -/
theorem State.SettlesTo.exists_eq (h : t.SettlesTo v) :
    ∃ pace budget left, t = { v with cpPace := pace, cpBudget := budget, uncheckedLeft := left } :=
  ⟨t.cpPace, t.cpBudget, t.uncheckedLeft, by rw [h.eq]⟩

/-- The settled state in which TARGET_RESET drives its waveform, the SDR program loaded (R353). -/
def State.sdrLoaded (s : State) : State := if s.settle.mode = .ddr then s.settle.switched .sdr else s.settle

theorem sdrLoaded_of_ddr (h : s.mode = .ddr) : s.sdrLoaded = s.settle.switched .sdr := if_pos h

theorem sdrLoaded_of_sdr (h : s.mode = .sdr) : s.sdrLoaded = s.settle :=
  if_neg (show s.mode ≠ .ddr by rw [h]; decide)

/-- The load touches MODE, the program and SAMPLE_W only (R170). -/
theorem sdrLoaded_field {α : Type} (g : State → α) (h : ∀ x : State, g (x.switched .sdr) = g x) :
    g s.sdrLoaded = g s.settle := by
  unfold State.sdrLoaded
  split
  · exact h _
  · rfl

@[simp] theorem sdrLoaded_mode : s.sdrLoaded.mode = .sdr := by
  cases hm : s.mode with
  | ddr => rw [sdrLoaded_of_ddr hm]; rfl
  | sdr => rw [sdrLoaded_of_sdr hm]; exact hm

theorem sdrLoaded_cpProg (hr : s.Ready) : s.sdrLoaded.cpProg = .sdr := by
  cases hm : s.mode with
  | ddr => rw [sdrLoaded_of_ddr hm]; rfl
  | sdr => rw [sdrLoaded_of_sdr hm]; exact hr.prog.trans hm

theorem sdrLoaded_sampleW (s : State) : s.sdrLoaded.sampleW = if s.mode = .ddr then none else s.sampleW := by
  cases hm : s.mode with
  | ddr => rw [sdrLoaded_of_ddr hm]; rfl
  | sdr => rw [sdrLoaded_of_sdr hm]; rfl

@[simp] theorem sdrLoaded_arbpB : s.sdrLoaded.arbpB = s.arbpB := sdrLoaded_field State.arbpB fun _ => rfl
@[simp] theorem sdrLoaded_crc : s.sdrLoaded.crc = s.crc := sdrLoaded_field State.crc fun _ => rfl
@[simp] theorem sdrLoaded_answer : s.sdrLoaded.answer = s.answer := sdrLoaded_field State.answer fun _ => rfl

theorem sdrLoaded_busFrame (s : State) : s.BusFrame s.sdrLoaded := by
  unfold State.sdrLoaded
  split <;> constructor <;> rfl

theorem sdrLoaded_rxbSame (s : State) : s.RxbSame s.sdrLoaded := by
  unfold State.sdrLoaded
  split <;> constructor <;> rfl

theorem sdrLoaded_notSensed (s : State) : s.NotSensed s.sdrLoaded := by
  unfold State.sdrLoaded
  split <;> constructor <;> rfl

/-- From a quiet state the load drives nothing (R160). -/
theorem sdrLoaded_wire (hr : s.Ready) : s.sdrLoaded.wire = s.wire := by
  rw [sdrLoaded_field State.wire fun _ => rfl, hr.quiet.settle]

theorem sdrLoaded_bus (hr : s.Ready) : s.sdrLoaded.bus = s.bus := by
  rw [sdrLoaded_field State.bus fun _ => rfl, hr.quiet.settle]

theorem sdrLoaded_trace (s : State) : s.sdrLoaded.trace = s.trace := sdrLoaded_field State.trace fun _ => rfl

/-- The commands played on the loaded state are all the operation drove, whatever its end did to the pending byte. -/
theorem sdrLoaded_drove {cs : List CpCmd} {st : Status} {n : Nat} (hr : s.Ready)
    (h : t.SettlesTo ({ s.sdrLoaded.play cs with arbpV := false }.finished st n)) : s.Drove t cs := by
  refine h.drove ?_ ?_ ?_ fun k => ?_
  · exact (play_trace _ cs).trans (by rw [sdrLoaded_answer, sdrLoaded_trace])
  · exact (play_wire _ cs).trans (by rw [sdrLoaded_wire hr])
  · exact (play_bus _ cs).trans (by rw [sdrLoaded_bus hr])
  · exact (play_answer _ cs k).trans (by rw [sdrLoaded_answer])

/-- TARGET_RESET comes to an end in every running state: the waveform is played on the loaded state and the pending byte
is discarded (R353). -/
theorem exec_targetReset_settles (hs : s.Runs) :
    ∃ t, exec .targetReset s = .next t ∧ t.SettlesTo ({ s.sdrLoaded.play [.trst] with arbpV := false }.finished .ok 0) := by
  obtain ⟨t, _, hnext, rfl, ht⟩ := outcome_settles (targetResetBody_ends hs.follows)
  exact ⟨t, hnext, ht⟩

end targetReset

/-- Settles O59: neither the load, the waveform nor the end touches what the statement keeps. -/
theorem targetResetCompletes : Obligations.TargetResetCompletes := by
  intro s hs
  obtain ⟨t, hnext, ht⟩ := exec_targetReset_settles hs
  refine ⟨t, hnext, ht.finished, sdrLoaded_drove hs.ready ht, ?_⟩
  obtain ⟨pace, budget, left, rfl⟩ := ht.exists_eq
  have frame := sdrLoaded_busFrame s
  have rxb := sdrLoaded_rxbSame s
  have sensed := sdrLoaded_notSensed s
  refine ⟨?_, ?_, rfl, ?_, ?_, ?_, ?_, ?_, ?_⟩
  · simp
  · simp [sdrLoaded_cpProg hs.ready]
  · simp
  · simp
  · exact (play_sampleW _ [.trst]).trans (sdrLoaded_sampleW s)
  · constructor <;> simp [frame.ddrCfg, frame.clkKhz, frame.driveMa, frame.sdrTab, frame.desc0, frame.desc1, frame.txb,
      frame.par, frame.host, frame.hostData]
  · constructor <;> simp [rxb.rxb, rxb.valid]
  · constructor <;> simp [sensed.sdaIn, sensed.sdaDraws]

/-! ## The configuration operations (R350 to R352) -/

theorem clkOutside_iff (khz : Nat) : khz < clkMinKhz ∨ clkMaxKhz < khz ↔ ¬(49 ≤ khz ∧ khz ≤ 12500) := by
  unfold clkMinKhz clkMaxKhz
  omega

theorem driveLegal_iff (ma : Nat) : driveLegal ma = true ↔ ma ∈ [2, 4, 8, 12] := by
  simp [driveLegal, or_assoc]

/-- Settles O58: each ends at once, SET_CLOCK and SET_DRIVE on one of two sides of their check. -/
theorem configurationCompletes : Obligations.ConfigurationCompletes := by
  refine fun s => ⟨fun ack et crcet => rfl, fun khz => ?_, fun ma => ?_⟩
  · by_cases h : 49 ≤ khz ∧ khz ≤ 12500
    · rw [if_pos h]
      exact exec_of_done (if_neg (by rwa [clkOutside_iff, not_not]))
    · rw [if_neg h]
      exact exec_of_done (if_pos ((clkOutside_iff khz).2 h))
  · by_cases h : ma ∈ [2, 4, 8, 12]
    · rw [if_pos h]
      exact exec_of_done (if_pos ((driveLegal_iff ma).2 h))
    · rw [if_neg h]
      exact exec_of_done (if_neg (by rwa [driveLegal_iff]))

end Sys2Proof.Machine
end

section
namespace Sys2Proof.Machine

/-! ## Where an operation leaves the bus (R403, R426) -/

section driven
variable {i : Instr} {s t u v : State} {st : Status} {n : Nat} {cs : List CpCmd} {bs : List Byte}

theorem State.Quiet.settle_wire (h : s.Quiet) : s.settle.wire = s.wire := by rw [h.settle]

theorem State.Quiet.settle_bus (h : s.Quiet) : s.settle.bus = s.bus := by rw [h.settle]

/-- The summary's rule for a driven bus, its status read off the result word. -/
theorem Ended.bus_of_wire_ne (h : Ended i u v st n cs bs) (hw : v.wire ≠ u.wire) :
    v.bus = if v.mode = .ddr then .hdrDdr else if v.res0 = resWord .ibi 0 then .sdrFrame else .idle := by
  have hcs : cs ≠ [] := by
    rintro rfl
    exact hw (h.wire.trans (List.append_nil _))
  simp only [h.closed hcs, busRule, h.res0_iff (.inr rfl)]

end driven

/-- Settles O22: between two operations nothing is queued, so what was driven is the summary's list of commands, and its
last one leaves the bus where R426 says. -/
theorem busAfter : Obligations.BusAfter := by
  intro i s t hr h hw
  obtain ⟨⟨st, n, cs, bs, hended⟩, hquiet⟩ := exec_next hr h
  rw [← hquiet.settle_wire, ← hr.quiet.settle_wire] at hw
  exact hquiet.settle_bus.symm.trans (hended.bus_of_wire_ne hw)

/-! ## A coprocessor that hangs (R408) -/

section hangs
variable {α β : Type} {r : Run α} {k : α → State → Run β} {Q : State → Prop} {s t : State} {w : Run Unit}
  {l : Unit → State → Run β}

/-- The engine waits for ever. -/
def Run.Hangs (r : Run α) : Prop := ∃ t, r = .stuck t

theorem Run.Hangs.bind (h : r.Hangs) : (r.bind k).Hangs := by
  obtain ⟨t, rfl⟩ := h
  exact ⟨t, rfl⟩

/-- A wait hangs itself, or what comes after it does. -/
theorem Run.Waits.hangs {L : Bool} (h : w.Waits L Q) (hl : ∀ s, Q s → (l () s).Hangs) : (w.bind l).Hangs := by
  obtain ⟨⟨t, rfl⟩, -⟩ | ⟨s, rfl, hs⟩ := h
  · exact ⟨t, rfl⟩
  · exact hl s hs

theorem exec_of_hangs {i : Instr} (h : (runOf i s).Hangs) : exec i s = .fault .stuck := by
  obtain ⟨t, ht⟩ := h
  rw [exec_run, ht]
  rfl

end hangs

section budget
variable {s t : State} {c : CpCmd} {e : CmdWord} {es q : List CmdWord} {p : Mode} {r : Bool} {b N m n : Nat}

theorem cpStep_of_spent (hb : s.cpBudget = some 0) (hq : s.cmdq ≠ []) : cpStep s = .stuck s := by
  unfold cpStep
  cases hc : s.cmdq with
  | nil => exact absurd hc hq
  | cons e q => simp [hb]

theorem cpStep_of_budget (hb : s.cpBudget = some (b + 1)) (hq : s.cmdq = e :: q) :
    cpStep s = cpTake e { s with cmdq := q, cpBudget := some b, cpAtStart := false } := by
  simp [cpStep, hq, hb]

/-- The coprocessor takes `N` words in all, and `r` says whether it then returns to its start address. Of the `n` words
put so far, none of which completes a sampling command, it has taken those that are no longer queued. -/
structure State.Budgeted (p : Mode) (r : Bool) (N n : Nat) (s : State) : Prop where
  prog : s.cpProg = p
  returns : s.cpReturns = r
  rspq : s.rspq = []
  unsampled : Unsampled s.cmdq
  taken : ∃ k, s.cpBudget = some (N - k) ∧ k + s.cmdq.length = n ∧ (k = 0 ∨ s.cpAtStart = false)

/-- Between two operations nothing is queued. -/
theorem State.Ready.budgeted (h : s.Ready) (hb : s.cpBudget = some N) : s.Budgeted s.mode s.cpReturns N 0 :=
  ⟨h.prog, rfl, h.quiet.rspq, by simp [Unsampled, h.quiet.cmdq], 0, hb, by simp [h.quiet.cmdq], .inl rfl⟩

theorem State.Budgeted.dropSda (h : s.Budgeted p r N n) : (dropSda s).Budgeted p r N n :=
  ⟨h.prog, h.returns, h.rspq, h.unsampled, h.taken⟩

/-- A coprocessor that takes no word at all has its budget spent. -/
theorem State.Budgeted.spent (h : s.Budgeted p r 0 n) : s.cpBudget = some 0 := by
  obtain ⟨k, hb, -⟩ := h.taken
  rwa [Nat.zero_sub] at hb

/-- A word put that completes no sampling command. -/
theorem State.Budgeted.push (h : s.Budgeted p r N n) (he : e.last = true → e.cmd.width = none) :
    State.Budgeted p r N (n + 1) { s with cmdq := s.cmdq ++ [e], uncheckedLeft := 0 } := by
  obtain ⟨k, hb, hn, hstart⟩ := h.taken
  refine ⟨h.prog, h.returns, h.rspq, fun d hd => ?_, k, hb, by simp [← hn, Nat.add_assoc], hstart⟩
  obtain hd | hd := List.mem_append.1 hd
  · exact h.unsampled d hd
  · rwa [List.mem_singleton.1 hd]

/-- A step on a queued word moves it from the queue to the words taken, or hangs. -/
theorem cpStep_budgeted (h : s.Budgeted p r N n) : (cpStep s).Waits false (State.Budgeted p r N n) := by
  cases hq : s.cmdq with
  | nil => exact .inr ⟨s, by rw [cpStep, hq], h⟩
  | cons e q =>
    obtain ⟨k, hb, hn, -⟩ := h.taken
    obtain ⟨hhead, htail⟩ := List.forall_mem_cons.1 (hq ▸ h.unsampled)
    cases hleft : N - k with
    | zero => exact .inl ⟨⟨s, cpStep_of_spent (hleft ▸ hb) (by simp [hq])⟩, rfl⟩
    | succ b =>
      have hb' : b = N - (k + 1) := by omega
      have hn' : k + 1 + q.length = n := by rw [hq, List.length_cons] at hn; omega
      refine .inr ⟨_, (cpStep_of_budget (hleft ▸ hb) hq).trans (cpTake_none hhead _), ?_⟩
      unfold State.taken
      split <;> exact ⟨h.prog, h.returns, h.rspq, htail, k + 1, congrArg some hb', hn', .inr rfl⟩

theorem cpRun_budgeted (m : Nat) (h : s.Budgeted p r N n) : (cpRun m s).Waits false (State.Budgeted p r N n) := by
  induction m generalizing s with
  | zero => exact .inr ⟨s, rfl, h⟩
  | succ m ih => exact (cpStep_budgeted h).bind fun _ h => ih h

theorem cpFree_budgeted (m : Nat) (h : s.Budgeted p r N n) : (cpFree m s).Waits false (State.Budgeted p r N n) := by
  induction m generalizing s with
  | zero => exact .inr ⟨s, rfl, h⟩
  | succ m ih =>
    rw [cpFree]
    split
    · exact .inr ⟨s, rfl, h⟩
    · exact (cpStep_budgeted h).bind fun _ h => ih h

theorem cpAlong_budgeted (h : s.Budgeted p r N n) : (cpAlong s).Waits false (State.Budgeted p r N n) := by
  unfold cpAlong
  split
  · exact .inr ⟨s, rfl, h⟩
  · exact cpFree_budgeted _ ⟨h.prog, h.returns, h.rspq, h.unsampled, h.taken⟩

theorem waitNotFull_budgeted (h : s.Budgeted p r N n) : (waitNotFull s).Waits false (State.Budgeted p r N n) := by
  unfold waitNotFull
  split
  · exact .inr ⟨s, rfl, h⟩
  · exact cpRun_budgeted _ h

theorem putWord_budgeted (e : CmdWord) (h : s.Budgeted p r N n) :
    (putWord e s).Waits false fun t =>
      ∃ s1, State.Budgeted p r N n s1 ∧ t = { s1 with cmdq := s1.cmdq ++ [e], uncheckedLeft := 0 } :=
  (cpAlong_budgeted h).bind fun _ h => (waitNotFull_budgeted h).bind fun s1 h => .inr ⟨_, rfl, s1, h, rfl⟩

theorem putWords_budgeted (hes : Unsampled es) (h : s.Budgeted p r N n) :
    (putWords es s).Waits false (State.Budgeted p r N (n + es.length)) := by
  induction es generalizing s n with
  | nil => exact .inr ⟨s, rfl, h⟩
  | cons e es ih =>
    obtain ⟨hhead, htail⟩ := List.forall_mem_cons.1 hes
    refine (putWord_budgeted e h).bind fun t ht => ?_
    obtain ⟨s1, h1, rfl⟩ := ht
    rw [List.length_cons, Nat.add_comm es.length, ← Nat.add_assoc]
    exact ih htail (h1.push hhead)

/-- `put` of a command appends its last word once the words before it are put (R153). -/
theorem put_budgeted (h : s.Budgeted p r N n) (hc : c.program = p) :
    (put c s).Waits false fun t => ∃ s1 m w, State.Budgeted p r N m s1 ∧ m + 1 = n + (cmdWords s.par c).length ∧
      t = { s1 with cmdq := s1.cmdq ++ [⟨c, w, true⟩], uncheckedLeft := 0 } := by
  obtain ⟨x, xs, hx⟩ := cpEncode_cons Config.cpEncodePlain s.par.encodeRows c
  obtain ⟨es, w, hw, hl⟩ := tagWords_split c x xs
  have hwords : cmdWords s.par c = es ++ [⟨c, w, true⟩] := by rw [cmdWords, hx, hw]
  have hes : Unsampled es := fun e he hlast => by simp [hl e he] at hlast
  rw [put, if_pos (hc.trans h.prog.symm), hwords, putWords_append]
  refine (putWords_budgeted hes h).bind fun s1 h1 => (putWord_budgeted ⟨c, w, true⟩ h1).bind fun t ht => ?_
  obtain ⟨s2, h2, rfl⟩ := ht
  exact .inr ⟨_, rfl, s2, _, w, h2, by simp [Nat.add_assoc], rfl⟩

theorem emit_budgeted (h : s.Budgeted p r N n) (hc : c.program = p) (hw : c.width = none) :
    (emit c s).Waits false (State.Budgeted p r N (n + (cmdWords s.par c).length)) := by
  refine (put_budgeted h hc).bind fun t ht => ?_
  obtain ⟨s1, m, w, h1, hm, rfl⟩ := ht
  have h2 := h1.push (e := ⟨c, w, true⟩) fun _ => hw
  rw [hm] at h2
  exact .inr ⟨_, rfl, h2.prog, h2.returns, h2.rspq, h2.unsampled, h2.taken⟩

theorem needWidth_budgeted (h : s.Budgeted p r N n) (c : CpCmd) : (needWidth c s).Budgeted p r N n := by
  unfold needWidth
  split
  · exact h
  · split
    · exact h
    · exact ⟨h.prog, h.returns, h.rspq, h.unsampled, h.taken⟩

/-- The engine waits for ever for the response of a coprocessor that takes nothing (R154). -/
theorem xfer_hangs (h : s.Budgeted p r 0 n) (hc : c.program = p) : (xfer c s).Hangs := by
  refine (put_budgeted (needWidth_budgeted h c) hc).hangs fun t ht => ?_
  obtain ⟨s1, m, w, h1, -, rfl⟩ := ht
  have hstep := cpStep_of_spent (s := { s1 with cmdq := s1.cmdq ++ [⟨c, w, true⟩], uncheckedLeft := 0 }) h1.spent
    (by simp)
  rw [collect, List.length_append, List.length_singleton, awaitResponse, if_pos h1.rspq, hstep]
  exact ⟨_, rfl⟩

/-- START is put, but the first sample of the header never comes (R172, R173). -/
theorem sdrPrologue_hangs (h : s.Budgeted .sdr r 0 n) : (sdrPrologue s).Hangs :=
  (emit_budgeted h rfl rfl).hangs fun _ h => (xfer_hangs h rfl).bind.bind

theorem waitUntilQueueEmpty_budgeted (h : s.Budgeted p r N n) :
    (waitUntilQueueEmpty s).Waits false (State.Budgeted p r N n) :=
  (cpRun_budgeted _ h).bind fun _ h => .inr ⟨_, rfl, h.prog, h.returns, h.rspq, h.unsampled, h.taken⟩

/-- Every word of the budget has been taken, and the coprocessor does not return to its start address (R157). -/
theorem waitPcStart_hangs (h : s.Budgeted p false N N) (hq : s.cmdq = []) (hN : 0 < N) : (waitPcStart s).Hangs := by
  obtain ⟨k, hb, hk, hstart⟩ := h.taken
  obtain rfl : k = N := by simpa [hq] using hk
  have haway : s.cpAtStart = false := hstart.resolve_left (Nat.ne_of_gt hN)
  rw [Nat.sub_self] at hb
  exact ⟨s, if_pos ⟨haway, hb, h.returns⟩⟩

/-- The queue may run empty, but the wait after it does not end (R158, R159). -/
theorem drain_hangs (h : s.Budgeted p false N N) (hN : 0 < N) : (drain s).Hangs := by
  obtain ⟨⟨t, ht⟩, -⟩ | ⟨t, ht, h1⟩ := waitUntilQueueEmpty_budgeted h
  · exact ⟨t, by rw [drain, ht, Run.bind]⟩
  · obtain ⟨-, hempty⟩ := waitUntilQueueEmpty_ok ht
    rw [drain, ht]
    exact waitPcStart_hangs h1 hempty hN

theorem cmdWords_length_pos (par : Params) (c : CpCmd) : 0 < (cmdWords par c).length := by
  obtain ⟨w, ws, h⟩ := cpEncode_cons Config.cpEncodePlain par.encodeRows c
  simp [cmdWords, h]

theorem exec_arbHeaderOnly_stuck (hr : s.Ready) (hf : s.SdrFree) (hb : s.cpBudget = some 0) :
    exec .arbHeaderOnly s = .fault .stuck := by
  obtain ⟨k, hk⟩ := runOf_eq_prologue_bind (i := .arbHeaderOnly) hf rfl rfl
  have hbudget := (hr.budgeted hb).dropSda
  rw [hf.mode] at hbudget
  exact exec_of_hangs (hk ▸ (sdrPrologue_hangs hbudget).bind)

theorem exec_targetReset_stuck (hr : s.Ready) (hm : s.mode = .sdr)
    (hb : s.cpBudget = some (cmdWords s.par .trst).length) (hret : s.cpReturns = false) :
    exec .targetReset s = .fault .stuck := by
  have hbudget := hr.budgeted hb
  rw [hm, hret] at hbudget
  have hbody : (targetResetBody s).Hangs := by
    rw [targetResetBody, if_neg (by simp [hm])]
    refine (emit_budgeted hbudget rfl rfl).hangs fun t ht => ?_
    rw [Nat.zero_add] at ht
    exact (drain_hangs ht (cmdWords_length_pos _ _)).bind
  exact exec_of_hangs hbody

end budget

/-- A restart ends whatever the block is doing (R450). -/
theorem step_of_restart {s : State} {rest : List HostAct} (h : s.host = .restart :: rest) :
    step s = .next (initialise { s with host := rest }) :=
  step_of_host h

/-- Settles O14: an operation has its end or waits (`exec_stuck`), the two hung coprocessors are counted word by word,
and the restart after a stuck submit initialises the block whatever it was doing. -/
theorem onlyAHungCoprocessorStops : Obligations.OnlyAHungCoprocessorStops := by
  refine ⟨fun i s hr => ?_, fun s hr hf hb => exec_arbHeaderOnly_stuck hr hf hb,
    fun s hr hm hb hret => exec_targetReset_stuck hr hm hb hret, fun s w rest i hi hb hs hd hx => ?_⟩
  · exact (exec_stuck hr).imp_left fun ⟨t, ht⟩ => ⟨t, ht, exec_ready hr ht⟩
  · obtain ⟨-, hstuck⟩ := stepRunsTheDecodedOperation s w (.restart :: rest) i hb hs hd
    obtain ⟨u, hsubmit, hbusy, hhost, -, -, -, -, hpar⟩ := hstuck hi hx
    have hlawful : { u with host := rest }.par.lawful = true := (congrArg Params.lawful hpar).trans hi.sound.par
    exact ⟨u, _, hsubmit, hbusy, step_of_restart hhost, initialise_ready hlawful, rfl, rfl, rfl⟩

end Sys2Proof.Machine
end

section
namespace Sys2Proof.Machine

/-! ## Reset and restart (R450 to R452) -/

/-- Reset is what a restart makes of it: a reset block has no fate to come, so its coprocessor stays live. -/
theorem initialise_reset : initialise State.reset = State.reset := rfl

theorem reset_ready : State.reset.Ready := initialise_reset ▸ initialise_ready params_lawful

/-- An idle block with no access to come waits (R452). -/
theorem step_of_idle {s : State} (hs : s.host = []) (hb : s.busy = false) : step s = .next s :=
  (step_of_noHost hs).trans (noAccess_next_iff.2 ⟨hb, rfl⟩)

@[simp] theorem initialise_answer (s : State) (k : Nat) : (initialise s).answer k = s.answer k := rfl
@[simp] theorem initialise_sda (s : State) : (initialise s).sda = s.sda := rfl

/-- A restarted coprocessor is live unless an input says otherwise. -/
theorem initialise_live {s : State} (h : s.cpFates = []) : (initialise s).Live := by
  rw [State.Live, initialise_cpBudget, State.nextFate, h]
  rfl

/-- Settles O11: reset is ready for an operation, which is more than the invariant asks. -/
theorem resetInv : Obligations.ResetInv := reset_ready.inv

/-- Settles O9: the values are read off `State.reset`; the parameters are lawful by the ranges they are drawn from, the
table is R220's entry by entry, and an idle block waits. -/
theorem resetValues : Obligations.ResetValues :=
  ⟨rfl, rfl, rfl, rfl, rfl, params_lawful, sdrTable_get, rfl, rfl, rfl, rfl, rfl, rfl, rfl, rfl, step_of_idle rfl rfl⟩

/-- Settles O10: the step is `initialise`, whatever the state, which keeps the inputs and leaves the coprocessor live
where no fate is to come. -/
theorem restartInitialises : Obligations.RestartInitialises := by
  intro s rest h
  have hanswer : ∀ k, { s with host := rest }.answer k = s.answer k := fun _ => rfl
  have hsda : { s with host := rest }.sda = s.sda := rfl
  refine ⟨_, step_of_restart h, ?_⟩
  simpa [hanswer, hsda] using fun hfates => initialise_live (s := { s with host := rest }) hfates

end Sys2Proof.Machine
end
